-- ==== Sys2Proof/Word.lean ====
section
/-! DEFINITION. The words of the SC-440 that every other file uses: bytes and check words, the two console
links, the four winches and what is held once per winch, points and boxes. Plain data; the arithmetic over it
stands in `Machine/Geometry.lean`, the byte order in `Machine/Bytes.lean`. -/

namespace Sys2Proof

/-- One byte of a frame. -/
abbrev Byte := BitVec 8

/-- A 16-bit check word (R181). -/
abbrev Word16 := BitVec 16

/-- The two console links (introduction, section 4). -/
inductive Link where
  | operations
  | safety
  deriving DecidableEq, Repr

/-- The four winches; winch `n` is served by drive link `n` (introduction, section 4). -/
inductive Winch where
  | w1 | w2 | w3 | w4
  deriving DecidableEq, Repr

/-- Winch 1 to winch 4, the order in which every rule takes them. -/
def Winch.all : List Winch := [.w1, .w2, .w3, .w4]

/-- The number of a winch, 1 to 4. -/
def Winch.number : Winch → Nat
  | .w1 => 1
  | .w2 => 2
  | .w3 => 3
  | .w4 => 4

/-- The winch with a number, where there is one. -/
def Winch.ofNumber : Nat → Option Winch
  | 1 => some .w1
  | 2 => some .w2
  | 3 => some .w3
  | 4 => some .w4
  | _ => none

/-- What the part holds once for each winch. -/
structure PerWinch (α : Type) where
  w1 : α
  w2 : α
  w3 : α
  w4 : α
  deriving DecidableEq, Repr

namespace PerWinch

/-- The value held for a winch. -/
def get {α : Type} (p : PerWinch α) : Winch → α
  | .w1 => p.w1
  | .w2 => p.w2
  | .w3 => p.w3
  | .w4 => p.w4

/-- Replaces the value held for one winch. -/
def set {α : Type} (p : PerWinch α) (w : Winch) (a : α) : PerWinch α :=
  match w with
  | .w1 => { p with w1 := a }
  | .w2 => { p with w2 := a }
  | .w3 => { p with w3 := a }
  | .w4 => { p with w4 := a }

/-- The value of a rule that is applied to each winch on its own. -/
def of {α : Type} (f : Winch → α) : PerWinch α := ⟨f .w1, f .w2, f .w3, f .w4⟩

/-- The same value for every winch. -/
def all {α : Type} (a : α) : PerWinch α := ⟨a, a, a, a⟩

/-- Winch 1 to winch 4 in order. -/
def toList {α : Type} (p : PerWinch α) : List α := [p.w1, p.w2, p.w3, p.w4]

end PerWinch

/-- A point or a vector: millimetres in requests and records, micrometres in motion (introduction, section 6). -/
structure Vec3 where
  x : Int
  y : Int
  z : Int
  deriving DecidableEq, Repr

/-- The zero vector. -/
def Vec3.zero : Vec3 := ⟨0, 0, 0⟩

/-- Componentwise sum. -/
def Vec3.add (p q : Vec3) : Vec3 := ⟨p.x + q.x, p.y + q.y, p.z + q.z⟩

/-- Componentwise difference. -/
def Vec3.sub (p q : Vec3) : Vec3 := ⟨p.x - q.x, p.y - q.y, p.z - q.z⟩

/-- A box: six integers (introduction, section 6.6). -/
structure Box where
  xlo : Int
  xhi : Int
  ylo : Int
  yhi : Int
  zlo : Int
  zhi : Int
  deriving DecidableEq, Repr

/-- The Span Set's values for one winch (chapter 1, section 1.1). -/
structure WinchSpan where
  anchor : Vec3
  offset : Nat
  lmin : Nat
  lmax : Nat
  compliance : Nat
  scale : Nat
  rate : Nat
  deriving DecidableEq, Repr

/-- The Span Set's values (chapter 1, section 1.1): `w` is the working volume W. -/
structure Span where
  w : Box
  winch : PerWinch WinchSpan
  top : Nat
  accel : Nat
  brakeAccel : Nat
  clearance : Nat
  deriving DecidableEq, Repr

/-- The Limit Set (chapter 1, section 1.2). -/
structure Limits where
  slackLimit : Nat
  overLimit : Nat
  criticalLimit : Nat
  hysteresis : Nat
  following : Nat
  tolerance : Nat
  wear : Nat
  deriving DecidableEq, Repr

end Sys2Proof
end

