-- ==== Sys2Proof/Syntax.lean ====
section
/-! DEFINITION. The commands of the SC-440: one constructor per row of spec/opcode_table.json. A console request carries the
link it arrived on, its tag and its body; a body either has the form section 12.6 gives the kind, and is then its
fields, or has not (R200, item 4). Numbers that a frame carries unsigned are `Nat`, coordinates and components are
`Int`; `WellFormed.lean` bounds them by the widths of R209. -/

namespace Sys2Proof

/-- The body of a frame, as R200 item 4 and R156 see it: of the wrong form, or fields. -/
inductive Body (α : Type) where
  /-- the length is not the kind's, or a marker bit that the layout does not define is set (R200); for a feedback
  frame: the length or the check field is wrong (R156) -/
  | malformed
  | fields (a : α)
  deriving DecidableEq, Repr

/-- A complete request frame (R196): the link it arrived on, its tag and its body. -/
structure Req (α : Type) where
  link : Link
  tag : Byte
  body : Body α
  deriving DecidableEq, Repr

/-- ZONE_ADD (R23, section 12.6, zone body). -/
structure ZoneAddFields where
  id : Nat
  kind : Nat
  box : Box
  cap : Option Nat
  lifetime : Option Nat
  deriving DecidableEq, Repr

/-- ZONE_AMEND (R27, section 12.6, zone body; the kind byte is ignored). -/
structure ZoneAmendFields where
  id : Nat
  box : Option Box
  cap : Option Nat
  lifetime : Option Nat
  revision : Option Byte
  deriving DecidableEq, Repr

/-- ZONE_RETIRE and CUE_RETIRE: an id or number and an optional expected revision. -/
structure RetireFields where
  id : Nat
  revision : Option Byte
  deriving DecidableEq, Repr

/-- CUE_STORE (R58). -/
structure CueStoreFields where
  number : Nat
  target : Option Vec3
  here : Bool
  speed : Option Nat
  deriving DecidableEq, Repr

/-- CUE_AMEND (R61). -/
structure CueAmendFields where
  number : Nat
  target : Option Vec3
  speed : Option Nat
  revision : Option Byte
  deriving DecidableEq, Repr

/-- GOTO, with or without the priority option: a target in millimetres and an optional speed (section 6.4). -/
structure GotoFields where
  target : Vec3
  speed : Option Nat
  deriving DecidableEq, Repr

/-- RECALL, with or without the priority option: a cue number and an optional speed (section 6.4). -/
structure RecallFields where
  cue : Nat
  speed : Option Nat
  deriving DecidableEq, Repr

/-- The scope of a FLUSH frame that is not ALL: QUEUE, or a scope that is neither (R113). -/
inductive FlushScope where
  | queue
  | neither (code : Nat)
  deriving DecidableEq, Repr

/-- WEAR_LOAD: a winch number and 64 counters (R179). -/
structure WearLoadFields where
  winch : Nat
  counters : Vector Nat 64
  deriving DecidableEq, Repr

/-- A feedback frame whose length and check field are right (R156, section 12.6). -/
structure FeedbackFields where
  winch : Nat
  echo : Byte
  measured : Nat
  tension : Nat
  status : Nat
  deriving DecidableEq, Repr

/-- Why a console frame is discarded (the table of R196). -/
inductive DiscardReason where
  | length
  | brk
  | check
  deriving DecidableEq, Repr

/-- The commands. -/
inductive Instr where
  | powerUp
  | resetLine
  | zoneAdd (r : Req ZoneAddFields)
  | zoneAmend (r : Req ZoneAmendFields)
  | zoneRetire (r : Req RetireFields)
  | zoneQuery (r : Req Nat)
  | zoneList (r : Req Unit)
  | pointLookup (r : Req Vec3)
  | cueStore (r : Req CueStoreFields)
  | cueAmend (r : Req CueAmendFields)
  | cueRetire (r : Req RetireFields)
  | cueQuery (r : Req Nat)
  | cueList (r : Req Unit)
  | goto (r : Req GotoFields)
  | gotoPriority (r : Req GotoFields)
  | recall (r : Req RecallFields)
  | recallPriority (r : Req RecallFields)
  | jog (r : Req Vec3)
  | hold (r : Req Unit)
  | resume (r : Req Unit)
  | flushQueue (r : Req FlushScope)
  | flushAll (r : Req Unit)
  | register (r : Req Vec3)
  | release (r : Req Unit)
  | motionQuery (r : Req Unit)
  | setSpan (r : Req Span)
  | setLimits (r : Req Limits)
  | lock (r : Req Unit)
  | configQuery (r : Req Unit)
  | tensionQuery (r : Req Unit)
  | driveQuery (r : Req Unit)
  | faultQuery (r : Req Unit)
  | clearFault (r : Req Unit)
  | wearQuery (r : Req Nat)
  | wearLoad (r : Req WearLoadFields)
  | wearReset (r : Req Nat)
  | clearEvents (r : Req (BitVec 32))
  | setNotices (r : Req (BitVec 32))
  | eventQuery (r : Req Unit)
  /-- a complete frame whose kind is no request kind -/
  | unknownRequest (link : Link) (tag : Byte) (kind : Byte)
  | consoleFrameDiscard (link : Link) (reason : DiscardReason)
  | frameSent (link : Link)
  | stepTimerExpiry
  | holdTimerExpiry
  | oneSecondTimerExpiry
  | deadmanExpiry
  | scrubberTimerExpiry
  | cellVisit
  /-- a feedback frame that arrives on the drive link of a winch -/
  | feedbackFrame (link : Winch) (frame : Body FeedbackFields)
  | stopAsserted
  | stopReleased
  | endOfReset
  deriving DecidableEq, Repr

/-- The kind byte of a request kind (section 12.6), and whether it is reserved to the safety link (R201). -/
inductive RequestKind where
  | zoneAdd | zoneAmend | zoneRetire | zoneQuery | zoneList | pointLookup | cueStore | cueAmend | cueRetire
  | cueQuery | cueList | goto | recall | jog | hold | resume | flush | register | release | motionQuery | setSpan
  | setLimits | lock | configQuery | tensionQuery | driveQuery | faultQuery | clearFault | wearQuery | wearLoad
  | wearReset | clearEvents | setNotices | eventQuery
  deriving DecidableEq, Repr

end Sys2Proof
end

