-- ==== Sys2Proof/Machine/Bytes.lean ====
section
/-! DEFINITION. Bytes and their order (R209), the encodings of single items in answers (R210), the CRC of frames and check words
(R181, R209), and the kind byte of each request kind (section 12.6). -/

namespace Sys2Proof.Machine

/-- The byte of a number, its low eight bits. -/
def byte (n : Nat) : Byte := BitVec.ofNat 8 n

/-- An unsigned 16-bit value, little-endian (R209). -/
def le16 (n : Nat) : List Byte := [byte n, byte (n / 256)]

/-- An unsigned 32-bit value, little-endian (R209). -/
def le32 (n : Nat) : List Byte := [byte n, byte (n / 256), byte (n / 65536), byte (n / 16777216)]

/-- A signed 32-bit value in two's complement, little-endian (R209). -/
def leInt32 (x : Int) : List Byte := le32 (BitVec.ofInt 32 x).toNat

/-- The unsigned byte at an offset. -/
def u8At (b : List Byte) (i : Nat) : Nat := (b.getD i 0).toNat

/-- The unsigned 16-bit value at an offset (R209). -/
def u16At (b : List Byte) (i : Nat) : Nat := u8At b i + 256 * u8At b (i + 1)

/-- The unsigned 32-bit value at an offset (R209). -/
def u32At (b : List Byte) (i : Nat) : Nat := u16At b i + 65536 * u16At b (i + 2)

/-- The signed 32-bit value at an offset (R209). -/
def i32At (b : List Byte) (i : Nat) : Int := (BitVec.ofNat 32 (u32At b i)).toInt

/-- Bit `k` of the byte at an offset: one bit of a marker byte (section 12.6). -/
def markAt (b : List Byte) (i k : Nat) : Bool := (u8At b i).testBit k

/-- A point: three coordinates of 32 bits (R209). -/
def pointBytes (p : Vec3) : List Byte := leInt32 p.x ++ leInt32 p.y ++ leInt32 p.z

/-- The point at an offset. -/
def pointAt (b : List Byte) (i : Nat) : Vec3 := ⟨i32At b i, i32At b (i + 4), i32At b (i + 8)⟩

/-- A box in the order of section 12.6. -/
def boxBytes (b : Box) : List Byte :=
  leInt32 b.xlo ++ leInt32 b.xhi ++ leInt32 b.ylo ++ leInt32 b.yhi ++ leInt32 b.zlo ++ leInt32 b.zhi

/-- The box at an offset. -/
def boxAt (b : List Byte) (i : Nat) : Box :=
  ⟨i32At b i, i32At b (i + 4), i32At b (i + 8), i32At b (i + 12), i32At b (i + 16), i32At b (i + 20)⟩

/-- A yes-or-no item: 1 for yes and 0 for no (R210). -/
def boolByte (b : Bool) : List Byte := [if b then 1 else 0]

/-- An item that may be absent: a byte 1 and the item, or a byte 0 and `width` bytes of zero (R210). -/
def optBytes {α : Type} (width : Nat) (f : α → List Byte) : Option α → List Byte
  | some a => (1 : Byte) :: f a
  | none => (0 : Byte) :: List.replicate width 0

/-- One bit of the CRC-16 with polynomial x^16 + x^12 + x^5 + 1, on the register as a number (R181, R209). -/
def crcBit (c : Nat) : Nat := if c.testBit 15 then ((c * 2) % 65536) ^^^ 0x1021 else c * 2

/-- One byte of the CRC, most significant bit first (R209). -/
def crcByte (c : Nat) (b : Byte) : Nat :=
  crcBit (crcBit (crcBit (crcBit (crcBit (crcBit (crcBit (crcBit (c ^^^ (b.toNat * 256)))))))))

/-- The CRC-16 over some bytes: initial value FFFFh, no final inversion (R209). -/
def crc16 (bs : List Byte) : Word16 := BitVec.ofNat 16 (bs.foldl crcByte 0xFFFF)

/-- The two bytes of a CRC as sent, low byte first (R209). -/
def crcBytes (bs : List Byte) : List Byte := le16 (crc16 bs).toNat

/-- The frame delimiter (sections 9.2 and 12.1). -/
def delimiter : Byte := 0x7E

end Sys2Proof.Machine

namespace Sys2Proof

/-- The kind byte of a request kind (the table of section 12.6). -/
def Machine.kindCode : RequestKind → Byte
  | .zoneAdd => 0x01 | .zoneAmend => 0x02 | .zoneRetire => 0x03 | .zoneQuery => 0x04 | .zoneList => 0x05
  | .pointLookup => 0x06 | .cueStore => 0x07 | .cueAmend => 0x08 | .cueRetire => 0x09 | .cueQuery => 0x0A
  | .cueList => 0x0B | .goto => 0x0C | .recall => 0x0D | .jog => 0x0E | .hold => 0x0F | .resume => 0x10
  | .flush => 0x11 | .register => 0x12 | .release => 0x13 | .motionQuery => 0x14 | .setSpan => 0x15
  | .setLimits => 0x16 | .lock => 0x17 | .configQuery => 0x18 | .tensionQuery => 0x19 | .driveQuery => 0x1A
  | .faultQuery => 0x1B | .clearFault => 0x1C | .wearQuery => 0x1D | .wearLoad => 0x1E | .wearReset => 0x1F
  | .clearEvents => 0x20 | .setNotices => 0x21 | .eventQuery => 0x22

/-- The kind byte is one of the request kinds, 01h to 22h (section 12.6). -/
def Machine.isRequestKind (k : Byte) : Bool := decide (0x01 ≤ k.toNat) && decide (k.toNat ≤ 0x22)

/-- The kinds reserved to the safety link (the table of R201). -/
def Machine.safetyOnly : RequestKind → Bool
  | .release | .lock | .setLimits | .clearFault | .wearLoad | .wearReset => true
  | .zoneAdd | .zoneAmend | .zoneRetire | .zoneQuery | .zoneList | .pointLookup | .cueStore | .cueAmend
  | .cueRetire | .cueQuery | .cueList | .goto | .recall | .jog | .hold | .resume | .flush | .register
  | .motionQuery | .setSpan | .configQuery | .tensionQuery | .driveQuery | .faultQuery | .wearQuery
  | .clearEvents | .setNotices | .eventQuery => false

end Sys2Proof
end

