-- ==== Sys2Proof/WellFormed.lean ====
section
/-! DEFINITION. When a command is well formed: its operands fit the widths of R209, and it is of the row that its
constructor names. -/

namespace Sys2Proof

/-- A number that fits one byte. -/
def fits8 (n : Nat) : Bool := decide (n < 256)
/-- A number that fits 16 bits. -/
def fits16 (n : Nat) : Bool := decide (n < 65536)
/-- A number that fits 32 bits. -/
def fits32 (n : Nat) : Bool := decide (n < 4294967296)
/-- A value that fits a signed 32-bit field. -/
def fitsInt (x : Int) : Bool := decide (-2147483648 ≤ x) && decide (x < 2147483648)
/-- A point whose coordinates fit their fields. -/
def fitsPoint (p : Vec3) : Bool := fitsInt p.x && fitsInt p.y && fitsInt p.z
/-- A box whose coordinates fit their fields. -/
def fitsBox (b : Box) : Bool :=
  fitsInt b.xlo && fitsInt b.xhi && fitsInt b.ylo && fitsInt b.yhi && fitsInt b.zlo && fitsInt b.zhi

/-- The per-winch values of SET_SPAN fit their fields (section 12.6). -/
def WinchSpan.fits (w : WinchSpan) : Bool :=
  fitsPoint w.anchor && fits16 w.offset && fits32 w.lmin && fits32 w.lmax && fits16 w.compliance &&
    fits8 w.scale && fits16 w.rate

/-- The values of SET_SPAN fit their fields (section 12.6). -/
def Span.fits (s : Span) : Bool :=
  fitsBox s.w && s.winch.toList.all WinchSpan.fits && fits16 s.top && fits8 s.accel && fits8 s.brakeAccel &&
    fits16 s.clearance

/-- The values of SET_LIMITS fit their fields (section 12.6). -/
def Limits.fits (l : Limits) : Bool :=
  fits16 l.slackLimit && fits16 l.overLimit && fits16 l.criticalLimit && fits16 l.hysteresis &&
    fits16 l.following && fits16 l.tolerance && fits16 l.wear

/-- A body is malformed, or its fields pass a check. -/
def Body.check {α : Type} (f : α → Bool) : Body α → Bool
  | .malformed => true
  | .fields a => f a

/-- A body has the form of its kind, and its fields pass a check. -/
def Body.formed {α : Type} (f : α → Bool) : Body α → Bool
  | .malformed => false
  | .fields a => f a

/-- Well-formed commands. A frame of kind GOTO, RECALL or FLUSH whose body is malformed has no marker or scope to
read, and is the command of the row without the option (GOTO, RECALL, FLUSH_QUEUE). -/
def Instr.wf : Instr → Bool
  | .powerUp | .resetLine | .stepTimerExpiry | .holdTimerExpiry | .oneSecondTimerExpiry | .deadmanExpiry
  | .scrubberTimerExpiry | .cellVisit | .stopAsserted | .stopReleased | .endOfReset => true
  | .zoneAdd r => r.body.check fun f =>
      fits8 f.id && fits8 f.kind && fitsBox f.box && f.cap.all fits16 && f.lifetime.all fits16
  | .zoneAmend r => r.body.check fun f =>
      fits8 f.id && f.box.all fitsBox && f.cap.all fits16 && f.lifetime.all fits16
  | .zoneRetire r | .cueRetire r => r.body.check fun f => fits8 f.id
  | .zoneQuery r | .cueQuery r | .wearQuery r | .wearReset r => r.body.check fits8
  | .pointLookup r | .register r | .jog r => r.body.check fitsPoint
  | .cueStore r => r.body.check fun f => fits8 f.number && f.target.all fitsPoint && f.speed.all fits16
  | .cueAmend r => r.body.check fun f => fits8 f.number && f.target.all fitsPoint && f.speed.all fits16
  | .goto r => r.body.check fun f => fitsPoint f.target && f.speed.all fits16
  | .gotoPriority r => r.body.formed fun f => fitsPoint f.target && f.speed.all fits16
  | .recall r => r.body.check fun f => fits8 f.cue && f.speed.all fits16
  | .recallPriority r => r.body.formed fun f => fits8 f.cue && f.speed.all fits16
  | .flushQueue r => r.body.check fun
      | .queue => true
      | .neither c => fits8 c && decide (c ≠ 1) && decide (c ≠ 2)
  | .flushAll r => r.body.formed fun _ => true
  | .setSpan r => r.body.check Span.fits
  | .setLimits r => r.body.check Limits.fits
  | .wearLoad r => r.body.check fun f => fits8 f.winch && f.counters.toList.all fits16
  | .zoneList _ | .cueList _ | .hold _ | .resume _ | .release _ | .motionQuery _ | .lock _ | .configQuery _
  | .tensionQuery _ | .driveQuery _ | .faultQuery _ | .clearFault _ | .clearEvents _ | .setNotices _
  | .eventQuery _ => true
  | .unknownRequest _ _ k => !Machine.isRequestKind k
  | .consoleFrameDiscard _ _ | .frameSent _ => true
  | .feedbackFrame _ f => f.check fun f =>
      fits8 f.winch && fits32 f.measured && fits16 f.tension && fits8 f.status

end Sys2Proof
end

