-- ==== Sys2Proof/Decode.lean ====
section
/-! DEFINITION. How commands are read from the links: the table-word decoder the host asks for (no row of
spec/opcode_table.json gives bits), the bodies of request frames (section 12.6), the receivers of the console ports
(R196) and of the drive links (R155, R156), and, after them, the encoder of request frames and of feedback frames. -/

namespace Sys2Proof

/-- The command a word spells by the bits of spec/opcode_table.json: the table gives no row any bits, so no word spells one
(log entry 1). -/
def decodeTableWord (_nbits _w : Nat) : Option Instr := none

namespace Machine

/-- A body is taken as fields when it has the kind's length and its marker bytes are of the defined form (R200). -/
def formed {α : Type} (ok : Bool) (a : α) : Body α := if ok then .fields a else .malformed

/-- An item that is present when its marker bit is set. -/
def marked {α : Type} (m : Bool) (a : α) : Option α := if m then some a else none

/-- The ZONE_ADD body (section 12.6): only marker bits 1 and 2 are defined. -/
def decodeZoneAdd (b : List Byte) : Body ZoneAddFields :=
  formed (b.length == 32 && (u8At b 2) &&& 0xF9 == 0)
    { id := u8At b 0, kind := u8At b 1, box := boxAt b 3, cap := marked (markAt b 2 1) (u16At b 27),
      lifetime := marked (markAt b 2 2) (u16At b 29) }

/-- The ZONE_AMEND body (section 12.6): marker bits 0 to 3 are defined, and the kind byte is ignored. -/
def decodeZoneAmend (b : List Byte) : Body ZoneAmendFields :=
  formed (b.length == 32 && (u8At b 2) &&& 0xF0 == 0)
    { id := u8At b 0, box := marked (markAt b 2 0) (boxAt b 3), cap := marked (markAt b 2 1) (u16At b 27),
      lifetime := marked (markAt b 2 2) (u16At b 29), revision := marked (markAt b 2 3) (b.getD 31 0) }

/-- The ZONE_RETIRE and CUE_RETIRE body: id or number, a marker with bit 0, the expected revision. -/
def decodeRetire (b : List Byte) : Body RetireFields :=
  formed (b.length == 3 && (u8At b 1) &&& 0xFE == 0)
    { id := u8At b 0, revision := marked (markAt b 1 0) (b.getD 2 0) }

/-- A body of one byte. -/
def decodeByte (b : List Byte) : Body Nat := formed (b.length == 1) (u8At b 0)

/-- An empty body. -/
def decodeEmpty (b : List Byte) : Body Unit := formed (b.length == 0) ()

/-- A body of three signed 32-bit values. -/
def decodePoint (b : List Byte) : Body Vec3 := formed (b.length == 12) (pointAt b 0)

/-- The CUE_STORE body (section 12.6): marker bits 0, 1 and 2 are defined. -/
def decodeCueStore (b : List Byte) : Body CueStoreFields :=
  formed (b.length == 17 && (u8At b 1) &&& 0xF8 == 0)
    { number := u8At b 0, target := marked (markAt b 1 0) (pointAt b 2), here := markAt b 1 1,
      speed := marked (markAt b 1 2) (u16At b 14) }

/-- The CUE_AMEND body (section 12.6): marker bits 0, 2 and 3 are defined. -/
def decodeCueAmend (b : List Byte) : Body CueAmendFields :=
  formed (b.length == 17 && (u8At b 1) &&& 0xF2 == 0)
    { number := u8At b 0, target := marked (markAt b 1 0) (pointAt b 2), speed := marked (markAt b 1 2) (u16At b 14),
      revision := marked (markAt b 1 3) (b.getD 16 0) }

/-- The GOTO body: target, marker (bit 0 speed, bit 1 priority), speed. -/
def decodeGoto (b : List Byte) : Body GotoFields :=
  formed (b.length == 15 && (u8At b 12) &&& 0xFC == 0)
    { target := pointAt b 0, speed := marked (markAt b 12 0) (u16At b 13) }

/-- The RECALL body: cue number, marker (bit 0 speed, bit 1 priority), speed. -/
def decodeRecall (b : List Byte) : Body RecallFields :=
  formed (b.length == 4 && (u8At b 1) &&& 0xFC == 0)
    { cue := u8At b 0, speed := marked (markAt b 1 0) (u16At b 2) }

/-- One winch's part of the SET_SPAN body, at an offset. -/
def winchSpanAt (b : List Byte) (i : Nat) : WinchSpan :=
  { anchor := pointAt b i, offset := u16At b (i + 12), lmin := u32At b (i + 14), lmax := u32At b (i + 18),
    compliance := u16At b (i + 22), scale := u8At b (i + 24), rate := u16At b (i + 25) }

/-- The SET_SPAN body. -/
def decodeSpan (b : List Byte) : Body Span :=
  formed (b.length == 138)
    { w := boxAt b 0,
      winch := ⟨winchSpanAt b 24, winchSpanAt b 51, winchSpanAt b 78, winchSpanAt b 105⟩,
      top := u16At b 132, accel := u8At b 134, brakeAccel := u8At b 135, clearance := u16At b 136 }

/-- The SET_LIMITS body: seven 16-bit values in the order of the Limit Set's table. -/
def decodeLimits (b : List Byte) : Body Limits :=
  formed (b.length == 14)
    { slackLimit := u16At b 0, overLimit := u16At b 2, criticalLimit := u16At b 4, hysteresis := u16At b 6,
      following := u16At b 8, tolerance := u16At b 10, wear := u16At b 12 }

/-- The WEAR_LOAD body: winch, then 64 counters of 16 bits. -/
def decodeWearLoad (b : List Byte) : Body WearLoadFields :=
  formed (b.length == 129) { winch := u8At b 0, counters := Vector.ofFn fun i => u16At b (1 + 2 * i.val) }

/-- The body of CLEAR_EVENTS and SET_NOTICES: a 32-bit mask. -/
def decodeMask (b : List Byte) : Body (BitVec 32) := formed (b.length == 4) (BitVec.ofNat 32 (u32At b 0))

/-- The GOTO row of a frame of kind GOTO: marker bit 1 is the priority option. -/
def gotoRow (l : Link) (tag : Byte) (b : List Byte) : Instr :=
  match decodeGoto b with
  | .malformed => .goto ⟨l, tag, .malformed⟩
  | .fields f => if markAt b 12 1 then .gotoPriority ⟨l, tag, .fields f⟩ else .goto ⟨l, tag, .fields f⟩

/-- The RECALL row of a frame of kind RECALL: marker bit 1 is the priority option. -/
def recallRow (l : Link) (tag : Byte) (b : List Byte) : Instr :=
  match decodeRecall b with
  | .malformed => .recall ⟨l, tag, .malformed⟩
  | .fields f => if markAt b 1 1 then .recallPriority ⟨l, tag, .fields f⟩ else .recall ⟨l, tag, .fields f⟩

/-- The FLUSH row of a frame of kind FLUSH: scope 1 is QUEUE and 2 is ALL (R113). -/
def flushRow (l : Link) (tag : Byte) (b : List Byte) : Instr :=
  match decodeByte b with
  | .malformed => .flushQueue ⟨l, tag, .malformed⟩
  | .fields 1 => .flushQueue ⟨l, tag, .fields .queue⟩
  | .fields 2 => .flushAll ⟨l, tag, .fields ()⟩
  | .fields c => .flushQueue ⟨l, tag, .fields (.neither c)⟩

/-- The command of a complete console frame (R196, R200, section 12.6). -/
def decodeRequest (l : Link) (tag kind : Byte) (b : List Byte) : Instr :=
  match kind.toNat with
  | 0x01 => .zoneAdd ⟨l, tag, decodeZoneAdd b⟩
  | 0x02 => .zoneAmend ⟨l, tag, decodeZoneAmend b⟩
  | 0x03 => .zoneRetire ⟨l, tag, decodeRetire b⟩
  | 0x04 => .zoneQuery ⟨l, tag, decodeByte b⟩
  | 0x05 => .zoneList ⟨l, tag, decodeEmpty b⟩
  | 0x06 => .pointLookup ⟨l, tag, decodePoint b⟩
  | 0x07 => .cueStore ⟨l, tag, decodeCueStore b⟩
  | 0x08 => .cueAmend ⟨l, tag, decodeCueAmend b⟩
  | 0x09 => .cueRetire ⟨l, tag, decodeRetire b⟩
  | 0x0A => .cueQuery ⟨l, tag, decodeByte b⟩
  | 0x0B => .cueList ⟨l, tag, decodeEmpty b⟩
  | 0x0C => gotoRow l tag b
  | 0x0D => recallRow l tag b
  | 0x0E => .jog ⟨l, tag, decodePoint b⟩
  | 0x0F => .hold ⟨l, tag, decodeEmpty b⟩
  | 0x10 => .resume ⟨l, tag, decodeEmpty b⟩
  | 0x11 => flushRow l tag b
  | 0x12 => .register ⟨l, tag, decodePoint b⟩
  | 0x13 => .release ⟨l, tag, decodeEmpty b⟩
  | 0x14 => .motionQuery ⟨l, tag, decodeEmpty b⟩
  | 0x15 => .setSpan ⟨l, tag, decodeSpan b⟩
  | 0x16 => .setLimits ⟨l, tag, decodeLimits b⟩
  | 0x17 => .lock ⟨l, tag, decodeEmpty b⟩
  | 0x18 => .configQuery ⟨l, tag, decodeEmpty b⟩
  | 0x19 => .tensionQuery ⟨l, tag, decodeEmpty b⟩
  | 0x1A => .driveQuery ⟨l, tag, decodeEmpty b⟩
  | 0x1B => .faultQuery ⟨l, tag, decodeEmpty b⟩
  | 0x1C => .clearFault ⟨l, tag, decodeEmpty b⟩
  | 0x1D => .wearQuery ⟨l, tag, decodeByte b⟩
  | 0x1E => .wearLoad ⟨l, tag, decodeWearLoad b⟩
  | 0x1F => .wearReset ⟨l, tag, decodeByte b⟩
  | 0x20 => .clearEvents ⟨l, tag, decodeMask b⟩
  | 0x21 => .setNotices ⟨l, tag, decodeMask b⟩
  | 0x22 => .eventQuery ⟨l, tag, decodeEmpty b⟩
  | _ => .unknownRequest l tag kind

/-- What a receiver sees on its line: a byte, or the break that ends a frame being collected: a gap longer than the link
allows between two bytes (R155, R196), or a byte without its stop bit (R196). DESIGN CHOICE: R155 names no byte without its stop
bit, and such a byte breaks a feedback frame too (log entry 53). -/
inductive Sym where
  | byte (b : Byte)
  | brk
  deriving DecidableEq, Repr

/-- What comes of collecting some bytes: all of them and the rest of the line, a break among them, or the line ends. -/
inductive Taken where
  | all (bs : List Byte) (rest : List Sym)
  | broken
  | short
  deriving DecidableEq, Repr

/-- Collects `n` bytes. -/
def takeBytes : Nat → List Sym → Taken
  | 0, r => .all [] r
  | _ + 1, [] => .short
  | _ + 1, .brk :: _ => .broken
  | n + 1, .byte b :: r =>
    match takeBytes n r with
    | .all bs rest => .all (b :: bs) rest
    | .broken => .broken
    | .short => .short

/-- What a console receiver makes of the bytes after a delimiter (R196). -/
inductive Collected where
  | complete (tag kind : Byte) (body : List Byte) (rest : List Sym)
  | discarded (reason : DiscardReason)
  | collecting
  deriving DecidableEq, Repr

/-- Collects a console frame after its delimiter: the length, then length + 2 further bytes, then the CRC (R196). -/
def collectConsole (r : List Sym) : Collected :=
  match takeBytes 2 r with
  | .broken => .discarded .brk
  | .short => .collecting
  | .all len r' =>
    let n := u16At len 0
    if n < 2 ∨ 242 < n then .discarded .length
    else
      match takeBytes (n + 2) r' with
      | .broken => .discarded .brk
      | .short => .collecting
      | .all bs rest =>
        if crcBytes (len ++ bs.take n) = bs.drop n then
          .complete (bs.getD 0 0) (bs.getD 1 0) ((bs.take n).drop 2) rest
        else .discarded .check

/-- The receiver of a console port over a stretch of its line, from hunting: the commands it gives rise to, in order.
After a discard it hunts from the byte after the frame's delimiter (R196). DESIGN CHOICE: a byte without its stop bit that
arrives while the receiver hunts, or that it comes upon as it hunts again, is passed over whatever it reads, 7Eh among them,
since R196 speaks of such a byte only inside a frame (log entry 53). The first argument bounds the recursion: the length of
the line is enough. -/
def receiveConsole (l : Link) : Nat → List Sym → List Instr
  | 0, _ => []
  | _ + 1, [] => []
  | n + 1, .brk :: r => receiveConsole l n r
  | n + 1, .byte b :: r =>
    if b = delimiter then
      match collectConsole r with
      | .complete tag kind body rest => decodeRequest l tag kind body :: receiveConsole l n rest
      | .discarded reason => .consoleFrameDiscard l reason :: receiveConsole l n r
      | .collecting => []
    else receiveConsole l n r

/-- A feedback frame from the bytes between its delimiter and its end: kind, winch, sequence, length, tension, status
and CRC (R155, R156, section 12.6). -/
def decodeFeedback (b : List Byte) : Body FeedbackFields :=
  formed (b.length == 12 && b.getD 0 0 == 0x81 && crcBytes (b.take 10) == b.drop 10)
    { winch := u8At b 1, echo := b.getD 2 0, measured := u32At b 3, tension := u16At b 7, status := u8At b 9 }

/-- The receiver of a drive link over a stretch of its line, from hunting (R155): a frame that is given up is a
malformed feedback frame (R156), and the receiver hunts from the byte after its delimiter. A break is passed over while it hunts
(log entry 53). -/
def receiveDrive (w : Winch) : Nat → List Sym → List Instr
  | 0, _ => []
  | _ + 1, [] => []
  | n + 1, .brk :: r => receiveDrive w n r
  | n + 1, .byte b :: r =>
    if b = delimiter then
      match takeBytes 1 r with
      | .short => []
      | .broken => .feedbackFrame w .malformed :: receiveDrive w n r
      | .all k _ =>
        if k = [0x81] then
          match takeBytes 12 r with
          | .all bs rest => .feedbackFrame w (decodeFeedback bs) :: receiveDrive w n rest
          | .broken => .feedbackFrame w .malformed :: receiveDrive w n r
          | .short => []
        else .feedbackFrame w .malformed :: receiveDrive w n r
    else receiveDrive w n r

/-! The encoder. -/

/-- A marker byte from its bits, least significant first. -/
def marker : List Bool → Byte
  | [] => 0
  | b :: r => (marker r <<< 1) ||| (if b then 1 else 0)

/-- The bytes of an optional field, zero where it is absent (R209). -/
def fieldBytes {α : Type} (width : Nat) (f : α → List Byte) (o : Option α) : List Byte :=
  match o with
  | some a => f a
  | none => List.replicate width 0

/-- The ZONE_ADD body. -/
def encodeZoneAdd (f : ZoneAddFields) : List Byte :=
  [byte f.id, byte f.kind, marker [false, f.cap.isSome, f.lifetime.isSome]] ++ boxBytes f.box ++
    fieldBytes 2 le16 f.cap ++ fieldBytes 2 le16 f.lifetime ++ [0]

/-- The ZONE_AMEND body. -/
def encodeZoneAmend (f : ZoneAmendFields) : List Byte :=
  [byte f.id, 0, marker [f.box.isSome, f.cap.isSome, f.lifetime.isSome, f.revision.isSome]] ++
    fieldBytes 24 boxBytes f.box ++ fieldBytes 2 le16 f.cap ++ fieldBytes 2 le16 f.lifetime ++ [f.revision.getD 0]

/-- The ZONE_RETIRE and CUE_RETIRE body. -/
def encodeRetire (f : RetireFields) : List Byte := [byte f.id, marker [f.revision.isSome], f.revision.getD 0]

/-- The CUE_STORE body. -/
def encodeCueStore (f : CueStoreFields) : List Byte :=
  [byte f.number, marker [f.target.isSome, f.here, f.speed.isSome]] ++ fieldBytes 12 pointBytes f.target ++
    fieldBytes 2 le16 f.speed ++ [0]

/-- The CUE_AMEND body. -/
def encodeCueAmend (f : CueAmendFields) : List Byte :=
  [byte f.number, marker [f.target.isSome, false, f.speed.isSome, f.revision.isSome]] ++
    fieldBytes 12 pointBytes f.target ++ fieldBytes 2 le16 f.speed ++ [f.revision.getD 0]

/-- The GOTO body. -/
def encodeGoto (priority : Bool) (f : GotoFields) : List Byte :=
  pointBytes f.target ++ [marker [f.speed.isSome, priority]] ++ fieldBytes 2 le16 f.speed

/-- The RECALL body. -/
def encodeRecall (priority : Bool) (f : RecallFields) : List Byte :=
  [byte f.cue, marker [f.speed.isSome, priority]] ++ fieldBytes 2 le16 f.speed

/-- One winch's part of SET_SPAN (R209). -/
def winchSpanBytes (w : WinchSpan) : List Byte :=
  pointBytes w.anchor ++ le16 w.offset ++ le32 w.lmin ++ le32 w.lmax ++ le16 w.compliance ++ [byte w.scale] ++
    le16 w.rate

/-- The SET_SPAN body. -/
def encodeSpan (s : Span) : List Byte :=
  boxBytes s.w ++ winchSpanBytes s.winch.w1 ++ winchSpanBytes s.winch.w2 ++ winchSpanBytes s.winch.w3 ++
    winchSpanBytes s.winch.w4 ++ le16 s.top ++ [byte s.accel, byte s.brakeAccel] ++ le16 s.clearance

/-- The SET_LIMITS body. -/
def encodeLimits (l : Limits) : List Byte :=
  le16 l.slackLimit ++ le16 l.overLimit ++ le16 l.criticalLimit ++ le16 l.hysteresis ++ le16 l.following ++
    le16 l.tolerance ++ le16 l.wear

/-- The WEAR_LOAD body. -/
def encodeWearLoad (f : WearLoadFields) : List Byte := byte f.winch :: f.counters.toList.flatMap le16

/-- A request kind, with the link, the tag and the body that stand for a body of the wrong form: one byte too long. -/
def encodeReq {α : Type} (k : RequestKind) (len : Nat) (f : α → List Byte) (r : Req α) :
    Option (Link × Byte × Byte × List Byte) :=
  some (r.link, r.tag, kindCode k,
    match r.body with
    | .malformed => List.replicate (len + 1) 0
    | .fields a => f a)

/-- The link, tag, kind and body of a request command's frame; none for the commands that are no console frame. -/
def encodeRequest : Instr → Option (Link × Byte × Byte × List Byte)
  | .zoneAdd r => encodeReq .zoneAdd 32 encodeZoneAdd r
  | .zoneAmend r => encodeReq .zoneAmend 32 encodeZoneAmend r
  | .zoneRetire r => encodeReq .zoneRetire 3 encodeRetire r
  | .zoneQuery r => encodeReq .zoneQuery 1 (fun n => [byte n]) r
  | .zoneList r => encodeReq .zoneList 0 (fun _ => []) r
  | .pointLookup r => encodeReq .pointLookup 12 pointBytes r
  | .cueStore r => encodeReq .cueStore 17 encodeCueStore r
  | .cueAmend r => encodeReq .cueAmend 17 encodeCueAmend r
  | .cueRetire r => encodeReq .cueRetire 3 encodeRetire r
  | .cueQuery r => encodeReq .cueQuery 1 (fun n => [byte n]) r
  | .cueList r => encodeReq .cueList 0 (fun _ => []) r
  | .goto r => encodeReq .goto 15 (encodeGoto false) r
  | .gotoPriority r => encodeReq .goto 15 (encodeGoto true) r
  | .recall r => encodeReq .recall 4 (encodeRecall false) r
  | .recallPriority r => encodeReq .recall 4 (encodeRecall true) r
  | .jog r => encodeReq .jog 12 pointBytes r
  | .hold r => encodeReq .hold 0 (fun _ => []) r
  | .resume r => encodeReq .resume 0 (fun _ => []) r
  | .flushQueue r => encodeReq .flush 1 (fun | .queue => [1] | .neither c => [byte c]) r
  | .flushAll r => encodeReq .flush 1 (fun _ => [2]) r
  | .register r => encodeReq .register 12 pointBytes r
  | .release r => encodeReq .release 0 (fun _ => []) r
  | .motionQuery r => encodeReq .motionQuery 0 (fun _ => []) r
  | .setSpan r => encodeReq .setSpan 138 encodeSpan r
  | .setLimits r => encodeReq .setLimits 14 encodeLimits r
  | .lock r => encodeReq .lock 0 (fun _ => []) r
  | .configQuery r => encodeReq .configQuery 0 (fun _ => []) r
  | .tensionQuery r => encodeReq .tensionQuery 0 (fun _ => []) r
  | .driveQuery r => encodeReq .driveQuery 0 (fun _ => []) r
  | .faultQuery r => encodeReq .faultQuery 0 (fun _ => []) r
  | .clearFault r => encodeReq .clearFault 0 (fun _ => []) r
  | .wearQuery r => encodeReq .wearQuery 1 (fun n => [byte n]) r
  | .wearLoad r => encodeReq .wearLoad 129 encodeWearLoad r
  | .wearReset r => encodeReq .wearReset 1 (fun n => [byte n]) r
  | .clearEvents r => encodeReq .clearEvents 4 (fun m => le32 m.toNat) r
  | .setNotices r => encodeReq .setNotices 4 (fun m => le32 m.toNat) r
  | .eventQuery r => encodeReq .eventQuery 0 (fun _ => []) r
  | .unknownRequest l tag k => some (l, tag, k, [])
  | .powerUp | .resetLine | .consoleFrameDiscard _ _ | .frameSent _ | .stepTimerExpiry | .holdTimerExpiry
  | .oneSecondTimerExpiry | .deadmanExpiry | .scrubberTimerExpiry | .cellVisit | .feedbackFrame _ _ | .stopAsserted
  | .stopReleased | .endOfReset => none

/-- The console frame envelope (section 12.6): delimiter, length, tag, kind, body and CRC. -/
def envelope (tag kind : Byte) (body : List Byte) : List Byte :=
  let inner := le16 (body.length + 2) ++ [tag, kind] ++ body
  delimiter :: inner ++ crcBytes inner

/-- The bytes of a feedback frame after its delimiter. -/
def encodeFeedback (f : FeedbackFields) : List Byte :=
  let inner := [0x81, byte f.winch, f.echo] ++ le32 f.measured ++ le16 f.tension ++ [byte f.status]
  inner ++ crcBytes inner

end Machine

end Sys2Proof
end

