-- ==== Sys2Proof/Config.lean ====
section
/-! DEFINITION. What the spec leaves open as a value: one opaque constant per open value, with no body, so that
nothing can be proved about it. -/

namespace Sys2Proof.Config

/-- FREE VALUE (log entry 5). The kind byte of a PORT_BUSY answer to a complete frame whose kind is no request kind.
R202 gives an answer the request's kind plus 80h, section 12.6 gives 80h to an UNKNOWN_REQUEST answer alone, and
neither says what a PORT_BUSY answer (R200, item 1: "This holds for every kind") to an unknown kind carries. -/
opaque busyKindOfUnknown : Byte → Byte

end Sys2Proof.Config
end

