-- ==== Sys2Proof/Machine/Records.lean ====
section
/-! DEFINITION. The items that carry a check word: zone records (section 2.1), cue records (section 4.1) and cell lists (section
3.3), with the contents each check word covers (R181). A slot holds its contents, or none while it is FREE, and its
check word. -/

namespace Sys2Proof.Machine

/-- The states of a zone slot that is not FREE (section 2.2); a FREE slot holds no zone. -/
inductive ZoneState where
  | pending
  | arming
  | active
  | retiring
  deriving DecidableEq, Repr

/-- The pending box of an amend, with the cap and the lifetime field the amend carries (section 2.1). A lifetime of 0
makes the zone permanent. -/
structure PendingBox where
  box : Box
  cap : Option Nat
  lifetime : Option Nat
  deriving DecidableEq, Repr

/-- The prior contents of an amended zone that is ARMING (section 2.1). -/
structure Prior where
  box : Box
  remaining : Option Nat
  revision : Byte
  suspect : Bool
  deriving DecidableEq, Repr

/-- A zone record that is not FREE (section 2.1). Kind and owner are held as the stored byte, because damage can leave
any byte there (R183). -/
structure Zone where
  state : ZoneState
  kindByte : Byte
  box : Box
  cap : Option Nat
  remaining : Option Nat
  ownerByte : Byte
  revision : Byte
  pendingBox : Option PendingBox
  prior : Option Prior
  suspect : Bool
  deriving DecidableEq, Repr

/-- A zone slot: its zone, none while it is FREE, and its check word. -/
structure ZoneSlot where
  zone : Option Zone
  check : Word16
  deriving DecidableEq, Repr

/-- The kind byte of KEEP_OUT and of SLOW (section 12.6). -/
def keepOutByte : Byte := 1
/-- See `keepOutByte`. -/
def slowByte : Byte := 2

/-- A SLOW zone. -/
def Zone.isSlow (z : Zone) : Bool := z.kindByte == slowByte

/-- A KEEP_OUT zone; a stored kind that is neither is taken as KEEP_OUT (R183). -/
def Zone.isKeepOut (z : Zone) : Bool := !z.isSlow

/-- The byte of an owner: OPERATIONS 1, SAFETY 2 (section 2.1, R210). -/
def ownerByteOf : Link → Byte
  | .operations => 1
  | .safety => 2

/-- The zone's owner is the operations link; an owner byte that names no link is no owner, and the zone is then taken
as owned by the safety link (R183). -/
def Zone.ownedByOperations (z : Zone) : Bool := z.ownerByte == ownerByteOf .operations

/-- A presence marker, and the field where it is present (R181). -/
def field {α : Type} (f : α → List Byte) : Option α → List Byte
  | some a => (1 : Byte) :: f a
  | none => [0]

/-- The contents of a pending box. -/
def PendingBox.bytes (p : PendingBox) : List Byte := boxBytes p.box ++ field le16 p.cap ++ field le16 p.lifetime

/-- The contents of prior contents. -/
def Prior.bytes (p : Prior) : List Byte :=
  boxBytes p.box ++ field le16 p.remaining ++ [p.revision] ++ boolByte p.suspect

/-- What a zone slot's check word covers, field by field in the order of R181's table: everything but the state. -/
def zoneContents (id : Nat) (z : Option Zone) : List Byte :=
  [byte id] ++ field (fun y : Zone => [y.kindByte]) z ++ field (fun y : Zone => boxBytes y.box) z ++
    field le16 (z.bind Zone.cap) ++ field le16 (z.bind Zone.remaining) ++
    field (fun y : Zone => [y.ownerByte]) z ++ field (fun y : Zone => [y.revision]) z ++
    field PendingBox.bytes (z.bind Zone.pendingBox) ++ field Prior.bytes (z.bind Zone.prior) ++
    field (fun y : Zone => boolByte y.suspect) z

/-- The check word of a zone slot with some contents. -/
def zoneCheck (id : Nat) (z : Option Zone) : Word16 := crc16 (zoneContents id z)

/-- A cue record that is STORED (section 4.1): target in millimetres. -/
structure Cue where
  target : Vec3
  speed : Option Nat
  revision : Byte
  suspect : Bool
  blocked : Bool
  deriving DecidableEq, Repr

/-- A cue slot: its cue, none while it is FREE, and its check word. -/
structure CueSlot where
  cue : Option Cue
  check : Word16
  deriving DecidableEq, Repr

/-- What a cue slot's check word covers: number, target, speed, revision, suspect mark; neither the state nor
BLOCKED (R181). -/
def cueContents (n : Nat) (c : Option Cue) : List Byte :=
  [byte n] ++ field (fun y : Cue => pointBytes y.target) c ++ field le16 (c.bind Cue.speed) ++
    field (fun y : Cue => [y.revision]) c ++ field (fun y : Cue => boolByte y.suspect) c

/-- The check word of a cue slot with some contents. -/
def cueCheck (n : Nat) (c : Option Cue) : Word16 := crc16 (cueContents n c)

/-- The condition of a cell (section 3.3). -/
inductive CellCondition where
  | current
  | rebuilding
  | overfull
  deriving DecidableEq, Repr

/-- A plan cell: its list of zone ids, the list's check word and its condition (R46). -/
structure Cell where
  ids : List Nat
  check : Word16
  condition : CellCondition
  deriving DecidableEq, Repr

/-- What a cell's check word covers: the number of ids and the ids in order (R181). -/
def cellContents (ids : List Nat) : List Byte := byte ids.length :: ids.map byte

/-- The check word of a list. -/
def cellCheck (ids : List Nat) : Word16 := crc16 (cellContents ids)

/-- A FREE zone slot: no contents, its word computed over them (R181). -/
def freeZoneSlot (id : Nat) : ZoneSlot := ⟨none, zoneCheck id none⟩

/-- A FREE cue slot: no contents, its word computed over them (R181). -/
def freeCueSlot (n : Nat) : CueSlot := ⟨none, cueCheck n none⟩

/-- An empty, CURRENT cell, its word computed for the empty list (R46). -/
def emptyCell : Cell := ⟨[], cellCheck [], .current⟩

end Sys2Proof.Machine
end

