-- ==== Sys2Proof/Machine/State.lean ====
section
/-! DEFINITION. The state of the SC-440, block by block (introduction, section 3), its value right after power-up, and the
reasons a command can stop. Plain data. -/

namespace Sys2Proof.Machine

/-- The generator states (section 6.1). -/
inductive GenState where
  | unregistered | idle | moving | jogging | braking | held | halted | stopped
  deriving DecidableEq, Repr

/-- The kinds of move (R99). -/
inductive MoveKind where
  | goto | recall | exit
  deriving DecidableEq, Repr

/-- A move (R99): target in micrometres, cap in µm/step. -/
structure Move where
  id : Nat
  kind : MoveKind
  target : Vec3
  cue : Option Nat
  cap : Nat
  deriving DecidableEq, Repr

/-- The executing move (R96, R105): start point P0, Δ, path length D and committed distance s. -/
structure Flight where
  move : Move
  p0 : Vec3
  delta : Vec3
  dist : Nat
  s : Nat
  deriving DecidableEq, Repr

/-- The resume kind of a stack context (R101). -/
inductive Resume where
  | manual | auto
  deriving DecidableEq, Repr

/-- A context of the Suspended-Move Stack (R101). -/
structure Context where
  move : Move
  resume : Resume
  deriving DecidableEq, Repr

/-- The braking purposes (R96). -/
inductive Purpose where
  | cut | hold | priority | flush | halt
  deriving DecidableEq, Repr

/-- The jog braking purposes (R124). -/
inductive JogPurpose where
  | zone | flush | halt
  deriving DecidableEq, Repr

/-- The jog state (R124). The deadman timer holds its period in ms while it runs. -/
structure Jog where
  isOpen : Bool
  request : Vec3
  velocity : Vec3
  deadman : Option Nat
  purpose : Option JogPurpose
  deriving DecidableEq, Repr

/-- No session (R124). -/
def Jog.closed : Jog := ⟨false, Vec3.zero, Vec3.zero, none, none⟩

/-- The Path Generator (R96). The stack is held top first; a timer holds its current period in ms while it runs. -/
structure Generator where
  state : GenState
  pos : Option Vec3
  v : Nat
  flight : Option Flight
  purpose : Option Purpose
  waiting : Option Move
  queue : List Move
  stack : List Context
  nextId : Nat
  jog : Jog
  stepTimer : Option Nat
  deriving DecidableEq, Repr

/-- The resolution conditions of an arming entry (R73). -/
inductive ArmCond where
  | rest | exit | release
  deriving DecidableEq, Repr

/-- An entry of the arming set (R73). -/
structure ArmEntry where
  zone : Nat
  cond : ArmCond
  deriving DecidableEq, Repr

/-- The exit plan (R73): the zone it was planned for and the target in micrometres. -/
structure ExitPlan where
  zone : Nat
  target : Vec3
  deriving DecidableEq, Repr

/-- The Envelope Unit (R73); the arming set stands in ascending id order. -/
structure Envelope where
  arming : List ArmEntry
  exit : Option ExitPlan
  deriving DecidableEq, Repr

/-- The Span Set (R1): its values, none while UNCONFIGURED, and its lock. -/
structure SpanSet where
  span : Option Span
  locked : Bool
  deriving DecidableEq, Repr

/-- The kinds of table operation (section 2.3). -/
inductive OpKind where
  | zoneAdd | zoneAmend | settlement | zoneRetire | withdrawal | expiry | cellRebuild | fullRebuild
  deriving DecidableEq, Repr

/-- The phase of a table operation: inserting the zone's id, removing it (with whether the operation is to be answered
NO_EXIT), or recomputing lists (R48 to R54). -/
inductive Phase where
  | inserting
  | removing (noExit : Bool)
  | rebuilding
  deriving DecidableEq, Repr

/-- The visits still to come in a phase: given cells, or every later cell that lists the id (R50). -/
inductive VisitPlan where
  | cells (rest : List Nat)
  | listing
  deriving DecidableEq, Repr

/-- The table operation in flight (section 2.3): the zone it concerns, the link it will answer, whether a field was
clamped, its phase, the cell of its next visit and the visits after it, and the cells it has visited (R50). -/
structure TableOp where
  kind : OpKind
  zone : Option Nat
  link : Option Link
  clamped : Bool
  phase : Phase
  cell : Nat
  plan : VisitPlan
  visited : List Nat
  deriving DecidableEq, Repr

/-- Table work that waits for the operation in flight (R21). -/
inductive Work where
  | expiry (id : Nat)
  /-- an amend settlement, with the box given up -/
  | settlement (id : Nat) (given : Box)
  | withdrawal (id : Nat)
  | rebuild (cell : Nat)
  deriving DecidableEq, Repr

/-- The Zone Table (section 2.3): its 64 slots, the operation in flight, the waiting work and the one-second timer. -/
structure ZoneTable where
  slots : Vector ZoneSlot 64
  op : Option TableOp
  waiting : List Work
  secondTimer : Option Nat
  deriving DecidableEq, Repr

/-- What the Length Unit holds for a winch (R136), in micrometres. -/
structure RopeLength where
  prev : Int
  stretch : Int
  deriving DecidableEq, Repr

/-- The latest frame sent on a channel (section 9.1). -/
inductive Sent where
  | length (command : Int)
  | hold
  deriving DecidableEq, Repr

/-- Link status (section 9.1). -/
inductive LinkStatus where
  | silent | alive | lost
  deriving DecidableEq, Repr

/-- Drive status (section 9.1). -/
inductive DriveStatus where
  | ready | braked | fault
  deriving DecidableEq, Repr

/-- A winch drive channel (section 9.1). -/
structure Channel where
  sequence : Byte
  latest : Option Sent
  answered : Bool
  misses : Nat
  status : LinkStatus
  measured : Option Int
  tension : Nat
  drive : Option DriveStatus
  lastCommand : Option Int
  deriving DecidableEq, Repr

/-- A receiver: passing bytes over while a reset is in progress, hunting for a delimiter, or collecting a frame
(R155, R196, R199). -/
inductive Receiver where
  | passing
  | hunting
  | collecting (got : List Byte)
  deriving DecidableEq, Repr

/-- The Drive Port (section 9.1): channels, receivers, hold timer, the recorded level of the STOP input and the level
of the input itself, the BRAKE line, and the two delivery records. -/
structure DrivePort where
  channels : PerWinch Channel
  receivers : PerWinch Receiver
  holdTimer : Option Nat
  stopLevel : Bool
  stopInput : Bool
  brake : Bool
  setSinceRelease : Bool
  setSinceExpiry : Bool
  deriving DecidableEq, Repr

/-- Tension status (section 10.1). -/
inductive TensionStatus where
  | normal | slack | overload | critical
  deriving DecidableEq, Repr

/-- A winch's rope wear (R174): 64 segment counters and the travel accumulator in micrometres. -/
structure WinchWear where
  counters : Vector Nat 64
  accumulator : Nat
  deriving DecidableEq, Repr

/-- The Integrity Scrubber (R190). -/
structure Scrubber where
  position : Nat
  timer : Option Nat
  deriving DecidableEq, Repr

/-- The nine fault classes (section 11.6). -/
inductive FaultClass where
  | tensionCritical | driveLost | driveFault | following | envelopeBreach | recordCheck | tensionOver
  | tensionSlack | drumRange
  deriving DecidableEq, Repr

/-- The subject of a fault (section 11.6): a winch number or zone id, or a position in millimetres. -/
inductive FaultSubject where
  | number (n : Nat)
  | position (p : Vec3)
  deriving DecidableEq, Repr

/-- The captured entry (R192): the position in millimetres is absent while the generator is UNREGISTERED. -/
structure Captured where
  cls : FaultClass
  subject : FaultSubject
  pos : Option Vec3
  deriving DecidableEq, Repr

/-- The Fault Record (R192): nine class flags in priority order and the captured entry. -/
structure FaultRecord where
  flags : Vector Bool 9
  captured : Option Captured
  deriving DecidableEq, Repr

/-- The 21 event flags (section 12.3). -/
inductive EventFlag where
  | zoneArmed | zoneWithdrawn | zoneExpired | moveDone | moveDropped | state
  | tension (w : Winch)
  | rateSat | stretchClamp | slowOverspeed
  | wear (w : Winch)
  | suspect | fault
  | linkError (l : Link)
  deriving DecidableEq, Repr

/-- What a set event flag records (R204). -/
structure Raised where
  subject : Nat
  qualifier : Nat
  deriving DecidableEq, Repr

/-- What a frame on a transmit list is (R198): a part of an answer, a PORT_BUSY answer to a frame the port did not take,
or a notice of a flag. -/
inductive FrameRole where
  | answer
  | busy
  | notice (flag : Nat)
  deriving DecidableEq, Repr

/-- A frame to a console: tag, kind and body; `Frame.wire` gives its bytes on the link. -/
structure Frame where
  role : FrameRole
  tag : Byte
  kind : Byte
  body : List Byte
  deriving DecidableEq, Repr

/-- The request in progress (section 12.1): its tag and kind. -/
structure InProgress where
  tag : Byte
  kind : Byte
  deriving DecidableEq, Repr

/-- A Console Port (section 12.1): its receiver, the request in progress, the frame being sent, the frames waiting behind it
and the notice enables, bit n for flag n. -/
structure Port where
  receiver : Receiver
  inProgress : Option InProgress
  sending : Option Frame
  waiting : List Frame
  enables : BitVec 21
  deriving DecidableEq, Repr

/-- The Console Ports (section 12.1): the event flags, held once for the device, and the two ports. -/
structure Console where
  flags : Vector (Option Raised) 21
  operations : Port
  safety : Port
  deriving DecidableEq, Repr

/-- The state of the part: the commands that wait, whether a reset is in progress, and the blocks of the introduction's
section 3. -/
structure State where
  pending : List Instr
  resetting : Bool
  console : Console
  spanSet : SpanSet
  limits : Limits
  zones : ZoneTable
  cells : Vector Cell 192
  cues : Vector CueSlot 96
  envelope : Envelope
  gen : Generator
  lengths : Option (PerWinch RopeLength)
  drive : DrivePort
  tension : PerWinch TensionStatus
  wear : PerWinch WinchWear
  scrubber : Scrubber
  faults : FaultRecord
  deriving DecidableEq, Repr

/-- The SC-440 has no fault: no command stops it. -/
inductive Fault where
  deriving DecidableEq, Repr

/-- Why a command has no meaning. -/
inductive Refusal where
  /-- Raised by `exec` for a row that has no meaning yet (none, in this model). Safe: the machine stops where the
  hardware goes on. -/
  | notModelled (mnemonic : String)
  /-- Raised by `execUnknownRequest` for a frame whose kind IS a request kind: it is the frame of another row, and the
  command is ill formed. Safe: no frame on a link is such a command. -/
  | notAnUnknownKind
  deriving DecidableEq, Repr

/-- A channel after either reset (the table of section 9.1). -/
def Channel.reset : Channel := ⟨0, none, false, 0, .silent, none, 0, none, none⟩

/-- A console port after a reset has ended (R199): notice enables for FAULT, flag 18, alone. -/
def Port.reset : Port := ⟨.hunting, none, none, [], BitVec.ofNat 21 (2 ^ 18)⟩

/-- The Path Generator after either reset (R96, R124). -/
def Generator.reset : Generator :=
  ⟨.unregistered, none, 0, none, none, none, [], [], 1, Jog.closed, none⟩

/-- The Limit Set's defaults (section 1.2, R3). -/
def Limits.reset : Limits := ⟨0, 38000, 40000, 500, 300, 100, 60000⟩

/-- A winch's wear after power-up (R174). -/
def WinchWear.reset : WinchWear := ⟨Vector.replicate 64 0, 0⟩

/-- The machine when a power-up has ended: the values each chapter gives for power-up, and the fresh timer periods and
hunting receivers of the end of the reset (R17, R46, R57, R73, R96, R124, R136, R151, R166, R174, R181, R190, R192,
R199, R204). The level of the STOP input is the input's own; log entry 2 takes it as released. -/
def State.reset : State where
  pending := []
  resetting := false
  console := ⟨Vector.replicate 21 none, Port.reset, Port.reset⟩
  spanSet := ⟨none, false⟩
  limits := Limits.reset
  zones := ⟨Vector.ofFn fun i => freeZoneSlot i.val, none, [], some 1000⟩
  cells := Vector.replicate 192 emptyCell
  cues := Vector.ofFn fun i => freeCueSlot i.val
  envelope := ⟨[], none⟩
  gen := Generator.reset
  lengths := none
  drive := ⟨PerWinch.all Channel.reset, PerWinch.all .hunting, some 2, false, false, true, false, false⟩
  tension := PerWinch.all .normal
  wear := PerWinch.all WinchWear.reset
  scrubber := ⟨0, some 10⟩
  faults := ⟨Vector.replicate 9 false, none⟩

end Sys2Proof.Machine
end

