-- ==== Sys2Proof/Machine/Geometry.lean ====
section
/-! DEFINITION. The arithmetic of positions: roundings (introduction, section 6.5), integer roots (R105, R138), boxes and segments
(introduction 6.6, R74, R75), entry and braking distances (R75, R80), the offers of moves (R108, R110). All of it is
exact integer arithmetic. -/

namespace Sys2Proof.Machine

/-- The root of `n` from its high bits down: `bits` bits are still to be decided, `r` holds those decided. -/
def isqrtBits : Nat → Nat → Nat → Nat
  | 0, _, r => r
  | b + 1, n, r => isqrtBits b n (if (r + 2 ^ b) * (r + 2 ^ b) ≤ n then r + 2 ^ b else r)

/-- floor(√n) (introduction, section 6.5). -/
def isqrt (n : Nat) : Nat := isqrtBits (n.log2 / 2 + 1) n 0

/-- The nearest integer to √n: the integer root L, rounded up when n − L² exceeds L (R105, R138). -/
def nearestRoot (n : Nat) : Nat :=
  if isqrt n < n - isqrt n * isqrt n then isqrt n + 1 else isqrt n

/-- `num / den` to the nearest integer, halves away from zero (introduction 6.4, R108). -/
def roundDiv (num : Int) (den : Nat) : Int :=
  if num < 0 then -(((2 * num.natAbs + den) / (2 * den) : Nat) : Int)
  else (((2 * num.natAbs + den) / (2 * den) : Nat) : Int)

/-- A position in micrometres, rounded to millimetres (introduction, section 6.4). -/
def toMm (p : Vec3) : Vec3 := ⟨roundDiv p.x 1000, roundDiv p.y 1000, roundDiv p.z 1000⟩

/-- A position in millimetres, at its micrometre value (introduction, section 6.3). -/
def toMicro (p : Vec3) : Vec3 := ⟨p.x * 1000, p.y * 1000, p.z * 1000⟩

/-- The sum of the squares of the components. -/
def normSq (p : Vec3) : Nat := p.x.natAbs * p.x.natAbs + p.y.natAbs * p.y.natAbs + p.z.natAbs * p.z.natAbs

/-- The distance between two points to the nearest integer (R105, R138). -/
def distance (p q : Vec3) : Nat := nearestRoot (normSq (q.sub p))

/-- Every coordinate within ±262,143 mm (introduction, section 6.2). -/
def coordOk (x : Int) : Bool := decide (-262143 ≤ x) && decide (x ≤ 262143)

/-- A point whose coordinates are public coordinates. -/
def pointOk (p : Vec3) : Bool := coordOk p.x && coordOk p.y && coordOk p.z

/-- A box whose coordinates are public coordinates. -/
def boxCoordsOk (b : Box) : Bool :=
  coordOk b.xlo && coordOk b.xhi && coordOk b.ylo && coordOk b.yhi && coordOk b.zlo && coordOk b.zhi

/-- lo < hi on each axis (introduction, section 6.6). -/
def boxStrict (b : Box) : Bool := decide (b.xlo < b.xhi) && decide (b.ylo < b.yhi) && decide (b.zlo < b.zhi)

/-- lo ≤ hi on each axis: a stored box with lo above hi on some axis contains no point (R183). -/
def boxOrdered (b : Box) : Bool := decide (b.xlo ≤ b.xhi) && decide (b.ylo ≤ b.yhi) && decide (b.zlo ≤ b.zhi)

/-- A box with every face moved outwards by the clearance (introduction, section 6.6). -/
def inflate (c : Nat) (b : Box) : Box := ⟨b.xlo - c, b.xhi + c, b.ylo - c, b.yhi + c, b.zlo - c, b.zhi + c⟩

/-- A box in millimetres, its faces at their micrometre values (introduction, section 6.6). -/
def boxMicro (b : Box) : Box :=
  ⟨b.xlo * 1000, b.xhi * 1000, b.ylo * 1000, b.yhi * 1000, b.zlo * 1000, b.zhi * 1000⟩

/-- A point is inside the closed box (introduction, section 6.6). -/
def boxHas (b : Box) (p : Vec3) : Bool :=
  decide (b.xlo ≤ p.x) && decide (p.x ≤ b.xhi) && decide (b.ylo ≤ p.y) && decide (p.y ≤ b.yhi) &&
    decide (b.zlo ≤ p.z) && decide (p.z ≤ b.zhi)

/-- The region of a stored box inflated by a clearance, in micrometres; none where the stored box contains no point
(R74, R183). A SLOW box is taken with clearance 0. -/
def region (c : Nat) (b : Box) : Option Box := if boxOrdered b then some (boxMicro (inflate c b)) else none

/-- A fraction with a positive denominator. -/
structure Frac where
  num : Int
  den : Nat
  deriving DecidableEq, Repr

/-- The order of fractions with positive denominators. -/
def Frac.le (a b : Frac) : Bool := decide (a.num * b.den ≤ b.num * a.den)

/-- The closed range of the segment's parameter over which one coordinate lies between two faces (R75): an axis along
which the segment does not change is the whole segment or none of it. -/
def axisRange (p q lo hi : Int) : Option (Frac × Frac) :=
  if q - p = 0 then (if lo ≤ p ∧ p ≤ hi then some (⟨0, 1⟩, ⟨1, 1⟩) else none)
  else if 0 < q - p then some (⟨lo - p, (q - p).natAbs⟩, ⟨hi - p, (q - p).natAbs⟩)
  else some (⟨p - hi, (q - p).natAbs⟩, ⟨p - lo, (q - p).natAbs⟩)

/-- The segment from `p` to `q` meets a box: the three ranges and the segment itself have a point in common (R75). -/
def segmentMeets (p q : Vec3) (b : Box) : Bool :=
  match axisRange p.x q.x b.xlo b.xhi, axisRange p.y q.y b.ylo b.yhi, axisRange p.z q.z b.zlo b.zhi with
  | some x, some y, some z =>
    [⟨0, 1⟩, x.1, y.1, z.1].all fun l => [⟨1, 1⟩, x.2, y.2, z.2].all fun h => l.le h
  | _, _, _ => false

/-- The smallest integer not below `a / b`, for positive `b`. -/
def ceilDiv (a b : Int) : Int := -((-a) / b)

/-- The integers s at which the exact point P0 + Δ·s/D lies between two faces on one axis, as their first and last
(R75). -/
def axisSteps (p d lo hi : Int) (dist : Nat) : Option (Int × Int) :=
  if d = 0 then (if lo ≤ p ∧ p ≤ hi then some (0, dist) else none)
  else if 0 < d then some (ceilDiv ((lo - p) * dist) d, ((hi - p) * dist) / d)
  else some (ceilDiv ((p - hi) * dist) (-d), ((p - lo) * dist) / (-d))

/-- The entry distance of a box on the remaining segment of a move at committed distance `s` (R75): the smallest
integer in [s, D] at which the exact point is inside. -/
def entryDistance (f : Flight) (b : Box) : Option Nat :=
  match axisSteps f.p0.x f.delta.x b.xlo b.xhi f.dist, axisSteps f.p0.y f.delta.y b.ylo b.yhi f.dist,
      axisSteps f.p0.z f.delta.z b.zlo b.zhi f.dist with
  | some x, some y, some z =>
    let first := max (f.s : Int) (max x.1 (max y.1 z.1))
    let last := min (f.dist : Int) (min x.2 (min y.2 z.2))
    if first ≤ last then some first.toNat else none
  | _, _, _ => none

/-- The exact point of a move at its committed s is inside a box (R94), compared at the common denominator D. -/
def exactPointIn (f : Flight) (b : Box) : Bool :=
  boxHas ⟨b.xlo * f.dist, b.xhi * f.dist, b.ylo * f.dist, b.yhi * f.dist, b.zlo * f.dist, b.zhi * f.dist⟩
    ⟨f.p0.x * f.dist + f.delta.x * f.s, f.p0.y * f.dist + f.delta.y * f.s, f.p0.z * f.dist + f.delta.z * f.s⟩

/-- B(v), the braking distance from speed `v` at deceleration `ab` (R80, R110). -/
def brakingDistance (v ab : Nat) : Nat := (v / ab) * v - ab * ((v / ab) * (v / ab + 1) / 2)

/-- The offer of a move at distance s: P0 + round(Δ·s/D) on each axis (R108, step 6). -/
def Flight.offerAt (f : Flight) (s : Nat) : Vec3 :=
  f.p0.add ⟨roundDiv (f.delta.x * s) f.dist, roundDiv (f.delta.y * s) f.dist, roundDiv (f.delta.z * s) f.dist⟩

/-- A point of the pitch limited to a box on each axis (R76). -/
def clampTo (b : Box) (p : Vec3) : Vec3 :=
  ⟨max b.xlo (min b.xhi p.x), max b.ylo (min b.yhi p.y), max b.zlo (min b.zhi p.z)⟩

/-- A value limited to ±m. -/
def clampAbs (m : Nat) (x : Int) : Int := max (-(m : Int)) (min (m : Int) x)

/-- Each component limited to ±m (R125, R127). -/
def clampVec (m : Nat) (p : Vec3) : Vec3 :=
  ⟨clampAbs m p.x, clampAbs m p.y, clampAbs m p.z⟩

/-- One component moved towards a goal by at most `a` (R127, step 2; R134, step 1). -/
def approach (a : Nat) (u goal : Int) : Int :=
  if (goal - u).natAbs ≤ a then goal else if u < goal then u + a else u - a

/-- Each component moved towards a goal by at most `a`. -/
def approachVec (a : Nat) (u goal : Vec3) : Vec3 :=
  ⟨approach a u.x goal.x, approach a u.y goal.y, approach a u.z goal.z⟩

end Sys2Proof.Machine
end

