-- ==== Sys2Proof/Machine/Ops.lean ====
section
/-! DEFINITION. The shared operations: an event in progress and what it puts out, zone, cue and cell records and their reads
(R181 to R188), and the Fault Record (R193). A command is carried out as one event: the blocks' state changes at once,
what the event raises and answers is kept in order, and `Flags.lean` puts it out at the event's end. -/

namespace Sys2Proof.Machine

/-- The outcome codes (section 12.2). -/
inductive Code where
  | ok | portBusy | busy | unknownRequest | badField | safetyOnly | locked | notConfigured | notRegistered
  | wrongState | arming | idInUse | noSuchZone | notOwner | stale | cellFull | noExit | noSuchCue | cueBlocked
  | cueSuspect | zoneSuspect | outOfVolume | inZone | pathBlocked | queueFull | stackFull | noFeedback
  | regMismatch | notReleasable
  deriving DecidableEq, Repr

/-- An answer (R202): outcome, CLAMPED, and the details as units that R203 keeps whole. -/
structure Answer where
  code : Code
  clamped : Bool
  details : List (List Byte)
  deriving DecidableEq, Repr

/-- What an event puts out, in order. -/
inductive Out where
  /-- a cause reported to an event flag (R204) -/
  | raise (f : EventFlag) (subject qualifier : Nat)
  /-- where a change of generator state is raised, if the event ends in another state (R97) -/
  | stateHere
  /-- the answer to a port's request in progress (R202) -/
  | answer (l : Link) (a : Answer)
  deriving DecidableEq, Repr

/-- An event in progress: the state so far, what has been put out so far in order, and the zones whose record failed a
request read in this event (R186), in ascending id order. -/
structure Ev where
  st : State
  out : List Out
  bad : List Nat
  deriving DecidableEq, Repr

/-- An event as it begins. -/
def Ev.start (s : State) : Ev := ⟨s, [], []⟩

/-- Changes the state of an event. -/
def Ev.upd (e : Ev) (f : State → State) : Ev := { e with st := f e.st }

/-- Reports a cause to an event flag. -/
def Ev.raise (e : Ev) (f : EventFlag) (subject qualifier : Nat) : Ev :=
  { e with out := e.out ++ [.raise f subject qualifier] }

/-- Produces the answer to a port's request in progress. -/
def Ev.reply (e : Ev) (l : Link) (a : Answer) : Ev := { e with out := e.out ++ [.answer l a] }

/-- An OK answer. -/
def Ev.ok (e : Ev) (l : Link) (clamped : Bool) (details : List (List Byte)) : Ev := e.reply l ⟨.ok, clamped, details⟩

/-- A refusal; only OK answers carry CLAMPED (R202). -/
def Ev.refuse (e : Ev) (l : Link) (c : Code) (details : List (List Byte)) : Ev := e.reply l ⟨c, false, details⟩

/-- A BAD_FIELD answer that names one field or check (R210). -/
def Ev.badField (e : Ev) (l : Link) (n : Nat) : Ev := e.refuse l .badField [[byte n]]

/-- Inserts an id at its place in an ascending list; an id the list already holds leaves it unchanged (R46). -/
def insertId (i : Nat) : List Nat → List Nat
  | [] => [i]
  | j :: r => if i < j then i :: j :: r else if i = j then j :: r else j :: insertId i r

/-! Zone records. -/

/-- The zone in a slot; none for a FREE slot. -/
def zoneAt (s : State) (id : Nat) : Option Zone := (s.zones.slots[id]?).bind ZoneSlot.zone

/-- The zone in a slot is in a state. -/
def zoneIs (s : State) (id : Nat) (st : ZoneState) : Bool := (zoneAt s id).any fun z => z.state == st

/-- Writes the contents of a slot and recomputes its check word (R17). -/
def putZone (id : Nat) (z : Option Zone) (s : State) : State :=
  { s with zones := { s.zones with slots := s.zones.slots.setIfInBounds id ⟨z, zoneCheck id z⟩ } }

/-- Changes the state of a slot's zone; a change of state alone does not recompute the check word (R17). -/
def setZoneState (id : Nat) (st : ZoneState) (s : State) : State :=
  match s.zones.slots[id]? with
  | some ⟨some z, c⟩ =>
    { s with zones := { s.zones with slots := s.zones.slots.setIfInBounds id ⟨some { z with state := st }, c⟩ } }
  | _ => s

/-- The ids of the zone slots. -/
def zoneIds : List Nat := List.range 64

/-- A read of a slot's record would fail: it is not FREE and its word differs from the word over its contents (R182). -/
def zoneFails (s : State) (id : Nat) : Bool :=
  match s.zones.slots[id]? with
  | some ⟨some z, c⟩ => c != zoneCheck id (some z)
  | _ => false

/-- Marks a record suspect, recomputes its word and raises SUSPECT (R182, R184: item kind 1 is ZONE). -/
def markZone (id : Nat) (e : Ev) : Ev :=
  match zoneAt e.st id with
  | some z => (e.upd (putZone id (some { z with suspect := true }))).raise .suspect id 1
  | none => e

/-- A request read of a zone record (R186): a failure is marked, and its fault and halt follow at the event's end. -/
def readZone (e : Ev) (id : Nat) : Ev :=
  if zoneFails e.st id then { markZone id e with bad := insertId id e.bad } else e

/-- A request read of every zone record that is not FREE, in ascending id order (log entry 9). -/
def readZones (e : Ev) : Ev := zoneIds.foldl readZone e

/-- A motion-path read of some zone records in order (R185): the first failure is marked, and no later record is read;
its id is answered. -/
def motionRead (ids : List Nat) (e : Ev) : Ev × Option Nat :=
  match ids.find? (zoneFails e.st) with
  | some i => (markZone i e, some i)
  | none => (e, none)

/-- Some ACTIVE zone is suspect (R102, R112, R121, R122, R125). -/
def activeSuspect (s : State) : Bool := zoneIds.any fun i => (zoneAt s i).any fun z => z.state == .active && z.suspect

/-! Cue records. -/

/-- The cue in a slot; none for a FREE slot. -/
def cueAt (s : State) (n : Nat) : Option Cue := (s.cues[n]?).bind CueSlot.cue

/-- Writes the contents of a cue slot and recomputes its check word (R57). -/
def putCue (n : Nat) (c : Option Cue) (s : State) : State :=
  { s with cues := s.cues.setIfInBounds n ⟨c, cueCheck n c⟩ }

/-- Sets the BLOCKED flag of a slot's cue, which lies outside the check word (R57). -/
def setBlocked (n : Nat) (b : Bool) (s : State) : State :=
  match s.cues[n]? with
  | some ⟨some c, k⟩ => { s with cues := s.cues.setIfInBounds n ⟨some { c with blocked := b }, k⟩ }
  | _ => s

/-- The numbers of the cue slots. -/
def cueIds : List Nat := List.range 96

/-- A read of a slot's cue record would fail (R182). -/
def cueFails (s : State) (n : Nat) : Bool :=
  match s.cues[n]? with
  | some ⟨some c, k⟩ => k != cueCheck n (some c)
  | _ => false

/-- A position in micrometres lies inside W. -/
def inW (s : State) (p : Vec3) : Bool := s.spanSet.span.any fun sp => boxHas (boxMicro sp.w) p

/-- A cue whose read has failed (R71, R183): suspect, and BLOCKED where its stored target lies outside W. Inside W the flag
stays as it was last computed (log entry 36). -/
def Cue.failed (s : State) (c : Cue) : Cue :=
  { c with suspect := true, blocked := c.blocked || !inW s (toMicro c.target) }

/-- A read of a cue record (R71, R187): a failure marks it, recomputes its word and raises SUSPECT (item kind 2). -/
def readCue (e : Ev) (n : Nat) : Ev :=
  if cueFails e.st n then
    match cueAt e.st n with
    | some c => (e.upd (putCue n (some (c.failed e.st)))).raise .suspect n 2
    | none => e
  else e

/-! Cell lists. -/

/-- The condition of a cell. -/
def condAt (s : State) (n : Nat) : CellCondition := ((s.cells[n]?).map Cell.condition).getD .current

/-- The list of a cell. -/
def idsAt (s : State) (n : Nat) : List Nat := ((s.cells[n]?).map Cell.ids).getD []

/-- Writes a cell's list and recomputes its check word (R46). -/
def putCell (n : Nat) (ids : List Nat) (cond : CellCondition) (s : State) : State :=
  { s with cells := s.cells.setIfInBounds n ⟨ids, cellCheck ids, cond⟩ }

/-- Changes a cell's condition; the word is not recomputed (R181). -/
def setCond (n : Nat) (cond : CellCondition) (s : State) : State :=
  match s.cells[n]? with
  | some c => { s with cells := s.cells.setIfInBounds n { c with condition := cond } }
  | none => s

/-- The cell numbers in row-major order (section 3.1). -/
def cellIds : List Nat := List.range 192

/-- A read of a cell's list would fail: the cell is CURRENT and its word differs from the word over its list (R182). -/
def cellFails (s : State) (n : Nat) : Bool :=
  match s.cells[n]? with
  | some c => c.condition == .current && c.check != cellCheck c.ids
  | none => false

/-! The Fault Record. -/

/-- The priority of a fault class, 1 the highest (section 11.6). -/
def FaultClass.priority : FaultClass → Nat
  | .tensionCritical => 1 | .driveLost => 2 | .driveFault => 3 | .following => 4 | .envelopeBreach => 5
  | .recordCheck => 6 | .tensionOver => 7 | .tensionSlack => 8 | .drumRange => 9

/-- The class flag of a fault class is set. -/
def faultFlag (s : State) (c : FaultClass) : Bool := (s.faults.flags[c.priority - 1]?).getD false

/-- The fine position as the Fault Record captures it: in millimetres, absent while UNREGISTERED (R192). -/
def faultPosition (s : State) : Option Vec3 := if s.gen.state = .unregistered then none else s.gen.pos.map toMm

/-- The captured entry after a fault is reported (R193, items 2 to 4). -/
def captureFault (s : State) (c : FaultClass) (subject : FaultSubject) : Option Captured :=
  match s.faults.captured with
  | none => some ⟨c, subject, faultPosition s⟩
  | some old => if c.priority < old.cls.priority then some ⟨c, subject, faultPosition s⟩ else some old

/-- A fault reported to the Fault Record (R193); FAULT is raised when the class flag was clear. -/
def reportFault (c : FaultClass) (subject : FaultSubject) (e : Ev) : Ev :=
  let e' := e.upd fun s =>
    { s with faults := ⟨s.faults.flags.setIfInBounds (c.priority - 1) true, captureFault s c subject⟩ }
  if faultFlag e.st c then e' else e'.raise .fault c.priority 0

end Sys2Proof.Machine
end

