-- ==== Sys2Proof/Machine/Flags.lean ====
section
/-! DEFINITION. The Console Ports' side of an event: event flags and their numbers, notices (R204, R205), answers and
their parts (R202, R203), the transmit list (R198), and the bytes of a frame on the link (R209). -/

namespace Sys2Proof.Machine

/-- The number of an event flag (the table of section 12.3). -/
def EventFlag.number : EventFlag → Nat
  | .zoneArmed => 0 | .zoneWithdrawn => 1 | .zoneExpired => 2 | .moveDone => 3 | .moveDropped => 4 | .state => 5
  | .tension w => 5 + w.number
  | .rateSat => 10 | .stretchClamp => 11 | .slowOverspeed => 12
  | .wear w => 12 + w.number
  | .suspect => 17 | .fault => 18 | .linkError .operations => 19 | .linkError .safety => 20

/-- The value of a generator state in notices and answers (section 12.6). -/
def GenState.code : GenState → Nat
  | .unregistered => 1 | .idle => 2 | .moving => 3 | .jogging => 4 | .braking => 5 | .held => 6 | .halted => 7
  | .stopped => 8

/-- The value of an outcome code (section 12.2). -/
def Code.value : Code → Byte
  | .ok => 0x00 | .portBusy => 0x01 | .busy => 0x02 | .unknownRequest => 0x03 | .badField => 0x04
  | .safetyOnly => 0x05 | .locked => 0x06 | .notConfigured => 0x07 | .notRegistered => 0x08 | .wrongState => 0x09
  | .arming => 0x0A | .idInUse => 0x0B | .noSuchZone => 0x0C | .notOwner => 0x0D | .stale => 0x0E
  | .cellFull => 0x0F | .noExit => 0x10 | .noSuchCue => 0x11 | .cueBlocked => 0x12 | .cueSuspect => 0x13
  | .zoneSuspect => 0x14 | .outOfVolume => 0x15 | .inZone => 0x16 | .pathBlocked => 0x17 | .queueFull => 0x18
  | .stackFull => 0x19 | .noFeedback => 0x1A | .regMismatch => 0x1B | .notReleasable => 0x1C

/-- The port of a link. -/
def Console.port (c : Console) : Link → Port
  | .operations => c.operations
  | .safety => c.safety

/-- Replaces the port of a link. -/
def Console.setPort (c : Console) (l : Link) (p : Port) : Console :=
  match l with
  | .operations => { c with operations := p }
  | .safety => { c with safety := p }

/-- Changes the port of a link. -/
def onPort (l : Link) (f : Port → Port) (s : State) : State :=
  { s with console := s.console.setPort l (f (s.console.port l)) }

/-- A frame joins the transmit list (R198): it is sent at once where nothing is being sent, and waits otherwise. -/
def Port.enqueue (f : Frame) (p : Port) : Port :=
  match p.sending with
  | none => { p with sending := some f }
  | some _ => { p with waiting := p.waiting ++ [f] }

/-- The notice of a flag (R205, section 12.6): tag 0, kind C0h, and the flag's number, subject and qualifier. -/
def noticeFrame (flag subject qualifier : Nat) : Frame :=
  ⟨.notice flag, 0, 0xC0, byte flag :: le16 subject ++ [byte qualifier]⟩

/-- A notice joins the transmit list, or takes the place of one of the same flag that still waits (R198). -/
def Port.notify (flag subject qualifier : Nat) (p : Port) : Port :=
  if p.waiting.any (fun f => f.role == .notice flag) then
    { p with waiting := p.waiting.map fun f => if f.role == .notice flag then noticeFrame flag subject qualifier else f }
  else p.enqueue (noticeFrame flag subject qualifier)

/-- A port's notice for a newly set flag, where its enable for the flag is set (R205). -/
def Port.notifyEnabled (flag subject qualifier : Nat) (p : Port) : Port :=
  if p.enables.getLsbD flag then p.notify flag subject qualifier else p

/-- An event flag is raised (R204): a clear flag becomes set with the cause's subject and qualifier, and each port whose
enable is set is notified; raising a set flag changes nothing. -/
def raiseFlag (f : EventFlag) (subject qualifier : Nat) (s : State) : State :=
  match s.console.flags[f.number]? with
  | some none =>
    { s with console :=
        { flags := s.console.flags.setIfInBounds f.number (some ⟨subject, qualifier⟩)
          operations := s.console.operations.notifyEnabled f.number subject qualifier
          safety := s.console.safety.notifyEnabled f.number subject qualifier } }
  | _ => s

/-- The room for details in one answer frame: 240 bytes less the outcome and the marker byte (R203). -/
def detailRoom : Nat := 238

/-- The details split into parts of whole units, as many in each as fit; the last argument is the part being filled
(R203). -/
def splitDetails : List (List Byte) → List Byte → List (List Byte)
  | [], part => [part]
  | u :: r, part =>
    if part.length + u.length ≤ detailRoom then splitDetails r (part ++ u) else part :: splitDetails r u

/-- The marker byte of an answer: bit 0 CLAMPED, bit 1 CONTINUED (section 12.6). -/
def answerMarker (clamped continued : Bool) : Byte := (if clamped then 1 else 0) + (if continued then 2 else 0)

/-- The frames of an answer from its parts: all but the last are CONTINUED (R203). -/
def partFrames (role : FrameRole) (tag kind : Byte) (a : Answer) : List (List Byte) → List Frame
  | [] => []
  | [d] => [⟨role, tag, kind, a.code.value :: answerMarker a.clamped false :: d⟩]
  | d :: r => ⟨role, tag, kind, a.code.value :: answerMarker a.clamped true :: d⟩ :: partFrames role tag kind a r

/-- The frames of the answer to a request with a tag, under an answer kind (R202, R203). -/
def answerFrames (role : FrameRole) (tag kind : Byte) (a : Answer) : List Frame :=
  partFrames role tag kind a (splitDetails a.details [])

/-- The kind of the answer to a request kind: 80h added (R202). -/
def answerKind (k : Byte) : Byte := k + 0x80

/-- The answer to the request in progress is produced: its frames join the transmit list, and the request in progress
ends (R202, R203). -/
def Port.answer (a : Answer) (p : Port) : Port :=
  match p.inProgress with
  | some q =>
    { (answerFrames .answer q.tag (answerKind q.kind) a).foldl (fun p f => p.enqueue f) p with inProgress := none }
  | none => p

/-- The PORT_BUSY answers that wait in the transmit list (R198). -/
def Port.busyWaiting (p : Port) : Nat := (p.waiting.filter fun f => f.role == .busy).length

/-- The details of an UNKNOWN_REQUEST answer, "with the kind as received" (R200, item 2; log entry 6). -/
def unknownAnswer (kind : Byte) : Answer := ⟨.unknownRequest, false, [[kind]]⟩

/-- One act of an event is put out to the ports. -/
def putOut (s : State) : Out → State
  | .raise f subject qualifier => raiseFlag f subject qualifier s
  | .answer l a => onPort l (Port.answer a) s
  | .stateHere => s

/-- The acts of an event with its change of generator state in them (R97): STATE is raised at the first place that was
kept for it, and otherwise after all the rest; there is none where the event ends in the state it began in. -/
def withState (before after : GenState) (out : List Out) : List Out :=
  if before = after then out
  else if out.any (fun o => o == .stateHere) then
    out.takeWhile (fun o => !(o == .stateHere)) ++ [.raise .state after.code 0] ++
      (out.dropWhile (fun o => !(o == .stateHere))).tail
  else out ++ [.raise .state after.code 0]

/-- The bytes of a frame on its link (section 12.6): delimiter, length, tag, kind, body and CRC. -/
def Frame.wire (f : Frame) : List Byte :=
  let inner := le16 (f.body.length + 2) ++ [f.tag, f.kind] ++ f.body
  delimiter :: inner ++ crcBytes inner

/-- FRAME_SENT (R198): the frame being sent has left, and the first that waits is sent. -/
def Port.frameSent (p : Port) : Port :=
  match p.waiting with
  | [] => { p with sending := none }
  | f :: r => { p with sending := some f, waiting := r }

end Sys2Proof.Machine
end

