-- ==== Sys2Proof/Machine/Halts.lean ====
section
/-! DEFINITION. What a fault or STOP does to the Path Generator: controlled halts, quick stops, trips and the entries to
HALTED and STOPPED (R88, R115 to R117), the braking of a jog (R133), and MOVE_DROPPED (section 12.6). -/

namespace Sys2Proof.Machine

/-- The reasons of MOVE_DROPPED (section 12.6). -/
inductive DropReason where
  | pathBlocked | cut | zone | flush | halt | stop | span
  deriving DecidableEq, Repr

/-- The value of a reason (section 12.6). -/
def DropReason.code : DropReason → Nat
  | .pathBlocked => 1 | .cut => 2 | .zone => 3 | .flush => 4 | .halt => 5 | .stop => 6 | .span => 7

/-- Changes the Path Generator. -/
def onGen (f : Generator → Generator) (s : State) : State := { s with gen := f s.gen }

/-- MOVE_DROPPED is raised once with the first id dropped, if anything was dropped. -/
def raiseDropped (ids : List Nat) (reason : DropReason) (e : Ev) : Ev :=
  match ids with
  | [] => e
  | i :: _ => e.raise .moveDropped i reason.code

/-- The ids of the queue entries from head to tail, then of the stack contexts from bottom to top. -/
def waitingIds (g : Generator) : List Nat := g.queue.map Move.id ++ g.stack.reverse.map fun c => c.move.id

/-- Everything a halt drops, in the order of R117. -/
def allIds (g : Generator) : List Nat :=
  (g.flight.map fun f => f.move.id).toList ++ (g.waiting.map Move.id).toList ++ waitingIds g

/-- Every entry of the arming set takes the condition RELEASE, and an exit plan is discarded (R79, R88). -/
def holdArming (env : Envelope) : Envelope := ⟨env.arming.map fun a => { a with cond := .release }, none⟩

/-- The generator at rest after an entry to HALTED, STOPPED or UNREGISTERED: every move dropped, no speed, the jog
session closed (R117, R124). -/
def Generator.emptied (g : Generator) (st : GenState) : Generator :=
  { g with state := st, v := 0, flight := none, purpose := none, waiting := none, queue := [], stack := [],
           jog := Jog.closed }

/-- The entry to HALTED (R117, R88). -/
def enterHalted (e : Ev) : Ev :=
  raiseDropped (allIds e.st.gen) .halt
    (e.upd fun s => { s with gen := s.gen.emptied .halted, envelope := holdArming s.envelope })

/-- The entry to STOPPED (R117, R88): in addition the step timer stops and BRAKE is asserted (R164). -/
def enterStopped (e : Ev) : Ev :=
  raiseDropped (allIds e.st.gen) .stop
    (e.upd fun s =>
      { s with gen := { s.gen.emptied .stopped with stepTimer := none }
               envelope := holdArming s.envelope
               drive := { s.drive with brake := true } })

/-- A trip (R117): STOPPED from every state but UNREGISTERED, which it leaves as it is. -/
def trip (e : Ev) : Ev :=
  match e.st.gen.state with
  | .unregistered | .stopped => e
  | .idle | .moving | .jogging | .braking | .held | .halted => enterStopped e

/-- A quick stop (R116). -/
def quickStop (e : Ev) : Ev :=
  match e.st.gen.state with
  | .unregistered | .stopped | .halted => e
  | .idle | .moving | .jogging | .braking | .held => enterHalted e

/-- A cause brakes an open jog session (R133): r becomes zero; HALT replaces any purpose, and ZONE or FLUSH none but
the absent one. -/
def brakeJog (p : JogPurpose) (g : Generator) : Generator :=
  { g with jog := { g.jog with request := Vec3.zero
                               purpose := if p = .halt then some .halt else some (g.jog.purpose.getD p) } }

/-- The executing move brakes along its path with a purpose. -/
def brakeMove (p : Purpose) (g : Generator) : Generator := { g with state := .braking, purpose := some p }

/-- A controlled halt (the table of R115). -/
def controlledHalt (e : Ev) : Ev :=
  match e.st.gen.state with
  | .moving | .braking => e.upd (onGen (brakeMove .halt))
  | .jogging => e.upd (onGen (brakeJog .halt))
  | .idle | .held => enterHalted e
  | .halted | .stopped | .unregistered => e

/-- A failure on the motion path (R185): RECORD_CHECK with the zone as subject, and a quick stop. -/
def motionFailure (id : Nat) (e : Ev) : Ev := quickStop (reportFault .recordCheck (.number id) e)

/-- The failures of an event's request reads (R186): one RECORD_CHECK for each zone that failed, in ascending id order, and
then one controlled halt. -/
def settleReads (e : Ev) : Ev :=
  match e.bad with
  | [] => e
  | _ :: _ => controlledHalt (e.bad.foldl (fun e i => reportFault .recordCheck (.number i) e) e)

/-- The end of an event: the failures of its request reads are settled, and what it raised and answered is put out with
the change of generator state in its place (R97, R202, R204). -/
def finish (before : GenState) (e : Ev) : State :=
  (withState before (settleReads e).st.gen.state (settleReads e).out).foldl putOut (settleReads e).st

/-- A command carried out as one event; while a reset is in progress nothing is taken (R17, R199). -/
def runEvent (s : State) (act : Ev → Ev) : State :=
  if s.resetting then s else finish s.gen.state (act (Ev.start s))

/-- A frame that arrives while the port has a request in progress (R198, R200 item 1): PORT_BUSY under its own tag, or,
with eight such answers waiting, a discard with reason OVERRUN (R197). -/
def refuseBusy (l : Link) (tag kind : Byte) (s : State) : State :=
  if 8 ≤ (s.console.port l).busyWaiting then raiseFlag (.linkError l) 0 4 s
  else onPort l (fun p => (answerFrames .busy tag kind ⟨.portBusy, false, []⟩).foldl (fun p f => p.enqueue f) p) s

/-- A complete frame has been received: the receiver hunts again (R196). -/
def frameTaken (l : Link) (s : State) : State := onPort l (fun p => { p with receiver := .hunting }) s

/-- The port takes a request (R200). -/
def takeRequest (l : Link) (tag kind : Byte) (s : State) : State :=
  onPort l (fun p => { p with inProgress := some ⟨tag, kind⟩ }) s

/-- A taken request's port checks (R200 items 3 and 4, R201), and then the owning block. DESIGN CHOICE: a BAD_FIELD answer for
FORM carries the one byte 0 for every request, to SET_SPAN too: R210 gives the 0, and no winch to go with it (log entry 49). -/
def decideRequest {α : Type} (k : RequestKind) (r : Req α) (act : α → Ev → Ev) (e : Ev) : Ev :=
  if safetyOnly k ∧ r.link = .operations then e.refuse r.link .safetyOnly []
  else
    match r.body with
    | .malformed => e.badField r.link 0
    | .fields a => act a e

/-- A complete request frame (R200). -/
def request {α : Type} (k : RequestKind) (r : Req α) (act : α → Ev → Ev) (s : State) : State :=
  if s.resetting then s
  else
    let s' := frameTaken r.link s
    if (s'.console.port r.link).inProgress.isSome then refuseBusy r.link r.tag (answerKind (kindCode k)) s'
    else finish s.gen.state (decideRequest k r act (Ev.start (takeRequest r.link r.tag (kindCode k) s')))

end Sys2Proof.Machine
end

