-- ==== Sys2Proof/Machine/Cells.lean ====
section
/-! DEFINITION. The Cell Index (chapter 3) and the BLOCKED flag of the cues (R66): cells of positions and boxes (R44, R45),
recomputed lists (R51, R52), capacity counts (R47), and the cells a removal touches (R50). -/

namespace Sys2Proof.Machine

/-- The column of an x coordinate in micrometres (R44). -/
def cellX (w : Box) (x : Int) : Int := ((x - w.xlo * 1000) * 16) / ((w.xhi - w.xlo) * 1000 + 1)

/-- The row of a y coordinate in micrometres (R44). -/
def cellY (w : Box) (y : Int) : Int := ((y - w.ylo * 1000) * 12) / ((w.yhi - w.ylo) * 1000 + 1)

/-- The cell number of a fine position inside W (R44). -/
def cellOf (w : Box) (p : Vec3) : Nat := (cellY w p.y * 16 + cellX w p.x).toNat

/-- The corner columns and rows of a plan range (R45). -/
structure CellRange where
  x0 : Int
  x1 : Int
  y0 : Int
  y1 : Int
  deriving DecidableEq, Repr

/-- A cell number lies in a range of columns and rows. -/
def CellRange.has (r : CellRange) (n : Nat) : Bool :=
  decide (r.x0 ≤ (n % 16 : Nat)) && decide (((n % 16 : Nat) : Int) ≤ r.x1) && decide (r.y0 ≤ (n / 16 : Nat)) &&
    decide (((n / 16 : Nat) : Int) ≤ r.y1)

/-- The cells a listed box covers (R45); none where its clipped plan range is empty. -/
def planRange (sp : Span) (slow : Bool) (b : Box) : Option CellRange :=
  let c : Int := if slow then 0 else sp.clearance
  let xl := max (b.xlo - c) sp.w.xlo
  let xh := min (b.xhi + c) sp.w.xhi
  let yl := max (b.ylo - c) sp.w.ylo
  let yh := min (b.yhi + c) sp.w.yhi
  if boxOrdered b ∧ xl ≤ xh ∧ yl ≤ yh then
    some ⟨cellX sp.w (xl * 1000), cellX sp.w (xh * 1000), cellY sp.w (yl * 1000), cellY sp.w (yh * 1000)⟩
  else none

/-- A range that may be empty holds a cell number. -/
def inRange (r : Option CellRange) (n : Nat) : Bool := r.any fun r => r.has n

/-- The cells of a range in ascending order. -/
def rangeCells (r : Option CellRange) : List Nat :=
  match r with
  | none => []
  | some r => cellIds.filter r.has

/-- The cells of one range that another does not cover, in ascending order (R49, R50). -/
def cellsOutside (r kept : Option CellRange) : List Nat := (rangeCells r).filter fun n => !inRange kept n

/-- A zone's listed boxes (R18). -/
def listedBoxes (z : Zone) : List Box := z.box :: (z.pendingBox.map PendingBox.box).toList ++ (z.prior.map Prior.box).toList

/-- A listed box of a zone covers a cell (R45). -/
def zoneCovers (sp : Span) (z : Zone) (n : Nat) : Bool :=
  (listedBoxes z).any fun b => inRange (planRange sp z.isSlow b) n

/-- The ids of the zone records that are not FREE and cover a cell by a listed box, in ascending order (R52). -/
def coverIds (s : State) (n : Nat) : List Nat :=
  match s.spanSet.span with
  | none => []
  | some sp => zoneIds.filter fun i => (zoneAt s i).any fun z => zoneCovers sp z n

/-- The ids of the zone records that are not FREE, in ascending order (R55). -/
def allZoneIds (s : State) : List Nat := zoneIds.filter fun i => (zoneAt s i).isSome

/-- Writes a list, or leaves it empty and the cell OVERFULL where it would hold more than eight ids (R46, R52).
DESIGN CHOICE: this holds also where it is a visit's own insertion that brings a ninth id (log entry 47). -/
def writeCell (n : Nat) (ids : List Nat) (s : State) : State :=
  if ids.length ≤ 8 then putCell n ids .current s else putCell n [] .overfull s

/-- A cell's list is recomputed from the zone records, each read as a request read (R52), whatever the list holds. -/
def rebuildCell (n : Nat) (e : Ev) : Ev :=
  let e' := readZones e
  e'.upd (writeCell n (coverIds e'.st n))

/-- SUSPECT for a cell list (R184: item kind 3 is CELL). -/
def suspectCell (n : Nat) (e : Ev) : Ev := if cellFails e.st n then e.raise .suspect n 3 else e

/-- A visit's change of one list (R48): a trusted list takes the change as it stands, any other is recomputed first, and the
change is not applied to a cell that the recomputation leaves OVERFULL (R51).
DESIGN CHOICE: where the recomputation finds exactly eight other ids and the insertion would bring a ninth, which only damage
to the operation's own record brings about, the cell becomes OVERFULL too, its list empty and the insertion not applied (log
entry 47). -/
def changeCell (n : Nat) (f : List Nat → List Nat) (e : Ev) : Ev :=
  if condAt e.st n = .current ∧ cellFails e.st n = false then e.upd (writeCell n (f (idsAt e.st n)))
  else
    let e' := rebuildCell n (suspectCell n e)
    if condAt e'.st n = .current then e'.upd (writeCell n (f (idsAt e'.st n))) else e'

/-- A cell is visited by the removal of an id from every cell that lists it (R50). -/
def removalTouches (s : State) (id n : Nat) : Bool :=
  if condAt s n = .current then (idsAt s n).contains id || cellFails s n
  else (coverIds s n).contains id

/-- The next cell, from a number on, that a removal from every listing cell visits (R50). -/
def nextListing (s : State) (id start : Nat) : Option Nat :=
  cellIds.find? fun n => decide (start ≤ n) && removalTouches s id n

/-! The BLOCKED flag. -/

/-- The target in millimetres lies outside W, or inside the inflated box of an ACTIVE KEEP_OUT zone (R66). -/
def cueBlocked (s : State) (target : Vec3) : Bool :=
  match s.spanSet.span with
  | none => true
  | some sp =>
    !boxHas (boxMicro sp.w) (toMicro target) ||
      zoneIds.any fun i => (zoneAt s i).any fun z =>
        z.state == .active && z.isKeepOut && (region sp.clearance z.box).any fun b => boxHas b (toMicro target)

/-- The BLOCKED flag of one cue is computed: the zone records are read, and then tested as stored (R66). -/
def computeBlocked (e : Ev) (n : Nat) : Ev :=
  let e' := readZones e
  match cueAt e'.st n with
  | some c => e'.upd (setBlocked n (cueBlocked e'.st c.target))
  | none => e'

/-- The BLOCKED flag of a STORED cue is recomputed, its record read first (R71). -/
def recomputeOne (e : Ev) (n : Nat) : Ev := if (cueAt e.st n).isSome then computeBlocked (readCue e n) n else e

/-- The BLOCKED flag of every stored cue is recomputed (R67), in ascending number (log entry 42). -/
def recomputeBlocked (e : Ev) : Ev := cueIds.foldl recomputeOne e

end Sys2Proof.Machine
end

