-- ==== Sys2Proof/Machine/Table.lean ====
section
/-! DEFINITION. Table operations and the work that waits for them (R19 to R21, R33 to R36, R40, R48 to R53): the beginning
of each kind, its visits, its close with its answer, and the capacity counts (R47), which may order a rebuild. -/

namespace Sys2Proof.Machine

/-- Changes the Zone Table. -/
def onZones (f : ZoneTable → ZoneTable) (s : State) : State := { s with zones := f s.zones }

/-- The value of a zone state in answers: its place among FREE, PENDING, ARMING, ACTIVE, RETIRING (R210; log entry 7). -/
def ZoneState.code : ZoneState → Nat
  | .pending => 2 | .arming => 3 | .active => 4 | .retiring => 5

/-- The state and the revision of an OK answer to a zone request (R202), from the record as it stands. -/
def stateAndRevision (s : State) (id : Nat) : List (List Byte) :=
  match zoneAt s id with
  | some z => [[byte z.state.code], [z.revision]]
  | none => []

/-- The answer a table operation sends as its last act (R11, R26, R31, R32, R38); the operations without a request
send none (R36, R40). DESIGN CHOICE: the state and the revision it carries are taken from the record as it stands, with no read
of their own that verifies the check word (R182, R186; log entry 52). -/
def closingAnswer (s : State) (op : TableOp) : Option Answer :=
  match op.kind with
  | .zoneAdd | .zoneAmend =>
    if op.phase = .removing true then some ⟨.noExit, false, []⟩
    else some ⟨.ok, op.clamped, stateAndRevision s (op.zone.getD 0)⟩
  | .zoneRetire | .fullRebuild => some ⟨.ok, false, []⟩
  | .settlement | .withdrawal | .expiry | .cellRebuild => none

/-- The operation's end frees the zone's slot (R17). -/
def TableOp.frees (op : TableOp) : Bool :=
  match op.kind with
  | .zoneAdd => op.phase == .removing true
  | .zoneRetire | .withdrawal | .expiry => true
  | .zoneAmend | .settlement | .cellRebuild | .fullRebuild => false

/-- Where the generator's change of state stands among the acts of an event (R97). -/
def Ev.stateHere (e : Ev) : Ev := { e with out := e.out ++ [.stateHere] }

/-- The places of the expiries in some waiting work are filled with given ids in turn; all other work keeps its place. -/
def placeExpiries : List Nat → List Work → List Work
  | i :: ids, .expiry _ :: r => .expiry i :: placeExpiries ids r
  | ids, w :: r => w :: placeExpiries ids r
  | _, [] => []

/-- The waiting work with its expiries in ascending id order (R11); that they share out the places they hold among the other
work is log entry 35. -/
def sortExpiries (ws : List Work) : List Work := placeExpiries (zoneIds.filter fun i => ws.contains (.expiry i)) ws

/-- What waits when an operation closes: a full rebuild hands its expiries over in ascending id order (R11). -/
def TableOp.handsOver (op : TableOp) (ws : List Work) : List Work :=
  if op.kind = .fullRebuild then sortExpiries ws else ws

/-- A table operation closes: its slot is freed where it frees one, no operation is in flight, and it is answered. -/
def closeOp (op : TableOp) (e : Ev) : Ev :=
  let answer := closingAnswer e.st op
  let e' := e.upd fun s =>
    onZones (fun t => { t with op := none, waiting := op.handsOver t.waiting })
      (if op.frees then putZone (op.zone.getD 0) none s else s)
  match answer, op.link with
  | some a, some l => e'.stateHere.reply l a
  | _, _ => e'

/-- The next visit of an operation from a cell number on, under its plan (R48, R50). -/
def TableOp.next (s : State) (op : TableOp) (start : Nat) : Option TableOp :=
  match op.plan with
  | .cells [] => none
  | .cells (c :: r) => some { op with cell := c, plan := .cells r }
  | .listing => (nextListing s (op.zone.getD 0) start).map fun c => { op with cell := c }

/-- An operation without a request begins: it takes its first visit, or closes at once where it has none (R48). -/
def beginOp (op : TableOp) (e : Ev) : Ev :=
  match op.next e.st 0 with
  | some op' => e.upd (onZones fun t => { t with op := some op' })
  | none => closeOp op e

/-- A removal from every cell that lists an id (R50). -/
def listingOp (kind : OpKind) (id : Nat) (link : Option Link) : TableOp :=
  ⟨kind, some id, link, false, .removing false, 0, .listing, []⟩

/-- The cells an amend settlement visits: those of the box given up and not of the box kept (R50). -/
def settlementCells (s : State) (id : Nat) (given : Box) : List Nat :=
  match s.spanSet.span, zoneAt s id with
  | some sp, some z => cellsOutside (planRange sp z.isSlow given) (planRange sp z.isSlow z.box)
  | _, _ => []

/-- An expiry is taken (R40). -/
def takeExpiry (id : Nat) (e : Ev) : Ev :=
  beginOp (listingOp .expiry id none)
    ((recomputeBlocked (e.upd (setZoneState id .retiring))).raise .zoneExpired id 0)

/-- Waiting work begins (R21); a settlement reads the record of the box kept (R182). -/
def beginWork (w : Work) (e : Ev) : Ev :=
  match w with
  | .expiry id => takeExpiry id e
  | .settlement id given =>
    let e1 := readZone e id
    beginOp ⟨.settlement, some id, none, false, .removing false, 0, .cells (settlementCells e1.st id given), []⟩ e1
  | .withdrawal id => beginOp (listingOp .withdrawal id none) e
  | .rebuild c => beginOp ⟨.cellRebuild, none, none, false, .rebuilding, c, .cells [c], []⟩ e

/-- Waiting work still has its subject (R21, R40). -/
def workStands (s : State) : Work → Bool
  | .expiry id => (zoneAt s id).any fun z => z.state == .active && z.remaining == some 0
  | .settlement id _ => zoneIs s id .active
  | .withdrawal id => zoneIs s id .retiring
  | .rebuild _ => true

/-- The waiting work is begun, item by item, until an operation is in flight or none waits (R21). -/
def runWaiting : List Work → Ev → Ev
  | [], e => e.upd (onZones fun t => { t with waiting := [] })
  | w :: r, e =>
    let e' := e.upd (onZones fun t => { t with waiting := r })
    if workStands e'.st w then
      let e'' := beginWork w e'
      if e''.st.zones.op.isSome then e'' else runWaiting r e''
    else runWaiting r e'

/-- Where no operation is in flight, the waiting work is begun. -/
def runIfIdle (e : Ev) : Ev := if e.st.zones.op.isSome then e else runWaiting e.st.zones.waiting e

/-- Table work falls due: it joins the waiting work, and is begun where the table is idle (R21). -/
def orderWork (ws : List Work) (e : Ev) : Ev := runIfIdle (e.upd (onZones fun t => { t with waiting := t.waiting ++ ws }))

/-- A zone's waiting expiry is discarded where the zone is no longer ACTIVE with remaining lifetime 0 (R21, R41). -/
def dropVoidExpiry (id : Nat) (s : State) : State :=
  onZones (fun t => { t with waiting := t.waiting.filter fun w => w != .expiry id || workStands s w }) s

/-- The operation in flight ends, and the first waiting item is begun (R21). -/
def endOp (op : TableOp) (e : Ev) : Ev := runIfIdle (closeOp op e)

/-- A cell rebuild is ordered (R52): nothing is added for a cell that is already REBUILDING. -/
def orderRebuild (n : Nat) (e : Ev) : Ev :=
  if condAt e.st n = .rebuilding then e else orderWork [.rebuild n] (e.upd (setCond n .rebuilding))

/-- A CURRENT list is read; a failure raises SUSPECT and orders a rebuild (R188). -/
def readCell (n : Nat) (e : Ev) : Ev := if cellFails e.st n then orderRebuild n (suspectCell n e) else e

/-- The count of a cell in a capacity check, and whether it includes the id of the zone being amended, if any (R47). -/
def countCell (amended : Option Nat) (n : Nat) (e : Ev) : Ev × Nat × Bool :=
  let e1 := readCell n e
  let includes (ids : List Nat) : Bool := amended.any fun i => ids.contains i
  match condAt e1.st n with
  | .current => (e1, (idsAt e1.st n).length, includes (idsAt e1.st n))
  | .rebuilding =>
    let e2 := readZones e1
    (e2, (coverIds e2.st n).length, includes (coverIds e2.st n))
  | .overfull => (e1, 8, includes (coverIds e1.st n))

/-- The capacity check of ZONE_ADD (with no zone amended) and of ZONE_AMEND: the first of some cells, in ascending order, whose
count is 8 and does not include the id of the zone being amended (R47). A count above 8, which only damaged records give, is
taken as full too (log entry 37). -/
def firstFull (amended : Option Nat) : List Nat → Ev → Ev × Option Nat
  | [], e => (e, none)
  | n :: r, e =>
    let c := countCell amended n e
    if 8 ≤ c.2.1 ∧ c.2.2 = false then (c.1, some n) else firstFull amended r c.1

/-- The visit of the operation in flight to its present cell (R48, R51, R52). DESIGN CHOICE: the visit of a rebuild writes the
list anew without reading the one that stands, also where a cell whose rebuild waited is CURRENT again by a visit ahead of it
(R53), so a list damaged meanwhile raises no SUSPECT (log entry 50). -/
def visit (op : TableOp) (e : Ev) : Ev :=
  match op.phase with
  | .inserting => changeCell op.cell (insertId (op.zone.getD 0)) e
  | .removing _ => changeCell op.cell (fun ids => ids.erase (op.zone.getD 0)) e
  | .rebuilding => rebuildCell op.cell e

/-- The operation in flight touches a zone slot (R191). -/
def opTouchesZone (s : State) (id : Nat) : Bool := s.zones.op.any fun op => op.zone == some id

/-- The operation in flight visits a cell: it has visited it, stands before it, or is still to come to it (R50). -/
def TableOp.visits (s : State) (op : TableOp) (n : Nat) : Bool :=
  op.cell == n || op.visited.contains n ||
    match op.plan with
    | .cells r => r.contains n
    | .listing => decide (op.cell ≤ n) && removalTouches s (op.zone.getD 0) n

/-- The operation in flight touches a cell: those it visits (R50) and those that list its zone or are covered by it (R191); that
the two are taken together is log entry 34. -/
def opTouchesCell (s : State) (n : Nat) : Bool :=
  s.zones.op.any fun op =>
    match op.kind with
    | .fullRebuild => true
    | .cellRebuild => op.cell == n
    | .zoneAdd | .zoneAmend | .settlement | .zoneRetire | .withdrawal | .expiry =>
      op.visits s n || (idsAt s n).contains (op.zone.getD 0) || (coverIds s n).contains (op.zone.getD 0)

end Sys2Proof.Machine
end

