-- ==== Sys2Proof/Machine/Envelope.lean ====
section
/-! DEFINITION. The Envelope Unit (chapter 5): enforced regions and the segment check (R74 to R77), the arming decision (R80),
exit plans and exit moves (R85, R86), activation (R33, R92), withdrawal (R34, R35, R89) and the resolution of the
arming set (R84, R87). -/

namespace Sys2Proof.Machine

/-- The clearance in force, 0 while the span is UNCONFIGURED. -/
def clearanceOf (s : State) : Nat := (s.spanSet.span.map Span.clearance).getD 0

/-- The fine position; the origin stands in for it while there is none, and no rule reads it then. -/
def posOf (s : State) : Vec3 := s.gen.pos.getD Vec3.zero

/-- The regions of one zone that are enforced (R74): the inflated box of an ACTIVE KEEP_OUT zone, and the inflated prior box
of an ARMING zone. -/
def enforcedOf (s : State) (z : Zone) : List Box :=
  match z.state with
  | .active => if z.isKeepOut then (region (clearanceOf s) z.box).toList else []
  | .arming => (z.prior.bind fun p => region (clearanceOf s) p.box).toList
  | .pending | .retiring => []

/-- Every enforced region, in ascending id order (R74). -/
def enforced (s : State) : List Box := zoneIds.flatMap fun i => ((zoneAt s i).map (enforcedOf s)).getD []

/-- A segment meets no enforced region (R75). -/
def segmentClear (s : State) (p q : Vec3) : Bool := (enforced s).all fun b => !segmentMeets p q b

/-- The test of the admission check and of the start check (R76, R77): the target inside W, the segment clear. -/
def pathOk (s : State) (p target : Vec3) : Bool := inW s target && segmentClear s p target

/-- The region of a zone's box under the clearance in force. -/
def zoneRegion (s : State) (id : Nat) : Option Box := (zoneAt s id).bind fun z => region (clearanceOf s) z.box

/-- The trolley is inside a region (R74). -/
def trolleyIn (s : State) (b : Option Box) : Bool := b.any fun b => boxHas b (posOf s)

/-! The arming set. -/

/-- Changes the Envelope Unit. -/
def onEnvelope (f : Envelope → Envelope) (s : State) : State := { s with envelope := f s.envelope }

/-- Inserts an entry at its place in the ascending arming set (R73). -/
def insertArm (a : ArmEntry) : List ArmEntry → List ArmEntry
  | [] => [a]
  | b :: r => if a.zone < b.zone then a :: b :: r else if a.zone = b.zone then a :: r else b :: insertArm a r

/-- A zone's entry leaves the arming set. -/
def dropArm (id : Nat) (s : State) : State :=
  onEnvelope (fun v => { v with arming := v.arming.filter fun a => a.zone != id }) s

/-- The ids of the arming set, ascending. -/
def armingIds (s : State) : List Nat := s.envelope.arming.map ArmEntry.zone

/-! Moves and their ids. -/

/-- The move ids held by the executing move, the waiting priority move, the queue and the stack (R99). -/
def heldIds (g : Generator) : List Nat := allIds g

/-- The id after a move id: 1 follows 65,535 (R99). -/
def nextId (n : Nat) : Nat := if 65535 ≤ n then 1 else n + 1

/-- The first id from `n` on that is not held; 15 tries are enough where at most 14 ids are held (R99). -/
def freshFrom (held : List Nat) : Nat → Nat → Nat
  | 0, n => n
  | k + 1, n => if held.contains n then freshFrom held k (nextId n) else n

/-- The id a move takes, and the counter after it (R99). -/
def takeId (g : Generator) : Nat × Nat :=
  let i := freshFrom (heldIds g) 15 g.nextId
  (i, nextId i)

/-- The top speed in force. -/
def topSpeed (s : State) : Nat := (s.spanSet.span.map Span.top).getD 0

/-- A move becomes the executing move from the fine position (R105). -/
def flyMove (m : Move) (s : State) : State :=
  onGen (fun g =>
    { g with state := .moving, v := 0, purpose := none
             flight := some ⟨m, posOf s, m.target.sub (posOf s), distance (posOf s) m.target, 0⟩ }) s

/-! Exit plans. -/

/-- A candidate of an exit plan with its distance. -/
structure ExitCandidate where
  target : Vec3
  dist : Int
  deriving DecidableEq, Repr

/-- The six candidates in the face order of R85. -/
def exitCandidates (p : Vec3) (b : Box) : List ExitCandidate :=
  [⟨⟨b.xlo - 100000, p.y, p.z⟩, p.x - b.xlo + 100000⟩, ⟨⟨b.xhi + 100000, p.y, p.z⟩, b.xhi - p.x + 100000⟩,
    ⟨⟨p.x, b.ylo - 100000, p.z⟩, p.y - b.ylo + 100000⟩, ⟨⟨p.x, b.yhi + 100000, p.z⟩, b.yhi - p.y + 100000⟩,
    ⟨⟨p.x, p.y, b.zhi + 100000⟩, b.zhi - p.z + 100000⟩, ⟨⟨p.x, p.y, b.zlo - 100000⟩, p.z - b.zlo + 100000⟩]

/-- Inserts a candidate before the first of greater distance, and after those of its own. -/
def insertCandidate (c : ExitCandidate) : List ExitCandidate → List ExitCandidate
  | [] => [c]
  | d :: r => if c.dist < d.dist then c :: d :: r else d :: insertCandidate c r

/-- The candidates in ascending distance, equal distances in the face order (R85). -/
def sortCandidates (l : List ExitCandidate) : List ExitCandidate := l.foldl (fun acc c => insertCandidate c acc) []

/-- A candidate qualifies (R85, conditions 1 to 3). -/
def exitQualifies (s : State) (id : Nat) (p c : Vec3) : Bool :=
  inW s c && (enforced s).all (fun b => !boxHas b c) &&
    (armingIds s).all (fun i => i == id || !(zoneRegion s i).any fun b => boxHas b c) && segmentClear s p c

/-- The exit plan for a zone whose inflated box is given, from the fine position (R85). -/
def planExit (s : State) (id : Nat) (b : Option Box) : Option Vec3 :=
  match b with
  | none => none
  | some b =>
    ((sortCandidates (exitCandidates (posOf s) b)).find? fun c => exitQualifies s id (posOf s) c.target).map
      ExitCandidate.target

/-- An exit move begins from its plan (R86): the plan is recorded, the move takes an id, and the generator flies it. -/
def beginExit (id : Nat) (target : Vec3) (s : State) : State :=
  let i := takeId s.gen
  flyMove ⟨i.1, .exit, target, none, topSpeed s⟩
    (onEnvelope (fun v => { v with exit := some ⟨id, target⟩ }) (onGen (fun g => { g with nextId := i.2 }) s))

/-! Activation and withdrawal. -/

/-- The queue entries and stack contexts whose target lies in a box are dropped, and the rest keep their order (R92). -/
def dropInside (b : Box) (e : Ev) : Ev :=
  let inside (m : Move) : Bool := boxHas b m.target
  let gone := (e.st.gen.queue.filter inside).map Move.id ++
    (e.st.gen.stack.reverse.filter fun c => inside c.move).map fun c => c.move.id
  raiseDropped gone .zone
    (e.upd (onGen fun g =>
      { g with queue := g.queue.filter fun m => !inside m, stack := g.stack.filter fun c => !inside c.move }))

/-- The effects of a zone's activation (R92); ZONE_ARMED where it became ACTIVE from ARMING by activation. -/
def activationEffects (id : Nat) (armed : Bool) (e : Ev) : Ev :=
  match zoneAt e.st id with
  | none => e
  | some z =>
    let e1 := if z.isKeepOut then
        match region (clearanceOf e.st) z.box with
        | some b => dropInside b e
        | none => e
      else e
    let e2 := recomputeBlocked e1
    if armed && z.isKeepOut then e2.raise .zoneArmed id 0 else e2

/-- An ACTIVE zone with no lifetime left falls due (R40). -/
def fallDueIfSpent (id : Nat) (e : Ev) : Ev :=
  if workStands e.st (.expiry id) then orderWork [.expiry id] e else e

/-- An amend settlement for a box given up, where the zone is still ACTIVE (R21, R33, R35). -/
def settle (id : Nat) (given : Box) (e : Ev) : Ev :=
  if zoneIs e.st id .active then orderWork [.settlement id given] e else e

/-- The Envelope Unit makes an ARMING zone ACTIVE (R33); no settlement is ordered at the acceptance of SET_SPAN. -/
def makeActive (settling : Bool) (id : Nat) (e : Ev) : Ev :=
  let e1 := (readZone e id).upd (dropArm id)
  match zoneAt e1.st id with
  | none => e1
  | some z =>
    match z.prior with
    | none => fallDueIfSpent id (activationEffects id true (e1.upd (setZoneState id .active)))
    | some p =>
      let e2 := fallDueIfSpent id
        (activationEffects id true (e1.upd (putZone id (some { z with state := .active, prior := none }))))
      if settling then settle id p.box e2 else e2

/-- A zone is withdrawn after its request was answered (R34, R35, R89). The suspect mark of an amended one returns to the prior
contents' whatever it became while ARMING (R35, R189; log entry 44). DESIGN CHOICE: R89 has a withdrawal drop nothing from queue
and stack, and R35 and R92 give the restored box of a reverted amend the activation effects, the drops among them; the moves
whose targets lie in the restored box are dropped, and none on account of the withdrawn box (log entry 51). -/
def withdraw (id : Nat) (e : Ev) : Ev :=
  let e1 := (readZone e id).upd (dropArm id)
  match zoneAt e1.st id with
  | none => e1
  | some z =>
    match z.prior with
    | none =>
      orderWork [.withdrawal id] ((e1.upd (setZoneState id .retiring)).raise .zoneWithdrawn id 0)
    | some p =>
      let restored : Zone := { z with state := .active, box := p.box, remaining := p.remaining, revision := p.revision,
                                      suspect := p.suspect, prior := none }
      (settle id z.box (fallDueIfSpent id (activationEffects id false (e1.upd (putZone id (some restored)))))).raise
        .zoneWithdrawn id 0

/-! The resolution. -/

/-- The first pass of R84: each ARMING zone whose box the trolley is outside becomes ACTIVE, in ascending id order. -/
def activationPass (ids : List Nat) (e : Ev) : Ev :=
  ids.foldl (fun e id => if trolleyIn e.st (zoneRegion e.st id) then e else makeActive true id e) e

/-- The second pass of R84: an exit is planned for the lowest id still ARMING; where none qualifies the zone is withdrawn
and the pass goes on. -/
def planningPass : List Nat → Ev → Ev
  | [], e => e
  | id :: r, e =>
    let e1 := readZones e
    match planExit e1.st id (zoneRegion e1.st id) with
    | some t =>
      e1.upd fun s =>
        onEnvelope (fun v => { v with arming := v.arming.map fun a => { a with cond := .exit } }) (beginExit id t s)
    | none => planningPass r (withdraw id e1)

/-- The resolution of the whole arming set from the fine position (R84, R87): the zones are read, and taken by the two
passes. -/
def resolveArming (e : Ev) : Ev :=
  let e1 := (armingIds e.st).foldl readZone e
  let e2 := activationPass (armingIds e1.st) e1
  planningPass (armingIds e2.st) e2

/-! The arming decision. -/

/-- What the arming decision orders of the generator. -/
inductive Order where
  | nothing | cut | brakeJog
  deriving DecidableEq, Repr

/-- The outcomes of the arming decision (R80). -/
inductive Decision where
  | active (order : Order)
  | arming (cond : ArmCond) (order : Order)
  /-- an exit is to be planned now (R82) -/
  | planNow
  deriving DecidableEq, Repr

/-- The rest of R80's table for a move along its path, from its entry distance: ACTIVE where there is none or where the
braking ends short of it, else ARMING with condition REST. No entry distance is taken first, even where the rounded position
is inside (log entry 43). -/
def decidePath (f : Flight) (v ab : Nat) (inside : Bool) (entry : Option Nat) (order : Order) : Decision :=
  match entry with
  | none => .active .nothing
  | some d => if !inside && decide (f.s + brakingDistance v ab < d) then .active order else .arming .rest order

/-- The arming decision for an inflated new box (the table of R80). -/
def armingDecision (s : State) (b : Option Box) : Decision :=
  let inside := trolleyIn s b
  let ab := (s.spanSet.span.map Span.brakeAccel).getD 0
  match s.gen.state with
  | .unregistered => .active .nothing
  | .halted | .stopped => if inside then .arming .release .nothing else .active .nothing
  | .idle | .held => if inside then .planNow else .active .nothing
  | .jogging => if inside then .arming .rest .brakeJog else .active .nothing
  | .moving =>
    match s.gen.flight with
    | none => .active .nothing
    | some f =>
      if f.move.kind = .exit then
        if !inside && (b.bind (entryDistance f)).isNone then .active .nothing else .arming .exit .nothing
      else decidePath f s.gen.v ab inside (b.bind (entryDistance f)) .cut
  | .braking =>
    match s.gen.flight with
    | none => .active .nothing
    | some f => decidePath f s.gen.v ab inside (b.bind (entryDistance f)) .nothing

/-- The order of a decision is given to the generator (R81, R133). -/
def giveOrder (o : Order) (s : State) : State :=
  match o with
  | .nothing => s
  | .cut => onGen (brakeMove .cut) s
  | .brakeJog => onGen (brakeJog .zone) s

/-- A zone enters the arming set with a condition (R73). -/
def addArm (id : Nat) (cond : ArmCond) (s : State) : State :=
  onEnvelope (fun v => { v with arming := insertArm ⟨id, cond⟩ v.arming }) s

end Sys2Proof.Machine
end

