-- ==== Sys2Proof/Machine/Motion.lean ====
section
/-! DEFINITION. The beginning and ending of moves (R77, R105, R106), the succession (R107), the end of braking and the pushes
of the stack (R101, R110), the end of a jog session (R130), and the entry to UNREGISTERED (R91, R118). -/

namespace Sys2Proof.Machine

/-- A GOTO or RECALL move is to begin (R105): its start check, then its flight; a move with D = 0 is complete as it begins.
The flag says that the move flies. -/
def tryBegin (m : Move) (e : Ev) : Ev × Bool :=
  let e1 := readZones e
  if pathOk e1.st (posOf e1.st) m.target then
    if distance (posOf e1.st) m.target = 0 then (e1.raise .moveDone m.id 0, false)
    else (e1.upd (flyMove m), true)
  else (raiseDropped [m.id] .pathBlocked e1, false)

/-- The generator rests in a state, with no speed and no executing move. -/
def restIn (st : GenState) (s : State) : State :=
  onGen (fun g => { g with state := st, v := 0, flight := none, purpose := none }) s

/-- Item 5 of R107: the generator is IDLE, and the queue head begins; a head that is dropped is followed by the next. -/
def queuePhase : List Move → Ev → Ev
  | [], e => e.upd fun s => restIn .idle (onGen (fun g => { g with queue := [] }) s)
  | m :: r, e =>
    let t := tryBegin m (e.upd fun s => restIn .idle (onGen (fun g => { g with queue := r }) s))
    if t.2 then t.1 else queuePhase r t.1

/-- Items 3 to 5 of R107. -/
def stackPhase : List Context → Ev → Ev
  | [], e => queuePhase e.st.gen.queue (e.upd (onGen fun g => { g with stack := [] }))
  | c :: r, e =>
    match c.resume with
    | .manual => e.upd fun s => restIn .held (onGen (fun g => { g with stack := c :: r }) s)
    | .auto =>
      let t := tryBegin c.move (e.upd (onGen fun g => { g with stack := r }))
      if t.2 then t.1 else stackPhase r t.1

/-- Items 2 to 5 of R107. -/
def advance (e : Ev) : Ev :=
  match e.st.gen.waiting with
  | none => stackPhase e.st.gen.stack e
  | some m =>
    let t := tryBegin m (e.upd (onGen fun g => { g with waiting := none }))
    if t.2 then t.1 else stackPhase t.1.st.gen.stack t.1

/-- The succession of R107 from item 1: the resolution at rest, and the rest of the succession where it leaves the arming
set empty. -/
def succession (e : Ev) : Ev :=
  if e.st.envelope.arming.isEmpty then advance e
  else
    let e1 := resolveArming e
    if e1.st.envelope.arming.isEmpty then advance e1 else e1

/-- The executing move is cleared at rest. -/
def clearFlight (s : State) : State := onGen (fun g => { g with flight := none, v := 0, purpose := none }) s

/-- A move arrives: MOVE_DONE with its id (R106, R110). -/
def arrive (f : Flight) (e : Ev) : Ev := (e.upd clearFlight).raise .moveDone f.move.id 0

/-- An exit move arrives (R87): its plan is discarded, the arming set is resolved, and the succession follows from item 2
where the set is empty. -/
def arriveExit (f : Flight) (e : Ev) : Ev :=
  let e1 := resolveArming ((arrive f e).upd (onEnvelope fun v => { v with exit := none }))
  if e1.st.envelope.arming.isEmpty then advance e1 else e1

/-- A move completes at its target (R106, R87). -/
def complete (f : Flight) (e : Ev) : Ev := if f.move.kind = .exit then arriveExit f e else succession (arrive f e)

/-- A braked move is dropped with a reason, and the succession follows (R81, R114). -/
def dropBraked (f : Flight) (reason : DropReason) (e : Ev) : Ev :=
  succession (raiseDropped [f.move.id] reason (e.upd clearFlight))

/-- A braked move is pushed on the stack (R101), and the succession follows. -/
def pushBraked (f : Flight) (r : Resume) (e : Ev) : Ev :=
  succession (e.upd fun s => clearFlight (onGen (fun g => { g with stack := ⟨f.move, r⟩ :: g.stack }) s))

/-- The end of braking (the table of section 6.7, R110): `atTarget` when the step committed s' = D with a speed above 0. -/
def endBraking (f : Flight) (atTarget : Bool) (e : Ev) : Ev :=
  match e.st.gen.purpose with
  | some .cut => dropBraked f .cut e
  | some .flush => dropBraked f .flush e
  | some .hold => if atTarget then succession (arrive f e) else pushBraked f .manual e
  | some .priority => if atTarget then succession (arrive f e) else pushBraked f .auto e
  | some .halt => enterHalted e
  | none => e

/-- A jog session closes and the succession follows (R130, R134). -/
def endJog (e : Ev) : Ev := succession (e.upd (onGen fun g => { g with jog := Jog.closed }))

/-- The entry to UNREGISTERED (R118, R91): everything waiting is dropped with the reason SPAN, the position, the previous
lengths and the step timer go, BRAKE is asserted, and every ARMING zone becomes ACTIVE. -/
def enterUnregistered (settling : Bool) (e : Ev) : Ev :=
  let ids := allIds e.st.gen
  let e1 := raiseDropped ids .span (e.upd fun s =>
    { s with gen := { s.gen.emptied .unregistered with pos := none, stepTimer := none }
             lengths := none
             drive := { s.drive with brake := true } })
  (armingIds e1.st).foldl (fun e id => makeActive settling id e) e1

/-- The arming hold lifts with the generator at rest (R83): the succession is taken up from item 2. -/
def liftHold (e : Ev) : Ev :=
  if e.st.envelope.arming.isEmpty then
    match e.st.gen.state with
    | .idle | .held => advance e
    | .unregistered | .moving | .jogging | .braking | .halted | .stopped => e
  else e

end Sys2Proof.Machine
end

