-- ==== Sys2Proof/Machine/Lengths.lean ====
section
/-! DEFINITION. The Length Unit (chapter 8): geometric length, stretch and commanded length (R138 to R141), the drum check
(R142), the rate limit (R144); and the Drive Port's frames to the drives (R152 to R154), misses and loss (R158,
R162). -/

namespace Sys2Proof.Machine

/-- The largest stretch applied, in micrometres (R140). -/
def stretchMax : Nat := 2000000

/-- What the first seven stages give for a winch: the raw stretch, and the commanded length. -/
structure RopeCalc where
  raw : Nat
  commanded : Int
  deriving DecidableEq, Repr

/-- The stretch applied (R140). -/
def RopeCalc.stretch (c : RopeCalc) : Nat := min c.raw stretchMax

/-- The geometric length of a winch's rope to a position (R138). -/
def geometricLength (ws : WinchSpan) (p : Vec3) : Nat := distance (toMicro ws.anchor) p

/-- Stages 1 to 7 for a winch, a position and a tension (R138 to R141). -/
def ropeCalc (ws : WinchSpan) (p : Vec3) (tension : Nat) : RopeCalc :=
  let g := geometricLength ws p
  let raw := (g * (tension * ws.compliance) + 2 ^ (ws.scale - 1)) / 2 ^ ws.scale
  ⟨raw, (g : Int) - (min raw stretchMax : Nat) + (ws.offset : Int) * 1000⟩

/-- The four results for a position with the tensions the channels hold (R137). -/
def ropeCalcs (s : State) (sp : Span) (p : Vec3) : PerWinch RopeCalc :=
  PerWinch.of fun w => ropeCalc (sp.winch.get w) p (s.drive.channels.get w).tension

/-- A length lies within a winch's drum range (R142). -/
def inDrum (ws : WinchSpan) (x : Int) : Bool :=
  decide ((ws.lmin : Int) * 1000 ≤ x) && decide (x ≤ (ws.lmax : Int) * 1000)

/-- The rate limit (R144). -/
def rateLimited (rate : Nat) (prev commanded : Int) : Int :=
  if (commanded - prev).natAbs ≤ rate then commanded else if prev < commanded then prev + rate else prev - rate

/-- The commanded length is beyond the rate limit of the previous one (R144). -/
def rateSaturated (rate : Nat) (prev commanded : Int) : Bool := decide (rate < (commanded - prev).natAbs)

/-- The previous delivered length of a winch; where there is none the commanded length stands in, and no offer is computed
then. -/
def prevOf (s : State) (w : Winch) (commanded : Int) : Int :=
  match s.lengths with
  | some l => (l.get w).prev
  | none => commanded

/-- One event flag with a winch as its subject is raised for each winch that meets a condition, in winch order, so the subject
is the lowest-numbered. R144 says so for RATE_SAT; DESIGN CHOICE: the same order is taken for STRETCH_CLAMP, where R140 gives
none (log entry 48). -/
def raiseWinches (f : EventFlag) (hit : Winch → Bool) (e : Ev) : Ev :=
  Winch.all.foldl (fun e w => if hit w then e.raise f w.number 0 else e) e

/-- An offer is computed (R137): refused with DRUM_RANGE and a quick stop (R142), or accepted with the lengths to be
delivered (R144, R145). -/
def lengthOffer (sp : Span) (p : Vec3) (e : Ev) : Ev × Option (PerWinch RopeLength) :=
  let rc := ropeCalcs e.st sp p
  let e1 := raiseWinches .stretchClamp (fun w => decide (stretchMax < (rc.get w).raw)) e
  match Winch.all.find? fun w => !inDrum (sp.winch.get w) (rc.get w).commanded with
  | some w => (quickStop (reportFault .drumRange (.number w.number) e1), none)
  | none =>
    let prev (w : Winch) : Int := prevOf e.st w (rc.get w).commanded
    (raiseWinches .rateSat (fun w => rateSaturated (sp.winch.get w).rate (prev w) (rc.get w).commanded) e1,
      some (PerWinch.of fun w =>
        ⟨rateLimited (sp.winch.get w).rate (prev w) (rc.get w).commanded, (rc.get w).stretch⟩))

/-! The Drive Port. -/

/-- Changes the Drive Port. -/
def onDrive (f : DrivePort → DrivePort) (s : State) : State := { s with drive := f s.drive }

/-- Changes the channel of a winch. -/
def onChannel (w : Winch) (f : Channel → Channel) (s : State) : State :=
  onDrive (fun d => { d with channels := d.channels.set w (f (d.channels.get w)) }) s

/-- The latest frame has been sent and not answered, so that it counts as missed when the next one is sent (R152). -/
def Channel.misses? (c : Channel) : Bool := c.latest.isSome && !c.answered

/-- The channel with the frame it replaces settled (R158): the miss count stops at 255, and an ALIVE channel whose count
reaches 5 becomes LOST. -/
def Channel.settle (c : Channel) : Channel :=
  if c.misses? then
    let n := min 255 (c.misses + 1)
    { c with misses := n, status := if 5 ≤ n ∧ c.status = .alive then .lost else c.status }
  else c

/-- The channel after a frame is sent: the frame before it settled, the next sequence number, the new latest frame
(R152). -/
def Channel.send (k : Sent) (c : Channel) : Channel :=
  { c.settle with sequence := c.sequence + 1, latest := some k, answered := false }

/-- The generator is in a state in which a lost drive trips it (R161, R162). -/
def registered (s : State) : Bool :=
  match s.gen.state with
  | .unregistered | .stopped => false
  | .idle | .moving | .jogging | .braking | .held | .halted => true

/-- A frame is sent to one channel; a channel that becomes LOST while the generator is registered reports DRIVE_LOST and
trips it (R162). -/
def sendTo (k : Winch → Sent) (e : Ev) (w : Winch) : Ev :=
  let old := e.st.drive.channels.get w
  let e1 := e.upd (onChannel w (Channel.send (k w)))
  if old.status ≠ .lost ∧ (old.send (k w)).status = .lost ∧ registered e.st then
    trip (reportFault .driveLost (.number w.number) e1)
  else e1

/-- A sending to the four channels, winch 1 to winch 4 (R152). -/
def sendAll (k : Winch → Sent) (e : Ev) : Ev := Winch.all.foldl (sendTo k) e

/-- A set of four lengths is delivered (R153). -/
def sendSet (l : PerWinch RopeLength) (e : Ev) : Ev :=
  let e1 := e.upd (onDrive fun d =>
    { d with channels := PerWinch.of fun w => { d.channels.get w with lastCommand := some (l.get w).prev } })
  (sendAll (fun w => .length (l.get w).prev) e1).upd
    (onDrive fun d => { d with setSinceRelease := true, setSinceExpiry := true })

/-- What the hold timer sends (the table of R154). -/
inductive HoldAction where
  | hold | again | nothing
  deriving DecidableEq, Repr

/-- The table of R154. -/
def holdAction (d : DrivePort) : HoldAction :=
  if d.brake then .hold
  else if d.setSinceRelease = false then .hold
  else if d.setSinceExpiry then .nothing
  else .again

end Sys2Proof.Machine
end

