-- ==== Sys2Proof/Machine/Feedback.lean ====
section
/-! DEFINITION. A matched feedback frame (R156, R157, R159): tension status (R167 to R170), rope wear (R175 to R177), drive
status (R161) and the following check (R160). -/

namespace Sys2Proof.Machine

/-- The new status of a winch from its tension and its present status (the table of R167). -/
def tensionNext (l : Limits) (present : TensionStatus) (t : Nat) : TensionStatus :=
  if l.criticalLimit < t then .critical
  else if present = .critical ∧ l.criticalLimit < t + l.hysteresis then .critical
  else if l.overLimit < t then .overload
  else if (present = .critical ∨ present = .overload) ∧ l.overLimit < t + l.hysteresis then .overload
  else if t < l.slackLimit then .slack
  else if present = .slack ∧ t < l.slackLimit + l.hysteresis then .slack
  else .normal

/-- The value of a tension status (section 12.6). -/
def TensionStatus.code : TensionStatus → Nat
  | .normal => 1 | .slack => 2 | .overload => 3 | .critical => 4

/-- The generator states in which an entry to OVER or SLACK is a fault (R170). -/
def inFlight (s : State) : Bool :=
  match s.gen.state with
  | .idle | .held | .moving | .jogging | .braking => true
  | .halted | .stopped | .unregistered => false

/-- An entry into OVER or SLACK (R170). -/
def tensionHalt (c : FaultClass) (w : Winch) (e : Ev) : Ev :=
  if inFlight e.st then controlledHalt (reportFault c (.number w.number) e) else e

/-- What follows an entry into a status (R169, R170). -/
def tensionEffects (w : Winch) (st : TensionStatus) (e : Ev) : Ev :=
  match st with
  | .normal => e
  | .critical => trip (reportFault .tensionCritical (.number w.number) e)
  | .overload => tensionHalt .tensionOver w e
  | .slack => tensionHalt .tensionSlack w e

/-- The Tension Monitor is handed a tension (R167, R168). -/
def monitorTension (w : Winch) (t : Nat) (e : Ev) : Ev :=
  let present := e.st.tension.get w
  let new := tensionNext e.st.limits present t
  if new = present then e
  else
    tensionEffects w new
      ((e.upd fun s => { s with tension := s.tension.set w new }).raise (.tension w) new.code 0)

/-- The segment at the sheave at a measured length (R176). -/
def wearSegment (measured : Nat) : Nat := min (measured / 16000000) 63

/-- The Rope Wear Table is fed (R176, R177): the accumulator takes the travel, and each whole metre in it is a count on the
segment at the sheave; counters stop at 65,535. -/
def feedWear (w : Winch) (measured travel : Nat) (e : Ev) : Ev :=
  let old := e.st.wear.get w
  let total := old.accumulator + travel
  let counts := total / 1000000
  let seg := wearSegment measured
  let counter := min 65535 ((old.counters[seg]?).getD 0 + counts)
  let new : WinchWear :=
    ⟨if counts = 0 then old.counters else old.counters.setIfInBounds seg counter, total % 1000000⟩
  let e1 := e.upd fun s => { s with wear := s.wear.set w new }
  if 0 < counts ∧ e.st.limits.wear ≤ counter then e1.raise (.wear w) seg 0 else e1

/-- The drive status a status byte names (section 12.6). -/
def driveStatusOf : Nat → Option DriveStatus
  | 1 => some .ready
  | 2 => some .braked
  | 3 => some .fault
  | _ => none

/-- A feedback frame of the right length and check field is well formed on a link (R156); its drive status. -/
def wellFormedStatus (link : Winch) (f : FeedbackFields) : Option DriveStatus :=
  if f.winch = link.number ∧ f.measured < 2 ^ 30 then driveStatusOf f.status else none

/-- A well-formed feedback frame is matched (R157). -/
def Channel.matches? (c : Channel) (echo : Byte) : Bool := c.latest.isSome && echo == c.sequence && !c.answered

/-- The channel after a matched feedback (R157, R159 item 1). -/
def Channel.store (c : Channel) (f : FeedbackFields) (st : DriveStatus) : Channel :=
  { c with answered := true, misses := 0, status := .alive, measured := some f.measured, tension := f.tension,
           drive := some st }

/-- The drive status is judged by the generator state as the frame was taken (R161). -/
def judgeDrive (w : Winch) (wasRegistered : Bool) (st : DriveStatus) (e : Ev) : Ev :=
  if st = .fault ∧ wasRegistered then trip (reportFault .driveFault (.number w.number) e) else e

/-- The following check (R160). -/
def followCheck (w : Winch) (sent : Option Sent) (measured : Nat) (e : Ev) : Ev :=
  match sent with
  | some (.length cmd) =>
    if e.st.limits.following * 1000 < (cmd - (measured : Int)).natAbs then
      controlledHalt (reportFault .following (.number w.number) e)
    else e
  | some .hold | none => e

/-- The wear feed of a matched feedback (R159 item 3, R175). -/
def feedIfMoved (w : Winch) (brake : Bool) (before : Option Int) (measured : Nat) (e : Ev) : Ev :=
  match before with
  | some m => if brake then e else feedWear w measured ((measured : Int) - m).natAbs e
  | none => e

/-- A matched feedback (R159): BRAKE and the generator state are judged as the frame is taken. -/
def takeFeedback (w : Winch) (f : FeedbackFields) (st : DriveStatus) (e : Ev) : Ev :=
  let c := e.st.drive.channels.get w
  let brake := e.st.drive.brake
  let reg := registered e.st
  let e1 := e.upd (onChannel w fun c => c.store f st)
  let e2 := monitorTension w f.tension e1
  let e3 := feedIfMoved w brake c.measured f.measured e2
  let e4 := judgeDrive w reg st e3
  if brake then e4 else followCheck w c.latest f.measured e4

/-- A feedback frame on a drive link (R155 to R157): discarded, ignored or taken. -/
def receiveFeedback (w : Winch) (frame : Body FeedbackFields) (e : Ev) : Ev :=
  match frame with
  | .malformed => e
  | .fields f =>
    match wellFormedStatus w f with
    | none => e
    | some st => if (e.st.drive.channels.get w).matches? f.echo then takeFeedback w f st e else e

end Sys2Proof.Machine
end

