-- ==== Sys2Proof/Machine/Operands.lean ====
section
/-! DEFINITION. The tests and the limits that requests put on their fields: the field tests of R23, R27, R58, R61, the checks
of R5, R6 and R13, and the clamps of R23, R27, R76 and R99. A list of tests names the first that fails by its place, counting
from 1 (R210). -/

namespace Sys2Proof.Machine

/-- The place, counting from 1, of the first test that fails; each entry says that its test fails. -/
def firstFailing (fails : List Bool) : Option Nat := (fails.findIdx? fun b => b).map fun i => i + 1

/-- The field tests of ZONE_ADD (R23). -/
def zoneAddBad (f : ZoneAddFields) : Option Nat :=
  firstFailing
    [decide (63 < f.id), decide (f.kind ≠ 1) && decide (f.kind ≠ 2), !boxCoordsOk f.box, !boxStrict f.box,
      if f.kind = 2 then f.cap.isNone || f.cap == some 0 else f.cap.isSome, f.lifetime == some 0]

/-- The field tests of ZONE_AMEND (R27). -/
def zoneAmendBad (z : Zone) (f : ZoneAmendFields) : Option Nat :=
  firstFailing
    [f.box.isNone && f.cap.isNone && f.lifetime.isNone, f.box.any fun b => !boxCoordsOk b || !boxStrict b,
      f.cap == some 0 || (f.cap.isSome && z.isKeepOut),
      z.suspect && (f.box.isNone || f.lifetime.isNone || (z.isSlow && f.cap.isNone))]

/-- A value is limited to a largest one. -/
def limitTo (m : Nat) (o : Option Nat) : Option Nat := o.map fun n => min n m

/-- A value is above a limit. -/
def exceeds (m : Nat) (o : Option Nat) : Bool := o.any fun n => decide (m < n)

/-- The longest lifetime, in seconds (R23). -/
def lifetimeMax : Nat := 3600

/-- The top of the range of a cue's speed (section 4.1). -/
def cueSpeedMax : Nat := 25000

/-- The field tests of CUE_STORE (R58, item 2). -/
def cueStoreBad (f : CueStoreFields) : Option Nat :=
  firstFailing
    [decide (95 < f.number), f.target.isSome == f.here, f.target.any fun t => !pointOk t,
      f.speed == some 0 || exceeds cueSpeedMax f.speed]

/-- The field tests of CUE_AMEND (R61, item 3). -/
def cueAmendBad (f : CueAmendFields) : Option Nat :=
  firstFailing
    [f.target.isNone && f.speed.isNone, f.target.any fun t => !pointOk t, exceeds cueSpeedMax f.speed]

/-- The field checks 1 to 3 of SET_SPAN, which are not per winch (R5). -/
def spanBoxBad (w : Box) : Option Nat :=
  firstFailing
    [!boxCoordsOk w, !boxStrict w, decide (w.xhi - w.xlo < 16000) || decide (w.yhi - w.ylo < 12000)]

/-- The field checks 4 to 7 of SET_SPAN hold for a winch (R5). -/
def spanWinchOk (check : Nat) (ws : WinchSpan) : Bool :=
  match check with
  | 4 => pointOk ws.anchor
  | 5 => decide (ws.offset ≤ 65535) && decide (ws.lmin ≤ 1073000) && decide (ws.lmax ≤ 1073000) &&
      decide (ws.lmin < ws.lmax)
  | 6 => [34, 36, 38, 40].contains ws.scale && decide (ws.compliance ≤ 65535)
  | 7 => decide (1 ≤ ws.rate) && decide (ws.rate ≤ 50000)
  | _ => true

/-- Check 8 of SET_SPAN holds (R5). -/
def spanMotionOk (sp : Span) : Bool :=
  decide (1 ≤ sp.top) && decide (sp.top ≤ 25000) && decide (1 ≤ sp.accel) && decide (sp.accel ≤ 64) &&
    decide (sp.accel ≤ sp.brakeAccel) && decide (sp.brakeAccel ≤ 128) && decide (sp.clearance ≤ 5000)

/-- Of a range, the bound that lies farther from a coordinate (R6). -/
def fartherBound (lo hi a : Int) : Int := if (a - lo).natAbs < (a - hi).natAbs then hi else lo

/-- The corner of W farthest from an anchor (R6). -/
def farthestCorner (w : Box) (a : Vec3) : Vec3 :=
  ⟨fartherBound w.xlo w.xhi a.x, fartherBound w.ylo w.yhi a.y, fartherBound w.zlo w.zhi a.z⟩

/-- The rope length, sheave offset included, from a winch to a point in millimetres at zero stretch (R6). -/
def slackLength (ws : WinchSpan) (p : Vec3) : Nat := geometricLength ws (toMicro p) + ws.offset * 1000

/-- Two bounds of a range both lie within 262,143 of a coordinate (R6, check 9). -/
def cornersNear (lo hi a : Int) : Bool := decide ((a - lo).natAbs ≤ 262143) && decide ((a - hi).natAbs ≤ 262143)

/-- The geometric checks 9 to 12 of SET_SPAN hold for a winch (R6). -/
def spanGeometryOk (check : Nat) (w : Box) (ws : WinchSpan) : Bool :=
  match check with
  | 9 => cornersNear w.xlo w.xhi ws.anchor.x && cornersNear w.ylo w.yhi ws.anchor.y &&
      cornersNear w.zlo w.zhi ws.anchor.z
  | 10 => decide (w.zhi + 1000 ≤ ws.anchor.z)
  | 11 => decide (slackLength ws (farthestCorner w ws.anchor) ≤ ws.lmax * 1000)
  | 12 => decide (ws.lmin * 1000 ≤ slackLength ws (clampTo w ws.anchor))
  | _ => true

/-- The first of some per-winch checks that fails, with its winch: check by check, winch 1 to winch 4 within each. -/
def firstWinchFailing (holds : Nat → WinchSpan → Bool) (p : PerWinch WinchSpan) : List Nat → Option (Nat × Nat)
  | [] => none
  | c :: r =>
    match Winch.all.find? fun w => !holds c (p.get w) with
    | some w => some (c, w.number)
    | none => firstWinchFailing holds p r

/-- The first failed check of SET_SPAN and its winch, 0 for a check that is not per winch (R5, R6). -/
def spanBad (sp : Span) : Option (Nat × Nat) :=
  match spanBoxBad sp.w with
  | some n => some (n, 0)
  | none =>
    match firstWinchFailing spanWinchOk sp.winch [4, 5, 6, 7] with
    | some c => some c
    | none =>
      if !spanMotionOk sp then some (8, 0)
      else firstWinchFailing (fun c ws => spanGeometryOk c sp.w ws) sp.winch [9, 10, 11, 12]

/-- The first failed check of SET_LIMITS (R13). -/
def limitsBad (l : Limits) : Option Nat :=
  firstFailing
    [decide (65535 < l.slackLimit) || decide (65535 < l.overLimit) || decide (65535 < l.criticalLimit) ||
        decide (5000 < l.hysteresis),
      decide (l.overLimit < l.slackLimit + 2 * l.hysteresis), decide (l.criticalLimit ≤ l.overLimit),
      decide (l.following < 10) || decide (2000 < l.following) || decide (l.tolerance < 1) ||
        decide (2000 < l.tolerance),
      decide (l.following < l.tolerance), decide (l.wear < 1) || decide (65535 < l.wear)]

end Sys2Proof.Machine
end

