-- ==== Sys2Proof/Machine/Zones.lean ====
section
/-! DEFINITION. The Zone Table's requests and events (chapter 2), POINT_LOOKUP (R56) and the visit of a table operation with
its endings (R26, R31, R32). -/

namespace Sys2Proof.Machine

/-- An operation of a request takes the first visit of a phase, or passes through the phase where it has none (R48). -/
def startPhase (op : TableOp) (e : Ev) (atEnd : TableOp → Ev → Ev) : Ev :=
  match op.next e.st 0 with
  | some op' => e.upd (onZones fun t => { t with op := some op' })
  | none => atEnd op (e.upd (onZones fun t => { t with op := some op }))

/-- A removal phase begins (R50). -/
def startRemoval (op : TableOp) (noExit : Bool) (plan : VisitPlan) (e : Ev) : Ev :=
  startPhase { op with phase := .removing noExit, plan := plan } e endOp

/-- The end of an added zone's indexing (R26); its record is read before its kind and its box are used (R182).
DESIGN CHOICE: a zone that becomes ACTIVE here with remaining lifetime 0, which only damage to its record brings about, does
not fall due, since R40 names only the timer expiry that brings the lifetime to 0, R33 and R35 (log entry 46). -/
def endAdd (op : TableOp) (id : Nat) (e : Ev) : Ev :=
  let e1 := readZone e id
  match zoneAt e1.st id with
  | none => endOp op e1
  | some z =>
    if z.isSlow then endOp op (activationEffects id false (e1.upd (setZoneState id .active)))
    else
      let b := region (clearanceOf e1.st) z.box
      match armingDecision e1.st b with
      | .active o =>
        endOp op (activationEffects id false (e1.upd fun s => setZoneState id .active (giveOrder o s)))
      | .arming c o => endOp op (e1.upd fun s => addArm id c (setZoneState id .arming (giveOrder o s)))
      | .planNow =>
        let e2 := readZones e1
        match planExit e2.st id b with
        | some t => endOp op (e2.upd fun s => beginExit id t (addArm id .exit (setZoneState id .arming s)))
        | none => startRemoval op true .listing (e2.upd (setZoneState id .retiring))

/-- A carried lifetime field is applied: absent leaves the remaining lifetime, 0 makes the zone permanent (R29). -/
def applyLifetime (carried remaining : Option Nat) : Option Nat :=
  match carried with
  | none => remaining
  | some 0 => none
  | some n => some n

/-- The record once its pending box has become its box (R31, R32). -/
def Zone.amended (z : Zone) (p : PendingBox) : Zone :=
  { z with box := p.box, cap := if p.cap.isSome then p.cap else z.cap, remaining := applyLifetime p.lifetime z.remaining,
           revision := z.revision + 1, suspect := false, pendingBox := none }

/-- The contents an amended zone keeps while it is ARMING (R32). -/
def Zone.priorContents (z : Zone) : Prior := ⟨z.box, z.remaining, z.revision, z.suspect⟩

/-- The cells of one box that another does not cover, for a zone (R50). -/
def boxCells (s : State) (z : Zone) (b kept : Box) : List Nat :=
  match s.spanSet.span with
  | some sp => cellsOutside (planRange sp z.isSlow b) (planRange sp z.isSlow kept)
  | none => []

/-- An amend takes effect with its new box ACTIVE: the removal of the cells given up follows (R31, R32). A waiting expiry that
the amend makes void is discarded (R21). -/
def amendActive (op : TableOp) (id : Nat) (z : Zone) (p : PendingBox) (o : Order) (e : Ev) : Ev :=
  let e1 := activationEffects id false
    (e.upd fun s => dropVoidExpiry id (putZone id (some (z.amended p)) (giveOrder o s)))
  startRemoval op false (.cells (boxCells e1.st z z.box p.box)) e1

/-- An amended zone becomes ARMING with its prior contents; it has stopped being ACTIVE, so BLOCKED is recomputed (R32), and a
waiting expiry of the zone is discarded (R21). -/
def amendArming (id : Nat) (z : Zone) (p : PendingBox) (c : ArmCond) (e : Ev) : Ev :=
  recomputeBlocked (e.upd fun s =>
    addArm id c (dropVoidExpiry id
      (putZone id (some { z.amended p with state := .arming, prior := some z.priorContents }) s)))

/-- The end of the indexing of a pending box (R31, R32). -/
def endAmend (op : TableOp) (id : Nat) (e : Ev) : Ev :=
  let e1 := readZone e id
  match zoneAt e1.st id with
  | none => endOp op e1
  | some z =>
    match z.pendingBox with
    | none => endOp op e1
    | some p =>
      if z.isSlow then amendActive op id z p .nothing e1
      else
        let b := region (clearanceOf e1.st) p.box
        match armingDecision e1.st b with
        | .active o => amendActive op id z p o e1
        | .arming c o => endOp op (amendArming id z p c (e1.upd (giveOrder o)))
        | .planNow =>
          let e2 := readZones e1
          match planExit e2.st id b with
          | some t => endOp op ((amendArming id z p .exit e2).upd (beginExit id t))
          | none =>
            startRemoval op true (.cells (boxCells e2.st z p.box z.box))
              (e2.upd (putZone id (some { z with pendingBox := none })))

/-- The end of an insertion phase (R26, R31, R32). -/
def endIndexing (op : TableOp) (e : Ev) : Ev :=
  let id := op.zone.getD 0
  match op.kind with
  | .zoneAdd => endAdd op id e
  | .zoneAmend => endAmend op id e
  | .settlement | .zoneRetire | .withdrawal | .expiry | .cellRebuild | .fullRebuild => endOp op e

/-- The end of a phase. -/
def endPhase (op : TableOp) (e : Ev) : Ev :=
  match op.phase with
  | .inserting => endIndexing op e
  | .removing _ | .rebuilding => endOp op e

/-- CELL_VISIT (R48): the visit of the operation in flight, and, after its last, the end of the phase. Without an operation
there is no visit (log entry 10). -/
def cellVisitEvent (e : Ev) : Ev :=
  match e.st.zones.op with
  | none => e
  | some op =>
    let e1 := visit op e
    let op1 := { op with visited := op.cell :: op.visited }
    match op1.next e1.st (op.cell + 1) with
    | some op' => e1.upd (onZones fun t => { t with op := some op' })
    | none => endPhase op1 e1

/-- CELL_VISIT. -/
def execCellVisit (s : State) : Host.Outcome State Fault Refusal := .next (runEvent s cellVisitEvent)

/-- The record of an accepted ZONE_ADD (R25). -/
def newZone (sp : Span) (l : Link) (f : ZoneAddFields) : Zone :=
  { state := .pending, kindByte := byte f.kind, box := f.box, cap := limitTo sp.top f.cap,
    remaining := limitTo lifetimeMax f.lifetime, ownerByte := ownerByteOf l, revision := 0, pendingBox := none,
    prior := none, suspect := false }

/-- ZONE_ADD (R23 to R25). A capacity count that finds a failed list orders a rebuild, which begins at once in an idle table and
so stands before this request, which is then answered BUSY (log entry 38). DEDUCED: a request refused ID_IN_USE is refused by
the state of the slot alone, and does not read the record that holds it (R24, R186; log entry 40). -/
def zoneAdd (l : Link) (f : ZoneAddFields) (e : Ev) : Ev :=
  match e.st.spanSet.span with
  | none => e.refuse l .notConfigured []
  | some sp =>
    match zoneAddBad f with
    | some n => e.badField l n
    | none =>
      if (zoneAt e.st f.id).isSome then e.refuse l .idInUse []
      else
        let cells := rangeCells (planRange sp (decide (f.kind = 2)) f.box)
        match firstFull none cells e with
        | (e1, some n) => e1.refuse l .cellFull [le16 n]
        | (e1, none) =>
          if e1.st.zones.op.isSome then e1.refuse l .busy []
          else
            startPhase ⟨.zoneAdd, some f.id, some l, exceeds sp.top f.cap || exceeds lifetimeMax f.lifetime,
                .inserting, 0, .cells cells, []⟩
              (e1.upd (putZone f.id (some (newZone sp l f)))) endIndexing

/-- ZONE_ADD. -/
def execZoneAdd (r : Req ZoneAddFields) (s : State) : Host.Outcome State Fault Refusal :=
  .next (request .zoneAdd r (zoneAdd r.link) s)

/-- A zone in a state that ZONE_AMEND and ZONE_RETIRE can act on (R28, R37). -/
def actingZone (s : State) (id : Nat) : Option Zone :=
  (zoneAt s id).bind fun z =>
    match z.state with
    | .arming | .active => some z
    | .pending | .retiring => none

/-- The zone may not be changed from a link: on the operations link, a zone that it does not own, or a suspect one
(R28, R37). -/
def notOwner (l : Link) (z : Zone) : Bool := l == .operations && (!z.ownedByOperations || z.suspect)

/-- An expected revision is present and differs (R28, R37, R61, R63). -/
def stale (expected : Option Byte) (held : Byte) : Bool := expected.any fun r => r != held

/-- A ZONE_AMEND clamps a field (R27). -/
def amendClamps (s : State) (f : ZoneAmendFields) : Bool := exceeds (topSpeed s) f.cap || exceeds lifetimeMax f.lifetime

/-- An accepted ZONE_AMEND without a new box (R29); a waiting expiry that it makes void is discarded (R41). -/
def amendInPlace (l : Link) (z : Zone) (f : ZoneAmendFields) (e : Ev) : Ev :=
  let cap := if f.cap.isSome then limitTo (topSpeed e.st) f.cap else z.cap
  let z' : Zone := { z with cap := cap, remaining := applyLifetime (limitTo lifetimeMax f.lifetime) z.remaining,
                            revision := z.revision + 1 }
  let e1 := e.upd fun s => dropVoidExpiry f.id (putZone f.id (some z') s)
  e1.ok l (amendClamps e.st f) (stateAndRevision e1.st f.id)

/-- A ZONE_AMEND with a new box, from its capacity check on (R28 items 6 and 7, R30); a rebuild that the check orders comes
before it (log entry 38). The cells visited are those of the new box that the old one does not cover, by the records alone
(R49; log entry 39). -/
def amendBox (l : Link) (z : Zone) (f : ZoneAmendFields) (b : Box) (e : Ev) : Ev :=
  match e.st.spanSet.span with
  | none => e.refuse l .notConfigured []
  | some sp =>
    match firstFull (some f.id) (rangeCells (planRange sp z.isSlow b)) e with
    | (e1, some n) => e1.refuse l .cellFull [le16 n]
    | (e1, none) =>
      if e1.st.zones.op.isSome then e1.refuse l .busy []
      else
        startPhase ⟨.zoneAmend, some f.id, some l, amendClamps e1.st f, .inserting, 0,
            .cells (boxCells e1.st z b z.box), []⟩
          (e1.upd (putZone f.id (some
            { z with pendingBox := some ⟨b, limitTo sp.top f.cap, limitTo lifetimeMax f.lifetime⟩ })))
          endIndexing

/-- ZONE_AMEND (R27 to R30); the record is read before its owner check (R186), and not where the zone is refused NO_SUCH_ZONE
(log entry 40). -/
def zoneAmend (l : Link) (f : ZoneAmendFields) (e : Ev) : Ev :=
  match actingZone e.st f.id with
  | none => e.refuse l .noSuchZone []
  | some _ =>
    let e1 := readZone e f.id
    match zoneAt e1.st f.id with
    | none => e1.refuse l .noSuchZone []
    | some z =>
      if notOwner l z then e1.refuse l .notOwner []
      else if stale f.revision z.revision then e1.refuse l .stale [[z.revision]]
      else if z.state = .arming ∨ z.pendingBox.isSome then e1.refuse l .wrongState []
      else
        match zoneAmendBad z f with
        | some n => e1.badField l n
        | none =>
          match f.box with
          | none => amendInPlace l z f e1
          | some b => amendBox l z f b e1

/-- ZONE_AMEND. -/
def execZoneAmend (r : Req ZoneAmendFields) (s : State) : Host.Outcome State Fault Refusal :=
  .next (request .zoneAmend r (zoneAmend r.link) s)

/-- ZONE_RETIRE (R37, R38); the retirement of an ARMING zone drops it from the arming set (R90), and may lift the arming
hold (R83). Prior contents stay in the record until its slot is FREE (log entry 41); a zone refused NO_SUCH_ZONE is not read
(log entry 40). -/
def zoneRetire (l : Link) (f : RetireFields) (e : Ev) : Ev :=
  match actingZone e.st f.id with
  | none => e.refuse l .noSuchZone []
  | some _ =>
    let e1 := readZone e f.id
    match zoneAt e1.st f.id with
    | none => e1.refuse l .noSuchZone []
    | some z =>
      if notOwner l z then e1.refuse l .notOwner []
      else if stale f.revision z.revision then e1.refuse l .stale [[z.revision]]
      else if e1.st.zones.op.isSome then e1.refuse l .busy []
      else
        let op := listingOp .zoneRetire f.id (some l)
        let e2 := e1.upd fun s => dropArm f.id (setZoneState f.id .retiring s)
        if z.state = .arming then liftHold (startPhase op e2 endOp) else startPhase op (recomputeBlocked e2) endOp

/-- ZONE_RETIRE. -/
def execZoneRetire (r : Req RetireFields) (s : State) : Host.Outcome State Fault Refusal :=
  .next (request .zoneRetire r (zoneRetire r.link) s)

/-- The kind of a zone in answers: a stored kind that is neither is taken as KEEP_OUT (R183). -/
def Zone.reportedKind (z : Zone) : Byte := if z.isSlow then slowByte else keepOutByte

/-- The cap of a zone in answers, for a SLOW zone alone (R42, R183). -/
def Zone.reportedCap (z : Zone) : Option Nat := if z.isSlow then z.cap else none

/-- A pending box in an answer (R42). -/
def pendingReport (p : PendingBox) : List Byte := boxBytes p.box ++ optBytes 2 le16 p.cap ++ optBytes 2 le16 p.lifetime

/-- Prior contents in an answer (R42). -/
def priorReport (p : Prior) : List Byte :=
  boxBytes p.box ++ optBytes 2 le16 p.remaining ++ [p.revision] ++ boolByte p.suspect

/-- The details of ZONE_QUERY (R42). -/
def zoneReport (id : Nat) (o : Option Zone) : List (List Byte) :=
  match o with
  | none => [[byte id], [1]]
  | some z =>
    [[byte id], [byte z.state.code], [z.reportedKind], boxBytes z.box, optBytes 2 le16 z.reportedCap,
      optBytes 2 le16 z.remaining, [z.ownerByte], [z.revision], boolByte z.suspect,
      optBytes 30 pendingReport z.pendingBox, optBytes 29 priorReport z.prior]

/-- ZONE_QUERY (R42). -/
def zoneQuery (l : Link) (id : Nat) (e : Ev) : Ev :=
  if 63 < id then e.badField l 1
  else
    let e1 := readZone e id
    e1.ok l false (zoneReport id (zoneAt e1.st id))

/-- ZONE_QUERY. -/
def execZoneQuery (r : Req Nat) (s : State) : Host.Outcome State Fault Refusal :=
  .next (request .zoneQuery r (zoneQuery r.link) s)

/-- The entry of a zone in ZONE_LIST (R43). -/
def zoneEntry (s : State) (id : Nat) : Option (List Byte) :=
  (zoneAt s id).map fun z => [byte id, z.reportedKind, byte z.state.code] ++ boolByte z.suspect

/-- A list of entries, preceded by their number (R210). -/
def counted (l : List (List Byte)) : List (List Byte) := [byte l.length] :: l

/-- ZONE_LIST (R43). -/
def zoneList (l : Link) (e : Ev) : Ev :=
  let e1 := readZones e
  e1.ok l false (counted (zoneIds.filterMap (zoneEntry e1.st)))

/-- ZONE_LIST. -/
def execZoneList (r : Req Unit) (s : State) : Host.Outcome State Fault Refusal :=
  .next (request .zoneList r (fun _ => zoneList r.link) s)

/-- The value of a cell condition in answers: its place in the table of section 3.3 (R210). -/
def CellCondition.code : CellCondition → Nat
  | .current => 1 | .rebuilding => 2 | .overfull => 3

/-- A point in millimetres lies inside a box of a zone, as POINT_LOOKUP reports it (R56). -/
def lookupIn (s : State) (z : Zone) (p : Vec3) (b : Box) : Bool :=
  (region (if z.isSlow then 0 else clearanceOf s) b).any fun r => boxHas r (toMicro p)

/-- The entry of a zone in POINT_LOOKUP (R56). -/
def lookupEntry (s : State) (p : Vec3) (id : Nat) : Option (List Byte) :=
  (zoneAt s id).map fun z =>
    [byte id, z.reportedKind, byte z.state.code] ++ boolByte (lookupIn s z p z.box) ++
      optBytes 1 (fun b : PendingBox => boolByte (lookupIn s z p b.box)) z.pendingBox ++
      optBytes 1 (fun b : Prior => boolByte (lookupIn s z p b.box)) z.prior

/-- The ids POINT_LOOKUP lists for a cell (R56). -/
def lookupIds (s : State) (n : Nat) : List Nat := if condAt s n = .current then idsAt s n else coverIds s n

/-- POINT_LOOKUP (R56); its one field test is numbered 1 (log entry 7). -/
def pointLookup (l : Link) (p : Vec3) (e : Ev) : Ev :=
  match e.st.spanSet.span with
  | none => e.refuse l .notConfigured []
  | some sp =>
    if !pointOk p then e.badField l 1
    else if !boxHas sp.w p then e.refuse l .outOfVolume []
    else
      let n := cellOf sp.w (toMicro p)
      let e1 := readCell n e
      let e2 := if condAt e1.st n = .current then (idsAt e1.st n).foldl readZone e1 else readZones e1
      e2.ok l false
        ([[byte (n % 16)], [byte (n / 16)], [byte (condAt e2.st n).code]] ++
          counted ((lookupIds e2.st n).filterMap (lookupEntry e2.st p)))

/-- POINT_LOOKUP. -/
def execPointLookup (r : Req Vec3) (s : State) : Host.Outcome State Fault Refusal :=
  .next (request .pointLookup r (pointLookup r.link) s)

/-- One zone at the one-second timer: an ACTIVE temporary zone with more than 0 left is read and decremented (R39).
DESIGN CHOICE: one that stands at 0 by damage to its record is passed over, and does not fall due (log entry 46). -/
def countDown (e : Ev) (id : Nat) : Ev :=
  if (zoneAt e.st id).any fun z => z.state == .active && z.remaining.any fun n => decide (0 < n) then
    let e1 := readZone e id
    match zoneAt e1.st id with
    | some z => e1.upd (putZone id (some { z with remaining := z.remaining.map fun n => n - 1 }))
    | none => e1
  else e

/-- The zones that this expiry of the timer brings to 0, the only ones it lets fall due (R39, R40; log entry 46). -/
def dueNow (s : State) : List Nat :=
  zoneIds.filter fun i => (zoneAt s i).any fun z => z.state == .active && z.remaining == some 1

/-- ONE_SECOND_TIMER_EXPIRY (R39, R40), where the timer runs. -/
def oneSecond (e : Ev) : Ev :=
  match e.st.zones.secondTimer with
  | none => e
  | some _ =>
    let due := dueNow e.st
    orderWork (due.map Work.expiry)
      ((zoneIds.foldl countDown e).upd (onZones fun t => { t with secondTimer := some 1000 }))

/-- ONE_SECOND_TIMER_EXPIRY. -/
def execOneSecondTimerExpiry (s : State) : Host.Outcome State Fault Refusal := .next (runEvent s oneSecond)

end Sys2Proof.Machine
end

