-- ==== Sys2Proof/Machine/DriveEvents.lean ====
section
/-! DEFINITION. The commands of chapters 9 and 10: the hold timer (R154), feedback frames (R155 to R159), the STOP input (R163),
DRIVE_QUERY (R165), TENSION_QUERY (R173) and the wear requests (R178 to R180); and the bytes of the frames sent to the
drives (R209). -/

namespace Sys2Proof.Machine

/-- The frames of a hold timer expiry (R154). -/
def holdFrames (e : Ev) : Ev :=
  match holdAction e.st.drive with
  | .nothing => e
  | .hold => sendAll (fun _ => .hold) e
  | .again =>
    let d := e.st.drive
    sendAll (fun w => .length (((d.channels.get w).lastCommand).getD 0)) e

/-- HOLD_TIMER_EXPIRY (R154), where the timer runs: its frames, and the delivery record cleared; the timer goes on at 2 ms. -/
def holdTimer (e : Ev) : Ev :=
  match e.st.drive.holdTimer with
  | none => e
  | some _ => (holdFrames e).upd (onDrive fun d => { d with setSinceExpiry := false, holdTimer := some 2 })

/-- HOLD_TIMER_EXPIRY. -/
def execHoldTimerExpiry (s : State) : Host.Outcome State Fault Refusal := .next (runEvent s holdTimer)

/-- FEEDBACK_FRAME: the receiver of the link hunts again (R155), and the frame is discarded, ignored or taken. -/
def feedbackEvent (w : Winch) (frame : Body FeedbackFields) (e : Ev) : Ev :=
  receiveFeedback w frame (e.upd (onDrive fun d => { d with receivers := d.receivers.set w .hunting }))

/-- FEEDBACK_FRAME. -/
def execFeedbackFrame (w : Winch) (frame : Body FeedbackFields) (s : State) : Host.Outcome State Fault Refusal :=
  .next (runEvent s (feedbackEvent w frame))

/-- The STOP input takes a level (R151, R163): the level recorded follows it except during a reset. -/
def setStop (asserted : Bool) (s : State) : State :=
  { s with drive := { s.drive with stopInput := asserted,
                                   stopLevel := if s.resetting then s.drive.stopLevel else asserted } }

/-- STOP_ASSERTED (R163, R117). -/
def execStopAsserted (s : State) : Host.Outcome State Fault Refusal := .next (runEvent (setStop true s) trip)

/-- STOP_RELEASED (R163). -/
def execStopReleased (s : State) : Host.Outcome State Fault Refusal := .next (setStop false s)

/-- The value of a link status in answers: its place in the table of section 9.1 (R210). -/
def LinkStatus.code : LinkStatus → Nat
  | .silent => 1 | .alive => 2 | .lost => 3

/-- The value of a drive status (section 12.6). -/
def DriveStatus.code : DriveStatus → Nat
  | .ready => 1 | .braked => 2 | .fault => 3

/-- The value of a frame kind in answers: LENGTH 1, HOLD 2 (section 12.6). -/
def Sent.code : Sent → Nat
  | .length _ => 1
  | .hold => 2

/-- A length in micrometres in an answer (R210). -/
def lengthBytes (x : Int) : List Byte := le32 x.toNat

/-- A channel in DRIVE_QUERY (R165). -/
def channelReport (c : Channel) : List (List Byte) :=
  [[byte c.status.code], [byte c.misses], optBytes 2 (fun k : Sent => [c.sequence, byte k.code]) c.latest,
    boolByte c.answered, optBytes 4 lengthBytes c.lastCommand, optBytes 4 lengthBytes c.measured, le16 c.tension,
    optBytes 1 (fun d : DriveStatus => [byte d.code]) c.drive]

/-- DRIVE_QUERY (R165): the levels of BRAKE and STOP are 1 for asserted and 0 for released (log entry 7). -/
def driveQuery (l : Link) (e : Ev) : Ev :=
  e.ok l false
    ([boolByte e.st.drive.brake, boolByte e.st.drive.stopLevel] ++ e.st.drive.channels.toList.flatMap channelReport)

/-- DRIVE_QUERY. -/
def execDriveQuery (r : Req Unit) (s : State) : Host.Outcome State Fault Refusal :=
  .next (request .driveQuery r (fun _ => driveQuery r.link) s)

/-- A winch in TENSION_QUERY (R173). -/
def tensionReport (s : State) (w : Winch) : List (List Byte) :=
  let c := s.drive.channels.get w
  [le16 c.tension, boolByte c.measured.isSome, [byte (s.tension.get w).code],
    optBytes 4 (fun l : PerWinch RopeLength => lengthBytes (l.get w).stretch) s.lengths]

/-- TENSION_QUERY (R173). -/
def tensionQuery (l : Link) (e : Ev) : Ev :=
  e.ok l false
    ([le16 e.st.limits.slackLimit, le16 e.st.limits.overLimit, le16 e.st.limits.criticalLimit,
        le16 e.st.limits.hysteresis] ++ Winch.all.flatMap (tensionReport e.st))

/-- TENSION_QUERY. -/
def execTensionQuery (r : Req Unit) (s : State) : Host.Outcome State Fault Refusal :=
  .next (request .tensionQuery r (fun _ => tensionQuery r.link) s)

/-- WEAR_QUERY (R178); its one field test is numbered 1 (log entry 7). -/
def wearQuery (l : Link) (n : Nat) (e : Ev) : Ev :=
  match Winch.ofNumber n with
  | none => e.badField l 1
  | some w =>
    e.ok l false
      ([[byte n]] ++ (e.st.wear.get w).counters.toList.map le16 ++
        [le32 (e.st.wear.get w).accumulator, le16 e.st.limits.wear])

/-- WEAR_QUERY. -/
def execWearQuery (r : Req Nat) (s : State) : Host.Outcome State Fault Refusal :=
  .next (request .wearQuery r (wearQuery r.link) s)

/-- A winch's table is rewritten from the safety link while BRAKE is asserted (R179, R180); the one field test is numbered 1
(log entry 7). -/
def rewriteWear (l : Link) (n : Nat) (counters : Vector Nat 64) (e : Ev) : Ev :=
  match Winch.ofNumber n with
  | none => e.badField l 1
  | some w =>
    if e.st.drive.brake then (e.upd fun s => { s with wear := s.wear.set w ⟨counters, 0⟩ }).ok l false []
    else e.refuse l .wrongState []

/-- WEAR_LOAD (R179). -/
def execWearLoad (r : Req WearLoadFields) (s : State) : Host.Outcome State Fault Refusal :=
  .next (request .wearLoad r (fun f => rewriteWear r.link f.winch f.counters) s)

/-- WEAR_RESET (R180). -/
def execWearReset (r : Req Nat) (s : State) : Host.Outcome State Fault Refusal :=
  .next (request .wearReset r (fun n => rewriteWear r.link n (Vector.replicate 64 0)) s)

/-- The bytes of the latest frame on a drive link (section 12.6). -/
def driveFrame (w : Winch) (c : Channel) : List Byte :=
  match c.latest with
  | none => []
  | some (.length cmd) =>
    let inner := [0x01, byte w.number, c.sequence] ++ lengthBytes cmd
    delimiter :: inner ++ crcBytes inner
  | some .hold =>
    let inner := [0x02, byte w.number, c.sequence]
    delimiter :: inner ++ crcBytes inner

end Sys2Proof.Machine
end

