-- ==== Sys2Proof/Machine/SpanRequests.lean ====
section
/-! DEFINITION. The requests of chapter 1: SET_SPAN with its full rebuild (R7 to R11), SET_LIMITS (R13, R14), LOCK (R15) and
CONFIG_QUERY (R16). -/

namespace Sys2Proof.Machine

/-- The number of zones a cell would list under a span (R8). -/
def newCount (s : State) (sp : Span) (n : Nat) : Nat :=
  (zoneIds.filter fun i => (zoneAt s i).any fun z => inRange (planRange sp z.isSlow z.box) n).length

/-- The first cell, in row-major order, that would receive more than eight ids under a span (R8). -/
def firstOverfull (s : State) (sp : Span) : Option Nat := cellIds.find? fun n => decide (8 < newCount s sp n)

/-- The generator is in a state that excludes SET_SPAN (R7, item 3). -/
def excludesSpan (s : State) : Bool :=
  match s.gen.state with
  | .moving | .jogging | .braking | .held | .stopped => true
  | .unregistered | .idle | .halted => false

/-- The full rebuild (R11, R54): every list is discarded, and all 192 cells are to be visited. -/
def beginFullRebuild (l : Link) (s : State) : State :=
  onZones (fun t => { t with op := some ⟨.fullRebuild, none, some l, false, .rebuilding, 0, .cells (cellIds.drop 1), []⟩ })
    { s with cells := Vector.replicate 192 ⟨[], cellCheck [], .rebuilding⟩ }

/-- An accepted SET_SPAN (R9 to R11): the new values, the full rebuild, the generator UNREGISTERED with its effects, and
the BLOCKED flags. -/
def acceptSpan (l : Link) (sp : Span) (e : Ev) : Ev :=
  recomputeBlocked
    (enterUnregistered false
      (e.upd fun s => beginFullRebuild l { s with spanSet := { s.spanSet with span := some sp } }))

/-- SET_SPAN (R7, R8). -/
def setSpan (l : Link) (sp : Span) (e : Ev) : Ev :=
  if e.st.spanSet.locked then e.refuse l .locked []
  else
    match spanBad sp with
    | some c => e.refuse l .badField [[byte c.1], [byte c.2]]
    | none =>
      if excludesSpan e.st then e.refuse l .wrongState []
      else if e.st.zones.op.isSome then e.refuse l .busy []
      else
        let e1 := readZones e
        match firstOverfull e1.st sp with
        | some n => e1.refuse l .cellFull [le16 n, [byte (newCount e1.st sp n)]]
        | none => acceptSpan l sp e1

/-- SET_SPAN. -/
def execSetSpan (r : Req Span) (s : State) : Host.Outcome State Fault Refusal :=
  .next (request .setSpan r (setSpan r.link) s)

/-- SET_LIMITS (R13, R14). -/
def setLimits (l : Link) (v : Limits) (e : Ev) : Ev :=
  if e.st.spanSet.locked then e.refuse l .locked []
  else
    match limitsBad v with
    | some n => e.badField l n
    | none => (e.upd fun s => { s with limits := v }).ok l false []

/-- SET_LIMITS. -/
def execSetLimits (r : Req Limits) (s : State) : Host.Outcome State Fault Refusal :=
  .next (request .setLimits r (setLimits r.link) s)

/-- LOCK (R15). -/
def lock (l : Link) (e : Ev) : Ev :=
  match e.st.spanSet.span with
  | none => e.refuse l .notConfigured []
  | some _ => (e.upd fun s => { s with spanSet := { s.spanSet with locked := true } }).ok l false []

/-- LOCK. -/
def execLock (r : Req Unit) (s : State) : Host.Outcome State Fault Refusal :=
  .next (request .lock r (fun _ => lock r.link) s)

/-- One per-winch field of the Span Set, winch 1 to winch 4 (R16). -/
def perWinch (p : PerWinch WinchSpan) (f : WinchSpan → List Byte) : List Byte := (p.toList.map f).flatten

/-- The Span Set in the order of the table of section 1.1 (R16), each field as SET_SPAN carries it (R210). -/
def spanReport (sp : Span) : List Byte :=
  boxBytes sp.w ++ perWinch sp.winch (fun w => pointBytes w.anchor) ++ perWinch sp.winch (fun w => le16 w.offset) ++
    perWinch sp.winch (fun w => le32 w.lmin ++ le32 w.lmax) ++ perWinch sp.winch (fun w => le16 w.compliance) ++
    perWinch sp.winch (fun w => [byte w.scale]) ++ perWinch sp.winch (fun w => le16 w.rate) ++ le16 sp.top ++
    [byte sp.accel, byte sp.brakeAccel] ++ le16 sp.clearance

/-- The Limit Set in the order of its table, each value in a unit of its own (R16). -/
def limitsReport (v : Limits) : List (List Byte) :=
  [le16 v.slackLimit, le16 v.overLimit, le16 v.criticalLimit, le16 v.hysteresis, le16 v.following, le16 v.tolerance,
    le16 v.wear]

/-- CONFIG_QUERY (R16). -/
def configQuery (l : Link) (e : Ev) : Ev :=
  e.ok l false
    ([[if e.st.spanSet.span.isSome then 2 else 1], boolByte e.st.spanSet.locked,
        optBytes 138 spanReport e.st.spanSet.span] ++ limitsReport e.st.limits)

/-- CONFIG_QUERY. -/
def execConfigQuery (r : Req Unit) (s : State) : Host.Outcome State Fault Refusal :=
  .next (request .configQuery r (fun _ => configQuery r.link) s)

end Sys2Proof.Machine
end

