-- ==== Sys2Proof/Machine/CueRequests.lean ====
section
/-! DEFINITION. The Cue Table's requests (chapter 4), and the resolution of a cue for RECALL (R69). -/

namespace Sys2Proof.Machine

/-- A new record is written into a cue slot, its BLOCKED flag computed, and the store answered (R60). -/
def storeCue (l : Link) (n : Nat) (target : Vec3) (speed : Option Nat) (e : Ev) : Ev :=
  let e1 := computeBlocked (e.upd (putCue n (some ⟨target, speed, 0, false, false⟩))) n
  e1.ok l false
    [[byte n], pointBytes target, [0], boolByte ((cueAt e1.st n).any Cue.blocked)]

/-- CUE_STORE (R58 to R60). -/
def cueStore (l : Link) (f : CueStoreFields) (e : Ev) : Ev :=
  match e.st.spanSet.span with
  | none => e.refuse l .notConfigured []
  | some sp =>
    match cueStoreBad f with
    | some n => e.badField l n
    | none =>
      match f.target with
      | none =>
        if registered e.st then storeCue l f.number (toMm (posOf e.st)) f.speed e else e.refuse l .notRegistered []
      | some t => if boxHas sp.w t then storeCue l f.number t f.speed e else e.refuse l .outOfVolume []

/-- CUE_STORE. -/
def execCueStore (r : Req CueStoreFields) (s : State) : Host.Outcome State Fault Refusal :=
  .next (request .cueStore r (cueStore r.link) s)

/-- The speed of a cue after an amend: absent leaves it, 0 removes it (R62). -/
def amendSpeed (carried held : Option Nat) : Option Nat :=
  match carried with
  | none => held
  | some 0 => none
  | some n => some n

/-- An accepted CUE_AMEND (R62). -/
def amendCue (l : Link) (c : Cue) (f : CueAmendFields) (e : Ev) : Ev :=
  let c' : Cue := { c with target := f.target.getD c.target, speed := amendSpeed f.speed c.speed,
                           revision := c.revision + 1,
                           suspect := c.suspect && !(f.target.isSome && f.speed.isSome) }
  let e1 := e.upd (putCue f.number (some c'))
  let e2 := if f.target.isSome then computeBlocked e1 f.number else e1
  e2.ok l false
    [[byte f.number], [c'.revision], boolByte ((cueAt e2.st f.number).any Cue.blocked), boolByte c'.suspect]

/-- CUE_AMEND (R61, R62). -/
def cueAmend (l : Link) (f : CueAmendFields) (e : Ev) : Ev :=
  let e1 := readCue e f.number
  match cueAt e1.st f.number with
  | none => e1.refuse l .noSuchCue []
  | some c =>
    if stale f.revision c.revision then e1.refuse l .stale [[c.revision]]
    else
      match cueAmendBad f with
      | some n => e1.badField l n
      | none =>
        if f.target.all fun t => inW e1.st (toMicro t) then amendCue l c f e1 else e1.refuse l .outOfVolume []

/-- CUE_AMEND. -/
def execCueAmend (r : Req CueAmendFields) (s : State) : Host.Outcome State Fault Refusal :=
  .next (request .cueAmend r (cueAmend r.link) s)

/-- CUE_RETIRE (R63). -/
def cueRetire (l : Link) (f : RetireFields) (e : Ev) : Ev :=
  let e1 := readCue e f.id
  match cueAt e1.st f.id with
  | none => e1.refuse l .noSuchCue []
  | some c =>
    if stale f.revision c.revision then e1.refuse l .stale [[c.revision]]
    else (e1.upd (putCue f.id none)).ok l false []

/-- CUE_RETIRE. -/
def execCueRetire (r : Req RetireFields) (s : State) : Host.Outcome State Fault Refusal :=
  .next (request .cueRetire r (cueRetire r.link) s)

/-- The details of CUE_QUERY (R64). -/
def cueReport (n : Nat) (o : Option Cue) : List (List Byte) :=
  match o with
  | none => [[byte n], [1]]
  | some c =>
    [[byte n], [2], pointBytes c.target, optBytes 2 le16 c.speed, [c.revision], boolByte c.suspect, boolByte c.blocked]

/-- CUE_QUERY (R64). -/
def cueQuery (l : Link) (n : Nat) (e : Ev) : Ev :=
  if 95 < n then e.badField l 1
  else
    let e1 := readCue e n
    e1.ok l false (cueReport n (cueAt e1.st n))

/-- CUE_QUERY. -/
def execCueQuery (r : Req Nat) (s : State) : Host.Outcome State Fault Refusal :=
  .next (request .cueQuery r (cueQuery r.link) s)

/-- The entry of a cue in CUE_LIST (R65). -/
def cueEntry (s : State) (n : Nat) : Option (List Byte) :=
  (cueAt s n).map fun c => [byte n] ++ boolByte c.blocked ++ boolByte c.suspect

/-- CUE_LIST (R65). -/
def cueList (l : Link) (e : Ev) : Ev :=
  let e1 := cueIds.foldl readCue e
  e1.ok l false (counted (cueIds.filterMap (cueEntry e1.st)))

/-- CUE_LIST. -/
def execCueList (r : Req Unit) (s : State) : Host.Outcome State Fault Refusal :=
  .next (request .cueList r (fun _ => cueList r.link) s)

/-- What the resolution of a cue gives: the cue, or a refusal with the place of the failing test of a BAD_FIELD. -/
inductive Resolved where
  | cue (c : Cue)
  | refused (code : Code) (details : List (List Byte))
  deriving DecidableEq, Repr

/-- The resolution of a cue for RECALL (R69). -/
def resolveCue (n : Nat) (e : Ev) : Ev × Resolved :=
  if 95 < n then (e, .refused .badField [[1]])
  else
    let e1 := readCue e n
    match cueAt e1.st n with
    | none => (e1, .refused .noSuchCue [])
    | some c =>
      if c.suspect then (e1, .refused .cueSuspect [])
      else if c.blocked then (e1, .refused .cueBlocked [])
      else (e1, .cue c)

end Sys2Proof.Machine
end

