-- ==== Sys2Proof/Machine/MoveRequests.lean ====
section
/-! DEFINITION. The motion requests of chapter 6 up to FLUSH: GOTO and RECALL, queued and with the priority option (R99,
R102 to R104), HOLD, RESUME and FLUSH (R111 to R114). -/

namespace Sys2Proof.Machine

/-- A move asked for, once its target is known: target in micrometres, its kind and cue, the speed it names, and whether the
target was limited to W (R76, R99). -/
structure Asked where
  kind : MoveKind
  cue : Option Nat
  target : Vec3
  speed : Option Nat
  limited : Bool
  deriving DecidableEq, Repr

/-- A GOTO's target is limited to W on each axis (R76). -/
def askGoto (s : State) (f : GotoFields) : Asked :=
  let t := toMicro f.target
  let t' := (s.spanSet.span.map fun sp => clampTo (boxMicro sp.w) t).getD t
  ⟨.goto, none, t', f.speed, decide (t' ≠ t)⟩

/-- A RECALL takes the cue's target, and the cue's speed where it names none (R69, R99). -/
def askRecall (n : Nat) (speed : Option Nat) (c : Cue) : Asked :=
  ⟨.recall, some n, toMicro c.target, if speed.isSome then speed else c.speed, false⟩

/-- The speed cap of an admitted move (R99). -/
def capOf (s : State) (a : Asked) : Nat := min (a.speed.getD (topSpeed s)) (topSpeed s)

/-- The answer carries CLAMPED: the target or the speed was limited (R99, R103). -/
def askedClamps (s : State) (a : Asked) : Bool := a.limited || exceeds (topSpeed s) a.speed

/-- The planning point of a queued request (R76). -/
def planningPoint (s : State) : Vec3 :=
  match s.gen.queue.getLast?, s.gen.stack.getLast?, s.gen.flight with
  | some m, _, _ => m.target
  | none, some c, _ => c.move.target
  | none, none, some f =>
    if s.gen.state = .moving ∨ (s.gen.state = .braking ∧ (s.gen.purpose = some .hold ∨ s.gen.purpose = some .priority))
    then f.move.target else posOf s
  | none, none, none => posOf s

/-- The field tests of GOTO and RECALL, by their place in item 1 of R102. -/
def moveBad (target : Option Vec3) (speed : Option Nat) : Option Nat :=
  firstFailing [target.any fun t => !pointOk t, speed == some 0]

/-- An exit move is executing. -/
def exitFlying (s : State) : Bool := s.gen.state == .moving && s.gen.flight.any fun f => f.move.kind == .exit

/-- The generator is HALTED, or BRAKING with purpose HALT (R102, item 3). -/
def halting (s : State) : Bool := s.gen.state == .halted || (s.gen.state == .braking && s.gen.purpose == some .halt)

/-- The refusals of R102 from item 2 up to item 6, which do not read the target. -/
def moveRefusal (priority : Bool) (s : State) : Option Code :=
  if !registered s then some .notRegistered
  else if halting s || (priority && exitFlying s) then some .wrongState
  else if activeSuspect s then some .zoneSuspect
  else if priority && !s.envelope.arming.isEmpty then some .arming
  else if priority && (s.gen.state == .braking || s.gen.state == .jogging) then some .wrongState
  else none

/-- There is no room for the move (R102, item 8). -/
def roomRefusal (priority : Bool) (s : State) : Option Code :=
  if priority then
    (if s.gen.state = .moving ∧ 4 ≤ s.gen.stack.length then some .stackFull else none)
  else if 8 ≤ s.gen.queue.length then some .queueFull else none

/-- A move takes its id, and the counter advances (R99). -/
def admitted (a : Asked) (s : State) : Move := ⟨(takeId s.gen).1, a.kind, a.target, a.cue, capOf s a⟩

/-- The counter after an admission (R99). -/
def countId (s : State) : State := onGen (fun g => { g with nextId := (takeId g).2 }) s

/-- An admitted queued move joins the tail and is answered; in IDLE without arming the head begins at once (R103). -/
def admitQueued (l : Link) (a : Asked) (e : Ev) : Ev :=
  let m := admitted a e.st
  let e1 := (e.ok l (askedClamps e.st a) [le16 m.id]).upd fun s =>
    onGen (fun g => { g with queue := g.queue ++ [m] }) (countId s)
  if e1.st.gen.state = .idle ∧ e1.st.envelope.arming.isEmpty then queuePhase e1.st.gen.queue e1 else e1

/-- An admitted priority move is answered and becomes the waiting priority move; it begins at once in IDLE or HELD, and the
executing move brakes for it in MOVING (R104). -/
def admitPriority (l : Link) (a : Asked) (e : Ev) : Ev :=
  let m := admitted a e.st
  let e1 := (e.ok l (askedClamps e.st a) [le16 m.id]).upd fun s =>
    onGen (fun g => { g with waiting := some m }) (countId s)
  if e1.st.gen.state = .moving then e1.upd (onGen (brakeMove .priority)) else advance e1

/-- A move request from its room check on (R102 items 8 and 9, R103, R104). -/
def admitMove (priority : Bool) (l : Link) (a : Asked) (e : Ev) : Ev :=
  match roomRefusal priority e.st with
  | some c => e.refuse l c []
  | none =>
    let e1 := readZones e
    if pathOk e1.st (if priority then posOf e1.st else planningPoint e1.st) a.target then
      (if priority then admitPriority l a e1 else admitQueued l a e1)
    else e1.refuse l .pathBlocked []

/-- A GOTO (R102). -/
def gotoRequest (priority : Bool) (l : Link) (f : GotoFields) (e : Ev) : Ev :=
  match moveBad (some f.target) f.speed with
  | some n => e.badField l n
  | none =>
    match moveRefusal priority e.st with
    | some c => e.refuse l c []
    | none => admitMove priority l (askGoto e.st f) e

/-- A RECALL (R102, R69). -/
def recallRequest (priority : Bool) (l : Link) (f : RecallFields) (e : Ev) : Ev :=
  match moveBad none f.speed with
  | some n => e.badField l n
  | none =>
    match moveRefusal priority e.st with
    | some c => e.refuse l c []
    | none =>
      match resolveCue f.cue e with
      | (e1, .refused c d) => e1.refuse l c d
      | (e1, .cue c) => admitMove priority l (askRecall f.cue f.speed c) e1

/-- GOTO, queued. -/
def execGoto (r : Req GotoFields) (s : State) : Host.Outcome State Fault Refusal :=
  .next (request .goto r (gotoRequest false r.link) s)

/-- GOTO with the priority option. -/
def execGotoPriority (r : Req GotoFields) (s : State) : Host.Outcome State Fault Refusal :=
  .next (request .goto r (gotoRequest true r.link) s)

/-- RECALL, queued. -/
def execRecall (r : Req RecallFields) (s : State) : Host.Outcome State Fault Refusal :=
  .next (request .recall r (recallRequest false r.link) s)

/-- RECALL with the priority option. -/
def execRecallPriority (r : Req RecallFields) (s : State) : Host.Outcome State Fault Refusal :=
  .next (request .recall r (recallRequest true r.link) s)

/-- HOLD (R111). -/
def hold (l : Link) (e : Ev) : Ev :=
  if !registered e.st then e.refuse l .notRegistered []
  else
    match e.st.gen.flight with
    | none => e.refuse l .wrongState []
    | some f =>
      if e.st.gen.state ≠ .moving ∨ f.move.kind = .exit then e.refuse l .wrongState []
      else if 4 ≤ e.st.gen.stack.length then e.refuse l .stackFull []
      else (e.ok l false [le16 f.move.id]).upd (onGen (brakeMove .hold))

/-- HOLD. -/
def execHold (r : Req Unit) (s : State) : Host.Outcome State Fault Refusal :=
  .next (request .hold r (fun _ => hold r.link) s)

/-- RESUME (R112). HELD without a context, left by an activation that dropped it, answers the id 0 and goes on by the
succession (log entry 11). -/
def resume (l : Link) (e : Ev) : Ev :=
  if !registered e.st then e.refuse l .notRegistered []
  else if e.st.gen.state ≠ .held then e.refuse l .wrongState []
  else if activeSuspect e.st then e.refuse l .zoneSuspect []
  else if !e.st.envelope.arming.isEmpty then e.refuse l .arming []
  else
    match e.st.gen.stack with
    | [] => stackPhase [] (e.ok l false [le16 0])
    | c :: r =>
      let t := tryBegin c.move ((e.ok l false [le16 c.move.id]).upd (onGen fun g => { g with stack := r }))
      if t.2 then t.1 else stackPhase r t.1

/-- RESUME. -/
def execResume (r : Req Unit) (s : State) : Host.Outcome State Fault Refusal :=
  .next (request .resume r (fun _ => resume r.link) s)

/-- FLUSH with scope QUEUE, or with a scope that is neither (R113). -/
def flushQueue (l : Link) (scope : FlushScope) (e : Ev) : Ev :=
  match scope with
  | .neither _ => e.badField l 1
  | .queue =>
    let ids := e.st.gen.queue.map Move.id
    raiseDropped ids .flush ((e.ok l false [[byte ids.length]]).upd (onGen fun g => { g with queue := [] }))

/-- FLUSH, scope QUEUE. -/
def execFlushQueue (r : Req FlushScope) (s : State) : Host.Outcome State Fault Refusal :=
  .next (request .flush r (flushQueue r.link) s)

/-- The ids FLUSH ALL drops, in its order: queue, stack from bottom to top, waiting priority move (R114). -/
def flushIds (g : Generator) : List Nat := waitingIds g ++ (g.waiting.map Move.id).toList

/-- The effect of FLUSH ALL on the executing move, the jog or the held state (the table of R114). -/
def flushEffect (s : State) : State :=
  match s.gen.state with
  | .moving => if exitFlying s then s else onGen (brakeMove .flush) s
  | .braking =>
    if s.gen.purpose = some .hold ∨ s.gen.purpose = some .priority then onGen (brakeMove .flush) s else s
  | .held => restIn .idle s
  | .jogging => onGen (brakeJog .flush) s
  | .idle | .halted | .stopped | .unregistered => s

/-- FLUSH with scope ALL (R114). -/
def flushAll (l : Link) (e : Ev) : Ev :=
  let ids := flushIds e.st.gen
  raiseDropped ids .flush
    ((e.ok l false [[byte ids.length]]).upd fun s =>
      flushEffect (onGen (fun g => { g with queue := [], stack := [], waiting := none }) s))

/-- FLUSH, scope ALL. -/
def execFlushAll (r : Req Unit) (s : State) : Host.Outcome State Fault Refusal :=
  .next (request .flush r (fun _ => flushAll r.link) s)

end Sys2Proof.Machine
end

