-- ==== Sys2Proof/Machine/Steps.lean ====
section
/-! DEFINITION. The step of the Path Generator (R98): the candidate check (R55, R78), a breach (R79), the SLOW supply (R93,
R94), the move profile (R108, R109), braking (R110), the jog (R127 to R130, R134), and the delivery of an accepted
offer (R145). -/

namespace Sys2Proof.Machine

/-- The outcomes of a candidate check; an abandoned one has taken its quick stop (R185). -/
inductive Check where
  | passes | fails | abandoned
  deriving DecidableEq, Repr

/-- The ids the Cell Index supplies for a cell (R55). -/
def suppliedIds (s : State) (n : Nat) : List Nat := if condAt s n = .current then idsAt s n else allZoneIds s

/-- A position is outside every enforced region of a zone (R78). -/
def outsideZone (s : State) (p : Vec3) (id : Nat) : Bool :=
  ((zoneAt s id).map (enforcedOf s)).all fun l => l.all fun b => !boxHas b p

/-- The candidate check (R78, R55). -/
def candidateCheck (sp : Span) (p : Vec3) (e : Ev) : Ev × Check :=
  if boxHas (boxMicro sp.w) p then
    let n := cellOf sp.w p
    let e1 := readCell n e
    let ids := suppliedIds e1.st n
    match motionRead ids e1 with
    | (e2, some id) => (motionFailure id e2, .abandoned)
    | (e2, none) => (e2, if ids.all (outsideZone e2.st p) then .passes else .fails)
  else (e, .fails)

/-- An ENVELOPE_BREACH (R79): the fault with the discarded candidate in millimetres, and HALTED at once. -/
def breach (p : Vec3) (e : Ev) : Ev := quickStop (reportFault .envelopeBreach (.position (toMm p)) e)

/-- An offer that has passed its candidate check goes to the Length Unit, and is delivered and committed where that accepts
it (R98, R145). The flag says that it committed and that the sending did not trip the generator. -/
def deliver (sp : Span) (p : Vec3) (e : Ev) : Ev × Bool :=
  match lengthOffer sp p e with
  | (e1, none) => (e1, false)
  | (e1, some l) =>
    let e2 := (sendSet l e1).upd fun s =>
      { s with lengths := some l, gen := { s.gen with pos := some p } }
    (e2, registered e2.st)

/-- An offer outside a jog: a failed candidate check is a breach (R98). -/
def offer (sp : Span) (p : Vec3) (e : Ev) : Ev × Bool :=
  match candidateCheck sp p e with
  | (e1, .passes) => deliver sp p e1
  | (e1, .fails) => (breach p e1, false)
  | (e1, .abandoned) => (e1, false)

/-! SLOW zones. -/

/-- The ids of the ACTIVE SLOW zones, ascending. -/
def slowIds (s : State) : List Nat := zoneIds.filter fun i => (zoneAt s i).any fun z => z.state == .active && z.isSlow

/-- Of the ACTIVE SLOW zones that a test holds of, the one with the lowest cap, the lowest id among equal caps, with its cap
(R94, R128). -/
def slowest (s : State) (inside : Box → Bool) : Option (Nat × Nat) :=
  (slowIds s).foldl (fun best i =>
    match (zoneAt s i).bind fun z => if (region 0 z.box).any inside then z.cap else none with
    | none => best
    | some c =>
      match best with
      | none => some (i, c)
      | some b => if c < b.2 then some (i, c) else best) none

/-- The limits that the SLOW zones on the remaining segment put on a move (R93, R108 step 1). -/
def slowLimits (s : State) (f : Flight) (a : Nat) : List Nat :=
  (slowIds s).filterMap fun i =>
    (zoneAt s i).bind fun z =>
      ((region 0 z.box).bind (entryDistance f)).bind fun d =>
        z.cap.map fun m => if d = f.s then m else isqrt (m * m + 2 * a * (d - f.s))

/-! A step in MOVING. -/

/-- The speed of a move step (R108, steps 1 to 4). -/
def moveSpeed (f : Flight) (v a : Nat) (slow : List Nat) : Nat :=
  let lim := slow.foldl min (min f.move.cap (isqrt (2 * a * (f.dist - f.s))))
  let v1 := min (v + a) lim
  let v2 := if v1 + a < v then v - a else v1
  max 1 v2

/-- The committed values of a move step (R108). -/
def commitMove (f : Flight) (s' v' : Nat) (s : State) : State :=
  onGen (fun g => { g with flight := some { f with s := s' }, v := v' }) s

/-- The SLOW_OVERSPEED test after a move step has committed, and then its completion (R109, R94, R106). -/
def afterMove (f : Flight) (v' : Nat) (e : Ev) : Ev :=
  match motionRead (slowIds e.st) e with
  | (e1, some id) => motionFailure id e1
  | (e1, none) =>
    let e2 := match slowest e1.st (exactPointIn f) with
      | some (id, cap) => if cap < v' then e1.raise .slowOverspeed id 0 else e1
      | none => e1
    if f.s = f.dist then complete f e2 else e2

/-- A step in MOVING (R108). -/
def moveStep (sp : Span) (f : Flight) (e : Ev) : Ev :=
  match motionRead (slowIds e.st) e with
  | (e1, some id) => motionFailure id e1
  | (e1, none) =>
    let v' := moveSpeed f e1.st.gen.v sp.accel (slowLimits e1.st f sp.accel)
    let s' := min (f.s + v') f.dist
    match offer sp (f.offerAt s') e1 with
    | (e2, false) => e2
    | (e2, true) => afterMove { f with s := s' } v' (e2.upd (commitMove f s' v'))

/-! A step in BRAKING. -/

/-- A step in BRAKING (R110). -/
def brakeStep (sp : Span) (f : Flight) (e : Ev) : Ev :=
  if e.st.gen.v ≤ sp.brakeAccel then
    match offer sp (posOf e.st) e with
    | (e1, false) => e1
    | (e1, true) => endBraking f false (e1.upd (commitMove f f.s 0))
  else
    let v' := e.st.gen.v - sp.brakeAccel
    let s' := min (f.s + v') f.dist
    match offer sp (f.offerAt s') e with
    | (e1, false) => e1
    | (e1, true) =>
      let e2 := e1.upd (commitMove f s' v')
      if s' = f.dist then endBraking { f with s := s' } true e2 else e2

/-! A step in JOGGING. -/

/-- The velocities a jog step tries in turn: the one formed, and the variants of R129. -/
def slideVariants (u : Vec3) : List Vec3 :=
  [u, { u with z := 0 }, { u with y := 0 }, { u with x := 0 }, { u with y := 0, z := 0 }, { u with x := 0, z := 0 },
    { u with x := 0, y := 0 }]

/-- What a jog's candidate checks give: the velocity to be offered, or a step abandoned (R129). Where no variant passes the
unchanged position is the offer, and it is given the check as every offer is (R78); should it fail, which R78 rules out, it
is offered all the same (log entry 45). -/
def slide (sp : Span) (p : Vec3) : List Vec3 → Ev → Ev × Option Vec3
  | [], e =>
    match candidateCheck sp p e with
    | (e1, .abandoned) => (e1, none)
    | (e1, .passes) | (e1, .fails) => (e1, some Vec3.zero)
  | u :: r, e =>
    match candidateCheck sp (p.add u) e with
    | (e1, .passes) => (e1, some u)
    | (e1, .fails) => slide sp p r e1
    | (e1, .abandoned) => (e1, none)

/-- After a jog step has committed (R130, R134): the session ends where r and u are zero, or where a braking session has
come to rest. -/
def afterJog (e : Ev) : Ev :=
  if e.st.gen.jog.velocity = Vec3.zero then
    match e.st.gen.jog.purpose with
    | some .halt => enterHalted e
    | some .zone | some .flush => endJog e
    | none => if e.st.gen.jog.request = Vec3.zero then endJog e else e
  else e

/-- The velocity formed by a jog step is slid, offered and committed (R129, R130). -/
def jogOffer (sp : Span) (u : Vec3) (e : Ev) : Ev :=
  let p := posOf e.st
  match slide sp p (slideVariants u) e with
  | (e1, none) => e1
  | (e1, some u') =>
    match deliver sp (p.add u') e1 with
    | (e2, false) => e2
    | (e2, true) => afterJog (e2.upd (onGen fun g => { g with jog := { g.jog with velocity := u' } }))

/-- Some component of a velocity is above a cap (R128). -/
def aboveCap (u : Vec3) (m : Nat) : Bool := decide (m < u.x.natAbs) || decide (m < u.y.natAbs) || decide (m < u.z.natAbs)

/-- A step in JOGGING (R127, R128, R134). -/
def jogStep (sp : Span) (e : Ev) : Ev :=
  let j := e.st.gen.jog
  match j.purpose with
  | some _ => jogOffer sp (approachVec sp.brakeAccel j.velocity Vec3.zero) e
  | none =>
    match motionRead (slowIds e.st) e with
    | (e1, some id) => motionFailure id e1
    | (e1, none) =>
      match slowest e1.st (fun b => boxHas b (posOf e1.st)) with
      | none => jogOffer sp (approachVec sp.accel j.velocity j.request) e1
      | some (id, m) =>
        let u := approachVec sp.accel j.velocity (clampVec m j.request)
        jogOffer sp u (if aboveCap u m then e1.raise .slowOverspeed id 0 else e1)

/-- A step of the Path Generator (R98), under a configured span. -/
def pathStep (sp : Span) (e : Ev) : Ev :=
  match e.st.gen.state with
  | .unregistered | .stopped => e
  | .idle | .held | .halted => (offer sp (posOf e.st) e).1
  | .moving =>
    match e.st.gen.flight with
    | some f => moveStep sp f e
    | none => e
  | .braking =>
    match e.st.gen.flight with
    | some f => brakeStep sp f e
    | none => e
  | .jogging => jogStep sp e

end Sys2Proof.Machine
end

