-- ==== Sys2Proof/Machine/Registration.lean ====
section
/-! DEFINITION. REGISTER and RELEASE (R119 to R122, R147, R148), JOG and the deadman (R125, R126, R131), MOTION_QUERY (R123,
R124) and the expiry of the step timer (R98). -/

namespace Sys2Proof.Machine

/-- The first winch whose channel is not ALIVE or reports FAULT (R119, item 4; R122, item 3). -/
def unwellWinch (s : State) : Option Winch :=
  Winch.all.find? fun w =>
    (s.drive.channels.get w).status != .alive || (s.drive.channels.get w).drive == some .fault

/-- The lowest id of an ACTIVE KEEP_OUT zone whose inflated box contains a position (R119, item 6). -/
def zoneHolding (s : State) (p : Vec3) : Option Nat :=
  zoneIds.find? fun i =>
    (zoneAt s i).any fun z =>
      z.state == .active && z.isKeepOut && (region (clearanceOf s) z.box).any fun b => boxHas b p

/-- The length test of a winch: the difference, and which of the three conditions failed (R119). -/
structure LengthTest where
  diff : Int
  commandedOut : Bool
  measuredOut : Bool
  apart : Bool
  deriving DecidableEq, Repr

/-- All three conditions hold. -/
def LengthTest.passes (t : LengthTest) : Bool := !t.commandedOut && !t.measuredOut && !t.apart

/-- The test of R119 for a winch: a commanded and a measured length against the drum range and the tolerance. -/
def lengthTest (ws : WinchSpan) (tolerance : Nat) (commanded : Int) (measured : Option Int) : LengthTest :=
  match measured with
  | some m =>
    ⟨commanded - m, !inDrum ws commanded, !inDrum ws m, decide (tolerance * 1000 < (commanded - m).natAbs)⟩
  | none => ⟨0, !inDrum ws commanded, true, true⟩

/-- A winch's part of the REG_MISMATCH answer (R119; log entry 8). -/
def LengthTest.report (t : LengthTest) : List Byte :=
  leInt32 t.diff ++ boolByte t.commandedOut ++ boolByte t.measuredOut ++ boolByte t.apart

/-- The tests of REGISTER at a position (R119, R147). -/
def registerTests (s : State) (sp : Span) (p : Vec3) : PerWinch LengthTest :=
  PerWinch.of fun w =>
    lengthTest (sp.winch.get w) s.limits.tolerance ((ropeCalcs s sp p).get w).commanded (s.drive.channels.get w).measured

/-- The measured length of a winch as the Length Unit takes it over. -/
def measuredOf (s : State) (w : Winch) : Int := ((s.drive.channels.get w).measured).getD 0

/-- BRAKE is released and the timers start their periods (R97, R154, R164). -/
def releaseBrake (s : State) : State :=
  { s with gen := { s.gen with stepTimer := some 2 }
           drive := { s.drive with brake := false, setSinceRelease := false, holdTimer := some 3 } }

/-- An accepted REGISTER (R120, R147). -/
def acceptRegister (sp : Span) (p : Vec3) (s : State) : State :=
  releaseBrake
    { s with
      gen := { s.gen with state := .idle, pos := some p, v := 0, flight := none }
      lengths := some (PerWinch.of fun w => ⟨measuredOf s w, ((ropeCalcs s sp p).get w).stretch⟩) }

/-- REGISTER (R119, R120). -/
def register (l : Link) (at_ : Vec3) (e : Ev) : Ev :=
  if !pointOk at_ then e.badField l 1
  else if e.st.gen.state ≠ .unregistered ∨ e.st.drive.stopLevel then e.refuse l .wrongState []
  else
    match e.st.spanSet.span with
    | none => e.refuse l .notConfigured []
    | some sp =>
      match unwellWinch e.st with
      | some w => e.refuse l .noFeedback [[byte w.number]]
      | none =>
        let p := toMicro at_
        if !inW e.st p then e.refuse l .outOfVolume []
        else
          let e1 := readZones e
          match zoneHolding e1.st p with
          | some i => e1.refuse l .inZone [[byte i]]
          | none =>
            let tests := registerTests e1.st sp p
            if tests.toList.all LengthTest.passes then
              (e1.ok l false (tests.toList.map fun t => leInt32 t.diff)).upd (acceptRegister sp p)
            else e1.refuse l .regMismatch (tests.toList.map LengthTest.report)

/-- REGISTER. -/
def execRegister (r : Req Vec3) (s : State) : Host.Outcome State Fault Refusal :=
  .next (request .register r (register r.link) s)

/-- Every channel is ALIVE with drive status READY (R121). -/
def allReady (s : State) : Bool :=
  Winch.all.all fun w => (s.drive.channels.get w).status == .alive && (s.drive.channels.get w).drive == some .ready

/-- The first condition of RELEASE from HALTED that fails (R121). -/
def haltedUnreleasable (s : State) : Option Nat :=
  firstFailing [!allReady s, s.tension.toList.any fun t => t != .normal, activeSuspect s]

/-- The first condition of RELEASE from STOPPED that fails (R122). -/
def stoppedUnreleasable (s : State) : Option Nat :=
  firstFailing [s.drive.stopLevel, s.tension.toList.any fun t => t == .critical, (unwellWinch s).isSome, activeSuspect s]

/-- The previous delivered length less the measured length of a winch (R122). -/
def releaseDiff (s : State) (w : Winch) : Int :=
  match s.lengths, (s.drive.channels.get w).measured with
  | some l, some m => (l.get w).prev - m
  | _, _ => 0

/-- The re-registration test of a winch (R122). -/
def releasePasses (s : State) (sp : Span) (w : Winch) : Bool :=
  match s.lengths, (s.drive.channels.get w).measured with
  | some l, some m =>
    inDrum (sp.winch.get w) m && decide (((l.get w).prev - m).natAbs ≤ s.limits.tolerance * 1000)
  | _, _ => false

/-- All four winches pass the re-registration (R122). -/
def reregisters (s : State) : Bool := s.spanSet.span.any fun sp => Winch.all.all (releasePasses s sp)

/-- A re-registration takes the measured lengths as the previous ones; the last stretches are kept (R122, R148). -/
def acceptRelease (s : State) : State :=
  releaseBrake
    { s with
      gen := { s.gen with state := .idle }
      lengths := s.lengths.map fun l => PerWinch.of fun w => ⟨measuredOf s w, (l.get w).stretch⟩ }

/-- RELEASE from HALTED, once its conditions hold (R121). -/
def releaseHalted (l : Link) (e : Ev) : Ev :=
  succession ((e.ok l false [[byte GenState.idle.code]]).upd (restIn .idle))

/-- RELEASE from STOPPED, once its conditions hold (R122). -/
def releaseStopped (l : Link) (e : Ev) : Ev :=
  let diffs := Winch.all.map fun w => leInt32 (releaseDiff e.st w)
  if reregisters e.st then
    succession ((e.ok l false ([byte GenState.idle.code] :: diffs)).upd acceptRelease)
  else enterUnregistered true (e.ok l false ([byte GenState.unregistered.code] :: diffs))

/-- RELEASE (R121, R122). -/
def release (l : Link) (e : Ev) : Ev :=
  match e.st.gen.state with
  | .halted =>
    match haltedUnreleasable e.st with
    | some n => e.refuse l .notReleasable [[byte n]]
    | none => releaseHalted l e
  | .stopped =>
    match stoppedUnreleasable e.st with
    | some n => e.refuse l .notReleasable [[byte n]]
    | none => releaseStopped l e
  | .unregistered | .idle | .moving | .jogging | .braking | .held => e.refuse l .wrongState []

/-- RELEASE. -/
def execRelease (r : Req Unit) (s : State) : Host.Outcome State Fault Refusal :=
  .next (request .release r (fun _ => release r.link) s)

/-! Jog. -/

/-- The generator is in a state that excludes JOG (R125, item 2). -/
def jogExcluded (s : State) : Bool :=
  match s.gen.state with
  | .moving | .braking | .halted => true
  | .jogging => s.gen.jog.purpose.isSome
  | .idle | .held | .unregistered | .stopped => false

/-- What an accepted JOG does (the table of R126). -/
def takeJog (r : Vec3) (g : Generator) : Generator :=
  if g.state = .jogging then { g with jog := { g.jog with request := r, deadman := some 100 } }
  else if r = Vec3.zero then g
  else { g with state := .jogging, jog := ⟨true, r, Vec3.zero, some 100, none⟩ }

/-- JOG (R125, R126). -/
def jog (l : Link) (v : Vec3) (e : Ev) : Ev :=
  if !registered e.st then e.refuse l .notRegistered []
  else if jogExcluded e.st then e.refuse l .wrongState []
  else if activeSuspect e.st then e.refuse l .zoneSuspect []
  else if !e.st.envelope.arming.isEmpty then e.refuse l .arming []
  else
    let r := clampVec (topSpeed e.st) v
    let e1 := e.upd (onGen (takeJog r))
    e1.ok l (decide (r ≠ v)) [[byte e1.st.gen.state.code], leInt32 r.x, leInt32 r.y, leInt32 r.z]

/-- JOG. -/
def execJog (r : Req Vec3) (s : State) : Host.Outcome State Fault Refusal := .next (request .jog r (jog r.link) s)

/-- DEADMAN_EXPIRY (R131), where the timer runs: r becomes zero and the timer stays stopped. -/
def deadman (e : Ev) : Ev :=
  match e.st.gen.jog.deadman with
  | none => e
  | some _ => e.upd (onGen fun g => { g with jog := { g.jog with request := Vec3.zero, deadman := none } })

/-- DEADMAN_EXPIRY. -/
def execDeadmanExpiry (s : State) : Host.Outcome State Fault Refusal := .next (runEvent s deadman)

/-- STEP_TIMER_EXPIRY (R98), where the timer runs. -/
def stepTimer (e : Ev) : Ev :=
  match e.st.gen.stepTimer, e.st.spanSet.span with
  | some _, some sp => pathStep sp e
  | _, _ => e

/-- STEP_TIMER_EXPIRY. -/
def execStepTimerExpiry (s : State) : Host.Outcome State Fault Refusal := .next (runEvent s stepTimer)

/-! MOTION_QUERY. -/

/-- The value of a move kind in answers: its place in R99 (R210). -/
def MoveKind.code : MoveKind → Nat
  | .goto => 1 | .recall => 2 | .exit => 3

/-- The value of a braking purpose in answers: its place in R96 (R210). -/
def Purpose.code : Purpose → Nat
  | .cut => 1 | .hold => 2 | .priority => 3 | .flush => 4 | .halt => 5

/-- The value of a jog braking purpose in answers: its place in R124 (R210). -/
def JogPurpose.code : JogPurpose → Nat
  | .zone => 1 | .flush => 2 | .halt => 3

/-- The value of a resume kind in answers: its place in R101 (R210). -/
def Resume.code : Resume → Nat
  | .manual => 1 | .auto => 2

/-- A move in an answer: id, kind, target in millimetres, cue number where present, cap (R123): 19 bytes. -/
def moveReport (m : Move) : List Byte :=
  le16 m.id ++ [byte m.kind.code] ++ pointBytes (toMm m.target) ++ optBytes 1 (fun n => [byte n]) m.cue ++ le16 m.cap

/-- The executing move in an answer: the move, D and s (R123): 27 bytes. -/
def flightReport (f : Flight) : List Byte := moveReport f.move ++ le32 f.dist ++ le32 f.s

/-- A stack context in an answer (R123). -/
def contextReport (c : Context) : List Byte := moveReport c.move ++ [byte c.resume.code]

/-- The details of MOTION_QUERY (R123, R124). -/
def motionReport (s : State) : List (List Byte) :=
  [[byte s.gen.state.code], optBytes 1 (fun p : Purpose => [byte p.code]) s.gen.purpose,
      optBytes 12 (fun p => pointBytes (toMm p)) s.gen.pos, le16 s.gen.v,
      leInt32 s.gen.jog.velocity.x, leInt32 s.gen.jog.velocity.y, leInt32 s.gen.jog.velocity.z,
      leInt32 s.gen.jog.request.x, leInt32 s.gen.jog.request.y, leInt32 s.gen.jog.request.z,
      optBytes 1 (fun p : JogPurpose => [byte p.code]) s.gen.jog.purpose,
      optBytes 27 flightReport s.gen.flight, optBytes 19 moveReport s.gen.waiting] ++
    counted (s.gen.queue.map moveReport) ++ counted (s.gen.stack.reverse.map contextReport) ++
    [[byte s.envelope.arming.length], boolByte s.envelope.exit.isSome]

/-- MOTION_QUERY (R123). -/
def motionQuery (l : Link) (e : Ev) : Ev := e.ok l false (motionReport e.st)

/-- MOTION_QUERY. -/
def execMotionQuery (r : Req Unit) (s : State) : Host.Outcome State Fault Refusal :=
  .next (request .motionQuery r (fun _ => motionQuery r.link) s)

end Sys2Proof.Machine
end

