-- ==== Sys2Proof/Machine/Supervision.lean ====
section
/-! DEFINITION. The scrubber (R190, R191), the Fault Record's requests (R194, R195), the event flags' requests (R206 to R208),
the ports' own events (R196 to R200), and the resets (R17, R46, R57, R96, R151, R174, R190, R192, R199, R204). -/

namespace Sys2Proof.Machine

/-- The item at a scrub position is taken (R191). -/
def scrubItem (n : Nat) (e : Ev) : Ev :=
  if n < 64 then
    if opTouchesZone e.st n then e else readZone e n
  else if n < 160 then readCue e (n - 64)
  else if opTouchesCell e.st (n - 160) then e
  else
    match condAt e.st (n - 160) with
    | .current => readCell (n - 160) e
    | .overfull => orderRebuild (n - 160) e
    | .rebuilding => e

/-- The scrub position after one (R190). -/
def nextScrub (n : Nat) : Nat := if 351 ≤ n then 0 else n + 1

/-- SCRUBBER_TIMER_EXPIRY (R190, R191), where the timer runs. -/
def scrub (e : Ev) : Ev :=
  match e.st.scrubber.timer with
  | none => e
  | some _ =>
    (scrubItem e.st.scrubber.position e).upd fun s =>
      { s with scrubber := ⟨nextScrub e.st.scrubber.position, some 10⟩ }

/-- SCRUBBER_TIMER_EXPIRY. -/
def execScrubberTimerExpiry (s : State) : Host.Outcome State Fault Refusal := .next (runEvent s scrub)

/-- The subject of a captured fault in an answer: 16 bits, or the position of an ENVELOPE_BREACH (R210). -/
def subjectReport : FaultSubject → List Byte
  | .number n => le16 n
  | .position p => pointBytes p

/-- The captured entry in an answer (R194). -/
def capturedReport (c : Captured) : List Byte :=
  [byte c.cls.priority] ++ subjectReport c.subject ++ optBytes 12 pointBytes c.pos

/-- FAULT_QUERY (R194). -/
def faultQuery (l : Link) (e : Ev) : Ev :=
  e.ok l false (e.st.faults.flags.toList.map boolByte ++ [optBytes 16 capturedReport e.st.faults.captured])

/-- FAULT_QUERY. -/
def execFaultQuery (r : Req Unit) (s : State) : Host.Outcome State Fault Refusal :=
  .next (request .faultQuery r (fun _ => faultQuery r.link) s)

/-- An empty Fault Record (R192). -/
def FaultRecord.empty : FaultRecord := ⟨Vector.replicate 9 false, none⟩

/-- CLEAR_FAULT (R195). -/
def clearFault (l : Link) (e : Ev) : Ev := (e.upd fun s => { s with faults := FaultRecord.empty }).ok l false []

/-- CLEAR_FAULT. -/
def execClearFault (r : Req Unit) (s : State) : Host.Outcome State Fault Refusal :=
  .next (request .clearFault r (fun _ => clearFault r.link) s)

/-! Event flags. -/

/-- A mask has a bit set above bit 20 (R206, R207). -/
def maskTooHigh (m : BitVec 32) : Bool := m >>> 21 != 0

/-- The mask of the flags that are set. -/
def setFlags (flags : Vector (Option Raised) 21) : BitVec 32 :=
  BitVec.ofNat 32 ((List.range 21).foldl (fun acc i => if (flags.toList.getD i none).isSome then acc + 2 ^ i else acc) 0)

/-- The flags a mask names become clear (R206). -/
def clearFlags (m : BitVec 32) (flags : Vector (Option Raised) 21) : Vector (Option Raised) 21 :=
  Vector.ofFn fun i => if m.getLsbD i.val then none else flags[i]

/-- CLEAR_EVENTS (R206). -/
def clearEvents (l : Link) (m : BitVec 32) (e : Ev) : Ev :=
  if maskTooHigh m then e.badField l 1
  else
    (e.upd fun s => { s with console := { s.console with flags := clearFlags m s.console.flags } }).ok l false
      [le32 (setFlags e.st.console.flags &&& m).toNat]

/-- CLEAR_EVENTS. -/
def execClearEvents (r : Req (BitVec 32)) (s : State) : Host.Outcome State Fault Refusal :=
  .next (request .clearEvents r (clearEvents r.link) s)

/-- SET_NOTICES (R207). -/
def setNotices (l : Link) (m : BitVec 32) (e : Ev) : Ev :=
  if maskTooHigh m then e.badField l 1
  else (e.upd (onPort l fun p => { p with enables := m.setWidth 21 })).ok l false [le32 m.toNat]

/-- SET_NOTICES. -/
def execSetNotices (r : Req (BitVec 32)) (s : State) : Host.Outcome State Fault Refusal :=
  .next (request .setNotices r (setNotices r.link) s)

/-- A flag in EVENT_QUERY (R208): whether it is set, and its subject and qualifier. -/
def flagReport (o : Option Raised) : List Byte := optBytes 3 (fun r : Raised => le16 r.subject ++ [byte r.qualifier]) o

/-- EVENT_QUERY (R208). -/
def eventQuery (l : Link) (e : Ev) : Ev :=
  e.ok l false
    (e.st.console.flags.toList.map flagReport ++
      [le32 e.st.console.operations.enables.toNat, le32 e.st.console.safety.enables.toNat])

/-- EVENT_QUERY. -/
def execEventQuery (r : Req Unit) (s : State) : Host.Outcome State Fault Refusal :=
  .next (request .eventQuery r (fun _ => eventQuery r.link) s)

/-! The ports' own events. -/

/-- A complete frame whose kind is no request kind (R200, items 1 and 2). -/
def takeUnknown (l : Link) (tag kind : Byte) (s : State) : State :=
  if s.resetting then s
  else
    let s' := frameTaken l s
    if (s'.console.port l).inProgress.isSome then refuseBusy l tag (Config.busyKindOfUnknown kind) s'
    else onPort l (fun p => (answerFrames .answer tag 0x80 (unknownAnswer kind)).foldl (fun p f => p.enqueue f) p) s'

/-- UNKNOWN_REQUEST; a frame of a request kind is the command of another row. -/
def execUnknownRequest (l : Link) (tag kind : Byte) (s : State) : Host.Outcome State Fault Refusal :=
  if isRequestKind kind then .refused .notAnUnknownKind else .next (takeUnknown l tag kind s)

/-- The value of a link-error reason (section 12.6). -/
def discardCode : DiscardReason → Nat
  | .check => 1 | .length => 2 | .brk => 3

/-- CONSOLE_FRAME_DISCARD (R196, R197). -/
def execConsoleFrameDiscard (l : Link) (reason : DiscardReason) (s : State) : Host.Outcome State Fault Refusal :=
  .next (if s.resetting then s else raiseFlag (.linkError l) 0 (discardCode reason) (frameTaken l s))

/-- FRAME_SENT (R198), where a frame is being sent. -/
def execFrameSent (l : Link) (s : State) : Host.Outcome State Fault Refusal :=
  .next (if s.resetting ∨ (s.console.port l).sending.isNone then s else onPort l Port.frameSent s)

/-! The resets. -/

/-- A port while a reset is in progress (R199). -/
def Port.inReset : Port := { Port.reset with receiver := .passing }

/-- The part as a reset begins, with some rope wear: the values of either reset, every timer stopped, every receiver passing
its bytes over, the STOP input at its own level, and the commands still to come. -/
def State.beginReset (wear : PerWinch WinchWear) (s : State) : State :=
  { State.reset with
    pending := s.pending
    resetting := true
    console := ⟨Vector.replicate 21 none, Port.inReset, Port.inReset⟩
    zones := { State.reset.zones with secondTimer := none }
    drive := { State.reset.drive with receivers := PerWinch.all .passing, holdTimer := none,
                                      stopLevel := s.drive.stopInput, stopInput := s.drive.stopInput }
    wear := wear
    scrubber := ⟨0, none⟩ }

/-- POWER_UP: the reset that also clears the rope wear counters (R174). -/
def execPowerUp (s : State) : Host.Outcome State Fault Refusal := .next (s.beginReset (PerWinch.all WinchWear.reset))

/-- The rope wear that the RESET line keeps: the counters, and no accumulator (R174). -/
def keptWear (p : PerWinch WinchWear) : PerWinch WinchWear := PerWinch.of fun w => ⟨(p.get w).counters, 0⟩

/-- RESET_LINE (R174). -/
def execResetLine (s : State) : Host.Outcome State Fault Refusal := .next (s.beginReset (keptWear s.wear))

/-- A receiver at the end of a reset hunts (R155, R199). -/
def startHunting (p : Port) : Port := { p with receiver := .hunting }

/-- The end of a reset (R17, R151, R155, R190, R199): the timers start their periods, the receivers hunt, and the level of
the STOP input is recorded. -/
def State.endReset (s : State) : State :=
  { s with
    resetting := false
    console := { s.console with operations := startHunting s.console.operations,
                                safety := startHunting s.console.safety }
    zones := { s.zones with secondTimer := some 1000 }
    drive := { s.drive with receivers := PerWinch.all .hunting, holdTimer := some 2, stopLevel := s.drive.stopInput }
    scrubber := { s.scrubber with timer := some 10 } }

/-- END_OF_RESET, where a reset is in progress. -/
def execEndOfReset (s : State) : Host.Outcome State Fault Refusal := .next (if s.resetting then s.endReset else s)

end Sys2Proof.Machine
end

