-- ==== Sys2Proof/Machine/Dispatch.lean ====
section
/-! DEFINITION. One arm per command: the direct call of its meaning. -/

namespace Sys2Proof.Machine

/-- The effect of a command on everything but the queue. -/
def exec (i : Instr) (s : State) : Host.Outcome State Fault Refusal :=
  match i with
  | .powerUp => Sys2Proof.Machine.execPowerUp s
  | .resetLine => Sys2Proof.Machine.execResetLine s
  | .zoneAdd r => Sys2Proof.Machine.execZoneAdd r s
  | .zoneAmend r => Sys2Proof.Machine.execZoneAmend r s
  | .zoneRetire r => Sys2Proof.Machine.execZoneRetire r s
  | .zoneQuery r => Sys2Proof.Machine.execZoneQuery r s
  | .zoneList r => Sys2Proof.Machine.execZoneList r s
  | .pointLookup r => Sys2Proof.Machine.execPointLookup r s
  | .cueStore r => Sys2Proof.Machine.execCueStore r s
  | .cueAmend r => Sys2Proof.Machine.execCueAmend r s
  | .cueRetire r => Sys2Proof.Machine.execCueRetire r s
  | .cueQuery r => Sys2Proof.Machine.execCueQuery r s
  | .cueList r => Sys2Proof.Machine.execCueList r s
  | .goto r => Sys2Proof.Machine.execGoto r s
  | .gotoPriority r => Sys2Proof.Machine.execGotoPriority r s
  | .recall r => Sys2Proof.Machine.execRecall r s
  | .recallPriority r => Sys2Proof.Machine.execRecallPriority r s
  | .jog r => Sys2Proof.Machine.execJog r s
  | .hold r => Sys2Proof.Machine.execHold r s
  | .resume r => Sys2Proof.Machine.execResume r s
  | .flushQueue r => Sys2Proof.Machine.execFlushQueue r s
  | .flushAll r => Sys2Proof.Machine.execFlushAll r s
  | .register r => Sys2Proof.Machine.execRegister r s
  | .release r => Sys2Proof.Machine.execRelease r s
  | .motionQuery r => Sys2Proof.Machine.execMotionQuery r s
  | .setSpan r => Sys2Proof.Machine.execSetSpan r s
  | .setLimits r => Sys2Proof.Machine.execSetLimits r s
  | .lock r => Sys2Proof.Machine.execLock r s
  | .configQuery r => Sys2Proof.Machine.execConfigQuery r s
  | .tensionQuery r => Sys2Proof.Machine.execTensionQuery r s
  | .driveQuery r => Sys2Proof.Machine.execDriveQuery r s
  | .faultQuery r => Sys2Proof.Machine.execFaultQuery r s
  | .clearFault r => Sys2Proof.Machine.execClearFault r s
  | .wearQuery r => Sys2Proof.Machine.execWearQuery r s
  | .wearLoad r => Sys2Proof.Machine.execWearLoad r s
  | .wearReset r => Sys2Proof.Machine.execWearReset r s
  | .clearEvents r => Sys2Proof.Machine.execClearEvents r s
  | .setNotices r => Sys2Proof.Machine.execSetNotices r s
  | .eventQuery r => Sys2Proof.Machine.execEventQuery r s
  | .unknownRequest link tag kind => Sys2Proof.Machine.execUnknownRequest link tag kind s
  | .consoleFrameDiscard link reason => Sys2Proof.Machine.execConsoleFrameDiscard link reason s
  | .frameSent link => Sys2Proof.Machine.execFrameSent link s
  | .stepTimerExpiry => Sys2Proof.Machine.execStepTimerExpiry s
  | .holdTimerExpiry => Sys2Proof.Machine.execHoldTimerExpiry s
  | .oneSecondTimerExpiry => Sys2Proof.Machine.execOneSecondTimerExpiry s
  | .deadmanExpiry => Sys2Proof.Machine.execDeadmanExpiry s
  | .scrubberTimerExpiry => Sys2Proof.Machine.execScrubberTimerExpiry s
  | .cellVisit => Sys2Proof.Machine.execCellVisit s
  | .feedbackFrame link frame => Sys2Proof.Machine.execFeedbackFrame link frame s
  | .stopAsserted => Sys2Proof.Machine.execStopAsserted s
  | .stopReleased => Sys2Proof.Machine.execStopReleased s
  | .endOfReset => Sys2Proof.Machine.execEndOfReset s

end Sys2Proof.Machine
end

