-- ==== Sys2Proof/Safety.lean ====
section
/-! DEFINITION. What holds of the part between commands: the bounds and the laws that the manual states of every state, as
predicates on the state, in the terms the statements use. -/

namespace Sys2Proof.Machine

/-- The BRAKE line is asserted exactly while the generator is UNREGISTERED or STOPPED (R164): a reset leaves the generator
UNREGISTERED, so a reset in progress adds no state to this. -/
def State.brakeLaw (s : State) : Prop :=
  s.drive.brake = true ↔ s.gen.state = .unregistered ∨ s.gen.state = .stopped

/-- A jog session is open exactly while the generator is JOGGING, and with none open the jog state is at rest (R124). -/
def State.jogLaw (s : State) : Prop :=
  (s.gen.state = .jogging → s.gen.jog.isOpen = true) ∧ (s.gen.state ≠ .jogging → s.gen.jog = Jog.closed)

/-- The captured class is the highest-priority class whose flag is set, and no entry is held exactly when none is set
(R192). -/
def FaultRecord.law (f : FaultRecord) : Prop :=
  match f.captured with
  | none => ∀ i : Fin 9, f.flags[i] = false
  | some c => f.flags[c.cls.priority - 1]? = some true ∧ ∀ i : Fin 9, i.val < c.cls.priority - 1 → f.flags[i] = false

/-- Every rope wear counter lies between 0 and 65,535, and every accumulator between 0 and 999,999 (R174). -/
def WinchWear.law (w : WinchWear) : Prop := (∀ i : Fin 64, w.counters[i] ≤ 65535) ∧ w.accumulator < 1000000

/-- The wear of all four winches (R174). -/
def State.wearLaw (s : State) : Prop := ∀ w : Winch, (s.wear.get w).law

/-- No cell list holds more than eight ids, nor any id twice, and its ids stand in ascending order (R46). -/
def State.cellLaw (s : State) : Prop := ∀ n, (idsAt s n).length ≤ 8 ∧ (idsAt s n).Pairwise (· < ·)

/-- The queue holds at most 8 entries and the stack at most 4 contexts, with room for the push that braking with purpose HOLD
or PRIORITY ends in, and no move id appears twice among the moves held (R99 to R101). -/
def Generator.collectionsLaw (g : Generator) : Prop :=
  g.queue.length ≤ 8 ∧ g.stack.length ≤ 4 ∧
    (g.state = .braking → g.purpose = some .hold ∨ g.purpose = some .priority → g.stack.length ≤ 3) ∧
    (heldIds g).Nodup

/-- A transmit list keeps frames waiting only behind one that is being sent (R198). -/
def Port.queueLaw (p : Port) : Prop := p.sending = none → p.waiting = []

/-- The port is free and nothing is in its way: it takes the next request (R200). -/
def State.portFree (s : State) (l : Link) : Prop := s.resetting = false ∧ (s.console.port l).inProgress = none

/-- The frames of a port's transmit list, the one being sent first (R198). -/
def Port.frames (p : Port) : List Frame := p.sending.toList ++ p.waiting

/-- The state after a port has taken a request and has it in progress (R200). -/
def State.taken (s : State) (l : Link) (tag kind : Byte) : State :=
  onPort l (fun p => { p with receiver := .hunting, inProgress := some ⟨tag, kind⟩ }) s

/-- The state after a port has taken a request and answered it at once (R200, R202): its frames have joined the transmit
list, and nothing else of the state has changed. -/
def State.answered (s : State) (l : Link) (tag kind : Byte) (a : Answer) : State :=
  onPort l (fun p =>
    { (answerFrames .answer tag (answerKind kind) a).foldl (fun p f => p.enqueue f) p with
      receiver := .hunting, inProgress := none }) s

/-- Every zone record passes its check (R182). -/
def State.zonesSound (s : State) : Prop := ∀ id ∈ zoneIds, zoneFails s id = false

/-- Every cue record passes its check (R182). -/
def State.cuesSound (s : State) : Prop := ∀ n ∈ cueIds, cueFails s n = false

/-- A cell's list is trusted: it is CURRENT and passes its check (R182). -/
def State.cellSound (s : State) (n : Nat) : Prop := condAt s n = .current ∧ cellFails s n = false

/-- Every cue slot with its BLOCKED flag as R66 gives it for a state. -/
def State.reblocked (s : State) : Vector CueSlot 96 :=
  s.cues.map fun k => { k with cue := k.cue.map fun c => { c with blocked := cueBlocked s c.target } }

/-- Every zone slot after one expiry of the one-second timer: each ACTIVE temporary zone with time left has one second less,
and its check word is recomputed (R39). -/
def State.countedDown (s : State) : Vector ZoneSlot 64 :=
  s.zones.slots.mapIdx fun i k =>
    match k.zone with
    | none => k
    | some z =>
      match z.state, z.remaining with
      | .active, some (n + 1) =>
        ⟨some { z with remaining := some n }, zoneCheck i (some { z with remaining := some n })⟩
      | _, _ => k

/-- No channel becomes LOST when a frame is sent to it (R158). -/
def State.noneGetsLost (s : State) : Prop :=
  ∀ w : Winch, ¬((s.drive.channels.get w).latest.isSome = true ∧ (s.drive.channels.get w).answered = false ∧
    4 ≤ (s.drive.channels.get w).misses ∧ (s.drive.channels.get w).status = .alive)

/-- A channel that does not become LOST, after a frame has been sent on it (R152, R158). -/
def Channel.sent (k : Sent) (c : Channel) : Channel :=
  { c with sequence := c.sequence + 1, latest := some k, answered := false,
           misses := if c.latest.isSome ∧ c.answered = false then min 255 (c.misses + 1) else c.misses }

/-- A step is due in a registered, configured state, and no channel becomes LOST as it sends (R98, R158): the span, the fine
position and the Length Unit's results are those given. -/
def State.stepDue (s : State) (sp : Span) (p : Vec3) (l : PerWinch RopeLength) : Prop :=
  s.resetting = false ∧ s.gen.stepTimer.isSome = true ∧ s.spanSet.span = some sp ∧ s.gen.pos = some p ∧
    s.lengths = some l ∧ s.noneGetsLost

/-- No zone is an ACTIVE SLOW zone. -/
def State.noSlow (s : State) : Prop := ∀ i ∈ zoneIds, ∀ z, zoneAt s i = some z → z.state = .active → z.isSlow = false

/-- The list of a candidate's cell and the records it supplies are sound (R55, R78). -/
def State.candidateSound (s : State) (sp : Span) (p : Vec3) : Prop :=
  cellFails s (cellOf sp.w p) = false ∧ ∀ id ∈ suppliedIds s (cellOf sp.w p), zoneFails s id = false

/-- A candidate passes its check: it is inside W, and every zone supplied for its cell is sound and leaves it outside (R78). -/
def State.candidatePasses (s : State) (sp : Span) (p : Vec3) : Prop :=
  boxHas (boxMicro sp.w) p = true ∧ s.candidateSound sp p ∧
    ∀ id ∈ suppliedIds s (cellOf sp.w p), outsideZone s p id = true

/-- A candidate fails its check: it is outside W, or a sound zone supplied for its cell encloses it (R78). -/
def State.candidateFails (s : State) (sp : Span) (p : Vec3) : Prop :=
  boxHas (boxMicro sp.w) p = false ∨
    s.candidateSound sp p ∧ ∃ id ∈ suppliedIds s (cellOf sp.w p), outsideZone s p id = false

/-- What stages 1 to 7 give for a winch at a position, with the tension its channel holds (R137). -/
def State.ropeAt (s : State) (sp : Span) (p : Vec3) (w : Winch) : RopeCalc :=
  ropeCalc (sp.winch.get w) p (s.drive.channels.get w).tension

/-- The offer of a position passes: the candidate passes its check (R78), and each winch's commanded length is within its drum
range (R142). -/
def State.offerPasses (s : State) (sp : Span) (p : Vec3) : Prop :=
  s.candidatePasses sp p ∧ ∀ w : Winch, inDrum (sp.winch.get w) (s.ropeAt sp p w).commanded = true

/-- What the Length Unit holds for a winch after an offer of a position has been delivered (R144, R145). -/
def State.deliveredLength (s : State) (sp : Span) (p : Vec3) (l : PerWinch RopeLength) (w : Winch) : RopeLength :=
  ⟨rateLimited (sp.winch.get w).rate (l.get w).prev (s.ropeAt sp p w).commanded, min (s.ropeAt sp p w).raw 2000000⟩

/-- An event flag is raised with each winch that meets a condition as its subject, in winch order. -/
def raiseEach (f : EventFlag) (hit : Winch → Bool) (s : State) : State :=
  [Winch.w1, .w2, .w3, .w4].foldl (fun s w => if hit w then raiseFlag f w.number 0 s else s) s

/-- The state after an accepted offer of a position has been delivered and committed with a generator (R98, R140, R144, R145,
R152, R153): STRETCH_CLAMP and then RATE_SAT are raised for the winches they concern, one LENGTH frame has gone to each winch,
and nothing else differs. -/
def State.afterOffer (s : State) (sp : Span) (p : Vec3) (l : PerWinch RopeLength) (g : Generator) : State :=
  raiseEach .rateSat
    (fun w => decide ((sp.winch.get w).rate < ((s.ropeAt sp p w).commanded - (l.get w).prev).natAbs))
    (raiseEach .stretchClamp (fun w => decide (2000000 < (s.ropeAt sp p w).raw))
      { s with
        gen := { g with pos := some p }
        lengths := some (PerWinch.of (s.deliveredLength sp p l))
        drive := { s.drive with
          channels := PerWinch.of fun w =>
            { (s.drive.channels.get w).sent (.length (s.deliveredLength sp p l w).prev) with
              lastCommand := some (s.deliveredLength sp p l w).prev }
          setSinceRelease := true, setSinceExpiry := true } })

/-- The speed of a move step under a limit (R108, steps 2 to 4). -/
def stepSpeed (v a lim : Nat) : Nat :=
  max 1 (if min (v + a) lim + a < v then v - a else min (v + a) lim)

/-- The speed of a move step that no SLOW zone limits (R108). -/
def freeSpeed (f : Flight) (v a : Nat) : Nat := stepSpeed v a (min f.move.cap (Nat.sqrt (2 * a * (f.dist - f.s))))

/-- A move as the executing move from a position (R105). -/
def flightFrom (m : Move) (p : Vec3) : Flight := ⟨m, p, m.target.sub p, distance p m.target, 0⟩

/-- The generator at rest in a state, with no speed and no executing move. -/
def Generator.resting (g : Generator) (st : GenState) : Generator :=
  { g with state := st, v := 0, flight := none, purpose := none }

/-- The generator after an entry to HALTED (R117): everything dropped, no speed, the jog session closed, the position and the
step timer kept. -/
def Generator.haltedFrom (g : Generator) : Generator :=
  { g with state := .halted, v := 0, flight := none, purpose := none, waiting := none, queue := [], stack := [],
           jog := ⟨false, ⟨0, 0, 0⟩, ⟨0, 0, 0⟩, none, none⟩ }

/-- The generator after an entry to STOPPED (R117): as for HALTED, with the step timer stopped. -/
def Generator.stoppedFrom (g : Generator) : Generator :=
  { g.haltedFrom with state := .stopped, stepTimer := none }

/-- The generator after a controlled halt (the table of R115). -/
def Generator.haltingFrom (g : Generator) : Generator :=
  match g.state with
  | .idle | .held => g.haltedFrom
  | .moving | .braking => { g with state := .braking, purpose := some .halt }
  | .jogging => { g with jog := { g.jog with request := ⟨0, 0, 0⟩, purpose := some .halt } }
  | .halted | .stopped | .unregistered => g

/-- The ids that an entry to HALTED or STOPPED drops, in the order of R117. -/
def Generator.droppedIds (g : Generator) : List Nat :=
  g.flight.toList.map (fun f => f.move.id) ++ g.waiting.toList.map Move.id ++ g.queue.map Move.id ++
    g.stack.reverse.map fun c => c.move.id

/-- The generator without the queue entries and the contexts whose target lies in a box (R92). -/
def Generator.without (g : Generator) (b : Box) : Generator :=
  { g with queue := g.queue.filter fun m => !boxHas b m.target
           stack := g.stack.filter fun c => !boxHas b c.move.target }

/-- The ids that go with them, the queue from head to tail and then the stack from bottom to top (R92). -/
def Generator.lostTo (g : Generator) (b : Box) : List Nat :=
  ((g.queue.filter fun m => boxHas b m.target) ++
    ((g.stack.reverse.map Context.move).filter fun m => boxHas b m.target)).map Move.id

/-- The generator once its executing move is cut (R81). -/
def Generator.cutting (g : Generator) : Generator := { g with state := .braking, purpose := some .cut }

/-- The rows of R80 whose outcome is ACTIVE, for a registered trolley at a position and an inflated box, with the generator
after the order of the row. The row without an entry distance stands before the one inside (log entry 43). -/
def State.decidesActive (s : State) (sp : Span) (p : Vec3) (b : Box) (g : Generator) : Prop :=
  (boxHas b p = false ∧ g = s.gen ∧
    (s.gen.state = .idle ∨ s.gen.state = .held ∨ s.gen.state = .jogging ∨ s.gen.state = .halted ∨
      s.gen.state = .stopped)) ∨
  ∃ f, s.gen.flight = some f ∧
    ((s.gen.state = .moving ∨ s.gen.state = .braking) ∧ entryDistance f b = none ∧ g = s.gen ∧
        (f.move.kind = .exit → s.gen.state = .moving → boxHas b p = false) ∨
      ∃ d, entryDistance f b = some d ∧ boxHas b p = false ∧ f.s + brakingDistance s.gen.v sp.brakeAccel < d ∧
        (s.gen.state = .moving ∧ f.move.kind ≠ .exit ∧ g = s.gen.cutting ∨ s.gen.state = .braking ∧ g = s.gen))

/-- The rows of R80 whose outcome is ARMING, an exit planned now apart, with the condition and with the generator after the
order of the row. -/
def State.decidesArming (s : State) (sp : Span) (p : Vec3) (b : Box) (c : ArmCond) (g : Generator) : Prop :=
  (boxHas b p = true ∧
    ((s.gen.state = .halted ∨ s.gen.state = .stopped) ∧ c = .release ∧ g = s.gen ∨
      s.gen.state = .jogging ∧ c = .rest ∧
        g = { s.gen with jog := { s.gen.jog with
          request := ⟨0, 0, 0⟩, purpose := (match s.gen.jog.purpose with | none => some .zone | some k => some k) } })) ∨
  ∃ f, s.gen.flight = some f ∧
    (s.gen.state = .moving ∧ f.move.kind = .exit ∧ (boxHas b p = true ∨ entryDistance f b ≠ none) ∧ c = .exit ∧
        g = s.gen ∨
      ∃ d, entryDistance f b = some d ∧ (boxHas b p = true ∨ d ≤ f.s + brakingDistance s.gen.v sp.brakeAccel) ∧
        c = .rest ∧
        (s.gen.state = .moving ∧ f.move.kind ≠ .exit ∧ g = s.gen.cutting ∨ s.gen.state = .braking ∧ g = s.gen))

/-- STATE is raised where an order made the generator brake (R97). -/
def State.toldOf (s : State) (g : Generator) (t : State) : State :=
  if g.state = s.gen.state then t else raiseFlag .state 5 0 t

/-- The first of some ids that an operation visits in a removal of named cells, the rest to come; with no cell the operation
ends and its request is answered (R31, R32, R48, R50). -/
def removalFrom (op : TableOp) (cells : List Nat) (a : Answer) (l : Link) (t : State) : State :=
  match cells with
  | c :: rest => { t with zones := { t.zones with op := some { op with cell := c, plan := .cells rest } } }
  | [] => onPort l (Port.answer a) { t with zones := { t.zones with op := none } }

/-- The operation in flight touches a cell (R191): a full rebuild touches all, a cell rebuild its own, and an operation on a
zone those it visits (log entry 34), those that list its zone and those that a listed box of it covers. -/
def State.touchedCell (s : State) (n : Nat) : Prop :=
  ∃ op, s.zones.op = some op ∧
    match op.kind with
    | .fullRebuild => True
    | .cellRebuild => op.cell = n
    | .zoneAdd | .zoneAmend | .settlement | .zoneRetire | .withdrawal | .expiry =>
      op.visits s n = true ∨ op.zone.getD 0 ∈ idsAt s n ∨ op.zone.getD 0 ∈ coverIds s n

/-- A cell rebuild has been ordered (R52): the cell is REBUILDING, and the rebuild has begun, or waits behind the operation in
flight. -/
def State.rebuildOrdered (s : State) (n : Nat) : State :=
  { s with
    cells := (setCond n .rebuilding s).cells
    zones := match s.zones.op with
      | some _ => { s.zones with waiting := s.zones.waiting ++ [.rebuild n] }
      | none => { s.zones with op := some ⟨.cellRebuild, none, none, false, .rebuilding, n, .cells [], []⟩ } }

/-- The cap of a zone that is ACTIVE and SLOW and whose box meets a test (R94). -/
def slowCapWhere (s : State) (test : Box → Bool) (i : Nat) : Option Nat :=
  (zoneAt s i).bind fun z => if z.state = .active ∧ z.isSlow = true ∧ (region 0 z.box).any test then z.cap else none

/-- A zone has the lowest cap of the ACTIVE SLOW zones whose box meets a test, and the lowest id among equal caps (R94). -/
def lowestSlow (s : State) (test : Box → Bool) (id cap : Nat) : Prop :=
  slowCapWhere s test id = some cap ∧
    ∀ j ∈ zoneIds, ∀ k, slowCapWhere s test j = some k → cap < k ∨ cap = k ∧ id ≤ j

/-- No ACTIVE SLOW zone with a cap has a box that meets a test. -/
def noSlowWhere (s : State) (test : Box → Bool) : Prop := ∀ j ∈ zoneIds, slowCapWhere s test j = none

/-- A feedback frame is well formed on its link and matches the latest frame of its channel (R156, R157). -/
def State.matchedFrame (s : State) (w : Winch) (f : FeedbackFields) : Prop :=
  f.winch = w.number ∧ f.measured < 2 ^ 30 ∧ (s.drive.channels.get w).latest.isSome = true ∧
    f.echo = (s.drive.channels.get w).sequence ∧ (s.drive.channels.get w).answered = false

/-- The following check finds nothing: BRAKE is asserted, the latest frame is no LENGTH frame, or its command lies within the
following limit of the measured length (R159 item 5, R160). -/
def State.frameFollows (s : State) (w : Winch) (f : FeedbackFields) : Prop :=
  s.drive.brake = true ∨ (s.drive.channels.get w).latest = some .hold ∨
    ∃ cmd, (s.drive.channels.get w).latest = some (.length cmd) ∧
      (cmd - (f.measured : Int)).natAbs ≤ s.limits.following * 1000

/-- The Drive Port after a matched feedback has been stored (R155, R157, R159 item 1): the link's receiver hunts, and the
channel holds the values and is ALIVE with no misses. -/
def State.storedFrame (s : State) (w : Winch) (f : FeedbackFields) (st : DriveStatus) : DrivePort :=
  { s.drive with
    receivers := s.drive.receivers.set w .hunting
    channels := s.drive.channels.set w
      { s.drive.channels.get w with answered := true, misses := 0, status := .alive, measured := some f.measured,
                                    tension := f.tension, drive := some st } }

/-- A cause is raised where there is one: MOVE_DROPPED with the first id of a list (section 12.6). -/
def raiseFirst (ids : List Nat) (reason : Nat) (s : State) : State :=
  match ids.head? with
  | none => s
  | some i => raiseFlag .moveDropped i reason s

/-- The link, the tag and the kind of a request command. -/
def requestOf : Instr → Option (Link × Byte × RequestKind)
  | .zoneAdd r => some (r.link, r.tag, .zoneAdd)
  | .zoneAmend r => some (r.link, r.tag, .zoneAmend)
  | .zoneRetire r => some (r.link, r.tag, .zoneRetire)
  | .zoneQuery r => some (r.link, r.tag, .zoneQuery)
  | .zoneList r => some (r.link, r.tag, .zoneList)
  | .pointLookup r => some (r.link, r.tag, .pointLookup)
  | .cueStore r => some (r.link, r.tag, .cueStore)
  | .cueAmend r => some (r.link, r.tag, .cueAmend)
  | .cueRetire r => some (r.link, r.tag, .cueRetire)
  | .cueQuery r => some (r.link, r.tag, .cueQuery)
  | .cueList r => some (r.link, r.tag, .cueList)
  | .goto r | .gotoPriority r => some (r.link, r.tag, .goto)
  | .recall r | .recallPriority r => some (r.link, r.tag, .recall)
  | .jog r => some (r.link, r.tag, .jog)
  | .hold r => some (r.link, r.tag, .hold)
  | .resume r => some (r.link, r.tag, .resume)
  | .flushQueue r => some (r.link, r.tag, .flush)
  | .flushAll r => some (r.link, r.tag, .flush)
  | .register r => some (r.link, r.tag, .register)
  | .release r => some (r.link, r.tag, .release)
  | .motionQuery r => some (r.link, r.tag, .motionQuery)
  | .setSpan r => some (r.link, r.tag, .setSpan)
  | .setLimits r => some (r.link, r.tag, .setLimits)
  | .lock r => some (r.link, r.tag, .lock)
  | .configQuery r => some (r.link, r.tag, .configQuery)
  | .tensionQuery r => some (r.link, r.tag, .tensionQuery)
  | .driveQuery r => some (r.link, r.tag, .driveQuery)
  | .faultQuery r => some (r.link, r.tag, .faultQuery)
  | .clearFault r => some (r.link, r.tag, .clearFault)
  | .wearQuery r => some (r.link, r.tag, .wearQuery)
  | .wearLoad r => some (r.link, r.tag, .wearLoad)
  | .wearReset r => some (r.link, r.tag, .wearReset)
  | .clearEvents r => some (r.link, r.tag, .clearEvents)
  | .setNotices r => some (r.link, r.tag, .setNotices)
  | .eventQuery r => some (r.link, r.tag, .eventQuery)
  | .unknownRequest _ _ _ | .powerUp | .resetLine | .consoleFrameDiscard _ _ | .frameSent _ | .stepTimerExpiry
  | .holdTimerExpiry | .oneSecondTimerExpiry | .deadmanExpiry | .scrubberTimerExpiry | .cellVisit
  | .feedbackFrame _ _ | .stopAsserted | .stopReleased | .endOfReset => none

end Sys2Proof.Machine

namespace Sys2Proof

/-- A body of the wrong form. -/
def Body.isMalformed {α : Type} : Body α → Bool
  | .malformed => true
  | .fields _ => false

end Sys2Proof

namespace Sys2Proof.Machine

/-- A request command whose body has the wrong form (R200, item 4). -/
def malformedRequest : Instr → Bool
  | .zoneAdd r => r.body.isMalformed
  | .zoneAmend r => r.body.isMalformed
  | .zoneRetire r | .cueRetire r => r.body.isMalformed
  | .zoneQuery r | .cueQuery r | .wearQuery r | .wearReset r => r.body.isMalformed
  | .zoneList r | .cueList r | .hold r | .resume r | .flushAll r | .release r | .motionQuery r | .lock r
  | .configQuery r | .tensionQuery r | .driveQuery r | .faultQuery r | .clearFault r | .eventQuery r =>
    r.body.isMalformed
  | .pointLookup r | .register r | .jog r => r.body.isMalformed
  | .cueStore r => r.body.isMalformed
  | .cueAmend r => r.body.isMalformed
  | .goto r | .gotoPriority r => r.body.isMalformed
  | .recall r | .recallPriority r => r.body.isMalformed
  | .flushQueue r => r.body.isMalformed
  | .setSpan r => r.body.isMalformed
  | .setLimits r => r.body.isMalformed
  | .wearLoad r => r.body.isMalformed
  | .clearEvents r | .setNotices r => r.body.isMalformed
  | .unknownRequest _ _ _ | .powerUp | .resetLine | .consoleFrameDiscard _ _ | .frameSent _ | .stepTimerExpiry
  | .holdTimerExpiry | .oneSecondTimerExpiry | .deadmanExpiry | .scrubberTimerExpiry | .cellVisit
  | .feedbackFrame _ _ | .stopAsserted | .stopReleased | .endOfReset => false

/-- The commands that begin a reset. -/
def beginsReset : Instr → Bool
  | .powerUp | .resetLine => true
  | _ => false

/-- Everything that either reset sets, the rope wear apart: each block at its reset values, the timers stopped and the
receivers passing their bytes over until the reset ends (R1, R3, R17, R46, R57, R73, R96, R136, R151, R155, R166, R190,
R192, R199, R204). -/
def State.blocksCleared (t : State) : Prop :=
  t.resetting = true ∧ (∀ id, zoneAt t id = none) ∧ t.zones.op = none ∧ t.zones.waiting = [] ∧
    t.zones.secondTimer = none ∧ (∀ n, cueAt t n = none) ∧
    (∀ n, n < 192 → idsAt t n = [] ∧ condAt t n = .current ∧ cellFails t n = false) ∧
    t.spanSet = ⟨none, false⟩ ∧ t.limits = ⟨0, 38000, 40000, 500, 300, 100, 60000⟩ ∧
    t.envelope = ⟨[], none⟩ ∧
    t.gen = ⟨.unregistered, none, 0, none, none, none, [], [], 1, ⟨false, ⟨0, 0, 0⟩, ⟨0, 0, 0⟩, none, none⟩, none⟩ ∧
    t.lengths = none ∧ (∀ w, t.tension.get w = .normal) ∧
    (∀ w, t.drive.channels.get w = ⟨0, none, false, 0, .silent, none, 0, none, none⟩) ∧
    (∀ w, t.drive.receivers.get w = .passing) ∧ t.drive.holdTimer = none ∧ t.drive.brake = true ∧
    t.drive.setSinceRelease = false ∧ t.drive.setSinceExpiry = false ∧
    t.scrubber = ⟨0, none⟩ ∧ t.faults.captured = none ∧ (∀ i : Fin 9, t.faults.flags[i] = false) ∧
    (∀ i : Fin 21, t.console.flags[i] = none) ∧
    ∀ l, (t.console.port l).receiver = .passing ∧ (t.console.port l).inProgress = none ∧
      (t.console.port l).frames = [] ∧ ∀ n : Fin 21, (t.console.port l).enables.getLsbD n = decide (n.val = 18)

end Sys2Proof.Machine
end

