-- ==== Sys2Proof/Certificates/Slice0/Obligations.lean ====
section
/-! DEFINITION. The statements for the provers, in the order of the manual's layers: the queue and the resets, the console
ports, the tables, the moves, the drives, what every command keeps, and the arithmetic and the frames beneath them. -/

section
open Sys2Proof Sys2Proof.Machine

/-- Each step takes the command at the front of the queue and runs it on the state with the queue's rest; on an empty
queue the block idles, which is the model's own convention (log entry 3). -/
def Obligations.StepTakesTheFrontCommand : Prop :=
  (∀ (s : State) (c : Instr) (rest : List Instr),
      s.pending = c :: rest → step s = exec c { s with pending := rest }) ∧
    ∀ s : State, s.pending = [] → step s = .next s

/-- Every well-formed command has its effect in every state: none stops the machine. A frame of a request kind is no
UNKNOWN_REQUEST, and that ill-formed command is refused by name, which is the model's own choice (log entry 27). No command
changes the queue of the commands that wait. -/
def Obligations.EveryCommandRunsAndKeepsTheQueue : Prop :=
  ((∀ (i : Instr) (s : State), i.wf = true → ∃ t, exec i s = .next t) ∧
     ∀ (l : Link) (tag kind : Byte) (s : State), isRequestKind kind = true →
       exec (.unknownRequest l tag kind) s = .refused .notAnUnknownKind) ∧
  (∀ (i : Instr) (s t : State), exec i s = .next t → t.pending = s.pending)

/-- Either reset brings every block to its reset values. Power-up clears the rope wear; the RESET line keeps the counters
and discards the accumulators. The level of the STOP input and the commands that wait are as they were.
The state after reset is what a power-up and its end leave, when no command waits and the STOP input is not asserted, which is
the model's own choice for the input (log entry 2). That the values are taken as the reset begins is the model's reading
(log entry 4). -/
def Obligations.ResetsClearEveryBlock : Prop :=
  (∀ s : State, ∃ t u, exec .powerUp s = .next t ∧ exec .resetLine s = .next u ∧
     t.blocksCleared ∧ u.blocksCleared ∧
     (∀ w : Winch, t.wear.get w = ⟨Vector.replicate 64 0, 0⟩ ∧ u.wear.get w = ⟨(s.wear.get w).counters, 0⟩) ∧
     t.drive.stopInput = s.drive.stopInput ∧ u.drive.stopInput = s.drive.stopInput ∧
     t.pending = s.pending ∧ u.pending = s.pending) ∧
  (∀ s : State, s.pending = [] → s.drive.stopInput = false →
     ∃ t, exec .powerUp s = .next t ∧ exec .endOfReset t = .next State.reset)

/-- While a reset is in progress no request, frame or timer is taken; the STOP input alone is followed, and its level is
recorded only at the reset's end. At the end the timers of the Zone Table, the Drive Port and the Integrity Scrubber start
their periods, every receiver hunts, and the level of the STOP input is recorded; nothing else changes. That a reset begins
and ends in two commands, and that this holds of every command between them, is the model's reading (log entry 4), and that
an END_OF_RESET outside a reset changes nothing is its choice (log entry 10). -/
def Obligations.ResetsLastUntilTheirEnd : Prop :=
  (∀ (i : Instr) (s : State), s.resetting = true → i.wf = true →
    (beginsReset i = false → i ≠ .endOfReset → i ≠ .stopAsserted → i ≠ .stopReleased → exec i s = .next s) ∧
      exec .stopAsserted s = .next { s with drive := { s.drive with stopInput := true } } ∧
      exec .stopReleased s = .next { s with drive := { s.drive with stopInput := false } }) ∧
  ∀ s : State,
    (s.resetting = true →
      exec .endOfReset s = .next
        { s with
          resetting := false
          console :=
            { s.console with
              operations := { s.console.operations with receiver := .hunting }
              safety := { s.console.safety with receiver := .hunting } }
          zones := { s.zones with secondTimer := some 1000 }
          drive := { s.drive with receivers := ⟨.hunting, .hunting, .hunting, .hunting⟩, holdTimer := some 2,
                                  stopLevel := s.drive.stopInput }
          scrubber := { s.scrubber with timer := some 10 } }) ∧
      (s.resetting = false → exec .endOfReset s = .next s)

/-- What a port decides itself. A free port answers a frame of no request kind UNKNOWN_REQUEST at once, with its tag, under the
kind 80h and with the kind as received, which the model carries as the answer's one detail (log entry 6). The six reserved
requests are refused SAFETY_ONLY on the operations link, and a request whose body has the wrong form is refused BAD_FIELD with
the field FORM (0), one byte also for SET_SPAN, which is the model's choice (log entry 49). None of these changes anything but
the port.
A frame that arrives while the port has a request in progress is answered PORT_BUSY at once with its own tag, or, with
eight such answers waiting, is discarded with the link's flag raised with reason OVERRUN (4). The kind of the PORT_BUSY answer
to an unknown kind is a free value (log entry 5). -/
def Obligations.PortsDecideFreeAndBusy : Prop :=
  (∀ (s : State) (l : Link) (tag kind : Byte), s.portFree l → isRequestKind kind = false →
     exec (.unknownRequest l tag kind) s =
       .next (onPort l (fun p =>
         { p.enqueue ⟨.answer, tag, 0x80, [0x03, 0x00, kind]⟩ with receiver := .hunting }) s)) ∧
  (∀ (c : Instr) (s : State) (l : Link) (tag : Byte) (k : RequestKind), requestOf c = some (l, tag, k) →
     s.portFree l →
       (l = .operations → k ∈ [.release, .lock, .setLimits, .clearFault, .wearLoad, .wearReset] →
         exec c s = .next (s.answered l tag (kindCode k) ⟨.safetyOnly, false, []⟩)) ∧
       ((l = .operations → k ∉ [.release, .lock, .setLimits, .clearFault, .wearLoad, .wearReset]) →
         malformedRequest c = true → exec c s = .next (s.answered l tag (kindCode k) ⟨.badField, false, [[0]]⟩))) ∧
  ∀ (c : Instr) (s : State) (l : Link) (tag kind : Byte),
    ((∃ k, requestOf c = some (l, tag, k) ∧ kind = kindCode k + 0x80) ∨
      ∃ k, c = .unknownRequest l tag k ∧ isRequestKind k = false ∧ kind = Config.busyKindOfUnknown k) →
    s.resetting = false → (s.console.port l).inProgress.isSome = true →
      ((s.console.port l).busyWaiting < 8 →
        exec c s = .next (onPort l (fun p =>
          { p.enqueue ⟨.busy, tag, kind, [0x01, 0x00]⟩ with receiver := .hunting }) s)) ∧
      (8 ≤ (s.console.port l).busyWaiting →
        exec c s = .next (raiseFlag (.linkError l) 0 4 (onPort l (fun p => { p with receiver := .hunting }) s)))

/-- A discarded frame raises its link's error flag with the reason as its qualifier, and with the flag its notice on each port
that has it enabled; the link's receiver hunts again, and nothing else changes. When a frame has left, the first that waits
is sent: the transmit list of its port loses its first frame and keeps its order, and nothing else changes. -/
def Obligations.LinkEventsRaiseTheFlagAndSendOn : Prop :=
  (∀ (s : State) (l : Link) (reason : DiscardReason), s.resetting = false →
     exec (.consoleFrameDiscard l reason) s =
       .next (raiseFlag (.linkError l) 0 (match reason with | .check => 1 | .length => 2 | .brk => 3)
         (onPort l (fun p => { p with receiver := .hunting }) s))) ∧
  (∀ (s : State) (l : Link) (f : Frame), s.resetting = false → (s.console.port l).sending = some f →
     exec (.frameSent l) s =
       .next (onPort l (fun p => { p with sending := p.waiting.head?, waiting := p.waiting.tail }) s))

/-- An answer is sent as one or more frames. Each has the request's tag, its kind plus 80h, the outcome and a body of at
most 240 bytes; all but the last are CONTINUED; the details follow one another in their order. -/
def Obligations.AnswerIsSplitIntoParts : Prop :=
  ∀ (tag kind : Byte) (a : Answer), (∀ u ∈ a.details, u.length ≤ 238) →
    ∃ (init : List (List Byte)) (last : List Byte),
      answerFrames .answer tag (answerKind kind) a =
        (init.map fun d => ⟨.answer, tag, kind + 0x80, a.code.value :: (if a.clamped then 3 else 2) :: d⟩) ++
          [⟨.answer, tag, kind + 0x80, a.code.value :: (if a.clamped then 1 else 0) :: last⟩] ∧
      (∀ d ∈ init, d.length ≤ 238) ∧ last.length ≤ 238 ∧ init.flatten ++ last = a.details.flatten

/-- Raising a clear event flag sets it with the cause's subject and qualifier, and gives each port whose enable for the
flag is set a notice, which takes the place of one of the same flag that still waits. Raising a set flag changes nothing.
That a waiting notice takes the new qualifier with the new subject is the model's reading (log entry 14).
CLEAR_EVENTS: each named flag becomes clear and gives up its subject and qualifier, and the answer is a mask of the
named flags that were set. SET_NOTICES sets the notice enables of the port on which it arrives to the mask and answers with
them; the other port's enables stay. A mask with a bit above bit 20 is refused BAD_FIELD, with the one field numbered 1 by
the model's reading (log entry 7). EVENT_QUERY reports each of the 21 flags with its subject and qualifier while it is set,
and the notice enables of both ports, and changes nothing; the place of a flag's presence byte is the model's reading
(log entry 7). -/
def Obligations.EventFlagsAreRaisedAndAnswered : Prop :=
  (∀ (s : State) (f : EventFlag) (subject qualifier : Nat),
       (∀ r, s.console.flags[f.number]? = some (some r) → raiseFlag f subject qualifier s = s) ∧
       (s.console.flags[f.number]? = some none →
         let t := raiseFlag f subject qualifier s
         let notice : Frame :=
           ⟨.notice f.number, 0, 0xC0, [byte f.number, byte subject, byte (subject / 256), byte qualifier]⟩
         t = { s with console := t.console } ∧
           t.console.flags = s.console.flags.setIfInBounds f.number (some ⟨subject, qualifier⟩) ∧
           ∀ l : Link,
             t.console.port l =
               if (s.console.port l).enables.getLsbD f.number = false then s.console.port l
               else if ∃ g ∈ (s.console.port l).waiting, g.role = .notice f.number then
                 { s.console.port l with
                   waiting := (s.console.port l).waiting.map fun g => if g.role = .notice f.number then notice else g }
               else (s.console.port l).enqueue notice)) ∧
  ∀ (s : State) (l : Link) (tag : Byte) (m : BitVec 32), s.portFree l →
    (m.toNat < 2 ^ 21 →
      (∃ k : Nat, k < 2 ^ 21 ∧ (∀ n : Fin 21, k.testBit n = (m.getLsbD n && s.console.flags[n].isSome)) ∧
        exec (.clearEvents ⟨l, tag, .fields m⟩) s =
          .next (State.answered
            { s with console :=
                { s.console with flags := Vector.ofFn fun n => if m.getLsbD n then none else s.console.flags[n] } }
            l tag 0x20 ⟨.ok, false, [le32 k]⟩)) ∧
      exec (.setNotices ⟨l, tag, .fields m⟩) s =
        .next (State.answered (onPort l (fun p => { p with enables := BitVec.ofNat 21 m.toNat }) s)
          l tag 0x21 ⟨.ok, false, [le32 m.toNat]⟩)) ∧
    (2 ^ 21 ≤ m.toNat →
      exec (.clearEvents ⟨l, tag, .fields m⟩) s = .next (s.answered l tag 0x20 ⟨.badField, false, [[1]]⟩) ∧
      exec (.setNotices ⟨l, tag, .fields m⟩) s = .next (s.answered l tag 0x21 ⟨.badField, false, [[1]]⟩)) ∧
    exec (.eventQuery ⟨l, tag, .fields ()⟩) s =
      .next (s.answered l tag 0x22 ⟨.ok, false,
        (s.console.flags.toList.map fun o =>
          match o with
          | none => [0, 0, 0, 0]
          | some r => [1, byte r.subject, byte (r.subject / 256), byte r.qualifier]) ++
          [le32 s.console.operations.enables.toNat, le32 s.console.safety.enables.toNat]⟩)

/-- A set event flag keeps its subject and qualifier through every command but a CLEAR_EVENTS that names it and a reset. -/
def Obligations.FlagsStandUntilCleared : Prop :=
  ∀ (i : Instr) (s t : State) (n : Fin 21) (r : Raised), exec i s = .next t → beginsReset i = false →
    (∀ l tag m, i = .clearEvents ⟨l, tag, .fields m⟩ → m.getLsbD n = false) →
    s.console.flags[n] = some r → t.console.flags[n] = some r

/-- CLEAR_FAULT clears the Fault Record alone and is answered OK on the safety link; on the operations link it is answered
SAFETY_ONLY and changes nothing. A fault reported after the clear finds an empty record: it sets its class flag, becomes
the captured entry and raises FAULT. -/
def Obligations.ClearFaultEmptiesTheFaultRecord : Prop :=
  (∀ (s : State) (tag : Byte),
    (s.portFree .safety →
      exec (.clearFault ⟨.safety, tag, .fields ()⟩) s =
        .next (State.answered { s with faults := ⟨Vector.replicate 9 false, none⟩ } .safety tag 0x1C ⟨.ok, false, []⟩)) ∧
    (s.portFree .operations →
      exec (.clearFault ⟨.operations, tag, .fields ()⟩) s =
        .next (s.answered .operations tag 0x1C ⟨.safetyOnly, false, []⟩))) ∧
  ∀ (s : State) (c : FaultClass) (subject : FaultSubject), s.faults = ⟨Vector.replicate 9 false, none⟩ →
    let e := reportFault c subject (Ev.start s)
    (∀ k : Fin 9, e.st.faults.flags[k] = decide (k.val + 1 = c.priority)) ∧
      e.st.faults.captured = some ⟨c, subject, if s.gen.state = .unregistered then none else s.gen.pos.map toMm⟩ ∧
      e.out = [.raise .fault c.priority 0]

/-- WEAR_QUERY reports the winch number, its 64 counters, its accumulator and the wear limit, and changes nothing; a number
other than 1 to 4 is answered BAD_FIELD.
WEAR_LOAD and WEAR_RESET: SAFETY_ONLY, then BAD_FIELD, then WRONG_STATE while BRAKE is released. Accepted, the winch's 64
counters take the values carried, or 0, and its accumulator becomes 0; the other winches' tables and every flag stay. The
number 1 of the winch field in a BAD_FIELD answer is the model's reading (log entry 7). -/
def Obligations.WearRequestsReportAndRewrite : Prop :=
  (∀ (s : State) (l : Link) (tag : Byte), s.portFree l →
       (∀ w : Winch, exec (.wearQuery ⟨l, tag, .fields w.number⟩) s =
         .next (s.answered l tag 0x1D ⟨.ok, false,
           [byte w.number] :: (s.wear.get w).counters.toList.map le16 ++
             [le32 (s.wear.get w).accumulator, le16 s.limits.wear]⟩)) ∧
       ∀ n : Nat, n = 0 ∨ 4 < n →
         exec (.wearQuery ⟨l, tag, .fields n⟩) s = .next (s.answered l tag 0x1D ⟨.badField, false, [[1]]⟩)) ∧
  ∀ (s : State) (tag : Byte) (n : Nat) (counters : Vector Nat 64),
    (s.portFree .operations →
      exec (.wearLoad ⟨.operations, tag, .fields ⟨n, counters⟩⟩) s =
          .next (s.answered .operations tag 0x1E ⟨.safetyOnly, false, []⟩) ∧
        exec (.wearReset ⟨.operations, tag, .fields n⟩) s =
          .next (s.answered .operations tag 0x1F ⟨.safetyOnly, false, []⟩)) ∧
    (s.portFree .safety → n = 0 ∨ 4 < n →
      exec (.wearLoad ⟨.safety, tag, .fields ⟨n, counters⟩⟩) s =
          .next (s.answered .safety tag 0x1E ⟨.badField, false, [[1]]⟩) ∧
        exec (.wearReset ⟨.safety, tag, .fields n⟩) s =
          .next (s.answered .safety tag 0x1F ⟨.badField, false, [[1]]⟩)) ∧
    ∀ w : Winch, s.portFree .safety → n = w.number →
      (s.drive.brake = false →
        exec (.wearLoad ⟨.safety, tag, .fields ⟨n, counters⟩⟩) s =
            .next (s.answered .safety tag 0x1E ⟨.wrongState, false, []⟩) ∧
          exec (.wearReset ⟨.safety, tag, .fields n⟩) s =
            .next (s.answered .safety tag 0x1F ⟨.wrongState, false, []⟩)) ∧
      (s.drive.brake = true →
        exec (.wearLoad ⟨.safety, tag, .fields ⟨n, counters⟩⟩) s =
            .next (State.answered { s with wear := s.wear.set w ⟨counters, 0⟩ } .safety tag 0x1E ⟨.ok, false, []⟩) ∧
          exec (.wearReset ⟨.safety, tag, .fields n⟩) s =
            .next (State.answered { s with wear := s.wear.set w ⟨Vector.replicate 64 0, 0⟩ }
              .safety tag 0x1F ⟨.ok, false, []⟩))

/-- MOTION_QUERY, CONFIG_QUERY, TENSION_QUERY, DRIVE_QUERY and FAULT_QUERY are answered OK at once in every generator state with
the values the state holds, and change nothing. In MOTION_QUERY the speed, the jog velocity and the request vector are all sent
in every state, which is the model's choice (log entry 12). That a tension has been stored is read from the presence of a
measured length, which is the model's reading (log entry 28). The numbers of the named values, the bytes of the levels of
BRAKE and STOP, and the room of an absent item are the model's readings too (log entry 7). -/
def Obligations.StatusQueriesChangeNothing : Prop :=
  ∀ (s : State) (l : Link) (tag : Byte), s.portFree l →
    (let moveBytes (m : Move) : List Byte :=
       le16 m.id ++ [match m.kind with | .goto => (1 : Byte) | .recall => 2 | .exit => 3] ++ pointBytes (toMm m.target) ++
         (match m.cue with | none => [0, 0] | some n => [1, byte n]) ++ le16 m.cap
     exec (.motionQuery ⟨l, tag, .fields ()⟩) s =
       .next (s.answered l tag 0x14 ⟨.ok, false,
         [[byte s.gen.state.code],
           (match s.gen.purpose with
             | none => [0, 0]
             | some p => [1, match p with | .cut => 1 | .hold => 2 | .priority => 3 | .flush => 4 | .halt => 5]),
           (match s.gen.pos with | none => List.replicate 13 0 | some p => 1 :: pointBytes (toMm p)), le16 s.gen.v,
           leInt32 s.gen.jog.velocity.x, leInt32 s.gen.jog.velocity.y, leInt32 s.gen.jog.velocity.z,
           leInt32 s.gen.jog.request.x, leInt32 s.gen.jog.request.y, leInt32 s.gen.jog.request.z,
           (match s.gen.jog.purpose with
             | none => [0, 0]
             | some p => [1, match p with | .zone => 1 | .flush => 2 | .halt => 3]),
           (match s.gen.flight with
             | none => List.replicate 28 0
             | some f => 1 :: (moveBytes f.move ++ le32 f.dist ++ le32 f.s)),
           (match s.gen.waiting with | none => List.replicate 20 0 | some m => 1 :: moveBytes m)] ++
           [byte s.gen.queue.length] :: s.gen.queue.map moveBytes ++
           [byte s.gen.stack.reverse.length] :: s.gen.stack.reverse.map (fun c =>
             moveBytes c.move ++ [match c.resume with | .manual => (1 : Byte) | .auto => 2]) ++
           [[byte s.envelope.arming.length], [if s.envelope.exit.isSome then 1 else 0]]⟩)) ∧
    exec (.configQuery ⟨l, tag, .fields ()⟩) s =
      .next (s.answered l tag 0x18 ⟨.ok, false,
        [[match s.spanSet.span with | none => 1 | some _ => 2], [if s.spanSet.locked then 1 else 0],
          match s.spanSet.span with
          | none => List.replicate 139 0
          | some sp =>
            let each (f : WinchSpan → List Byte) : List Byte :=
              f sp.winch.w1 ++ f sp.winch.w2 ++ f sp.winch.w3 ++ f sp.winch.w4
            1 :: (boxBytes sp.w ++ each (fun w => pointBytes w.anchor) ++ each (fun w => le16 w.offset) ++
              each (fun w => le32 w.lmin ++ le32 w.lmax) ++ each (fun w => le16 w.compliance) ++
              each (fun w => [byte w.scale]) ++ each (fun w => le16 w.rate) ++ le16 sp.top ++
              [byte sp.accel, byte sp.brakeAccel] ++ le16 sp.clearance),
          le16 s.limits.slackLimit, le16 s.limits.overLimit, le16 s.limits.criticalLimit, le16 s.limits.hysteresis,
          le16 s.limits.following, le16 s.limits.tolerance, le16 s.limits.wear]⟩) ∧
    exec (.tensionQuery ⟨l, tag, .fields ()⟩) s =
      .next (s.answered l tag 0x19 ⟨.ok, false,
        [le16 s.limits.slackLimit, le16 s.limits.overLimit, le16 s.limits.criticalLimit, le16 s.limits.hysteresis] ++
          [Winch.w1, .w2, .w3, .w4].flatMap fun w =>
            [le16 (s.drive.channels.get w).tension,
              [if (s.drive.channels.get w).measured.isSome then 1 else 0], [byte (s.tension.get w).code],
              match s.lengths with
              | none => [0, 0, 0, 0, 0]
              | some r => 1 :: le32 (r.get w).stretch.toNat]⟩) ∧
    exec (.driveQuery ⟨l, tag, .fields ()⟩) s =
      .next (s.answered l tag 0x1A ⟨.ok, false,
        [[if s.drive.brake then (1 : Byte) else 0], [if s.drive.stopLevel then 1 else 0]] ++
          [Winch.w1, .w2, .w3, .w4].flatMap fun w =>
            let c := s.drive.channels.get w
            let length (o : Option Int) : List Byte := match o with | none => [0, 0, 0, 0, 0] | some x => 1 :: le32 x.toNat
            [[match c.status with | .silent => 1 | .alive => 2 | .lost => 3], [byte c.misses],
              (match c.latest with
                | none => [0, 0, 0]
                | some k => [1, c.sequence, match k with | .length _ => 1 | .hold => 2]),
              [if c.answered then 1 else 0], length c.lastCommand, length c.measured, le16 c.tension,
              match c.drive with
              | none => [0, 0]
              | some d => [1, match d with | .ready => 1 | .braked => 2 | .fault => 3]]⟩) ∧
    exec (.faultQuery ⟨l, tag, .fields ()⟩) s =
        .next (s.answered l tag 0x1B ⟨.ok, false,
          (s.faults.flags.toList.map fun b => [if b then 1 else 0]) ++
            [match s.faults.captured with
              | none => List.replicate 17 0
              | some c =>
                [1, byte c.cls.priority] ++
                  (match c.subject with | .number n => le16 n | .position p => pointBytes p) ++
                  (match c.pos with | none => List.replicate 13 0 | some p => 1 :: pointBytes p)]⟩)

/-- ZONE_QUERY and ZONE_LIST report the records as they stand when those read are sound, and change nothing. A FREE slot is
reported with its id and state alone, and an id above 63 is answered BAD_FIELD.
POINT_LOOKUP names the cell of a point inside W and its condition, and lists each zone supplied for it with whether its box, its
pending box and its prior box contain the point; a point outside W is answered OUT_OF_VOLUME.
CUE_QUERY and CUE_LIST do the same for the cue records, and a number above 95 is answered BAD_FIELD. The numbers of states,
conditions and fields are places in the manual's lists, as the model reads them (log entry 7). -/
def Obligations.ZoneAndCueQueriesReportTheRecords : Prop :=
  (∀ (s : State) (l : Link) (tag : Byte), s.portFree l →
     (∀ id, id ≤ 63 → zoneFails s id = false →
       exec (.zoneQuery ⟨l, tag, .fields id⟩) s =
         .next (s.answered l tag 0x04 ⟨.ok, false,
           match zoneAt s id with
           | none => [[byte id], [1]]
           | some z =>
             [[byte id], [byte z.state.code], [if z.isSlow then 2 else 1], boxBytes z.box,
               optBytes 2 le16 (if z.isSlow then z.cap else none), optBytes 2 le16 z.remaining, [z.ownerByte],
               [z.revision], boolByte z.suspect,
               optBytes 30 (fun p : PendingBox =>
                 boxBytes p.box ++ optBytes 2 le16 p.cap ++ optBytes 2 le16 p.lifetime) z.pendingBox,
               optBytes 29 (fun p : Prior =>
                 boxBytes p.box ++ optBytes 2 le16 p.remaining ++ [p.revision] ++ boolByte p.suspect) z.prior]⟩)) ∧
     (∀ id, 63 < id →
       exec (.zoneQuery ⟨l, tag, .fields id⟩) s = .next (s.answered l tag 0x04 ⟨.badField, false, [[1]]⟩)) ∧
     (s.zonesSound →
       let entries := (List.range 64).filterMap fun id => (zoneAt s id).map fun z =>
         [byte id, if z.isSlow then 2 else 1, byte z.state.code, if z.suspect then 1 else 0]
       exec (.zoneList ⟨l, tag, .fields ()⟩) s =
         .next (s.answered l tag 0x05 ⟨.ok, false, [byte entries.length] :: entries⟩))) ∧
  (∀ (s : State) (l : Link) (tag : Byte) (sp : Span) (p : Vec3), s.portFree l → s.spanSet.span = some sp →
     (pointOk p = true → boxHas sp.w p = true → s.zonesSound → cellFails s (cellOf sp.w (toMicro p)) = false →
       let n := cellOf sp.w (toMicro p)
       let has (z : Zone) (b : Box) : Bool :=
         (region (if z.isSlow then 0 else sp.clearance) b).any fun r => boxHas r (toMicro p)
       let entries := (if condAt s n = .current then idsAt s n else coverIds s n).filterMap fun id =>
         (zoneAt s id).map fun z =>
           [byte id, if z.isSlow then 2 else 1, byte z.state.code, if has z z.box then 1 else 0] ++
             (match z.pendingBox with | none => [0, 0] | some b => [1, if has z b.box then 1 else 0]) ++
             (match z.prior with | none => [0, 0] | some b => [1, if has z b.box then 1 else 0])
       exec (.pointLookup ⟨l, tag, .fields p⟩) s =
         .next (s.answered l tag 0x06 ⟨.ok, false,
           [[byte (n % 16)], [byte (n / 16)],
             [match condAt s n with | .current => 1 | .rebuilding => 2 | .overfull => 3],
             [byte entries.length]] ++ entries⟩)) ∧
     (pointOk p = true → boxHas sp.w p = false →
       exec (.pointLookup ⟨l, tag, .fields p⟩) s = .next (s.answered l tag 0x06 ⟨.outOfVolume, false, []⟩))) ∧
  (∀ (s : State) (l : Link) (tag : Byte), s.portFree l →
     (∀ n, n ≤ 95 → cueFails s n = false →
       exec (.cueQuery ⟨l, tag, .fields n⟩) s =
         .next (s.answered l tag 0x0A ⟨.ok, false,
           match cueAt s n with
           | none => [[byte n], [1]]
           | some c =>
             [[byte n], [2], pointBytes c.target, match c.speed with | none => [0, 0, 0] | some v => 1 :: le16 v,
               [c.revision], [if c.suspect then 1 else 0], [if c.blocked then 1 else 0]]⟩)) ∧
     (∀ n, 95 < n →
       exec (.cueQuery ⟨l, tag, .fields n⟩) s = .next (s.answered l tag 0x0A ⟨.badField, false, [[1]]⟩)) ∧
     (s.cuesSound →
       let entries := (List.range 96).filterMap fun n => (cueAt s n).map fun c =>
         [byte n, if c.blocked then 1 else 0, if c.suspect then 1 else 0]
       exec (.cueList ⟨l, tag, .fields ()⟩) s =
         .next (s.answered l tag 0x0B ⟨.ok, false, [byte entries.length] :: entries⟩)))

/-- A request read of a zone record that fails its check marks the record suspect, recomputes its word and raises SUSPECT;
the query is answered with the contents as stored and suspect set; RECORD_CHECK is reported, and the generator takes a
controlled halt: from IDLE or HELD it is HALTED at once, a move brakes with purpose HALT. -/
def Obligations.DamagedZoneReadHalts : Prop :=
  ∀ (s : State) (l : Link) (tag : Byte) (id : Nat) (z : Zone), s.portFree l → zoneAt s id = some z →
    zoneFails s id = true →
      ∃ t, exec (.zoneQuery ⟨l, tag, .fields id⟩) s = .next t ∧
        zoneAt t id = some { z with suspect := true } ∧ zoneFails t id = false ∧
        (∀ j, j ≠ id → zoneAt t j = zoneAt s j ∧ zoneFails t j = zoneFails s j) ∧
        (∃ r, t.console.flags[17] = some r) ∧ (s.console.flags[17] = none → t.console.flags[17] = some ⟨id, 1⟩) ∧
        t.faults.flags[5] = true ∧
        (s.faults.captured = none →
          t.faults.captured = some ⟨.recordCheck, .number id,
            if s.gen.state = .unregistered then none else s.gen.pos.map toMm⟩) ∧
        (t.console.port l).inProgress = none ∧
        (∀ g ∈ answerFrames .answer tag 0x84 ⟨.ok, false, zoneReport id (some { z with suspect := true })⟩,
          g ∈ (t.console.port l).frames) ∧
        (s.gen.state = .idle ∨ s.gen.state = .held → t.gen.state = .halted) ∧
        (s.gen.state = .moving ∨ s.gen.state = .braking →
          t.gen = { s.gen with state := .braking, purpose := some .halt }) ∧
        (s.gen.state = .jogging →
          t.gen = { s.gen with jog := { s.gen.jog with request := ⟨0, 0, 0⟩, purpose := some .halt } }) ∧
        (s.gen.state = .halted ∨ s.gen.state = .stopped ∨ s.gen.state = .unregistered → t.gen = s.gen) ∧
        t.cues = s.cues ∧ t.cells = s.cells ∧ t.spanSet = s.spanSet ∧ t.limits = s.limits ∧ t.drive = s.drive ∧
        t.tension = s.tension ∧ t.wear = s.wear ∧ t.lengths = s.lengths

/-- ZONE_ADD whose plan range covers a cell, with sound lists: refused ID_IN_USE, CELL_FULL or BUSY, in that order, after
NOT_CONFIGURED and BAD_FIELD; accepted, the slot is PENDING with the values carried, the requesting link its owner and
revision 0, and the insertion stands before its first cell. The request stays in progress. That a list of more than eight ids,
which no run reaches, is full too is the model's choice (log entry 37), and that a request refused ID_IN_USE reads no record
its reading (log entry 40). -/
def Obligations.ZoneAddBeginsItsOperation : Prop :=
  ∀ (s : State) (l : Link) (tag : Byte) (f : ZoneAddFields), s.portFree l →
    (s.spanSet.span = none →
      exec (.zoneAdd ⟨l, tag, .fields f⟩) s = .next (s.answered l tag 0x01 ⟨.notConfigured, false, []⟩)) ∧
    ∀ sp, s.spanSet.span = some sp →
      (∀ n, zoneAddBad f = some n →
        exec (.zoneAdd ⟨l, tag, .fields f⟩) s = .next (s.answered l tag 0x01 ⟨.badField, false, [[byte n]]⟩)) ∧
      (zoneAddBad f = none → (zoneAt s f.id).isSome = true →
        exec (.zoneAdd ⟨l, tag, .fields f⟩) s = .next (s.answered l tag 0x01 ⟨.idInUse, false, []⟩)) ∧
      ∀ first rest, zoneAddBad f = none → zoneAt s f.id = none →
        rangeCells (planRange sp (decide (f.kind = 2)) f.box) = first :: rest →
        (∀ n ∈ first :: rest, s.cellSound n) →
          (∀ n pre post, first :: rest = pre ++ n :: post →
            (∀ m ∈ pre, (idsAt s m).length < 8) → 8 ≤ (idsAt s n).length →
            exec (.zoneAdd ⟨l, tag, .fields f⟩) s =
              .next (s.answered l tag 0x01 ⟨.cellFull, false, [[byte n, byte (n / 256)]]⟩)) ∧
          ((∀ n ∈ first :: rest, (idsAt s n).length < 8) →
            (s.zones.op.isSome = true →
              exec (.zoneAdd ⟨l, tag, .fields f⟩) s = .next (s.answered l tag 0x01 ⟨.busy, false, []⟩)) ∧
            (s.zones.op = none →
              let z : Zone :=
                { state := .pending, kindByte := byte f.kind, box := f.box, cap := f.cap.map fun c => min c sp.top,
                  remaining := f.lifetime.map fun n => min n 3600,
                  ownerByte := (match l with | .operations => 1 | .safety => 2), revision := 0,
                  pendingBox := none, prior := none, suspect := false }
              let clamped := (f.cap.any fun c => decide (sp.top < c)) || (f.lifetime.any fun n => decide (3600 < n))
              exec (.zoneAdd ⟨l, tag, .fields f⟩) s =
                .next { s.taken l tag 0x01 with
                  zones := { s.zones with
                    slots := s.zones.slots.setIfInBounds f.id ⟨some z, zoneCheck f.id (some z)⟩
                    op := some ⟨.zoneAdd, some f.id, some l, clamped, .inserting, first, .cells rest, []⟩ } }))

/-- ZONE_AMEND is refused, in this order: NO_SUCH_ZONE for a FREE, PENDING or RETIRING zone, which is not read (log entry 40);
NOT_OWNER on the operations link for a zone it does not own or a suspect one; STALE with the zone's revision; WRONG_STATE for
an ARMING zone or one with a pending box; BAD_FIELD; and with a new box CELL_FULL with the first full cell, and BUSY.
Of a sound ACTIVE zone by a link that may, without a new box it takes effect at once, discards a waiting expiry that it makes
void, and is answered OK with the state and the new revision; with a new box the box is written as the pending box, the zone
stays ACTIVE on the old one, and the insertion stands before the first cell that only the new box covers. The numbers of the
fields and the number 4 of the state ACTIVE are the model's reading (log entry 7); that a list of more than eight ids, which
no run reaches, is full too, and that a cell which both boxes cover is not visited even where its list lacks the id, are its
choices (log entries 37 and 39). -/
def Obligations.ZoneAmendIsRefusedOrTakesEffect : Prop :=
  ∀ (s : State) (l : Link) (tag : Byte) (f : ZoneAmendFields), s.portFree l →
    let refused (c : Code) (d : List (List Byte)) : Prop :=
      exec (.zoneAmend ⟨l, tag, .fields f⟩) s = .next (s.answered l tag 0x02 ⟨c, false, d⟩)
    (zoneAt s f.id = none → refused .noSuchZone []) ∧
    ∀ z, zoneAt s f.id = some z →
      (z.state = .pending ∨ z.state = .retiring → refused .noSuchZone []) ∧
      (zoneFails s f.id = false → z.state = .active ∨ z.state = .arming →
        (l = .operations → z.ownerByte ≠ 1 ∨ z.suspect = true → refused .notOwner []) ∧
        ((l = .safety ∨ z.ownerByte = 1 ∧ z.suspect = false) →
          (∀ r, f.revision = some r → r ≠ z.revision → refused .stale [[z.revision]]) ∧
          ((∀ r, f.revision = some r → r = z.revision) →
            (z.state = .arming ∨ z.pendingBox.isSome = true → refused .wrongState []) ∧
            (z.state = .active → z.pendingBox = none →
              (∀ n, zoneAmendBad z f = some n → refused .badField [[byte n]]) ∧
              ∀ sp, s.spanSet.span = some sp → zoneAmendBad z f = none →
                let clamped := (f.cap.any fun c => decide (sp.top < c)) || (f.lifetime.any fun n => decide (3600 < n))
                (f.box = none →
                  let z' : Zone :=
                    { z with
                      cap := (match f.cap with | none => z.cap | some c => some (min c sp.top))
                      remaining :=
                        (match f.lifetime with | none => z.remaining | some 0 => none | some n => some (min n 3600))
                      revision := z.revision + 1 }
                  let s' := putZone f.id (some z') s
                  exec (.zoneAmend ⟨l, tag, .fields f⟩) s =
                    .next (State.answered
                      { s' with zones := { s'.zones with
                          waiting := s'.zones.waiting.filter fun w => w ≠ .expiry f.id || z'.remaining = some 0 } }
                      l tag 0x02 ⟨.ok, clamped, [[4], [z.revision + 1]]⟩)) ∧
                ∀ b, f.box = some b →
                  (∀ n ∈ rangeCells (planRange sp z.isSlow b), s.cellSound n) →
                  (∀ n pre post, rangeCells (planRange sp z.isSlow b) = pre ++ n :: post →
                    (∀ m ∈ pre, (idsAt s m).length < 8 ∨ f.id ∈ idsAt s m) → 8 ≤ (idsAt s n).length →
                    f.id ∉ idsAt s n → refused .cellFull [[byte n, byte (n / 256)]]) ∧
                  ((∀ n ∈ rangeCells (planRange sp z.isSlow b), (idsAt s n).length < 8 ∨ f.id ∈ idsAt s n) →
                    (s.zones.op.isSome = true → refused .busy []) ∧
                    ∀ first rest,
                      cellsOutside (planRange sp z.isSlow b) (planRange sp z.isSlow z.box) = first :: rest →
                      s.zones.op = none →
                        let z' : Zone :=
                          { z with
                            pendingBox :=
                              some ⟨b, f.cap.map fun c => min c sp.top, f.lifetime.map fun n => min n 3600⟩ }
                        exec (.zoneAmend ⟨l, tag, .fields f⟩) s =
                          .next { s.taken l tag 0x02 with
                            zones := { s.zones with
                              slots := s.zones.slots.setIfInBounds f.id ⟨some z', zoneCheck f.id (some z')⟩
                              op := some
                                ⟨.zoneAmend, some f.id, some l, clamped, .inserting, first, .cells rest, []⟩ } })))))

/-- ZONE_RETIRE is refused, in this order: NO_SUCH_ZONE for a FREE, PENDING or RETIRING zone, which is not read (log entry 40);
NOT_OWNER on the operations link for a zone it does not own or a suspect one; STALE with the zone's revision; and BUSY.
Of a zone by a link that may, with the table idle, the records sound and some cell listing the zone: the zone is RETIRING, it
leaves the arming set, every cue's BLOCKED flag is recomputed where it was ACTIVE, and the removal stands before the first
cell that lists it. An ARMING zone is taken here in the states where its leaving lifts no arming hold. How the first cell is
found is the model's reading (log entry 19), and that prior contents stay in the record its choice (log entry 41). -/
def Obligations.ZoneRetireIsRefusedOrBegins : Prop :=
  ∀ (s : State) (l : Link) (tag : Byte) (f : RetireFields), s.portFree l →
    let refused (c : Code) (d : List (List Byte)) : Prop :=
      exec (.zoneRetire ⟨l, tag, .fields f⟩) s = .next (s.answered l tag 0x03 ⟨c, false, d⟩)
    (zoneAt s f.id = none → refused .noSuchZone []) ∧
    ∀ z, zoneAt s f.id = some z →
      (z.state = .pending ∨ z.state = .retiring → refused .noSuchZone []) ∧
      (zoneFails s f.id = false → z.state = .active ∨ z.state = .arming →
        (l = .operations → z.ownerByte ≠ 1 ∨ z.suspect = true → refused .notOwner []) ∧
        ((l = .safety ∨ z.ownerByte = 1 ∧ z.suspect = false) →
          (∀ r, f.revision = some r → r ≠ z.revision → refused .stale [[z.revision]]) ∧
          ((∀ r, f.revision = some r → r = z.revision) →
            (s.zones.op.isSome = true → refused .busy []) ∧
            ∀ first, (z.state = .arming → s.gen.state ≠ .idle ∧ s.gen.state ≠ .held) → s.zones.op = none →
              s.zonesSound → s.cuesSound → nextListing s f.id 0 = some first →
                let s' := setZoneState f.id .retiring s
                exec (.zoneRetire ⟨l, tag, .fields f⟩) s =
                  .next { s.taken l tag 0x03 with
                    zones := { s'.zones with
                      op := some ⟨.zoneRetire, some f.id, some l, false, .removing false, first, .listing, []⟩ }
                    cues := if z.state = .active then s'.reblocked else s.cues
                    envelope := { s.envelope with arming := s.envelope.arming.filter fun a => a.zone != f.id } })))

/-- CUE_STORE: a target inside W, or the fine position to the nearest millimetre where the request carries here and the
generator is registered, is stored with revision 0, suspect clear and BLOCKED computed for it, and the answer carries the
number, the stored target, the revision and BLOCKED. A target outside W is refused OUT_OF_VOLUME, and here while
UNREGISTERED or STOPPED is refused NOT_REGISTERED.
CUE_AMEND and CUE_RETIRE of a sound STORED cue. A carried target or speed replaces the cue's, a speed of 0 removes it,
the revision increases by one, the suspect mark is cleared when both are carried, and BLOCKED is computed afresh when a
target is. A retired slot is FREE at once. A FREE slot is answered NO_SUCH_CUE, and another expected revision STALE. -/
def Obligations.CueRequestsWriteTheirRecord : Prop :=
  (∀ (s : State) (l : Link) (tag : Byte) (f : CueStoreFields) (sp : Span), s.portFree l → s.spanSet.span = some sp →
     cueStoreBad f = none →
       (∀ p, s.zonesSound →
         (f.target = some p ∧ boxHas sp.w p = true ∨
           ∃ q, f.target = none ∧ s.gen.state ≠ .unregistered ∧ s.gen.state ≠ .stopped ∧ s.gen.pos = some q ∧
             p = toMm q) →
         exec (.cueStore ⟨l, tag, .fields f⟩) s =
           .next (State.answered (putCue f.number (some ⟨p, f.speed, 0, false, cueBlocked s p⟩) s) l tag 0x07
             ⟨.ok, false, [[byte f.number], pointBytes p, [0], [if cueBlocked s p then 1 else 0]]⟩)) ∧
       (∀ p, f.target = some p → boxHas sp.w p = false →
         exec (.cueStore ⟨l, tag, .fields f⟩) s = .next (s.answered l tag 0x07 ⟨.outOfVolume, false, []⟩)) ∧
       (f.target = none → s.gen.state = .unregistered ∨ s.gen.state = .stopped →
         exec (.cueStore ⟨l, tag, .fields f⟩) s = .next (s.answered l tag 0x07 ⟨.notRegistered, false, []⟩))) ∧
  (∀ (s : State) (l : Link) (tag : Byte) (sp : Span), s.portFree l → s.spanSet.span = some sp →
     (∀ (f : CueAmendFields) (c : Cue), cueAt s f.number = some c → cueFails s f.number = false →
       (∀ r, f.revision = some r → r = c.revision) → cueAmendBad f = none →
       (∀ p, f.target = some p → boxHas (boxMicro sp.w) (toMicro p) = true) → (f.target ≠ none → s.zonesSound) →
         let c' : Cue :=
           { target := f.target.getD c.target
             speed := (match f.speed with | none => c.speed | some 0 => none | some v => some v)
             revision := c.revision + 1
             suspect := c.suspect && (f.target.isNone || f.speed.isNone)
             blocked := (match f.target with | none => c.blocked | some p => cueBlocked s p) }
         exec (.cueAmend ⟨l, tag, .fields f⟩) s =
           .next (State.answered (putCue f.number (some c') s) l tag 0x08
             ⟨.ok, false,
               [[byte f.number], [c.revision + 1], [if c'.blocked then 1 else 0], [if c'.suspect then 1 else 0]]⟩)) ∧
     (∀ (f : RetireFields) (c : Cue), cueAt s f.id = some c → cueFails s f.id = false →
       ((∀ r, f.revision = some r → r = c.revision) →
         exec (.cueRetire ⟨l, tag, .fields f⟩) s =
           .next (State.answered (putCue f.id none s) l tag 0x09 ⟨.ok, false, []⟩)) ∧
       (∀ r, f.revision = some r → r ≠ c.revision →
         exec (.cueRetire ⟨l, tag, .fields f⟩) s =
           .next (s.answered l tag 0x09 ⟨.stale, false, [[c.revision]]⟩))) ∧
     ∀ f : RetireFields, cueAt s f.id = none →
       exec (.cueRetire ⟨l, tag, .fields f⟩) s = .next (s.answered l tag 0x09 ⟨.noSuchCue, false, []⟩))

/-- A visit with further cells to come, at a sound cell: an insertion puts the id at its place in the list, a removal closes
its gap, the word is recomputed, and the operation stands before its next cell. A visit of a rebuild writes the ids of the
zones that cover the cell, or leaves the cell OVERFULL and empty where there are more than eight. That it does so without
reading the list that stands is the model's choice (log entry 50). -/
def Obligations.CellVisitChangesOneList : Prop :=
  ∀ (s : State) (op : TableOp) (id next : Nat) (rest : List Nat), s.resetting = false → s.zones.op = some op →
    op.plan = .cells (next :: rest) →
      let advanced : ZoneTable :=
        { s.zones with op := some { op with cell := next, plan := .cells rest, visited := op.cell :: op.visited } }
      let wrote (ids : List Nat) (c : CellCondition) : State :=
        { s with cells := s.cells.setIfInBounds op.cell ⟨ids, cellCheck ids, c⟩, zones := advanced }
      (op.zone = some id → s.cellSound op.cell →
        (op.phase = .inserting → (insertId id (idsAt s op.cell)).length ≤ 8 →
          exec .cellVisit s = .next (wrote (insertId id (idsAt s op.cell)) .current)) ∧
        (∀ b, op.phase = .removing b → ((idsAt s op.cell).erase id).length ≤ 8 →
          exec .cellVisit s = .next (wrote ((idsAt s op.cell).erase id) .current))) ∧
      (op.phase = .rebuilding → s.zonesSound →
        ((coverIds s op.cell).length ≤ 8 → exec .cellVisit s = .next (wrote (coverIds s op.cell) .current)) ∧
        (8 < (coverIds s op.cell).length → exec .cellVisit s = .next (wrote [] .overfull)))

/-- The last visit of a ZONE_ADD, all records sound and nothing waiting, ends its indexing. A SLOW zone, and any zone while the
generator is UNREGISTERED, becomes ACTIVE. For a KEEP_OUT zone the arming decision is taken on its inflated box, by the rows of
its table: ACTIVE, where the queue entries and contexts whose targets the box encloses are dropped, with MOVE_DROPPED and the
first id; ARMING with the row's condition, with the cut or the jog's braking that the row orders; and inside the box in IDLE or
HELD ARMING with an exit that begins at once, or, where no exit qualifies, RETIRING with its removal begun, at whose end the
slot is FREE and the request is answered NO_EXIT. An ACTIVE zone has every cue's BLOCKED flag recomputed; the operation ends
and the request is answered OK with the zone's state and revision.
The numbers of the states, and the record as it stands at the end, are the model's readings (log entries 7 and 20); so are
the place of STATE before the answer (log entry 13), the row without an entry distance before the one inside (log entry 43),
and that a zone that becomes ACTIVE here with a lifetime of 0 does not fall due (log entry 46). -/
def Obligations.IndexedZoneTakesTheDecision : Prop :=
  ∀ (s : State) (id n : Nat) (v : List Nat) (l : Link) (clamped : Bool) (z : Zone) (q : InProgress), s.resetting = false →
    s.zones.waiting = [] → zoneAt s id = some z → s.zonesSound → s.cuesSound → s.cellSound n →
    (s.console.port l).inProgress = some q →
      let answered (a : Answer) (t : State) : State := onPort l (Port.answer a) t
      (s.zones.op = some ⟨.zoneAdd, some id, some l, clamped, .inserting, n, .cells [], v⟩ →
        (insertId id (idsAt s n)).length ≤ 8 →
        let cells := s.cells.setIfInBounds n ⟨insertId id (idsAt s n), cellCheck (insertId id (idsAt s n)), .current⟩
        let ok (code : Byte) (t : State) : State := answered ⟨.ok, clamped, [[code], [z.revision]]⟩ t
        let active (g : Generator) : State :=
          { s with cells := cells, zones := { (setZoneState id .active s).zones with op := none },
                   cues := (setZoneState id .active s).reblocked, gen := g }
        let arming (g : Generator) (c : ArmCond) : State :=
          { s with cells := cells, zones := { (setZoneState id .arming s).zones with op := none }, gen := g,
                   envelope := { s.envelope with arming := insertArm ⟨id, c⟩ s.envelope.arming } }
        (z.isSlow = true ∨ s.gen.state = .unregistered ∧ s.gen.queue = [] ∧ s.gen.stack = [] →
          exec .cellVisit s = .next (ok 4 (active s.gen))) ∧
        ∀ sp p b, z.isSlow = false → s.spanSet.span = some sp → s.gen.pos = some p →
          region sp.clearance z.box = some b →
            (∀ g, s.decidesActive sp p b g →
              exec .cellVisit s =
                .next (ok 4 (s.toldOf g (raiseFirst (s.gen.lostTo b) 3 (active (g.without b)))))) ∧
            (∀ c g, s.decidesArming sp p b c g → exec .cellVisit s = .next (ok 3 (s.toldOf g (arming g c)))) ∧
            (boxHas b p = true → s.gen.state = .idle ∨ s.gen.state = .held →
              (∀ t, planExit s id (some b) = some t → s.gen.nextId ∉ heldIds s.gen →
                exec .cellVisit s =
                  .next (ok 3 (raiseFlag .state 3 0
                    { arming { s.gen with
                          state := .moving, v := 0, purpose := none
                          nextId := if 65535 ≤ s.gen.nextId then 1 else s.gen.nextId + 1
                          flight := some (flightFrom ⟨s.gen.nextId, .exit, t, none, sp.top⟩ p) } .exit with
                      envelope := ⟨insertArm ⟨id, .exit⟩ s.envelope.arming, some ⟨id, t⟩⟩ }))) ∧
              (planExit s id (some b) = none →
                let s' : State := { setZoneState id .retiring s with cells := cells }
                ∀ c, nextListing s' id 0 = some c →
                  exec .cellVisit s =
                    .next { s' with zones := { s'.zones with
                      op := some ⟨.zoneAdd, some id, some l, clamped, .removing true, c, .listing, n :: v⟩ } }))) ∧
      (s.zones.op = some ⟨.zoneAdd, some id, some l, clamped, .removing true, n, .listing, v⟩ →
        ((idsAt s n).erase id).length ≤ 8 →
        let s' : State :=
          { s with cells := s.cells.setIfInBounds n ⟨(idsAt s n).erase id, cellCheck ((idsAt s n).erase id), .current⟩ }
        nextListing s' id (n + 1) = none →
          exec .cellVisit s =
            .next (answered ⟨.noExit, false, []⟩
              { s' with zones := { s.zones with
                op := none, slots := s.zones.slots.setIfInBounds id ⟨none, zoneCheck id none⟩ } }))

/-- The last visit of the indexing of a ZONE_AMEND with a new box, all records sound and nothing waiting. A SLOW zone, any zone
while the generator is UNREGISTERED, and a KEEP_OUT zone that the arming decision makes ACTIVE take the new box, with the cap
and the lifetime carried, the next revision and no suspect mark: the moves whose targets the new box encloses are dropped,
every cue's BLOCKED flag is recomputed, and the cells of the old box alone are visited next. A zone that is decided ARMING
keeps its former contents as prior contents, and the operation ends with no cell removed. Inside the new box in IDLE or HELD
an exit begins at once; where none qualifies the amend is reverted, and the cells of the new box alone are visited next. A
phase with no cell to visit ends at once. At the last visit of the removal the request is answered OK with state and revision,
or NO_EXIT where the amend was reverted.
The numbers of the states, the place of STATE before the answer, the record as it stands at the end, the row without an
entry distance before the one inside, and that a zone at 0 whose expiry does not wait does not fall due, are the model's
readings and choices (log entries 7, 13, 20, 43 and 46). -/
def Obligations.AmendedZoneTakesTheDecision : Prop :=
  ∀ (s : State) (id n : Nat) (v : List Nat) (l : Link) (clamped : Bool) (z : Zone) (q : InProgress) (sp : Span),
    s.resetting = false → s.zones.waiting = [] → zoneAt s id = some z → z.state = .active → s.zonesSound → s.cuesSound →
    s.cellSound n → (s.console.port l).inProgress = some q → s.spanSet.span = some sp →
      (∀ k : PendingBox, z.pendingBox = some k →
        s.zones.op = some ⟨.zoneAmend, some id, some l, clamped, .inserting, n, .cells [], v⟩ →
        (insertId id (idsAt s n)).length ≤ 8 →
        let amended : Zone :=
          { z with
            box := k.box
            cap := (match k.cap with | none => z.cap | some c => some c)
            remaining := (match k.lifetime with | none => z.remaining | some 0 => none | some m => some m)
            revision := z.revision + 1, suspect := false, pendingBox := none }
        let cells := s.cells.setIfInBounds n ⟨insertId id (idsAt s n), cellCheck (insertId id (idsAt s n)), .current⟩
        let ok (code : Byte) : Answer := ⟨.ok, clamped, [[code], [z.revision + 1]]⟩
        let record (y : Zone) : State := putZone id (some y) { s with cells := cells }
        let changed (y : Zone) (g : Generator) : State := { record y with cues := (record y).reblocked, gen := g }
        let removal (noExit : Bool) (given kept : Box) (a : Answer) (t : State) : State :=
          removalFrom ⟨.zoneAmend, some id, some l, clamped, .removing noExit, n, .cells [], n :: v⟩
            (cellsOutside (planRange sp z.isSlow given) (planRange sp z.isSlow kept)) a l t
        let arming (g : Generator) (c : ArmCond) (x : Option ExitPlan) : State :=
          let y : Zone := { amended with state := .arming, prior := some ⟨z.box, z.remaining, z.revision, z.suspect⟩ }
          { changed y g with
            zones := { (changed y g).zones with op := none }
            envelope := ⟨insertArm ⟨id, c⟩ s.envelope.arming, x⟩ }
        (z.isSlow = true ∨ s.gen.state = .unregistered ∧ s.gen.queue = [] ∧ s.gen.stack = [] →
          exec .cellVisit s = .next (removal false z.box k.box (ok 4) (changed amended s.gen))) ∧
        ∀ p b, z.isSlow = false → s.gen.pos = some p → region sp.clearance k.box = some b →
          (∀ g, s.decidesActive sp p b g →
            exec .cellVisit s =
              .next (removal false z.box k.box (ok 4)
                (s.toldOf g (raiseFirst (s.gen.lostTo b) 3 (changed amended (g.without b)))))) ∧
          (∀ c g, s.decidesArming sp p b c g →
            exec .cellVisit s =
              .next (onPort l (Port.answer (ok 3)) (s.toldOf g (arming g c s.envelope.exit)))) ∧
          (boxHas b p = true → s.gen.state = .idle ∨ s.gen.state = .held →
            (∀ t, planExit s id (some b) = some t → s.gen.nextId ∉ heldIds s.gen →
              exec .cellVisit s =
                .next (onPort l (Port.answer (ok 3)) (raiseFlag .state 3 0
                  (arming { s.gen with
                      state := .moving, v := 0, purpose := none
                      nextId := if 65535 ≤ s.gen.nextId then 1 else s.gen.nextId + 1
                      flight := some (flightFrom ⟨s.gen.nextId, .exit, t, none, sp.top⟩ p) } .exit (some ⟨id, t⟩))))) ∧
            (planExit s id (some b) = none →
              exec .cellVisit s =
                .next (removal true k.box z.box ⟨.noExit, false, []⟩ (record { z with pendingBox := none }))))) ∧
      ∀ noExit, s.zones.op = some ⟨.zoneAmend, some id, some l, clamped, .removing noExit, n, .cells [], v⟩ →
        ((idsAt s n).erase id).length ≤ 8 →
          exec .cellVisit s =
            .next (onPort l
              (Port.answer (if noExit then ⟨.noExit, false, []⟩ else ⟨.ok, clamped, [[4], [z.revision]]⟩))
              { s with
                cells :=
                  s.cells.setIfInBounds n ⟨(idsAt s n).erase id, cellCheck ((idsAt s n).erase id), .current⟩
                zones := { s.zones with op := none } })

/-- One expiry of the one-second timer, all records sound: every ACTIVE temporary zone with time left has one second less and
its word recomputed, and no other record changes. A zone that reaches 0 joins the waiting work behind the operation in
flight, in ascending id order. With the table idle the first that reaches 0 is taken at once and the others wait: it is
RETIRING, every cue's BLOCKED flag is recomputed, ZONE_EXPIRED is raised, and its removal stands before the first cell that
lists it, found as the model reads it (log entry 19). That an ACTIVE zone that stands at 0 without having been brought there
by the timer is passed over is the model's choice (log entry 46). -/
def Obligations.OneSecondCountsDown : Prop :=
  ∀ s : State, s.resetting = false → s.zones.secondTimer.isSome = true → s.zonesSound →
    let due := (List.range 64).filter fun id => (zoneAt s id).any fun z => z.state == .active && z.remaining == some 1
    let counted : State := { s with zones := { s.zones with slots := s.countedDown, secondTimer := some 1000 } }
    (s.zones.op.isSome = true →
      exec .oneSecondTimerExpiry s =
        .next { counted with zones := { counted.zones with waiting := s.zones.waiting ++ due.map Work.expiry } }) ∧
    (s.zones.op = none → s.zones.waiting = [] →
      (due = [] → exec .oneSecondTimerExpiry s = .next counted) ∧
      ∀ id rest first, due = id :: rest → s.cuesSound →
        let s' := setZoneState id .retiring counted
        nextListing s' id 0 = some first →
          exec .oneSecondTimerExpiry s =
            .next (raiseFlag .zoneExpired id 0
              { s' with
                cues := s'.reblocked
                zones := { s'.zones with
                  op := some ⟨.expiry, some id, none, false, .removing false, first, .listing, []⟩
                  waiting := rest.map Work.expiry } }))

/-- One expiry of the scrubber's timer takes the item at the scrub position; the position advances by one, from 351 back to 0,
and the timer starts a fresh 10 ms period. An item that is sound, FREE, REBUILDING or touched by the operation in flight,
whatever its check word, changes nothing else.
A damaged zone record is marked suspect, with SUSPECT, RECORD_CHECK and a controlled halt. A damaged cue record is marked
suspect, with SUSPECT and nothing more; its BLOCKED flag is set where its target lies outside W. A damaged cell list raises
SUSPECT and has its rebuild ordered, and so has an OVERFULL cell, without SUSPECT: the cell is REBUILDING, and the rebuild
begins in an idle table and otherwise waits. The cells an operation touches and the BLOCKED flag of a damaged cue are the
model's readings (log entries 34 and 36). -/
def Obligations.ScrubberTakesItsItem : Prop :=
  ∀ s : State, s.resetting = false → s.scrubber.timer.isSome = true →
    let n := s.scrubber.position
    let on (t : State) : State := { t with scrubber := ⟨if n < 351 then n + 1 else 0, some 10⟩ }
    (n < 64 →
      ((∃ op, s.zones.op = some op ∧ op.zone = some n) ∨ zoneFails s n = false →
        exec .scrubberTimerExpiry s = .next (on s)) ∧
      ((∀ op, s.zones.op = some op → op.zone ≠ some n) → zoneFails s n = true →
        ∀ z, zoneAt s n = some z →
          ∃ t, exec .scrubberTimerExpiry s = .next t ∧ t.scrubber = (on s).scrubber ∧
            zoneAt t n = some { z with suspect := true } ∧ zoneFails t n = false ∧
            (∀ j, j ≠ n → zoneAt t j = zoneAt s j ∧ zoneFails t j = zoneFails s j) ∧
            (s.console.flags[17] = none → t.console.flags[17] = some ⟨n, 1⟩) ∧ t.faults.flags[5] = true ∧
            (s.faults.captured = none →
              t.faults.captured = some ⟨.recordCheck, .number n,
                if s.gen.state = .unregistered then none else s.gen.pos.map toMm⟩) ∧
            t.gen = s.gen.haltingFrom ∧ t.cues = s.cues ∧ t.cells = s.cells ∧ t.spanSet = s.spanSet ∧
            t.limits = s.limits ∧ t.lengths = s.lengths ∧ t.drive = s.drive ∧ t.tension = s.tension ∧ t.wear = s.wear)) ∧
    (64 ≤ n → n < 160 →
      (cueFails s (n - 64) = false → exec .scrubberTimerExpiry s = .next (on s)) ∧
      (cueFails s (n - 64) = true → ∀ c, cueAt s (n - 64) = some c →
        let outside : Bool := !s.spanSet.span.any fun sp => boxHas (boxMicro sp.w) (toMicro c.target)
        exec .scrubberTimerExpiry s =
          .next (on (raiseFlag .suspect (n - 64) 2
            (putCue (n - 64) (some { c with suspect := true, blocked := c.blocked || outside }) s))))) ∧
    (160 ≤ n →
      (s.touchedCell (n - 160) ∨ condAt s (n - 160) = .rebuilding ∨
          condAt s (n - 160) = .current ∧ cellFails s (n - 160) = false →
        exec .scrubberTimerExpiry s = .next (on s)) ∧
      (¬s.touchedCell (n - 160) → s.zones.op.isSome = true ∨ s.zones.waiting = [] →
        (condAt s (n - 160) = .overfull → exec .scrubberTimerExpiry s = .next (on (s.rebuildOrdered (n - 160)))) ∧
        (condAt s (n - 160) = .current → cellFails s (n - 160) = true →
          exec .scrubberTimerExpiry s =
            .next (on (raiseFlag .suspect (n - 160) 3 (s.rebuildOrdered (n - 160)))))))

/-- One expiry of the hold timer, where no channel becomes LOST: with BRAKE asserted, or released and no set delivered since,
a HOLD frame goes to every channel, whether or not it has ever been given a length; with a set delivered since the release but
none since the previous expiry, every channel's last command length is repeated; otherwise no frame. The record of a set since
the previous expiry is cleared. -/
def Obligations.HoldTimerSendsItsFrames : Prop :=
  ∀ s : State, s.resetting = false → s.drive.holdTimer.isSome = true → s.noneGetsLost →
    let sending (k : Winch → Sent) : State :=
      { s with drive := { s.drive with
          channels := PerWinch.of fun w => (s.drive.channels.get w).sent (k w)
          setSinceExpiry := false, holdTimer := some 2 } }
    (s.drive.brake = true ∨ s.drive.setSinceRelease = false →
      exec .holdTimerExpiry s = .next (sending fun _ => .hold)) ∧
    (s.drive.brake = false → s.drive.setSinceRelease = true → s.drive.setSinceExpiry = false →
      ∀ x : PerWinch Int, (∀ w, (s.drive.channels.get w).lastCommand = some (x.get w)) →
        exec .holdTimerExpiry s = .next (sending fun w => .length (x.get w))) ∧
    (s.drive.brake = false → s.drive.setSinceRelease = true → s.drive.setSinceExpiry = true →
      exec .holdTimerExpiry s =
        .next { s with drive := { s.drive with setSinceExpiry := false, holdTimer := some 2 } })

/-- A channel whose fifth miss is counted as a frame replaces the one it did not answer becomes LOST; with the generator
registered DRIVE_LOST is reported and the generator trips: STOPPED with its moves dropped, no speed, and BRAKE asserted. The
sending is completed: all four channels take the next sequence number and the frame. So it is with the HOLD frame or the
repeat of the hold timer, which keep the position, and with the LENGTH frames of a step, whose lengths and whose offered
position are taken all the same, without arrival.
A matched feedback whose tension is above the critical limit, on a winch that is not CRITICAL, makes it CRITICAL and reports
TENSION_CRITICAL in every generator state; a registered generator trips to STOPPED, and any other stays as it is. -/
def Obligations.LostDriveAndCriticalTensionTrip : Prop :=
  (∀ (s : State) (w : Winch), s.resetting = false → s.gen.state ≠ .unregistered → s.gen.state ≠ .stopped →
     (s.drive.channels.get w).latest.isSome = true → (s.drive.channels.get w).answered = false →
     (s.drive.channels.get w).misses = 4 → (s.drive.channels.get w).status = .alive →
       let tripped (t : State) (k : Winch → Sent) : Prop :=
         (t.drive.channels.get w).status = .lost ∧ (t.drive.channels.get w).misses = 5 ∧
           (∀ v, (t.drive.channels.get v).sequence = (s.drive.channels.get v).sequence + 1 ∧
             (t.drive.channels.get v).latest = some (k v) ∧ (t.drive.channels.get v).answered = false) ∧
           t.drive.brake = true ∧ t.faults.flags[1] = true ∧ (∀ a ∈ t.envelope.arming, a.cond = .release) ∧
           t.envelope.arming.map ArmEntry.zone = s.envelope.arming.map ArmEntry.zone ∧ t.envelope.exit = none ∧
           t.zones = s.zones ∧ t.cells = s.cells ∧ t.cues = s.cues ∧ t.wear = s.wear ∧ t.tension = s.tension
       (s.drive.holdTimer.isSome = true → s.drive.brake = false → s.drive.setSinceRelease = false →
         ∃ t, exec .holdTimerExpiry s = .next t ∧ tripped t (fun _ => .hold) ∧ t.gen = s.gen.stoppedFrom ∧
           t.lengths = s.lengths) ∧
       (s.drive.holdTimer.isSome = true → s.drive.brake = false → s.drive.setSinceRelease = true →
         s.drive.setSinceExpiry = false →
         ∀ x : PerWinch Int, (∀ v, (s.drive.channels.get v).lastCommand = some (x.get v)) →
           ∃ t, exec .holdTimerExpiry s = .next t ∧ tripped t (fun v => .length (x.get v)) ∧
             t.gen = s.gen.stoppedFrom ∧ t.lengths = s.lengths) ∧
       ∀ (sp : Span) (p : Vec3) (lens : PerWinch RopeLength), s.gen.stepTimer.isSome = true →
         s.spanSet.span = some sp → s.gen.pos = some p → s.lengths = some lens →
         let sentOff (p' : Vec3) : Prop :=
           ∃ t, exec .stepTimerExpiry s = .next t ∧
             tripped t (fun v => .length (s.deliveredLength sp p' lens v).prev) ∧
             (∀ v, (t.drive.channels.get v).lastCommand = some (s.deliveredLength sp p' lens v).prev) ∧
             t.gen = { s.gen.stoppedFrom with pos := some p' } ∧
             t.lengths = some (PerWinch.of (s.deliveredLength sp p' lens))
         ((s.gen.state = .idle ∨ s.gen.state = .held ∨ s.gen.state = .halted) → s.offerPasses sp p → sentOff p) ∧
         ∀ f, s.gen.state = .moving → s.gen.flight = some f → s.noSlow →
           let p' := f.offerAt (min (f.s + freeSpeed f s.gen.v sp.accel) f.dist)
           s.offerPasses sp p' → sentOff p') ∧
  (∀ (s : State) (w : Winch) (f : FeedbackFields), s.resetting = false → f.winch = w.number → f.measured < 2 ^ 30 →
     (f.status = 1 ∨ f.status = 2) → (s.drive.channels.get w).latest.isSome = true →
     f.echo = (s.drive.channels.get w).sequence → (s.drive.channels.get w).answered = false →
     s.limits.criticalLimit < f.tension → s.tension.get w ≠ .critical →
       ∃ t, exec (.feedbackFrame w (.fields f)) s = .next t ∧ t.tension = s.tension.set w .critical ∧
         t.faults.flags[0] = true ∧ (t.drive.channels.get w).status = .alive ∧
         (t.drive.channels.get w).tension = f.tension ∧
         (s.gen.state = .unregistered ∨ s.gen.state = .stopped → t.gen = s.gen) ∧
         (s.gen.state ≠ .unregistered → s.gen.state ≠ .stopped → t.gen = s.gen.stoppedFrom ∧ t.drive.brake = true))

/-- JOG: each component limited to the top speed. In IDLE or HELD a vector that is not all zero opens a session, and an all
zero one changes nothing; in JOGGING without a purpose r takes the vector and the deadman timer starts afresh. The answer
carries the state after the request and the limited vector. At the deadman's expiry r becomes zero. That STATE follows the
answer is the model's reading (log entry 13). -/
def Obligations.JogSetsTheRequestVector : Prop :=
  (∀ (s : State) (l : Link) (tag : Byte) (v : Vec3) (sp : Span), s.portFree l → s.spanSet.span = some sp →
     s.envelope.arming = [] → activeSuspect s = false →
       let limit (x : Int) : Int := max (-(sp.top : Int)) (min (sp.top : Int) x)
       let r : Vec3 := ⟨limit v.x, limit v.y, limit v.z⟩
       let answer (code : Byte) : Answer :=
         ⟨.ok, decide (r ≠ v), [[code], leInt32 r.x, leInt32 r.y, leInt32 r.z]⟩
       ((s.gen.state = .idle ∨ s.gen.state = .held) → r ≠ ⟨0, 0, 0⟩ →
         exec (.jog ⟨l, tag, .fields v⟩) s =
           .next (raiseFlag .state 4 0 (State.answered
             { s with gen := { s.gen with state := .jogging, jog := ⟨true, r, ⟨0, 0, 0⟩, some 100, none⟩ } }
             l tag 0x0E (answer 4)))) ∧
       ((s.gen.state = .idle ∨ s.gen.state = .held) → r = ⟨0, 0, 0⟩ →
         exec (.jog ⟨l, tag, .fields v⟩) s =
           .next (s.answered l tag 0x0E (answer (if s.gen.state = .idle then 2 else 6)))) ∧
       (s.gen.state = .jogging → s.gen.jog.purpose = none →
         exec (.jog ⟨l, tag, .fields v⟩) s =
           .next (State.answered
             { s with gen := { s.gen with jog := { s.gen.jog with request := r, deadman := some 100 } } }
             l tag 0x0E (answer 4)))) ∧
  (∀ (s : State) (n : Nat), s.resetting = false → s.gen.jog.deadman = some n →
     exec .deadmanExpiry s =
       .next { s with gen := { s.gen with jog := { s.gen.jog with request := ⟨0, 0, 0⟩, deadman := none } } })

/-- A step that both checks accept. In IDLE, HELD and HALTED the offer is the unchanged position. In MOVING with no ACTIVE
SLOW zone, short of the target, the speed v' and the distance s' are those of the move profile, and the position is
P0 + round(Δ·s'/D). The delivered lengths, limited in rate, go to the drives in one LENGTH frame each, STRETCH_CLAMP and
RATE_SAT are raised for the winches they concern, and nothing else changes. That the subject of STRETCH_CLAMP is the
lowest-numbered of several winches is the model's choice (log entry 48). -/
def Obligations.AcceptedStepCommits : Prop :=
  ∀ (s : State) (sp : Span) (p : Vec3) (lens : PerWinch RopeLength), s.stepDue sp p lens →
    ((s.gen.state = .idle ∨ s.gen.state = .held ∨ s.gen.state = .halted) → s.offerPasses sp p →
      exec .stepTimerExpiry s = .next (s.afterOffer sp p lens s.gen)) ∧
    ∀ f : Flight, s.gen.state = .moving → s.gen.flight = some f → s.noSlow →
      let lim := min f.move.cap (Nat.sqrt (2 * sp.accel * (f.dist - f.s)))
      let v1 := min (s.gen.v + sp.accel) lim
      let v' := max 1 (if v1 + sp.accel < s.gen.v then s.gen.v - sp.accel else v1)
      let p' : Vec3 :=
        ⟨f.p0.x + roundDiv (f.delta.x * (f.s + v' : Nat)) f.dist,
          f.p0.y + roundDiv (f.delta.y * (f.s + v' : Nat)) f.dist,
          f.p0.z + roundDiv (f.delta.z * (f.s + v' : Nat)) f.dist⟩
      f.s + v' < f.dist → s.offerPasses sp p' →
        exec .stepTimerExpiry s =
          .next (s.afterOffer sp p' lens { s.gen with v := v', flight := some { f with s := f.s + v' } })

/-- A move step short of its target under ACTIVE SLOW zones, the records sound. Its limit is the least of the move's cap, the
end limit, and for each zone whose box the remaining segment enters at e the zone's cap m, or floor(√(m² + 2·a·(e − s)))
short of it. After the commit SLOW_OVERSPEED is raised where the speed is above the lowest cap of the zones that contain the
exact point, with the zone of that cap, the lowest id among equal caps, as its subject. A stored SLOW zone without a cap puts
no limit, as the model reads it (log entry 16). -/
def Obligations.SlowZonesLimitAMove : Prop :=
  ∀ (s : State) (sp : Span) (p : Vec3) (lens : PerWinch RopeLength) (f : Flight), s.stepDue sp p lens →
    s.gen.state = .moving → s.gen.flight = some f → s.zonesSound →
      let ahead (i : Nat) : Option Nat :=
        (zoneAt s i).bind fun z =>
          if z.state = .active ∧ z.isSlow = true then
            ((region 0 z.box).bind (entryDistance f)).bind fun e =>
              z.cap.map fun m => if e = f.s then m else Nat.sqrt (m ^ 2 + 2 * sp.accel * (e - f.s))
          else none
      let limits := [f.move.cap, Nat.sqrt (2 * sp.accel * (f.dist - f.s))] ++ zoneIds.filterMap ahead
      ∀ lim ∈ limits, (∀ x ∈ limits, lim ≤ x) →
        let v' := stepSpeed s.gen.v sp.accel lim
        let f' : Flight := { f with s := f.s + v' }
        let t := s.afterOffer sp (f.offerAt (f.s + v')) lens { s.gen with v := v', flight := some f' }
        f.s + v' < f.dist → s.offerPasses sp (f.offerAt (f.s + v')) →
          ((∀ i ∈ zoneIds, ∀ m, slowCapWhere s (exactPointIn f') i = some m → v' ≤ m) →
            exec .stepTimerExpiry s = .next t) ∧
          ∀ id m, lowestSlow s (exactPointIn f') id m → m < v' →
            exec .stepTimerExpiry s = .next (raiseFlag .slowOverspeed id 0 t)

/-- A GOTO or RECALL move whose step commits s' = D is done: MOVE_DONE is raised with its id, and the succession follows in the
same event. With no arming and no waiting priority move, a MANUAL context on top of the stack leaves the generator HELD; an
AUTO context is popped and flown from the target; with an empty stack the queue head is flown, or dropped where its start
check fails, and with nothing left the generator is IDLE. The order of the flags of one event is the model's reading (log
entry 13). -/
def Obligations.ArrivalGoesOnByTheSuccession : Prop :=
  ∀ (s : State) (sp : Span) (p : Vec3) (lens : PerWinch RopeLength) (f : Flight), s.stepDue sp p lens →
    s.gen.state = .moving → s.gen.flight = some f → f.move.kind ≠ .exit → s.noSlow → s.envelope.arming = [] →
    s.gen.waiting = none → f.dist ≤ f.s + freeSpeed f s.gen.v sp.accel →
      let at_ := f.offerAt f.dist
      let done (g : Generator) : State := raiseFlag .moveDone f.move.id 0 (s.afterOffer sp at_ lens g)
      let flying (m : Move) : Generator := { s.gen.resting .moving with flight := some (flightFrom m at_) }
      s.offerPasses sp at_ →
        (s.gen.stack = [] → s.gen.queue = [] →
          exec .stepTimerExpiry s = .next (raiseFlag .state 2 0 (done (s.gen.resting .idle)))) ∧
        (∀ c rest, s.gen.stack = c :: rest →
          (c.resume = .manual →
            exec .stepTimerExpiry s = .next (raiseFlag .state 6 0 (done (s.gen.resting .held)))) ∧
          (c.resume = .auto → s.zonesSound → pathOk s at_ c.move.target = true → distance at_ c.move.target ≠ 0 →
            exec .stepTimerExpiry s = .next (done { flying c.move with stack := rest }))) ∧
        (∀ m rest, s.gen.stack = [] → s.gen.queue = m :: rest → s.zonesSound →
          (pathOk s at_ m.target = true → distance at_ m.target ≠ 0 →
            exec .stepTimerExpiry s = .next (done { flying m with queue := rest })) ∧
          (pathOk s at_ m.target = false → rest = [] →
            exec .stepTimerExpiry s =
              .next (raiseFlag .state 2 0 (raiseFlag .moveDropped m.id 1
                (done { s.gen.resting .idle with queue := [] })))))

/-- A step in BRAKING with an empty arming set. Above a_b the speed falls by a_b and the trolley goes on along its path; at a_b
or below it stops where it stands. At the stop the purpose decides: CUT and FLUSH drop the move, HOLD pushes it as a MANUAL
context and leaves the generator HELD, PRIORITY pushes it as an AUTO context and flies the waiting move, HALT drops everything
and leaves the generator HALTED. Where the braking step reaches D, a move braked for HOLD or PRIORITY has arrived, with
MOVE_DONE and nothing pushed, and the waiting move flies on from there; any other is dropped all the same. The order of the
flags of one event is the model's reading (log entry 13). -/
def Obligations.BrakingSlowsStopsAndFollowsItsPurpose : Prop :=
  ∀ (s : State) (sp : Span) (p : Vec3) (lens : PerWinch RopeLength) (f : Flight), s.stepDue sp p lens →
    s.gen.state = .braking → s.gen.flight = some f → s.envelope.arming = [] →
      let v' := s.gen.v - sp.brakeAccel
      let alone : Prop := s.gen.waiting = none ∧ s.gen.stack = [] ∧ s.gen.queue = []
      let ends (at_ : Vec3) (arrived : Bool) : Prop :=
        let stop (g : Generator) : State := s.afterOffer sp at_ lens g
        let idle : State := stop (s.gen.resting .idle)
        (s.gen.purpose = some .cut → alone →
          exec .stepTimerExpiry s = .next (raiseFlag .state 2 0 (raiseFlag .moveDropped f.move.id 2 idle))) ∧
        (s.gen.purpose = some .flush → alone →
          exec .stepTimerExpiry s = .next (raiseFlag .state 2 0 (raiseFlag .moveDropped f.move.id 4 idle))) ∧
        (s.gen.purpose = some .halt →
          exec .stepTimerExpiry s =
            .next (raiseFlag .state 7 0 (raiseFlag .moveDropped f.move.id 5
              { stop s.gen.haltedFrom with envelope := ⟨[], none⟩ }))) ∧
        (arrived = true → s.gen.purpose = some .hold ∨ s.gen.purpose = some .priority → alone →
          exec .stepTimerExpiry s = .next (raiseFlag .state 2 0 (raiseFlag .moveDone f.move.id 0 idle))) ∧
        (arrived = true → s.gen.purpose = some .priority → ∀ m, s.gen.waiting = some m → s.zonesSound →
          pathOk s at_ m.target = true → distance at_ m.target ≠ 0 →
            exec .stepTimerExpiry s =
              .next (raiseFlag .state 3 0 (raiseFlag .moveDone f.move.id 0
                (stop { s.gen.resting .moving with waiting := none, flight := some (flightFrom m at_) })))) ∧
        (arrived = false → s.gen.purpose = some .hold → s.gen.waiting = none →
          exec .stepTimerExpiry s =
            .next (raiseFlag .state 6 0
              (stop { s.gen.resting .held with stack := ⟨f.move, .manual⟩ :: s.gen.stack }))) ∧
        (arrived = false → s.gen.purpose = some .priority → ∀ m, s.gen.waiting = some m → s.zonesSound →
          pathOk s at_ m.target = true → distance at_ m.target ≠ 0 →
            exec .stepTimerExpiry s =
              .next (raiseFlag .state 3 0
                (stop { s.gen.resting .moving with
                  waiting := none, stack := ⟨f.move, .auto⟩ :: s.gen.stack, flight := some (flightFrom m at_) })))
      (sp.brakeAccel < s.gen.v → f.s + v' < f.dist → s.offerPasses sp (f.offerAt (f.s + v')) →
        exec .stepTimerExpiry s =
          .next (s.afterOffer sp (f.offerAt (f.s + v')) lens
            { s.gen with v := v', flight := some { f with s := f.s + v' } })) ∧
      (s.gen.v ≤ sp.brakeAccel → s.offerPasses sp p → ends p false) ∧
      (sp.brakeAccel < s.gen.v → f.dist ≤ f.s + v' → s.offerPasses sp (f.offerAt f.dist) →
        ends (f.offerAt f.dist) true)

/-- A step in JOGGING with an empty arming set. Each component of the velocity moves towards the request by at most a, limited
to the lowest cap of the ACTIVE SLOW zones that contain the position, or towards zero by at most a_b while the session brakes;
SLOW_OVERSPEED is raised where a component is above that cap. Of the velocity, its six variants with components set to zero,
and no velocity at all, the first whose candidate passes its check is offered and becomes the velocity: a failed candidate is
no breach. The session stays open while it moves, or while the request is not zero; at rest it ends by the succession, and
with purpose HALT the generator is HALTED. A stored SLOW zone without a cap puts none on the jog, and the flags of one event
follow one another, as the model reads it (log entries 16 and 13). -/
def Obligations.JogStepsSlideAndEnd : Prop :=
  ∀ (s : State) (sp : Span) (p : Vec3) (lens : PerWinch RopeLength), s.stepDue sp p lens → s.gen.state = .jogging →
    s.envelope.arming = [] → s.zonesSound →
      let j := s.gen.jog
      let toward (a : Nat) (u goal : Int) : Int :=
        if (goal - u).natAbs ≤ a then goal else if u < goal then u + a else u - a
      let formed (a : Nat) (goal : Vec3) : Vec3 :=
        ⟨toward a j.velocity.x goal.x, toward a j.velocity.y goal.y, toward a j.velocity.z goal.z⟩
      let here (b : Box) : Bool := boxHas b p
      let slides (base : State) (u : Vec3) : Prop :=
        let tries : List Vec3 :=
          [u, ⟨u.x, u.y, 0⟩, ⟨u.x, 0, u.z⟩, ⟨0, u.y, u.z⟩, ⟨u.x, 0, 0⟩, ⟨0, u.y, 0⟩, ⟨0, 0, u.z⟩, ⟨0, 0, 0⟩]
        ∀ k v, tries[k]? = some v → (∀ w ∈ tries.take k, s.candidateFails sp (p.add w)) → s.offerPasses sp (p.add v) →
          let after (g : Generator) : State := base.afterOffer sp (p.add v) lens g
          let ended (st : GenState) : Generator :=
            { s.gen.resting st with jog := ⟨false, ⟨0, 0, 0⟩, ⟨0, 0, 0⟩, none, none⟩ }
          (v ≠ ⟨0, 0, 0⟩ ∨ j.purpose = none ∧ j.request ≠ ⟨0, 0, 0⟩ →
            exec .stepTimerExpiry s = .next (after { s.gen with jog := { j with velocity := v } })) ∧
          (v = ⟨0, 0, 0⟩ →
            (j.purpose = some .halt →
              exec .stepTimerExpiry s =
                .next (raiseFlag .state 7 0 (raiseFirst s.gen.droppedIds 5
                  { after s.gen.haltedFrom with envelope := ⟨[], none⟩ }))) ∧
            ((j.purpose = none ∧ j.request = ⟨0, 0, 0⟩ ∨ j.purpose = some .zone ∨ j.purpose = some .flush) →
              s.gen.waiting = none →
              (s.gen.stack = [] → s.gen.queue = [] →
                exec .stepTimerExpiry s = .next (raiseFlag .state 2 0 (after (ended .idle)))) ∧
              ∀ c rest, s.gen.stack = c :: rest → c.resume = .manual →
                exec .stepTimerExpiry s = .next (raiseFlag .state 6 0 (after (ended .held)))))
      (j.purpose ≠ none → slides s (formed sp.brakeAccel ⟨0, 0, 0⟩)) ∧
      (j.purpose = none → noSlowWhere s here → slides s (formed sp.accel j.request)) ∧
      ∀ id m, j.purpose = none → lowestSlow s here id m →
        let limit (x : Int) : Int := max (-(m : Int)) (min (m : Int) x)
        let u := formed sp.accel ⟨limit j.request.x, limit j.request.y, limit j.request.z⟩
        slides (if m < u.x.natAbs ∨ m < u.y.natAbs ∨ m < u.z.natAbs then raiseFlag .slowOverspeed id 0 s else s) u

/-- An exit plan takes, of the six candidates that carry the position across one face of the inflated box and 100 mm beyond
it, the nearest that qualifies, and at equal distance the first in the face order: it is inside W, outside every enforced
region and every other arming box, and the segment to it meets no enforced region. Where none qualifies there is no plan. -/
def Obligations.ExitPlanIsTheNearestFace : Prop :=
  ∀ (s : State) (id : Nat) (b : Box) (p : Vec3), s.gen.pos = some p →
    let faces : List (Vec3 × Int) :=
      [(⟨b.xlo - 100000, p.y, p.z⟩, p.x - b.xlo + 100000), (⟨b.xhi + 100000, p.y, p.z⟩, b.xhi - p.x + 100000),
        (⟨p.x, b.ylo - 100000, p.z⟩, p.y - b.ylo + 100000), (⟨p.x, b.yhi + 100000, p.z⟩, b.yhi - p.y + 100000),
        (⟨p.x, p.y, b.zhi + 100000⟩, b.zhi - p.z + 100000), (⟨p.x, p.y, b.zlo - 100000⟩, p.z - b.zlo + 100000)]
    let qualifies (c : Vec3) : Prop :=
      inW s c = true ∧ (∀ r ∈ enforced s, boxHas r c = false ∧ segmentMeets p c r = false) ∧
        ∀ a ∈ s.envelope.arming, a.zone ≠ id → ∀ r, zoneRegion s a.zone = some r → boxHas r c = false
    (∀ t, planExit s id (some b) = some t →
      ∃ (k : Nat) (d : Int), faces[k]? = some (t, d) ∧ qualifies t ∧
        ∀ (j : Nat) c, faces[j]? = some c → qualifies c.1 → d < c.2 ∨ d = c.2 ∧ k ≤ j) ∧
    (planExit s id (some b) = none → ∀ c ∈ faces, ¬qualifies c.1)

/-- The resolution of the arming set, taken where a cut move comes to rest with nothing else held, all records sound. Added
KEEP_OUT zones that the trolley is outside all become ACTIVE, with ZONE_ARMED each and every cue's BLOCKED flag recomputed, and
the generator is IDLE. A zone that the trolley is inside has an exit planned: the exit move begins from the plan as kind EXIT
with the top speed, and the zone waits for the exit. Where none qualifies the zone is withdrawn, with ZONE_WITHDRAWN: an added
zone is RETIRING and its removal waits for the operation in flight, and an amended zone returns to ACTIVE on its prior
contents, with its settlement waiting.
Where an exit move arrives outside the boxes of the zones that wait for it, its plan is discarded, MOVE_DONE is raised, and
the zones become ACTIVE in the same way. The order of the flags of one event is the model's reading (log entry 13), and that a
reverted zone takes the prior suspect mark whatever its own its choice (log entry 44). -/
def Obligations.ArmingSetIsResolvedAtRest : Prop :=
  ∀ (s : State) (sp : Span) (p : Vec3) (lens : PerWinch RopeLength) (f : Flight), s.stepDue sp p lens →
    s.gen.flight = some f → s.gen.waiting = none → s.gen.stack = [] → s.gen.queue = [] → s.zonesSound → s.cuesSound →
    s.envelope.arming ≠ [] →
      let ids := s.envelope.arming.map ArmEntry.zone
      let stop (at_ : Vec3) (st : GenState) : State := s.afterOffer sp at_ lens (s.gen.resting st)
      let allOutside (at_ : Vec3) : Prop :=
        ∀ i ∈ ids, ∃ z, zoneAt s i = some z ∧ z.isSlow = false ∧ z.prior = none ∧ z.remaining ≠ some 0 ∧
          ∀ b, region sp.clearance z.box = some b → boxHas b at_ = false
      let armed (t : State) : State := ids.foldl (fun t i => raiseFlag .zoneArmed i 0 t) t
      let s' := ids.foldl (fun s i => setZoneState i .active s) s
      (s.gen.state = .braking → s.gen.purpose = some .cut → s.gen.v ≤ sp.brakeAccel → s.offerPasses sp p →
        let cut (t : State) : State := raiseFlag .moveDropped f.move.id 2 t
        (allOutside p →
          exec .stepTimerExpiry s =
            .next (raiseFlag .state 2 0 (armed (cut
              { stop p .idle with
                zones := s'.zones, cues := s'.reblocked, envelope := { s.envelope with arming := [] } })))) ∧
        ∀ id c z b, s.envelope.arming = [⟨id, c⟩] → zoneAt s id = some z → z.isSlow = false →
          region sp.clearance z.box = some b → boxHas b p = true →
          (∀ t, planExit s id (some b) = some t →
            exec .stepTimerExpiry s =
              .next (raiseFlag .state 3 0 (cut
                { s.afterOffer sp p lens { s.gen.resting .moving with
                    nextId := if 65535 ≤ s.gen.nextId then 1 else s.gen.nextId + 1
                    flight := some (flightFrom ⟨s.gen.nextId, .exit, t, none, sp.top⟩ p) } with
                  envelope := ⟨[⟨id, .exit⟩], some ⟨id, t⟩⟩ }))) ∧
          (planExit s id (some b) = none → s.zones.op.isSome = true →
            let withdrawn (t : State) (w : Work) (cues : Vector CueSlot 96) : State :=
              raiseFlag .state 2 0 (raiseFlag .zoneWithdrawn id 0 (cut
                { stop p .idle with
                  zones := { t.zones with waiting := s.zones.waiting ++ [w] }
                  cues := cues, envelope := { s.envelope with arming := [] } }))
            (z.prior = none →
              exec .stepTimerExpiry s =
                .next (withdrawn (setZoneState id .retiring s) (.withdrawal id) s.cues)) ∧
            ∀ o, z.prior = some o → o.remaining ≠ some 0 →
              let t := putZone id (some { z with
                state := .active, box := o.box, remaining := o.remaining, revision := o.revision,
                suspect := o.suspect, prior := none }) s
              exec .stepTimerExpiry s = .next (withdrawn t (.settlement id z.box) t.reblocked))) ∧
      (s.gen.state = .moving → f.move.kind = .exit → s.noSlow → f.dist ≤ f.s + freeSpeed f s.gen.v sp.accel →
        s.offerPasses sp (f.offerAt f.dist) → allOutside (f.offerAt f.dist) →
          exec .stepTimerExpiry s =
            .next (raiseFlag .state 2 0 (armed (raiseFlag .moveDone f.move.id 0
              { stop (f.offerAt f.dist) .idle with
                zones := s'.zones, cues := s'.reblocked, envelope := ⟨[], none⟩ }))))

/-- A candidate that fails its check outside a jog halts at once: in IDLE and HELD a standing position outside W, and in MOVING
and BRAKING a candidate outside W or inside an enforced region, is an ENVELOPE_BREACH with the discarded candidate in
millimetres as its subject; a standing position outside a drum range is a DRUM_RANGE. The generator is HALTED with its position
kept and everything waiting dropped, an exit plan is discarded, every arming zone waits for a RELEASE, and no length is
delivered. -/
def Obligations.FailedOfferHalts : Prop :=
  ∀ (s : State) (sp : Span) (p : Vec3), s.resetting = false → s.gen.stepTimer.isSome = true →
    s.spanSet.span = some sp → s.gen.pos = some p →
      let halts (t : State) : Prop :=
        t.gen = s.gen.haltedFrom ∧ t.lengths = s.lengths ∧ t.drive = s.drive ∧ t.zones = s.zones ∧ t.cells = s.cells ∧
          t.cues = s.cues ∧ t.envelope = ⟨s.envelope.arming.map fun a => { a with cond := .release }, none⟩
      let breaches (c : Vec3) : Prop :=
        s.candidateFails sp c →
          ∃ t, exec .stepTimerExpiry s = .next t ∧ halts t ∧ t.faults.flags[4] = true ∧
            (s.faults.captured = none →
              t.faults.captured = some ⟨.envelopeBreach, .position (toMm c), some (toMm p)⟩)
      ((s.gen.state = .idle ∨ s.gen.state = .held) →
        breaches p ∧
          (s.candidatePasses sp p → (∃ w : Winch, inDrum (sp.winch.get w) (s.ropeAt sp p w).commanded = false) →
            ∃ t, exec .stepTimerExpiry s = .next t ∧ halts t ∧ t.faults.flags[8] = true)) ∧
      ∀ f, s.gen.flight = some f →
        (s.gen.state = .moving → s.noSlow →
          breaches (f.offerAt (min (f.s + freeSpeed f s.gen.v sp.accel) f.dist))) ∧
        (s.gen.state = .braking → sp.brakeAccel < s.gen.v →
          breaches (f.offerAt (min (f.s + (s.gen.v - sp.brakeAccel)) f.dist)))

/-- SET_SPAN: LOCKED, then BAD_FIELD with the check and the winch, then WRONG_STATE, then BUSY, then, the records sound,
CELL_FULL with the first cell that would receive more than eight ids and their number; accepted with an empty arming set, the
new values are in force, the generator is UNREGISTERED with everything waiting dropped and BRAKE asserted, every list is
discarded and REBUILDING, and the full rebuild stands before cell 0. The byte of that number is the model's reading (log
entry 7). -/
def Obligations.SetSpanBeginsAFullRebuild : Prop :=
  ∀ (s : State) (l : Link) (tag : Byte) (sp : Span), s.portFree l →
    (s.spanSet.locked = true →
      exec (.setSpan ⟨l, tag, .fields sp⟩) s = .next (s.answered l tag 0x15 ⟨.locked, false, []⟩)) ∧
    (∀ n w, s.spanSet.locked = false → spanBad sp = some (n, w) →
      exec (.setSpan ⟨l, tag, .fields sp⟩) s = .next (s.answered l tag 0x15 ⟨.badField, false, [[byte n], [byte w]]⟩)) ∧
    (s.spanSet.locked = false → spanBad sp = none →
      s.gen.state = .moving ∨ s.gen.state = .jogging ∨ s.gen.state = .braking ∨ s.gen.state = .held ∨
        s.gen.state = .stopped →
      exec (.setSpan ⟨l, tag, .fields sp⟩) s = .next (s.answered l tag 0x15 ⟨.wrongState, false, []⟩)) ∧
    (s.spanSet.locked = false → spanBad sp = none →
      s.gen.state = .unregistered ∨ s.gen.state = .idle ∨ s.gen.state = .halted →
      (s.zones.op.isSome = true →
        exec (.setSpan ⟨l, tag, .fields sp⟩) s = .next (s.answered l tag 0x15 ⟨.busy, false, []⟩)) ∧
      (s.zones.op = none → s.zonesSound →
        let count (n : Nat) : Nat := ((List.range 64).filter fun i =>
          (zoneAt s i).any fun z => inRange (planRange sp z.isSlow z.box) n).length
        (∀ n, n < 192 → (∀ m, m < n → count m ≤ 8) → 8 < count n →
          exec (.setSpan ⟨l, tag, .fields sp⟩) s =
            .next (s.answered l tag 0x15 ⟨.cellFull, false, [[byte n, byte (n / 256)], [byte (count n)]]⟩)) ∧
        (s.cuesSound → s.envelope.arming = [] → (∀ n, n < 192 → count n ≤ 8) →
          ∃ t, exec (.setSpan ⟨l, tag, .fields sp⟩) s = .next t ∧ t.spanSet = ⟨some sp, false⟩ ∧
            t.gen = { s.gen with
              state := .unregistered, pos := none, v := 0, flight := none, purpose := none, waiting := none,
              queue := [], stack := [], jog := ⟨false, ⟨0, 0, 0⟩, ⟨0, 0, 0⟩, none, none⟩, stepTimer := none } ∧
            t.lengths = none ∧ t.drive = { s.drive with brake := true } ∧
            t.cells = Vector.replicate 192 ⟨[], cellCheck [], .rebuilding⟩ ∧
            t.zones = { s.zones with
              op := some ⟨.fullRebuild, none, some l, false, .rebuilding, 0, .cells ((List.range 192).drop 1), []⟩ } ∧
            t.cues = (State.reblocked { s with spanSet := ⟨some sp, false⟩ }) ∧ t.envelope = s.envelope ∧
            (t.console.port l).inProgress = some ⟨tag, 0x15⟩ ∧ t.limits = s.limits ∧ t.tension = s.tension ∧
            t.wear = s.wear ∧ t.faults = s.faults ∧ t.scrubber = s.scrubber)))

/-- SET_LIMITS: SAFETY_ONLY, then LOCKED, then the six checks in their order; with every check holding the seven values are
replaced, and nothing else but the port changes. -/
def Obligations.SetLimitsReplacesTheLimitSet : Prop :=
  ∀ (s : State) (tag : Byte) (v : Limits),
    (s.portFree .operations →
      exec (.setLimits ⟨.operations, tag, .fields v⟩) s =
        .next (s.answered .operations tag 0x16 ⟨.safetyOnly, false, []⟩)) ∧
    (s.portFree .safety →
      let failed : Option Byte :=
        if 65535 < v.slackLimit ∨ 65535 < v.overLimit ∨ 65535 < v.criticalLimit ∨ 5000 < v.hysteresis then some 1
        else if v.overLimit < v.slackLimit + 2 * v.hysteresis then some 2
        else if v.criticalLimit ≤ v.overLimit then some 3
        else if v.following < 10 ∨ 2000 < v.following ∨ v.tolerance < 1 ∨ 2000 < v.tolerance then some 4
        else if v.following < v.tolerance then some 5
        else if v.wear < 1 ∨ 65535 < v.wear then some 6
        else none
      exec (.setLimits ⟨.safety, tag, .fields v⟩) s = .next
        (if s.spanSet.locked then s.answered .safety tag 0x16 ⟨.locked, false, []⟩
        else
          match failed with
          | some n => s.answered .safety tag 0x16 ⟨.badField, false, [[n]]⟩
          | none => State.answered { s with limits := v } .safety tag 0x16 ⟨.ok, false, []⟩))

/-- LOCK sets the lock on the safety link once a span is configured, and changes nothing else; it is answered SAFETY_ONLY on
the operations link and NOT_CONFIGURED without a span. While the lock is set SET_SPAN and SET_LIMITS are answered LOCKED, and
no command but a reset changes the Span Set, its lock or the Limit Set. -/
def Obligations.LockFreezesSpanAndLimits : Prop :=
  (∀ (s : State) (tag : Byte),
     (s.portFree .operations →
       exec (.lock ⟨.operations, tag, .fields ()⟩) s =
         .next (s.answered .operations tag 0x17 ⟨.safetyOnly, false, []⟩)) ∧
     (s.portFree .safety →
       exec (.lock ⟨.safety, tag, .fields ()⟩) s = .next
         (if s.spanSet.span.isSome then
           State.answered { s with spanSet := ⟨s.spanSet.span, true⟩ } .safety tag 0x17 ⟨.ok, false, []⟩
         else s.answered .safety tag 0x17 ⟨.notConfigured, false, []⟩))) ∧
  (∀ (s : State) (tag : Byte), s.spanSet.locked = true →
    (∀ l sp, s.portFree l →
      exec (.setSpan ⟨l, tag, .fields sp⟩) s = .next (s.answered l tag 0x15 ⟨.locked, false, []⟩)) ∧
    ∀ v, s.portFree .safety →
      exec (.setLimits ⟨.safety, tag, .fields v⟩) s = .next (s.answered .safety tag 0x16 ⟨.locked, false, []⟩)) ∧
  (∀ (i : Instr) (s t : State), exec i s = .next t → s.spanSet.locked = true → beginsReset i = false →
     t.spanSet = s.spanSet ∧ t.limits = s.limits)

/-- A queued GOTO or RECALL that passes its checks while the head cannot begin (another state than IDLE, or an arming hold)
takes the next move id, joins the tail of the queue with its target and its speed cap, and is answered OK with the id. -/
def Obligations.QueuedMovesJoinTheTail : Prop :=
  ∀ (s : State) (l : Link) (tag : Byte) (sp : Span) (speed : Option Nat), s.portFree l → s.spanSet.span = some sp →
    s.gen.state ≠ .unregistered → s.gen.state ≠ .stopped → s.gen.state ≠ .halted →
    ¬(s.gen.state = .braking ∧ s.gen.purpose = some .halt) → (s.gen.state ≠ .idle ∨ s.envelope.arming ≠ []) →
    activeSuspect s = false → s.gen.queue.length < 8 → s.zonesSound → speed ≠ some 0 →
    s.gen.nextId ∉ heldIds s.gen →
      let next := if 65535 ≤ s.gen.nextId then 1 else s.gen.nextId + 1
      let fast := speed.any fun v => decide (sp.top < v)
      (∀ target, pointOk target = true →
        let t' := clampTo (boxMicro sp.w) (toMicro target)
        pathOk s (planningPoint s) t' = true →
          exec (.goto ⟨l, tag, .fields ⟨target, speed⟩⟩) s =
            .next (State.answered
              { s with gen := { s.gen with
                  queue := s.gen.queue ++ [⟨s.gen.nextId, .goto, t', none, min (speed.getD sp.top) sp.top⟩]
                  nextId := next } }
              l tag 0x0C ⟨.ok, decide (t' ≠ toMicro target) || fast, [le16 s.gen.nextId]⟩)) ∧
      ∀ n c, n ≤ 95 → cueAt s n = some c → cueFails s n = false → c.suspect = false → c.blocked = false →
        pathOk s (planningPoint s) (toMicro c.target) = true →
          let asked := if speed.isSome then speed else c.speed
          exec (.recall ⟨l, tag, .fields ⟨n, speed⟩⟩) s =
            .next (State.answered
              { s with gen := { s.gen with
                  queue := s.gen.queue ++
                    [⟨s.gen.nextId, .recall, toMicro c.target, some n, min (asked.getD sp.top) sp.top⟩]
                  nextId := next } }
              l tag 0x0D ⟨.ok, asked.any fun v => decide (sp.top < v), [le16 s.gen.nextId]⟩)

/-- A GOTO or RECALL, queued or with the priority option, that passes its checks in IDLE with an empty queue, stack and
arming set begins at once from the fine position: the generator is MOVING from P0 with Δ = T − P0, D the distance to the
nearest micrometre, and s = v = 0. That STATE follows the answer is the model's reading (log entry 13). -/
def Obligations.MovesBeginAtOnceInIdle : Prop :=
  ∀ (s : State) (l : Link) (tag : Byte) (sp : Span) (p : Vec3) (speed : Option Nat), s.portFree l →
    s.spanSet.span = some sp → s.gen.state = .idle → s.gen.pos = some p → s.gen.queue = [] → s.gen.stack = [] →
    s.gen.flight = none → s.gen.waiting = none → s.envelope.arming = [] → activeSuspect s = false → s.zonesSound →
    speed ≠ some 0 →
      let next := if 65535 ≤ s.gen.nextId then 1 else s.gen.nextId + 1
      let fast := speed.any fun v => decide (sp.top < v)
      let flying (m : Move) : State :=
        { s with gen := { s.gen with
            state := .moving, v := 0, purpose := none, nextId := next
            flight := some ⟨m, p, ⟨m.target.x - p.x, m.target.y - p.y, m.target.z - p.z⟩, distance p m.target, 0⟩ } }
      (∀ target, pointOk target = true →
        let t' := clampTo (boxMicro sp.w) (toMicro target)
        let m : Move := ⟨s.gen.nextId, .goto, t', none, min (speed.getD sp.top) sp.top⟩
        pathOk s p t' = true → distance p t' ≠ 0 →
          exec (.goto ⟨l, tag, .fields ⟨target, speed⟩⟩) s =
              .next (raiseFlag .state 3 0 (State.answered (flying m) l tag 0x0C
                ⟨.ok, decide (t' ≠ toMicro target) || fast, [le16 s.gen.nextId]⟩)) ∧
            exec (.gotoPriority ⟨l, tag, .fields ⟨target, speed⟩⟩) s =
              .next (raiseFlag .state 3 0 (State.answered (flying m) l tag 0x0C
                ⟨.ok, decide (t' ≠ toMicro target) || fast, [le16 s.gen.nextId]⟩))) ∧
      ∀ n c, n ≤ 95 → cueAt s n = some c → cueFails s n = false → c.suspect = false → c.blocked = false →
        let asked := if speed.isSome then speed else c.speed
        let m : Move := ⟨s.gen.nextId, .recall, toMicro c.target, some n, min (asked.getD sp.top) sp.top⟩
        pathOk s p (toMicro c.target) = true → distance p (toMicro c.target) ≠ 0 →
          exec (.recall ⟨l, tag, .fields ⟨n, speed⟩⟩) s =
              .next (raiseFlag .state 3 0 (State.answered (flying m) l tag 0x0D
                ⟨.ok, asked.any fun v => decide (sp.top < v), [le16 s.gen.nextId]⟩)) ∧
            exec (.recallPriority ⟨l, tag, .fields ⟨n, speed⟩⟩) s =
              .next (raiseFlag .state 3 0 (State.answered (flying m) l tag 0x0D
                ⟨.ok, asked.any fun v => decide (sp.top < v), [le16 s.gen.nextId]⟩))

/-- A priority GOTO that passes its checks in MOVING on a GOTO or RECALL move becomes the waiting priority move and is
answered OK with its id; the executing move brakes along its path with purpose PRIORITY. On an exit move it is refused
WRONG_STATE, with entries in the arming set ARMING, and with four contexts on the stack STACK_FULL. That STATE follows the
answer is the model's reading (log entry 13). -/
def Obligations.PriorityMoveBrakesTheExecutingMove : Prop :=
  ∀ (s : State) (l : Link) (tag : Byte) (sp : Span) (p : Vec3) (f : Flight) (target : Vec3) (speed : Option Nat),
    s.portFree l → s.spanSet.span = some sp → s.gen.state = .moving → s.gen.pos = some p → s.gen.flight = some f →
    activeSuspect s = false → speed ≠ some 0 → pointOk target = true →
      (f.move.kind = .exit →
        exec (.gotoPriority ⟨l, tag, .fields ⟨target, speed⟩⟩) s =
          .next (s.answered l tag 0x0C ⟨.wrongState, false, []⟩)) ∧
      (f.move.kind ≠ .exit → s.envelope.arming ≠ [] →
        exec (.gotoPriority ⟨l, tag, .fields ⟨target, speed⟩⟩) s =
          .next (s.answered l tag 0x0C ⟨.arming, false, []⟩)) ∧
      (f.move.kind ≠ .exit → s.envelope.arming = [] → 4 ≤ s.gen.stack.length →
        exec (.gotoPriority ⟨l, tag, .fields ⟨target, speed⟩⟩) s =
          .next (s.answered l tag 0x0C ⟨.stackFull, false, []⟩)) ∧
      (f.move.kind ≠ .exit → s.envelope.arming = [] → s.gen.stack.length < 4 → s.zonesSound →
        s.gen.nextId ∉ heldIds s.gen →
        let t' := clampTo (boxMicro sp.w) (toMicro target)
        pathOk s p t' = true →
          exec (.gotoPriority ⟨l, tag, .fields ⟨target, speed⟩⟩) s =
            .next (raiseFlag .state 5 0 (State.answered
              { s with gen := { s.gen with
                  state := .braking, purpose := some .priority
                  waiting := some ⟨s.gen.nextId, .goto, t', none, min (speed.getD sp.top) sp.top⟩
                  nextId := if 65535 ≤ s.gen.nextId then 1 else s.gen.nextId + 1 } }
              l tag 0x0C
              ⟨.ok, decide (t' ≠ toMicro target) || speed.any fun v => decide (sp.top < v), [le16 s.gen.nextId]⟩)))

/-- HOLD: NOT_REGISTERED, then WRONG_STATE, then STACK_FULL; accepted, the generator is BRAKING with purpose HOLD and the answer
carries the move id. RESUME in HELD with nothing suspect or arming pops the top context, which begins from the fine position to
its saved target with its saved cap where its start check passes; the answer carries the move id. That STATE follows the
answer is the model's reading (log entry 13). -/
def Obligations.HoldAndResume : Prop :=
  (∀ (s : State) (l : Link) (tag : Byte), s.portFree l →
     ((s.gen.state = .unregistered ∨ s.gen.state = .stopped) →
       exec (.hold ⟨l, tag, .fields ()⟩) s = .next (s.answered l tag 0x0F ⟨.notRegistered, false, []⟩)) ∧
     (s.gen.state ≠ .unregistered → s.gen.state ≠ .stopped → s.gen.state ≠ .moving →
       exec (.hold ⟨l, tag, .fields ()⟩) s = .next (s.answered l tag 0x0F ⟨.wrongState, false, []⟩)) ∧
     ∀ f, s.gen.state = .moving → s.gen.flight = some f →
       (f.move.kind = .exit →
         exec (.hold ⟨l, tag, .fields ()⟩) s = .next (s.answered l tag 0x0F ⟨.wrongState, false, []⟩)) ∧
       (f.move.kind ≠ .exit → 4 ≤ s.gen.stack.length →
         exec (.hold ⟨l, tag, .fields ()⟩) s = .next (s.answered l tag 0x0F ⟨.stackFull, false, []⟩)) ∧
       (f.move.kind ≠ .exit → s.gen.stack.length < 4 →
         exec (.hold ⟨l, tag, .fields ()⟩) s =
           .next (raiseFlag .state 5 0 (State.answered
             { s with gen := { s.gen with state := .braking, purpose := some .hold } }
             l tag 0x0F ⟨.ok, false, [le16 f.move.id]⟩)))) ∧
  (∀ (s : State) (l : Link) (tag : Byte), s.portFree l →
     ((s.gen.state = .unregistered ∨ s.gen.state = .stopped) →
       exec (.resume ⟨l, tag, .fields ()⟩) s = .next (s.answered l tag 0x10 ⟨.notRegistered, false, []⟩)) ∧
     (s.gen.state ≠ .unregistered → s.gen.state ≠ .stopped → s.gen.state ≠ .held →
       exec (.resume ⟨l, tag, .fields ()⟩) s = .next (s.answered l tag 0x10 ⟨.wrongState, false, []⟩)) ∧
     (s.gen.state = .held → activeSuspect s = true →
       exec (.resume ⟨l, tag, .fields ()⟩) s = .next (s.answered l tag 0x10 ⟨.zoneSuspect, false, []⟩)) ∧
     (s.gen.state = .held → activeSuspect s = false → s.envelope.arming ≠ [] →
       exec (.resume ⟨l, tag, .fields ()⟩) s = .next (s.answered l tag 0x10 ⟨.arming, false, []⟩)) ∧
     ∀ c rest p, s.gen.state = .held → activeSuspect s = false → s.envelope.arming = [] → s.gen.stack = c :: rest →
       s.gen.pos = some p → s.zonesSound → pathOk s p c.move.target = true → distance p c.move.target ≠ 0 →
         exec (.resume ⟨l, tag, .fields ()⟩) s =
           .next (raiseFlag .state 3 0 (State.answered
             { s with gen := { s.gen with
                 state := .moving, v := 0, purpose := none, stack := rest
                 flight := some ⟨c.move, p, c.move.target.sub p, distance p c.move.target, 0⟩ } }
             l tag 0x10 ⟨.ok, false, [le16 c.move.id]⟩)))

/-- FLUSH QUEUE drops the queue alone; FLUSH ALL drops the queue, the stack from bottom to top and the waiting priority move.
In MOVING on a GOTO or RECALL it brakes with purpose FLUSH, and on an exit move the exit flies on; in BRAKING the purposes HOLD
and PRIORITY become FLUSH and the others stay; in JOGGING the request is zero and the jog brakes, with purpose FLUSH where it
had none; HELD becomes IDLE; and IDLE, HALTED, STOPPED and UNREGISTERED do nothing more. The answer carries the number dropped,
and MOVE_DROPPED the first id with the reason FLUSH (4); a scope that is neither is answered BAD_FIELD. The number of that
field, the width of the number dropped, and that the flags follow the answer are the model's readings (log entries 7 and 13). -/
def Obligations.FlushDropsWhatWaits : Prop :=
  ∀ (s : State) (l : Link) (tag : Byte), s.portFree l →
    let ids := s.gen.queue.map Move.id ++ (s.gen.stack.reverse.map fun c => c.move.id) ++
      (match s.gen.waiting with | none => [] | some m => [m.id])
    let flushed : Generator := { s.gen with queue := [], stack := [], waiting := none }
    let dropped (g : Generator) : State :=
      raiseFirst ids 4 (State.answered { s with gen := g } l tag 0x11 ⟨.ok, false, [[byte ids.length]]⟩)
    exec (.flushQueue ⟨l, tag, .fields .queue⟩) s =
        .next (raiseFirst (s.gen.queue.map Move.id) 4 (State.answered
          { s with gen := { s.gen with queue := [] } } l tag 0x11 ⟨.ok, false, [[byte s.gen.queue.length]]⟩)) ∧
      (∀ n, exec (.flushQueue ⟨l, tag, .fields (.neither n)⟩) s =
        .next (s.answered l tag 0x11 ⟨.badField, false, [[1]]⟩)) ∧
      ((s.gen.state = .idle ∨ s.gen.state = .halted ∨ s.gen.state = .stopped ∨ s.gen.state = .unregistered) →
        exec (.flushAll ⟨l, tag, .fields ()⟩) s = .next (dropped flushed)) ∧
      (s.gen.state = .held →
        exec (.flushAll ⟨l, tag, .fields ()⟩) s = .next (raiseFlag .state 2 0 (dropped (flushed.resting .idle)))) ∧
      (∀ f, s.gen.state = .moving → s.gen.flight = some f →
        (f.move.kind ≠ .exit →
          exec (.flushAll ⟨l, tag, .fields ()⟩) s =
            .next (raiseFlag .state 5 0 (dropped { flushed with state := .braking, purpose := some .flush }))) ∧
        (f.move.kind = .exit → exec (.flushAll ⟨l, tag, .fields ()⟩) s = .next (dropped flushed))) ∧
      (s.gen.state = .braking →
        (s.gen.purpose = some .hold ∨ s.gen.purpose = some .priority →
          exec (.flushAll ⟨l, tag, .fields ()⟩) s = .next (dropped { flushed with purpose := some .flush })) ∧
        (s.gen.purpose ≠ some .hold → s.gen.purpose ≠ some .priority →
          exec (.flushAll ⟨l, tag, .fields ()⟩) s = .next (dropped flushed))) ∧
      (s.gen.state = .jogging →
        exec (.flushAll ⟨l, tag, .fields ()⟩) s =
          .next (dropped { flushed with jog := { s.gen.jog with
            request := ⟨0, 0, 0⟩
            purpose := (match s.gen.jog.purpose with | none => some .flush | some k => some k) } }))

/-- REGISTER is refused, in this order: BAD_FIELD for a coordinate beyond ±262,143 mm; WRONG_STATE; NOT_CONFIGURED;
NO_FEEDBACK with the first winch that is not ALIVE or reports FAULT; OUT_OF_VOLUME; IN_ZONE with the lowest ACTIVE KEEP_OUT zone
whose inflated box contains the position; and REG_MISMATCH with each winch's difference and failed conditions, where the length
test fails for some winch.
Accepted, the fine position is the one given, the measured lengths are the previous delivered ones, the generator is IDLE with
its step timer started, BRAKE is released, and the answer carries the four differences. That STATE follows the answer, the
number of the one field, and the bytes of a winch in REG_MISMATCH are the model's readings and choice (log entries 13, 7
and 8). -/
def Obligations.RegisterTakesThePosition : Prop :=
  ∀ (s : State) (l : Link) (tag : Byte) (at_ : Vec3), s.portFree l →
    let refused (c : Code) (d : List (List Byte)) : Prop :=
      exec (.register ⟨l, tag, .fields at_⟩) s = .next (s.answered l tag 0x12 ⟨c, false, d⟩)
    let far : Prop := 262143 < at_.x.natAbs ∨ 262143 < at_.y.natAbs ∨ 262143 < at_.z.natAbs
    let unwell (w : Winch) : Prop :=
      (s.drive.channels.get w).status ≠ .alive ∨ (s.drive.channels.get w).drive = some .fault
    (far → refused .badField [[1]]) ∧
    (¬far →
      (s.gen.state ≠ .unregistered ∨ s.drive.stopLevel = true → refused .wrongState []) ∧
      (s.gen.state = .unregistered → s.drive.stopLevel = false →
        (s.spanSet.span = none → refused .notConfigured []) ∧
        ∀ sp, s.spanSet.span = some sp →
          let holds (i : Nat) : Prop := ∃ z, zoneAt s i = some z ∧ z.state = .active ∧ z.isKeepOut = true ∧
            ∃ b, region sp.clearance z.box = some b ∧ boxHas b (toMicro at_) = true
          (∀ w, unwell w → (∀ v : Winch, v.number < w.number → ¬unwell v) → refused .noFeedback [[byte w.number]]) ∧
          ((∀ w, ¬unwell w) →
            (boxHas (boxMicro sp.w) (toMicro at_) = false → refused .outOfVolume []) ∧
            (boxHas (boxMicro sp.w) (toMicro at_) = true → s.zonesSound →
              (∀ i ∈ zoneIds, holds i → (∀ j ∈ zoneIds, j < i → ¬holds j) → refused .inZone [[byte i]]) ∧
              ∀ m : PerWinch Int, (∀ i ∈ zoneIds, ¬holds i) →
                (∀ w, (s.drive.channels.get w).measured = some (m.get w)) →
                let rc (w : Winch) : RopeCalc :=
                  ropeCalc (sp.winch.get w) (toMicro at_) (s.drive.channels.get w).tension
                let diff (w : Winch) : Int := (rc w).commanded - m.get w
                let passes (w : Winch) : Prop :=
                  inDrum (sp.winch.get w) (rc w).commanded = true ∧ inDrum (sp.winch.get w) (m.get w) = true ∧
                    (diff w).natAbs ≤ s.limits.tolerance * 1000
                ((∀ w, passes w) →
                  exec (.register ⟨l, tag, .fields at_⟩) s =
                    .next (raiseFlag .state 2 0 (State.answered
                      { s with
                        gen := { s.gen with state := .idle, pos := some (toMicro at_), v := 0, flight := none,
                                            stepTimer := some 2 }
                        lengths := some (PerWinch.of fun w => ⟨m.get w, (rc w).stretch⟩)
                        drive := { s.drive with brake := false, setSinceRelease := false, holdTimer := some 3 } }
                      l tag 0x12
                      ⟨.ok, false, [Winch.w1, .w2, .w3, .w4].map fun w => leInt32 (diff w)⟩))) ∧
                ((∃ w, ¬passes w) →
                  refused .regMismatch ([Winch.w1, .w2, .w3, .w4].map fun w =>
                    leInt32 (diff w) ++
                      [if inDrum (sp.winch.get w) (rc w).commanded then 0 else 1,
                        if inDrum (sp.winch.get w) (m.get w) then 0 else 1,
                        if (diff w).natAbs ≤ s.limits.tolerance * 1000 then 0 else 1]))))))

/-- RELEASE from the safety link. From HALTED with every channel ALIVE and READY, every tension NORMAL and no ACTIVE zone
suspect, and nothing waiting or arming, the generator is IDLE. From STOPPED, STOP released, nothing CRITICAL, no channel lost or
in FAULT and no ACTIVE zone suspect, it is IDLE with BRAKE released where every measured length is within the tolerance and its
drum range, and otherwise UNREGISTERED. Where a condition fails it is refused NOT_RELEASABLE with the number of the first that
fails, and in every other state WRONG_STATE. That STATE follows the answer, and that a condition is named by its number, are
the model's readings (log entries 13 and 7). -/
def Obligations.ReleaseLeavesHaltedAndStopped : Prop :=
  ∀ (s : State) (tag : Byte), s.portFree .safety →
    (s.gen.state ≠ .halted → s.gen.state ≠ .stopped →
      exec (.release ⟨.safety, tag, .fields ()⟩) s = .next (s.answered .safety tag 0x13 ⟨.wrongState, false, []⟩)) ∧
    (let refused (n : Byte) : Prop :=
       exec (.release ⟨.safety, tag, .fields ()⟩) s =
         .next (s.answered .safety tag 0x13 ⟨.notReleasable, false, [[n]]⟩)
     let ready : Prop := ∀ w, (s.drive.channels.get w).status = .alive ∧ (s.drive.channels.get w).drive = some .ready
     let normal : Prop := ∀ w, s.tension.get w = .normal
     let calm : Prop := ∀ w, s.tension.get w ≠ .critical
     let well : Prop := ∀ w, (s.drive.channels.get w).status = .alive ∧ (s.drive.channels.get w).drive ≠ some .fault
     (s.gen.state = .halted →
       (¬ready → refused 1) ∧ (ready → ¬normal → refused 2) ∧ (ready → normal → activeSuspect s = true → refused 3)) ∧
     (s.gen.state = .stopped →
       (s.drive.stopLevel = true → refused 1) ∧
       (s.drive.stopLevel = false →
         (¬calm → refused 2) ∧ (calm → ¬well → refused 3) ∧ (calm → well → activeSuspect s = true → refused 4)))) ∧
    (activeSuspect s = false → s.gen.waiting = none → s.gen.stack = [] → s.gen.queue = [] → s.envelope.arming = [] →
      (s.gen.state = .halted →
        (∀ w, (s.drive.channels.get w).status = .alive ∧ (s.drive.channels.get w).drive = some .ready ∧
          s.tension.get w = .normal) →
        exec (.release ⟨.safety, tag, .fields ()⟩) s =
          .next (raiseFlag .state 2 0 (State.answered
            { s with gen := { s.gen with state := .idle, v := 0, flight := none, purpose := none } }
            .safety tag 0x13 ⟨.ok, false, [[2]]⟩))) ∧
      ∀ (sp : Span) (lens : PerWinch RopeLength) (m : PerWinch Int), s.gen.state = .stopped →
        s.drive.stopLevel = false → s.spanSet.span = some sp → s.lengths = some lens →
        (∀ w, (s.drive.channels.get w).status = .alive ∧ (s.drive.channels.get w).drive ≠ some .fault ∧
          s.tension.get w ≠ .critical ∧ (s.drive.channels.get w).measured = some (m.get w)) →
          let diffs := [Winch.w1, .w2, .w3, .w4].map fun w => leInt32 ((lens.get w).prev - m.get w)
          let passes (w : Winch) : Prop :=
            inDrum (sp.winch.get w) (m.get w) = true ∧
              ((lens.get w).prev - m.get w).natAbs ≤ s.limits.tolerance * 1000
          ((∀ w, passes w) →
            exec (.release ⟨.safety, tag, .fields ()⟩) s =
              .next (raiseFlag .state 2 0 (State.answered
                { s with
                  gen := { s.gen with state := .idle, v := 0, flight := none, purpose := none, stepTimer := some 2 }
                  lengths := some (PerWinch.of fun w => ⟨m.get w, (lens.get w).stretch⟩)
                  drive := { s.drive with brake := false, setSinceRelease := false, holdTimer := some 3 } }
                .safety tag 0x13 ⟨.ok, false, [2] :: diffs⟩))) ∧
          ((∃ w, ¬passes w) →
            ∃ t, exec (.release ⟨.safety, tag, .fields ()⟩) s = .next t ∧ t.gen.state = .unregistered ∧
              t.gen.pos = none ∧ t.gen.v = 0 ∧ t.gen.stepTimer = none ∧ t.gen.nextId = s.gen.nextId ∧
              t.lengths = none ∧ t.drive = { s.drive with brake := true } ∧ (t.console.port .safety).inProgress = none))

/-- The STOP input: asserted, its level is recorded, and the generator trips to STOPPED from every state but UNREGISTERED and
STOPPED, with its moves dropped, no speed, the step timer stopped and BRAKE asserted; released, its level alone is
recorded. That STATE follows MOVE_DROPPED is the model's reading (log entry 13). -/
def Obligations.StopTripsTheGenerator : Prop :=
  ∀ s : State, s.resetting = false →
    exec .stopReleased s = .next { s with drive := { s.drive with stopInput := false, stopLevel := false } } ∧
    (s.gen.state = .unregistered ∨ s.gen.state = .stopped →
      exec .stopAsserted s = .next { s with drive := { s.drive with stopInput := true, stopLevel := true } }) ∧
    (s.gen.state ≠ .unregistered → s.gen.state ≠ .stopped →
      exec .stopAsserted s =
        .next (raiseFlag .state 8 0 (raiseFirst
          (s.gen.flight.toList.map (fun f => f.move.id) ++ s.gen.waiting.toList.map Move.id ++
            s.gen.queue.map Move.id ++ s.gen.stack.reverse.map fun c => c.move.id) 6
          { s with
            gen := { s.gen with
              state := .stopped, v := 0, flight := none, purpose := none, waiting := none, queue := [], stack := [],
              jog := ⟨false, ⟨0, 0, 0⟩, ⟨0, 0, 0⟩, none, none⟩, stepTimer := none }
            envelope := ⟨s.envelope.arming.map fun a => { a with cond := .release }, none⟩
            drive := { s.drive with stopInput := true, stopLevel := true, brake := true } })))

/-- A feedback frame that is malformed, not well formed or not matched changes nothing but the receiver, which hunts. A matched
one that leaves the winch's tension status as it was and reports no FAULT to a registered generator stores its values, answers
the latest frame, and makes the channel ALIVE with no misses; nothing else changes where BRAKE is asserted, or where it is
released with no measured length held before and the frame answered a HOLD or lies within the following limit. -/
def Obligations.FeedbackIsStoredOrIgnored : Prop :=
  ∀ (s : State) (w : Winch) (f : FeedbackFields), s.resetting = false →
    let hunting : DrivePort := { s.drive with receivers := s.drive.receivers.set w .hunting }
    let c := s.drive.channels.get w
    let known : Option DriveStatus :=
      if f.status = 1 then some .ready else if f.status = 2 then some .braked
      else if f.status = 3 then some .fault else none
    exec (.feedbackFrame w .malformed) s = .next { s with drive := hunting } ∧
      (f.winch ≠ w.number ∨ 2 ^ 30 ≤ f.measured ∨ known = none ∨ c.latest = none ∨ f.echo ≠ c.sequence ∨
          c.answered = true →
        exec (.feedbackFrame w (.fields f)) s = .next { s with drive := hunting }) ∧
      ∀ st, known = some st → s.matchedFrame w f → s.frameFollows w f →
        (s.drive.brake = true ∨ c.measured = none) →
        (st ≠ .fault ∨ s.gen.state = .unregistered ∨ s.gen.state = .stopped) →
        tensionNext s.limits (s.tension.get w) f.tension = s.tension.get w →
          exec (.feedbackFrame w (.fields f)) s = .next { s with drive := s.storedFrame w f st }

/-- What a matched feedback reports. With BRAKE released and the answered LENGTH frame's command further from the measured
length than the following limit, FOLLOWING is reported with the winch and the generator takes a controlled halt: HALTED at once
from IDLE and HELD, BRAKING or a braking jog with purpose HALT in flight, and no change in HALTED. With drive status FAULT and a
registered generator, DRIVE_FAULT is reported and the generator trips to STOPPED with BRAKE asserted, whatever else the frame
brings. In every case the values are stored. -/
def Obligations.FollowingErrorsHaltAndDriveFaultsTrip : Prop :=
  ∀ (s : State) (w : Winch) (f : FeedbackFields), s.resetting = false → s.matchedFrame w f →
    let kept (t : State) : Prop :=
      t.zones = s.zones ∧ t.cells = s.cells ∧ t.cues = s.cues ∧ t.spanSet = s.spanSet ∧ t.limits = s.limits ∧
        t.lengths = s.lengths ∧ t.scrubber = s.scrubber ∧
        ∀ v, v ≠ w → t.tension.get v = s.tension.get v ∧ t.wear.get v = s.wear.get v
    (∀ st cmd, ((f.status = 1 ∧ st = DriveStatus.ready) ∨ (f.status = 2 ∧ st = .braked)) → s.drive.brake = false →
      (s.drive.channels.get w).latest = some (.length cmd) →
      s.limits.following * 1000 < (cmd - (f.measured : Int)).natAbs →
      tensionNext s.limits (s.tension.get w) f.tension = s.tension.get w →
        ∃ t, exec (.feedbackFrame w (.fields f)) s = .next t ∧ kept t ∧ t.drive = s.storedFrame w f st ∧
          t.faults.flags[3] = true ∧ t.gen = s.gen.haltingFrom ∧ t.tension = s.tension) ∧
    (f.status = 3 → s.gen.state ≠ .unregistered → s.gen.state ≠ .stopped →
      ∃ t, exec (.feedbackFrame w (.fields f)) s = .next t ∧ kept t ∧
        t.drive = { s.storedFrame w f .fault with brake := true } ∧ t.faults.flags[2] = true ∧
        t.gen = s.gen.stoppedFrom)

/-- The new status of a winch is that of the first condition that holds, in the order of the table; every comparison is
strict. A winch enters a status that differs from its present one: TENSION_Wn is raised with it, and an entry to OVER or SLACK
reports TENSION_OVER or TENSION_SLACK and brings a controlled halt in IDLE, HELD and flight, and neither in HALTED, STOPPED and
UNREGISTERED; an entry to NORMAL reports nothing. -/
def Obligations.TensionEntriesFollowTheTable : Prop :=
  (∀ (l : Limits) (present : TensionStatus) (t : Nat), l.hysteresis ≤ l.overLimit → l.hysteresis ≤ l.criticalLimit →
    tensionNext l present t =
      if l.criticalLimit < t then .critical
      else if present = .critical ∧ l.criticalLimit - l.hysteresis < t then .critical
      else if l.overLimit < t then .overload
      else if (present = .critical ∨ present = .overload) ∧ l.overLimit - l.hysteresis < t then .overload
      else if t < l.slackLimit then .slack
      else if present = .slack ∧ t < l.slackLimit + l.hysteresis then .slack
      else .normal) ∧
  ∀ (s : State) (w : Winch) (f : FeedbackFields) (st : DriveStatus), s.resetting = false → s.matchedFrame w f →
    s.frameFollows w f → ((f.status = 1 ∧ st = .ready) ∨ (f.status = 2 ∧ st = .braked)) →
      let new := tensionNext s.limits (s.tension.get w) f.tension
      let atRest : Prop := s.gen.state = .halted ∨ s.gen.state = .stopped ∨ s.gen.state = .unregistered
      new ≠ s.tension.get w → new ≠ .critical →
        ∃ t, exec (.feedbackFrame w (.fields f)) s = .next t ∧ t.tension = s.tension.set w new ∧
          t.drive = s.storedFrame w f st ∧
          (∀ n : Fin 21, n.val = 5 + w.number → s.console.flags[n] = none →
            t.console.flags[n] =
              some ⟨match new with | .normal => 1 | .slack => 2 | .overload => 3 | .critical => 4, 0⟩) ∧
          (new = .normal ∨ atRest → t.gen = s.gen ∧ t.faults = s.faults) ∧
          (new ≠ .normal → ¬atRest →
            t.gen = s.gen.haltingFrom ∧ (new = .overload → t.faults.flags[6] = true) ∧
              (new = .slack → t.faults.flags[7] = true) ∧
              (s.faults.captured = none →
                t.faults.captured = some ⟨if new = .overload then .tensionOver else .tensionSlack, .number w.number,
                  s.gen.pos.map toMm⟩))

/-- A matched feedback with BRAKE released, on a channel that held a measured length, feeds the rope wear with the magnitude of
the change: the accumulator takes it, and each whole metre in it is a count on the segment at the sheave, floor(M / 16 m) and
at most 63, whose counter stops at 65,535. WEAR_Wn is raised with the segment where a count leaves its counter at or above the
wear limit. Nothing else changes where the frame follows its command, enters no tension status and reports no FAULT. -/
def Obligations.FeedbackCountsRopeWear : Prop :=
  ∀ (s : State) (w : Winch) (f : FeedbackFields) (st : DriveStatus) (m : Int), s.resetting = false →
    s.matchedFrame w f → s.frameFollows w f → ((f.status = 1 ∧ st = .ready) ∨ (f.status = 2 ∧ st = .braked)) →
    tensionNext s.limits (s.tension.get w) f.tension = s.tension.get w → s.drive.brake = false →
    (s.drive.channels.get w).measured = some m → (s.wear.get w).law →
      let total := (s.wear.get w).accumulator + ((f.measured : Int) - m).natAbs
      let counts := total / 1000000
      let seg := min (f.measured / 16000000) 63
      let counters : Vector Nat 64 := Vector.ofFn fun k =>
        if k.val = seg then min 65535 ((s.wear.get w).counters[k] + counts) else (s.wear.get w).counters[k]
      let fed : State :=
        { s with drive := s.storedFrame w f st, wear := s.wear.set w ⟨counters, total % 1000000⟩ }
      exec (.feedbackFrame w (.fields f)) s =
        .next (if 0 < counts ∧ ∃ k : Fin 64, k.val = seg ∧ s.limits.wear ≤ counters[k] then
          raiseFlag (.wear w) seg 0 fed else fed)

/-- Every well-formed command keeps each rope wear counter between 0 and 65,535 and each accumulator between 0 and 999,999, and
a counter decreases only by WEAR_LOAD, WEAR_RESET or power-up. -/
def Obligations.WearStaysInItsBounds : Prop :=
  (∀ (i : Instr) (s t : State), i.wf = true → exec i s = .next t → s.wearLaw → t.wearLaw) ∧
  (∀ (i : Instr) (s t : State) (w : Winch) (k : Fin 64), exec i s = .next t → s.wearLaw → i ≠ .powerUp →
     (∀ r, i ≠ .wearLoad r) → (∀ r, i ≠ .wearReset r) →
       (s.wear.get w).counters[k] ≤ (t.wear.get w).counters[k])

/-- After every command the captured class of the Fault Record is the highest-priority class whose flag is set, and there is
no captured entry exactly when no flag is set. -/
def Obligations.FaultRecordCapturesTheHighest : Prop :=
  ∀ (i : Instr) (s t : State), exec i s = .next t → s.faults.law → t.faults.law

/-- After every command no cell list holds more than eight ids, nor any id twice, and its ids stand in ascending order. -/
def Obligations.CellListsStayOrdered : Prop :=
  ∀ (i : Instr) (s t : State), exec i s = .next t → s.cellLaw → t.cellLaw

/-- After every command the BRAKE line is asserted exactly while the generator is UNREGISTERED or STOPPED, and a jog session is
open exactly while the generator is JOGGING, with the jog state at rest where none is open. -/
def Obligations.BrakeAndJogFollowTheGenerator : Prop :=
  (∀ (i : Instr) (s t : State), exec i s = .next t → s.brakeLaw → t.brakeLaw) ∧
  (∀ (i : Instr) (s t : State), exec i s = .next t → s.jogLaw → t.jogLaw)

/-- After every command the queue holds at most 8 entries, the stack at most 4 contexts with room for the push a HOLD or a
priority interruption is braking for, and no move id appears twice among the executing move, the waiting priority move, the
queue and the stack. -/
def Obligations.MoveCollectionsStayBounded : Prop :=
  ∀ (i : Instr) (s t : State), exec i s = .next t → s.gen.collectionsLaw → t.gen.collectionsLaw

/-- The generator leaves STOPPED only by RELEASE from the safety link or a reset, UNREGISTERED only by REGISTER, and HALTED
only by RELEASE, SET_SPAN, a trip to STOPPED or a reset. -/
def Obligations.HaltsStandUntilReleased : Prop :=
  ∀ (i : Instr) (s t : State), exec i s = .next t →
    (s.gen.state = .stopped → t.gen.state ≠ .stopped →
      (∃ r, i = .release r ∧ r.link = .safety) ∨ beginsReset i = true) ∧
    (s.gen.state = .unregistered → t.gen.state ≠ .unregistered → ∃ r, i = .register r) ∧
    (s.gen.state = .halted → t.gen.state ≠ .halted → t.gen.state ≠ .stopped →
      (∃ r, i = .release r ∧ r.link = .safety) ∨ (∃ r, i = .setSpan r) ∨ beginsReset i = true)

/-- The state after reset keeps every law that the commands keep. -/
def Obligations.ResetKeepsEveryLaw : Prop :=
  State.reset.wearLaw ∧ State.reset.faults.law ∧ State.reset.cellLaw ∧ State.reset.brakeLaw ∧ State.reset.jogLaw ∧
    State.reset.gen.collectionsLaw

/-- Reading the frame of a well-formed request gives the request back: no field of a request's body is dropped. A malformed
GOTO, RECALL or FLUSH frame is the command of the row without the option, as the model reads it (log entry 32). The receiver of
a console port collects a whole frame as one request and hunts on after its CRC; the receiver of a drive link does the same
with a feedback frame. -/
def Obligations.RequestsSurviveTheirFrames : Prop :=
  (∀ (i : Instr) (l : Link) (tag kind : Byte) (body : List Byte), i.wf = true →
    encodeRequest i = some (l, tag, kind, body) → decodeRequest l tag kind body = i) ∧
  (∀ (l : Link) (tag kind : Byte) (body : List Byte) (rest : List Sym) (n : Nat), body.length ≤ 240 →
    receiveConsole l (n + 1) ((envelope tag kind body).map Sym.byte ++ rest) =
      decodeRequest l tag kind body :: receiveConsole l n rest) ∧
  ∀ (w : Winch) (f : FeedbackFields) (rest : List Sym) (n : Nat), (Instr.feedbackFrame w (.fields f)).wf = true →
    receiveDrive w (n + 1) ((delimiter :: encodeFeedback f).map Sym.byte ++ rest) =
      .feedbackFrame w (.fields f) :: receiveDrive w n rest

/-- The segment check is exact: a segment meets a closed box exactly when some point between its ends, both included, lies
inside the box. The entry distance of a box is the smallest integer from s to D at which the exact point P0 + Δ·s/D of the
move lies inside, and is absent where there is none; and a box contains the exact point at s where that point lies inside. -/
def Obligations.SegmentChecksAreExact : Prop :=
  let between (lo hi : Int) (x : ℚ) : Prop := (lo : ℚ) ≤ x ∧ x ≤ (hi : ℚ)
  let along (p d : Int) (t : ℚ) : ℚ := (p : ℚ) + (d : ℚ) * t
  let holds (b : Box) (p d : Vec3) (t : ℚ) : Prop :=
    between b.xlo b.xhi (along p.x d.x t) ∧ between b.ylo b.yhi (along p.y d.y t) ∧
      between b.zlo b.zhi (along p.z d.z t)
  (∀ (p q : Vec3) (b : Box),
    segmentMeets p q b = true ↔ ∃ t : ℚ, 0 ≤ t ∧ t ≤ 1 ∧ holds b p ⟨q.x - p.x, q.y - p.y, q.z - p.z⟩ t) ∧
  ∀ (f : Flight) (b : Box), 0 < f.dist →
    let inside (k : Nat) : Prop := holds b f.p0 f.delta ((k : ℚ) / (f.dist : ℚ))
    (match entryDistance f b with
    | some d => f.s ≤ d ∧ d ≤ f.dist ∧ inside d ∧ ∀ k, f.s ≤ k → k < d → ¬inside k
    | none => ∀ k, f.s ≤ k → k ≤ f.dist → ¬inside k) ∧
    (exactPointIn f b = true ↔ inside f.s)

/-- The field tests give the place of the first that fails, by the bounds of their rules: ZONE_ADD's six, ZONE_AMEND's four,
CUE_STORE's four and CUE_AMEND's three. SET_SPAN's twelve checks give the first that fails with its winch, 0 for a check that is
not per winch, check by check and winch by winch. The planning point of a queued move is the target of the newest queue entry,
or of the bottom context, or of the executing move, or else the fine position.
The numbers of the fields are the model's reading (log entry 7). -/
def Obligations.FieldTestsFollowTheirBounds : Prop :=
  let far (x : Int) : Prop := 262143 < x.natAbs
  let farPoint (p : Vec3) : Prop := far p.x ∨ far p.y ∨ far p.z
  let farBox (b : Box) : Prop := far b.xlo ∨ far b.xhi ∨ far b.ylo ∨ far b.yhi ∨ far b.zlo ∨ far b.zhi
  let flat (b : Box) : Prop := b.xhi ≤ b.xlo ∨ b.yhi ≤ b.ylo ∨ b.zhi ≤ b.zlo
  let first (o : Option Nat) (tests : List Prop) : Prop :=
    match o with
    | none => ∀ t ∈ tests, ¬t
    | some n => ∃ t, 0 < n ∧ tests[n - 1]? = some t ∧ t ∧ ∀ u ∈ tests.take (n - 1), ¬u
  (∀ f : ZoneAddFields,
    first (zoneAddBad f)
      [63 < f.id, f.kind ≠ 1 ∧ f.kind ≠ 2, farBox f.box, flat f.box,
        f.kind = 2 ∧ (f.cap = none ∨ f.cap = some 0) ∨ f.kind ≠ 2 ∧ f.cap ≠ none, f.lifetime = some 0]) ∧
  (∀ (z : Zone) (f : ZoneAmendFields),
    first (zoneAmendBad z f)
      [f.box = none ∧ f.cap = none ∧ f.lifetime = none, ∃ b, f.box = some b ∧ (farBox b ∨ flat b),
        f.cap = some 0 ∨ f.cap ≠ none ∧ z.isSlow = false,
        z.suspect = true ∧ (f.box = none ∨ f.lifetime = none ∨ z.isSlow = true ∧ f.cap = none)]) ∧
  (∀ f : CueStoreFields,
    first (cueStoreBad f)
      [95 < f.number, f.target ≠ none ∧ f.here = true ∨ f.target = none ∧ f.here = false,
        ∃ p, f.target = some p ∧ farPoint p, ∃ v, f.speed = some v ∧ (v = 0 ∨ 25000 < v)]) ∧
  (∀ f : CueAmendFields,
    first (cueAmendBad f)
      [f.target = none ∧ f.speed = none, ∃ p, f.target = some p ∧ farPoint p, ∃ v, f.speed = some v ∧ 25000 < v]) ∧
  (∀ sp : Span,
    let ofWinch (fails : WinchSpan → Prop) (c : Nat) : List (Prop × Nat × Nat) :=
      [Winch.w1, .w2, .w3, .w4].map fun w => (fails (sp.winch.get w), c, w.number)
    let farther (lo hi a x : Int) : Prop :=
      (x = lo ∨ x = hi) ∧ (a - lo).natAbs ≤ (a - x).natAbs ∧ (a - hi).natAbs ≤ (a - x).natAbs
    let nearest (lo hi a x : Int) : Prop := x = max lo (min hi a)
    let rope (ws : WinchSpan) (p : Vec3) : Nat := distance (toMicro ws.anchor) (toMicro p) + ws.offset * 1000
    let checks : List (Prop × Nat × Nat) :=
      [(farBox sp.w, 1, 0), (flat sp.w, 2, 0), (sp.w.xhi - sp.w.xlo < 16000 ∨ sp.w.yhi - sp.w.ylo < 12000, 3, 0)] ++
      ofWinch (fun ws => farPoint ws.anchor) 4 ++
      ofWinch (fun ws => 65535 < ws.offset ∨ 1073000 < ws.lmin ∨ 1073000 < ws.lmax ∨ ws.lmax ≤ ws.lmin) 5 ++
      ofWinch (fun ws => ws.scale ∉ [34, 36, 38, 40] ∨ 65535 < ws.compliance) 6 ++
      ofWinch (fun ws => ws.rate < 1 ∨ 50000 < ws.rate) 7 ++
      [(sp.top < 1 ∨ 25000 < sp.top ∨ sp.accel < 1 ∨ 64 < sp.accel ∨ sp.brakeAccel < sp.accel ∨ 128 < sp.brakeAccel ∨
        5000 < sp.clearance, 8, 0)] ++
      ofWinch (fun ws => ∃ c : Vec3, (c.x = sp.w.xlo ∨ c.x = sp.w.xhi) ∧ (c.y = sp.w.ylo ∨ c.y = sp.w.yhi) ∧
        (c.z = sp.w.zlo ∨ c.z = sp.w.zhi) ∧
        (far (c.x - ws.anchor.x) ∨ far (c.y - ws.anchor.y) ∨ far (c.z - ws.anchor.z))) 9 ++
      ofWinch (fun ws => ws.anchor.z < sp.w.zhi + 1000) 10 ++
      ofWinch (fun ws => ∃ c : Vec3, farther sp.w.xlo sp.w.xhi ws.anchor.x c.x ∧ farther sp.w.ylo sp.w.yhi ws.anchor.y c.y ∧
        farther sp.w.zlo sp.w.zhi ws.anchor.z c.z ∧ ws.lmax * 1000 < rope ws c) 11 ++
      ofWinch (fun ws => ∃ c : Vec3, nearest sp.w.xlo sp.w.xhi ws.anchor.x c.x ∧ nearest sp.w.ylo sp.w.yhi ws.anchor.y c.y ∧
        nearest sp.w.zlo sp.w.zhi ws.anchor.z c.z ∧ rope ws c < ws.lmin * 1000) 12
    match spanBad sp with
    | none => ∀ c ∈ checks, ¬c.1
    | some n => ∃ k fails, checks[k]? = some (fails, n) ∧ fails ∧ ∀ c ∈ checks.take k, ¬c.1) ∧
  ∀ (s : State) (p : Vec3), s.gen.pos = some p →
    (∀ m, s.gen.queue.getLast? = some m → planningPoint s = m.target) ∧
    (s.gen.queue = [] →
      (∀ c, s.gen.stack.getLast? = some c → planningPoint s = c.move.target) ∧
      (s.gen.stack = [] →
        let executing : Prop := s.gen.state = .moving ∨
          s.gen.state = .braking ∧ (s.gen.purpose = some .hold ∨ s.gen.purpose = some .priority)
        (∀ f, s.gen.flight = some f → executing → planningPoint s = f.move.target) ∧
        (s.gen.flight = none ∨ ¬executing → planningPoint s = p)))

/-- The integer root is the floor of the root, a distance is the nearest integer to the root of the sum of the squares, and the
braking distance is the sum of the speeds of the braking steps. -/
def Obligations.RootsAndBrakingDistances : Prop :=
  (∀ n : Nat, isqrt n = Nat.sqrt n) ∧
    (∀ p q : Vec3, let n := ((q.x - p.x) ^ 2 + (q.y - p.y) ^ 2 + (q.z - p.z) ^ 2).toNat
      4 * n < (2 * distance p q + 1) ^ 2 ∧ (0 < distance p q → (2 * distance p q - 1) ^ 2 < 4 * n)) ∧
    ∀ v ab : Nat, 0 < ab →
      brakingDistance v ab = ((List.range (v / ab)).map fun k => v - (k + 1) * ab).sum

end
end

