-- ==== Sys2Proof/Laws/State.lean ====
section
/-! SUPPORT. One lemma per field for each update of the state: what it leaves alone, and what it sets. All of them hold by
the definition of the update. -/

namespace Sys2Proof.Machine

/-! Updates of one block. -/

@[simp] theorem onGen_pending (f : Generator → Generator) (s : State) : (onGen f s).pending = s.pending := rfl
@[simp] theorem onGen_resetting (f : Generator → Generator) (s : State) : (onGen f s).resetting = s.resetting := rfl
@[simp] theorem onGen_console (f : Generator → Generator) (s : State) : (onGen f s).console = s.console := rfl
@[simp] theorem onGen_spanSet (f : Generator → Generator) (s : State) : (onGen f s).spanSet = s.spanSet := rfl
@[simp] theorem onGen_limits (f : Generator → Generator) (s : State) : (onGen f s).limits = s.limits := rfl
@[simp] theorem onGen_zones (f : Generator → Generator) (s : State) : (onGen f s).zones = s.zones := rfl
@[simp] theorem onGen_cells (f : Generator → Generator) (s : State) : (onGen f s).cells = s.cells := rfl
@[simp] theorem onGen_cues (f : Generator → Generator) (s : State) : (onGen f s).cues = s.cues := rfl
@[simp] theorem onGen_envelope (f : Generator → Generator) (s : State) : (onGen f s).envelope = s.envelope := rfl
@[simp] theorem onGen_lengths (f : Generator → Generator) (s : State) : (onGen f s).lengths = s.lengths := rfl
@[simp] theorem onGen_drive (f : Generator → Generator) (s : State) : (onGen f s).drive = s.drive := rfl
@[simp] theorem onGen_tension (f : Generator → Generator) (s : State) : (onGen f s).tension = s.tension := rfl
@[simp] theorem onGen_wear (f : Generator → Generator) (s : State) : (onGen f s).wear = s.wear := rfl
@[simp] theorem onGen_scrubber (f : Generator → Generator) (s : State) : (onGen f s).scrubber = s.scrubber := rfl
@[simp] theorem onGen_faults (f : Generator → Generator) (s : State) : (onGen f s).faults = s.faults := rfl
@[simp] theorem onGen_gen (f : Generator → Generator) (s : State) : (onGen f s).gen = f s.gen := rfl

@[simp] theorem onEnvelope_pending (f : Envelope → Envelope) (s : State) : (onEnvelope f s).pending = s.pending := rfl
@[simp] theorem onEnvelope_resetting (f : Envelope → Envelope) (s : State) : (onEnvelope f s).resetting = s.resetting := rfl
@[simp] theorem onEnvelope_console (f : Envelope → Envelope) (s : State) : (onEnvelope f s).console = s.console := rfl
@[simp] theorem onEnvelope_spanSet (f : Envelope → Envelope) (s : State) : (onEnvelope f s).spanSet = s.spanSet := rfl
@[simp] theorem onEnvelope_limits (f : Envelope → Envelope) (s : State) : (onEnvelope f s).limits = s.limits := rfl
@[simp] theorem onEnvelope_zones (f : Envelope → Envelope) (s : State) : (onEnvelope f s).zones = s.zones := rfl
@[simp] theorem onEnvelope_cells (f : Envelope → Envelope) (s : State) : (onEnvelope f s).cells = s.cells := rfl
@[simp] theorem onEnvelope_cues (f : Envelope → Envelope) (s : State) : (onEnvelope f s).cues = s.cues := rfl
@[simp] theorem onEnvelope_gen (f : Envelope → Envelope) (s : State) : (onEnvelope f s).gen = s.gen := rfl
@[simp] theorem onEnvelope_lengths (f : Envelope → Envelope) (s : State) : (onEnvelope f s).lengths = s.lengths := rfl
@[simp] theorem onEnvelope_drive (f : Envelope → Envelope) (s : State) : (onEnvelope f s).drive = s.drive := rfl
@[simp] theorem onEnvelope_tension (f : Envelope → Envelope) (s : State) : (onEnvelope f s).tension = s.tension := rfl
@[simp] theorem onEnvelope_wear (f : Envelope → Envelope) (s : State) : (onEnvelope f s).wear = s.wear := rfl
@[simp] theorem onEnvelope_scrubber (f : Envelope → Envelope) (s : State) : (onEnvelope f s).scrubber = s.scrubber := rfl
@[simp] theorem onEnvelope_faults (f : Envelope → Envelope) (s : State) : (onEnvelope f s).faults = s.faults := rfl
@[simp] theorem onEnvelope_envelope (f : Envelope → Envelope) (s : State) : (onEnvelope f s).envelope = f s.envelope := rfl

@[simp] theorem onZones_pending (f : ZoneTable → ZoneTable) (s : State) : (onZones f s).pending = s.pending := rfl
@[simp] theorem onZones_resetting (f : ZoneTable → ZoneTable) (s : State) : (onZones f s).resetting = s.resetting := rfl
@[simp] theorem onZones_console (f : ZoneTable → ZoneTable) (s : State) : (onZones f s).console = s.console := rfl
@[simp] theorem onZones_spanSet (f : ZoneTable → ZoneTable) (s : State) : (onZones f s).spanSet = s.spanSet := rfl
@[simp] theorem onZones_limits (f : ZoneTable → ZoneTable) (s : State) : (onZones f s).limits = s.limits := rfl
@[simp] theorem onZones_cells (f : ZoneTable → ZoneTable) (s : State) : (onZones f s).cells = s.cells := rfl
@[simp] theorem onZones_cues (f : ZoneTable → ZoneTable) (s : State) : (onZones f s).cues = s.cues := rfl
@[simp] theorem onZones_envelope (f : ZoneTable → ZoneTable) (s : State) : (onZones f s).envelope = s.envelope := rfl
@[simp] theorem onZones_gen (f : ZoneTable → ZoneTable) (s : State) : (onZones f s).gen = s.gen := rfl
@[simp] theorem onZones_lengths (f : ZoneTable → ZoneTable) (s : State) : (onZones f s).lengths = s.lengths := rfl
@[simp] theorem onZones_drive (f : ZoneTable → ZoneTable) (s : State) : (onZones f s).drive = s.drive := rfl
@[simp] theorem onZones_tension (f : ZoneTable → ZoneTable) (s : State) : (onZones f s).tension = s.tension := rfl
@[simp] theorem onZones_wear (f : ZoneTable → ZoneTable) (s : State) : (onZones f s).wear = s.wear := rfl
@[simp] theorem onZones_scrubber (f : ZoneTable → ZoneTable) (s : State) : (onZones f s).scrubber = s.scrubber := rfl
@[simp] theorem onZones_faults (f : ZoneTable → ZoneTable) (s : State) : (onZones f s).faults = s.faults := rfl
@[simp] theorem onZones_zones (f : ZoneTable → ZoneTable) (s : State) : (onZones f s).zones = f s.zones := rfl

@[simp] theorem onDrive_pending (f : DrivePort → DrivePort) (s : State) : (onDrive f s).pending = s.pending := rfl
@[simp] theorem onDrive_resetting (f : DrivePort → DrivePort) (s : State) : (onDrive f s).resetting = s.resetting := rfl
@[simp] theorem onDrive_console (f : DrivePort → DrivePort) (s : State) : (onDrive f s).console = s.console := rfl
@[simp] theorem onDrive_spanSet (f : DrivePort → DrivePort) (s : State) : (onDrive f s).spanSet = s.spanSet := rfl
@[simp] theorem onDrive_limits (f : DrivePort → DrivePort) (s : State) : (onDrive f s).limits = s.limits := rfl
@[simp] theorem onDrive_zones (f : DrivePort → DrivePort) (s : State) : (onDrive f s).zones = s.zones := rfl
@[simp] theorem onDrive_cells (f : DrivePort → DrivePort) (s : State) : (onDrive f s).cells = s.cells := rfl
@[simp] theorem onDrive_cues (f : DrivePort → DrivePort) (s : State) : (onDrive f s).cues = s.cues := rfl
@[simp] theorem onDrive_envelope (f : DrivePort → DrivePort) (s : State) : (onDrive f s).envelope = s.envelope := rfl
@[simp] theorem onDrive_gen (f : DrivePort → DrivePort) (s : State) : (onDrive f s).gen = s.gen := rfl
@[simp] theorem onDrive_lengths (f : DrivePort → DrivePort) (s : State) : (onDrive f s).lengths = s.lengths := rfl
@[simp] theorem onDrive_tension (f : DrivePort → DrivePort) (s : State) : (onDrive f s).tension = s.tension := rfl
@[simp] theorem onDrive_wear (f : DrivePort → DrivePort) (s : State) : (onDrive f s).wear = s.wear := rfl
@[simp] theorem onDrive_scrubber (f : DrivePort → DrivePort) (s : State) : (onDrive f s).scrubber = s.scrubber := rfl
@[simp] theorem onDrive_faults (f : DrivePort → DrivePort) (s : State) : (onDrive f s).faults = s.faults := rfl
@[simp] theorem onDrive_drive (f : DrivePort → DrivePort) (s : State) : (onDrive f s).drive = f s.drive := rfl

@[simp] theorem onChannel_pending (w : Winch) (f : Channel → Channel) (s : State) : (onChannel w f s).pending = s.pending := rfl
@[simp] theorem onChannel_resetting (w : Winch) (f : Channel → Channel) (s : State) : (onChannel w f s).resetting = s.resetting := rfl
@[simp] theorem onChannel_console (w : Winch) (f : Channel → Channel) (s : State) : (onChannel w f s).console = s.console := rfl
@[simp] theorem onChannel_spanSet (w : Winch) (f : Channel → Channel) (s : State) : (onChannel w f s).spanSet = s.spanSet := rfl
@[simp] theorem onChannel_limits (w : Winch) (f : Channel → Channel) (s : State) : (onChannel w f s).limits = s.limits := rfl
@[simp] theorem onChannel_zones (w : Winch) (f : Channel → Channel) (s : State) : (onChannel w f s).zones = s.zones := rfl
@[simp] theorem onChannel_cells (w : Winch) (f : Channel → Channel) (s : State) : (onChannel w f s).cells = s.cells := rfl
@[simp] theorem onChannel_cues (w : Winch) (f : Channel → Channel) (s : State) : (onChannel w f s).cues = s.cues := rfl
@[simp] theorem onChannel_envelope (w : Winch) (f : Channel → Channel) (s : State) : (onChannel w f s).envelope = s.envelope := rfl
@[simp] theorem onChannel_gen (w : Winch) (f : Channel → Channel) (s : State) : (onChannel w f s).gen = s.gen := rfl
@[simp] theorem onChannel_lengths (w : Winch) (f : Channel → Channel) (s : State) : (onChannel w f s).lengths = s.lengths := rfl
@[simp] theorem onChannel_tension (w : Winch) (f : Channel → Channel) (s : State) : (onChannel w f s).tension = s.tension := rfl
@[simp] theorem onChannel_wear (w : Winch) (f : Channel → Channel) (s : State) : (onChannel w f s).wear = s.wear := rfl
@[simp] theorem onChannel_scrubber (w : Winch) (f : Channel → Channel) (s : State) : (onChannel w f s).scrubber = s.scrubber := rfl
@[simp] theorem onChannel_faults (w : Winch) (f : Channel → Channel) (s : State) : (onChannel w f s).faults = s.faults := rfl
@[simp] theorem onChannel_drive (w : Winch) (f : Channel → Channel) (s : State) : (onChannel w f s).drive = { s.drive with channels := s.drive.channels.set w (f (s.drive.channels.get w)) } := rfl

@[simp] theorem onPort_pending (l : Link) (f : Port → Port) (s : State) : (onPort l f s).pending = s.pending := rfl
@[simp] theorem onPort_resetting (l : Link) (f : Port → Port) (s : State) : (onPort l f s).resetting = s.resetting := rfl
@[simp] theorem onPort_spanSet (l : Link) (f : Port → Port) (s : State) : (onPort l f s).spanSet = s.spanSet := rfl
@[simp] theorem onPort_limits (l : Link) (f : Port → Port) (s : State) : (onPort l f s).limits = s.limits := rfl
@[simp] theorem onPort_zones (l : Link) (f : Port → Port) (s : State) : (onPort l f s).zones = s.zones := rfl
@[simp] theorem onPort_cells (l : Link) (f : Port → Port) (s : State) : (onPort l f s).cells = s.cells := rfl
@[simp] theorem onPort_cues (l : Link) (f : Port → Port) (s : State) : (onPort l f s).cues = s.cues := rfl
@[simp] theorem onPort_envelope (l : Link) (f : Port → Port) (s : State) : (onPort l f s).envelope = s.envelope := rfl
@[simp] theorem onPort_gen (l : Link) (f : Port → Port) (s : State) : (onPort l f s).gen = s.gen := rfl
@[simp] theorem onPort_lengths (l : Link) (f : Port → Port) (s : State) : (onPort l f s).lengths = s.lengths := rfl
@[simp] theorem onPort_drive (l : Link) (f : Port → Port) (s : State) : (onPort l f s).drive = s.drive := rfl
@[simp] theorem onPort_tension (l : Link) (f : Port → Port) (s : State) : (onPort l f s).tension = s.tension := rfl
@[simp] theorem onPort_wear (l : Link) (f : Port → Port) (s : State) : (onPort l f s).wear = s.wear := rfl
@[simp] theorem onPort_scrubber (l : Link) (f : Port → Port) (s : State) : (onPort l f s).scrubber = s.scrubber := rfl
@[simp] theorem onPort_faults (l : Link) (f : Port → Port) (s : State) : (onPort l f s).faults = s.faults := rfl
@[simp] theorem onPort_console (l : Link) (f : Port → Port) (s : State) : (onPort l f s).console = s.console.setPort l (f (s.console.port l)) := rfl

@[simp] theorem putZone_pending (i : Nat) (z : Option Zone) (s : State) : (putZone i z s).pending = s.pending := rfl
@[simp] theorem putZone_resetting (i : Nat) (z : Option Zone) (s : State) : (putZone i z s).resetting = s.resetting := rfl
@[simp] theorem putZone_console (i : Nat) (z : Option Zone) (s : State) : (putZone i z s).console = s.console := rfl
@[simp] theorem putZone_spanSet (i : Nat) (z : Option Zone) (s : State) : (putZone i z s).spanSet = s.spanSet := rfl
@[simp] theorem putZone_limits (i : Nat) (z : Option Zone) (s : State) : (putZone i z s).limits = s.limits := rfl
@[simp] theorem putZone_cells (i : Nat) (z : Option Zone) (s : State) : (putZone i z s).cells = s.cells := rfl
@[simp] theorem putZone_cues (i : Nat) (z : Option Zone) (s : State) : (putZone i z s).cues = s.cues := rfl
@[simp] theorem putZone_envelope (i : Nat) (z : Option Zone) (s : State) : (putZone i z s).envelope = s.envelope := rfl
@[simp] theorem putZone_gen (i : Nat) (z : Option Zone) (s : State) : (putZone i z s).gen = s.gen := rfl
@[simp] theorem putZone_lengths (i : Nat) (z : Option Zone) (s : State) : (putZone i z s).lengths = s.lengths := rfl
@[simp] theorem putZone_drive (i : Nat) (z : Option Zone) (s : State) : (putZone i z s).drive = s.drive := rfl
@[simp] theorem putZone_tension (i : Nat) (z : Option Zone) (s : State) : (putZone i z s).tension = s.tension := rfl
@[simp] theorem putZone_wear (i : Nat) (z : Option Zone) (s : State) : (putZone i z s).wear = s.wear := rfl
@[simp] theorem putZone_scrubber (i : Nat) (z : Option Zone) (s : State) : (putZone i z s).scrubber = s.scrubber := rfl
@[simp] theorem putZone_faults (i : Nat) (z : Option Zone) (s : State) : (putZone i z s).faults = s.faults := rfl
@[simp] theorem putZone_zones (i : Nat) (z : Option Zone) (s : State) : (putZone i z s).zones = { s.zones with slots := s.zones.slots.setIfInBounds i ⟨z, zoneCheck i z⟩ } := rfl

@[simp] theorem putCue_pending (n : Nat) (c : Option Cue) (s : State) : (putCue n c s).pending = s.pending := rfl
@[simp] theorem putCue_resetting (n : Nat) (c : Option Cue) (s : State) : (putCue n c s).resetting = s.resetting := rfl
@[simp] theorem putCue_console (n : Nat) (c : Option Cue) (s : State) : (putCue n c s).console = s.console := rfl
@[simp] theorem putCue_spanSet (n : Nat) (c : Option Cue) (s : State) : (putCue n c s).spanSet = s.spanSet := rfl
@[simp] theorem putCue_limits (n : Nat) (c : Option Cue) (s : State) : (putCue n c s).limits = s.limits := rfl
@[simp] theorem putCue_zones (n : Nat) (c : Option Cue) (s : State) : (putCue n c s).zones = s.zones := rfl
@[simp] theorem putCue_cells (n : Nat) (c : Option Cue) (s : State) : (putCue n c s).cells = s.cells := rfl
@[simp] theorem putCue_envelope (n : Nat) (c : Option Cue) (s : State) : (putCue n c s).envelope = s.envelope := rfl
@[simp] theorem putCue_gen (n : Nat) (c : Option Cue) (s : State) : (putCue n c s).gen = s.gen := rfl
@[simp] theorem putCue_lengths (n : Nat) (c : Option Cue) (s : State) : (putCue n c s).lengths = s.lengths := rfl
@[simp] theorem putCue_drive (n : Nat) (c : Option Cue) (s : State) : (putCue n c s).drive = s.drive := rfl
@[simp] theorem putCue_tension (n : Nat) (c : Option Cue) (s : State) : (putCue n c s).tension = s.tension := rfl
@[simp] theorem putCue_wear (n : Nat) (c : Option Cue) (s : State) : (putCue n c s).wear = s.wear := rfl
@[simp] theorem putCue_scrubber (n : Nat) (c : Option Cue) (s : State) : (putCue n c s).scrubber = s.scrubber := rfl
@[simp] theorem putCue_faults (n : Nat) (c : Option Cue) (s : State) : (putCue n c s).faults = s.faults := rfl
@[simp] theorem putCue_cues (n : Nat) (c : Option Cue) (s : State) : (putCue n c s).cues = s.cues.setIfInBounds n ⟨c, cueCheck n c⟩ := rfl

@[simp] theorem putCell_pending (n : Nat) (ids : List Nat) (c : CellCondition) (s : State) : (putCell n ids c s).pending = s.pending := rfl
@[simp] theorem putCell_resetting (n : Nat) (ids : List Nat) (c : CellCondition) (s : State) : (putCell n ids c s).resetting = s.resetting := rfl
@[simp] theorem putCell_console (n : Nat) (ids : List Nat) (c : CellCondition) (s : State) : (putCell n ids c s).console = s.console := rfl
@[simp] theorem putCell_spanSet (n : Nat) (ids : List Nat) (c : CellCondition) (s : State) : (putCell n ids c s).spanSet = s.spanSet := rfl
@[simp] theorem putCell_limits (n : Nat) (ids : List Nat) (c : CellCondition) (s : State) : (putCell n ids c s).limits = s.limits := rfl
@[simp] theorem putCell_zones (n : Nat) (ids : List Nat) (c : CellCondition) (s : State) : (putCell n ids c s).zones = s.zones := rfl
@[simp] theorem putCell_cues (n : Nat) (ids : List Nat) (c : CellCondition) (s : State) : (putCell n ids c s).cues = s.cues := rfl
@[simp] theorem putCell_envelope (n : Nat) (ids : List Nat) (c : CellCondition) (s : State) : (putCell n ids c s).envelope = s.envelope := rfl
@[simp] theorem putCell_gen (n : Nat) (ids : List Nat) (c : CellCondition) (s : State) : (putCell n ids c s).gen = s.gen := rfl
@[simp] theorem putCell_lengths (n : Nat) (ids : List Nat) (c : CellCondition) (s : State) : (putCell n ids c s).lengths = s.lengths := rfl
@[simp] theorem putCell_drive (n : Nat) (ids : List Nat) (c : CellCondition) (s : State) : (putCell n ids c s).drive = s.drive := rfl
@[simp] theorem putCell_tension (n : Nat) (ids : List Nat) (c : CellCondition) (s : State) : (putCell n ids c s).tension = s.tension := rfl
@[simp] theorem putCell_wear (n : Nat) (ids : List Nat) (c : CellCondition) (s : State) : (putCell n ids c s).wear = s.wear := rfl
@[simp] theorem putCell_scrubber (n : Nat) (ids : List Nat) (c : CellCondition) (s : State) : (putCell n ids c s).scrubber = s.scrubber := rfl
@[simp] theorem putCell_faults (n : Nat) (ids : List Nat) (c : CellCondition) (s : State) : (putCell n ids c s).faults = s.faults := rfl
@[simp] theorem putCell_cells (n : Nat) (ids : List Nat) (c : CellCondition) (s : State) : (putCell n ids c s).cells = s.cells.setIfInBounds n ⟨ids, cellCheck ids, c⟩ := rfl

/-! Updates that look at the slot they change. -/

@[simp] theorem setZoneState_pending (i : Nat) (st : ZoneState) (s : State) : (setZoneState i st s).pending = s.pending := by unfold setZoneState; split <;> rfl
@[simp] theorem setZoneState_resetting (i : Nat) (st : ZoneState) (s : State) : (setZoneState i st s).resetting = s.resetting := by unfold setZoneState; split <;> rfl
@[simp] theorem setZoneState_console (i : Nat) (st : ZoneState) (s : State) : (setZoneState i st s).console = s.console := by unfold setZoneState; split <;> rfl
@[simp] theorem setZoneState_spanSet (i : Nat) (st : ZoneState) (s : State) : (setZoneState i st s).spanSet = s.spanSet := by unfold setZoneState; split <;> rfl
@[simp] theorem setZoneState_limits (i : Nat) (st : ZoneState) (s : State) : (setZoneState i st s).limits = s.limits := by unfold setZoneState; split <;> rfl
@[simp] theorem setZoneState_cells (i : Nat) (st : ZoneState) (s : State) : (setZoneState i st s).cells = s.cells := by unfold setZoneState; split <;> rfl
@[simp] theorem setZoneState_cues (i : Nat) (st : ZoneState) (s : State) : (setZoneState i st s).cues = s.cues := by unfold setZoneState; split <;> rfl
@[simp] theorem setZoneState_envelope (i : Nat) (st : ZoneState) (s : State) : (setZoneState i st s).envelope = s.envelope := by unfold setZoneState; split <;> rfl
@[simp] theorem setZoneState_gen (i : Nat) (st : ZoneState) (s : State) : (setZoneState i st s).gen = s.gen := by unfold setZoneState; split <;> rfl
@[simp] theorem setZoneState_lengths (i : Nat) (st : ZoneState) (s : State) : (setZoneState i st s).lengths = s.lengths := by unfold setZoneState; split <;> rfl
@[simp] theorem setZoneState_drive (i : Nat) (st : ZoneState) (s : State) : (setZoneState i st s).drive = s.drive := by unfold setZoneState; split <;> rfl
@[simp] theorem setZoneState_tension (i : Nat) (st : ZoneState) (s : State) : (setZoneState i st s).tension = s.tension := by unfold setZoneState; split <;> rfl
@[simp] theorem setZoneState_wear (i : Nat) (st : ZoneState) (s : State) : (setZoneState i st s).wear = s.wear := by unfold setZoneState; split <;> rfl
@[simp] theorem setZoneState_scrubber (i : Nat) (st : ZoneState) (s : State) : (setZoneState i st s).scrubber = s.scrubber := by unfold setZoneState; split <;> rfl
@[simp] theorem setZoneState_faults (i : Nat) (st : ZoneState) (s : State) : (setZoneState i st s).faults = s.faults := by unfold setZoneState; split <;> rfl

@[simp] theorem setBlocked_pending (n : Nat) (b : Bool) (s : State) : (setBlocked n b s).pending = s.pending := by unfold setBlocked; split <;> rfl
@[simp] theorem setBlocked_resetting (n : Nat) (b : Bool) (s : State) : (setBlocked n b s).resetting = s.resetting := by unfold setBlocked; split <;> rfl
@[simp] theorem setBlocked_console (n : Nat) (b : Bool) (s : State) : (setBlocked n b s).console = s.console := by unfold setBlocked; split <;> rfl
@[simp] theorem setBlocked_spanSet (n : Nat) (b : Bool) (s : State) : (setBlocked n b s).spanSet = s.spanSet := by unfold setBlocked; split <;> rfl
@[simp] theorem setBlocked_limits (n : Nat) (b : Bool) (s : State) : (setBlocked n b s).limits = s.limits := by unfold setBlocked; split <;> rfl
@[simp] theorem setBlocked_zones (n : Nat) (b : Bool) (s : State) : (setBlocked n b s).zones = s.zones := by unfold setBlocked; split <;> rfl
@[simp] theorem setBlocked_cells (n : Nat) (b : Bool) (s : State) : (setBlocked n b s).cells = s.cells := by unfold setBlocked; split <;> rfl
@[simp] theorem setBlocked_envelope (n : Nat) (b : Bool) (s : State) : (setBlocked n b s).envelope = s.envelope := by unfold setBlocked; split <;> rfl
@[simp] theorem setBlocked_gen (n : Nat) (b : Bool) (s : State) : (setBlocked n b s).gen = s.gen := by unfold setBlocked; split <;> rfl
@[simp] theorem setBlocked_lengths (n : Nat) (b : Bool) (s : State) : (setBlocked n b s).lengths = s.lengths := by unfold setBlocked; split <;> rfl
@[simp] theorem setBlocked_drive (n : Nat) (b : Bool) (s : State) : (setBlocked n b s).drive = s.drive := by unfold setBlocked; split <;> rfl
@[simp] theorem setBlocked_tension (n : Nat) (b : Bool) (s : State) : (setBlocked n b s).tension = s.tension := by unfold setBlocked; split <;> rfl
@[simp] theorem setBlocked_wear (n : Nat) (b : Bool) (s : State) : (setBlocked n b s).wear = s.wear := by unfold setBlocked; split <;> rfl
@[simp] theorem setBlocked_scrubber (n : Nat) (b : Bool) (s : State) : (setBlocked n b s).scrubber = s.scrubber := by unfold setBlocked; split <;> rfl
@[simp] theorem setBlocked_faults (n : Nat) (b : Bool) (s : State) : (setBlocked n b s).faults = s.faults := by unfold setBlocked; split <;> rfl

@[simp] theorem setCond_pending (n : Nat) (c : CellCondition) (s : State) : (setCond n c s).pending = s.pending := by unfold setCond; split <;> rfl
@[simp] theorem setCond_resetting (n : Nat) (c : CellCondition) (s : State) : (setCond n c s).resetting = s.resetting := by unfold setCond; split <;> rfl
@[simp] theorem setCond_console (n : Nat) (c : CellCondition) (s : State) : (setCond n c s).console = s.console := by unfold setCond; split <;> rfl
@[simp] theorem setCond_spanSet (n : Nat) (c : CellCondition) (s : State) : (setCond n c s).spanSet = s.spanSet := by unfold setCond; split <;> rfl
@[simp] theorem setCond_limits (n : Nat) (c : CellCondition) (s : State) : (setCond n c s).limits = s.limits := by unfold setCond; split <;> rfl
@[simp] theorem setCond_zones (n : Nat) (c : CellCondition) (s : State) : (setCond n c s).zones = s.zones := by unfold setCond; split <;> rfl
@[simp] theorem setCond_cues (n : Nat) (c : CellCondition) (s : State) : (setCond n c s).cues = s.cues := by unfold setCond; split <;> rfl
@[simp] theorem setCond_envelope (n : Nat) (c : CellCondition) (s : State) : (setCond n c s).envelope = s.envelope := by unfold setCond; split <;> rfl
@[simp] theorem setCond_gen (n : Nat) (c : CellCondition) (s : State) : (setCond n c s).gen = s.gen := by unfold setCond; split <;> rfl
@[simp] theorem setCond_lengths (n : Nat) (c : CellCondition) (s : State) : (setCond n c s).lengths = s.lengths := by unfold setCond; split <;> rfl
@[simp] theorem setCond_drive (n : Nat) (c : CellCondition) (s : State) : (setCond n c s).drive = s.drive := by unfold setCond; split <;> rfl
@[simp] theorem setCond_tension (n : Nat) (c : CellCondition) (s : State) : (setCond n c s).tension = s.tension := by unfold setCond; split <;> rfl
@[simp] theorem setCond_wear (n : Nat) (c : CellCondition) (s : State) : (setCond n c s).wear = s.wear := by unfold setCond; split <;> rfl
@[simp] theorem setCond_scrubber (n : Nat) (c : CellCondition) (s : State) : (setCond n c s).scrubber = s.scrubber := by unfold setCond; split <;> rfl
@[simp] theorem setCond_faults (n : Nat) (c : CellCondition) (s : State) : (setCond n c s).faults = s.faults := by unfold setCond; split <;> rfl

@[simp] theorem writeCell_pending (n : Nat) (ids : List Nat) (s : State) : (writeCell n ids s).pending = s.pending := by unfold writeCell; split <;> rfl
@[simp] theorem writeCell_resetting (n : Nat) (ids : List Nat) (s : State) : (writeCell n ids s).resetting = s.resetting := by unfold writeCell; split <;> rfl
@[simp] theorem writeCell_console (n : Nat) (ids : List Nat) (s : State) : (writeCell n ids s).console = s.console := by unfold writeCell; split <;> rfl
@[simp] theorem writeCell_spanSet (n : Nat) (ids : List Nat) (s : State) : (writeCell n ids s).spanSet = s.spanSet := by unfold writeCell; split <;> rfl
@[simp] theorem writeCell_limits (n : Nat) (ids : List Nat) (s : State) : (writeCell n ids s).limits = s.limits := by unfold writeCell; split <;> rfl
@[simp] theorem writeCell_zones (n : Nat) (ids : List Nat) (s : State) : (writeCell n ids s).zones = s.zones := by unfold writeCell; split <;> rfl
@[simp] theorem writeCell_cues (n : Nat) (ids : List Nat) (s : State) : (writeCell n ids s).cues = s.cues := by unfold writeCell; split <;> rfl
@[simp] theorem writeCell_envelope (n : Nat) (ids : List Nat) (s : State) : (writeCell n ids s).envelope = s.envelope := by unfold writeCell; split <;> rfl
@[simp] theorem writeCell_gen (n : Nat) (ids : List Nat) (s : State) : (writeCell n ids s).gen = s.gen := by unfold writeCell; split <;> rfl
@[simp] theorem writeCell_lengths (n : Nat) (ids : List Nat) (s : State) : (writeCell n ids s).lengths = s.lengths := by unfold writeCell; split <;> rfl
@[simp] theorem writeCell_drive (n : Nat) (ids : List Nat) (s : State) : (writeCell n ids s).drive = s.drive := by unfold writeCell; split <;> rfl
@[simp] theorem writeCell_tension (n : Nat) (ids : List Nat) (s : State) : (writeCell n ids s).tension = s.tension := by unfold writeCell; split <;> rfl
@[simp] theorem writeCell_wear (n : Nat) (ids : List Nat) (s : State) : (writeCell n ids s).wear = s.wear := by unfold writeCell; split <;> rfl
@[simp] theorem writeCell_scrubber (n : Nat) (ids : List Nat) (s : State) : (writeCell n ids s).scrubber = s.scrubber := by unfold writeCell; split <;> rfl
@[simp] theorem writeCell_faults (n : Nat) (ids : List Nat) (s : State) : (writeCell n ids s).faults = s.faults := by unfold writeCell; split <;> rfl

@[simp] theorem giveOrder_pending (o : Order) (s : State) : (giveOrder o s).pending = s.pending := by cases o <;> rfl
@[simp] theorem giveOrder_resetting (o : Order) (s : State) : (giveOrder o s).resetting = s.resetting := by cases o <;> rfl
@[simp] theorem giveOrder_console (o : Order) (s : State) : (giveOrder o s).console = s.console := by cases o <;> rfl
@[simp] theorem giveOrder_spanSet (o : Order) (s : State) : (giveOrder o s).spanSet = s.spanSet := by cases o <;> rfl
@[simp] theorem giveOrder_limits (o : Order) (s : State) : (giveOrder o s).limits = s.limits := by cases o <;> rfl
@[simp] theorem giveOrder_zones (o : Order) (s : State) : (giveOrder o s).zones = s.zones := by cases o <;> rfl
@[simp] theorem giveOrder_cells (o : Order) (s : State) : (giveOrder o s).cells = s.cells := by cases o <;> rfl
@[simp] theorem giveOrder_cues (o : Order) (s : State) : (giveOrder o s).cues = s.cues := by cases o <;> rfl
@[simp] theorem giveOrder_envelope (o : Order) (s : State) : (giveOrder o s).envelope = s.envelope := by cases o <;> rfl
@[simp] theorem giveOrder_lengths (o : Order) (s : State) : (giveOrder o s).lengths = s.lengths := by cases o <;> rfl
@[simp] theorem giveOrder_drive (o : Order) (s : State) : (giveOrder o s).drive = s.drive := by cases o <;> rfl
@[simp] theorem giveOrder_tension (o : Order) (s : State) : (giveOrder o s).tension = s.tension := by cases o <;> rfl
@[simp] theorem giveOrder_wear (o : Order) (s : State) : (giveOrder o s).wear = s.wear := by cases o <;> rfl
@[simp] theorem giveOrder_scrubber (o : Order) (s : State) : (giveOrder o s).scrubber = s.scrubber := by cases o <;> rfl
@[simp] theorem giveOrder_faults (o : Order) (s : State) : (giveOrder o s).faults = s.faults := by cases o <;> rfl

@[simp] theorem raiseFlag_pending (f : EventFlag) (a b : Nat) (s : State) : (raiseFlag f a b s).pending = s.pending := by unfold raiseFlag; split <;> rfl
@[simp] theorem raiseFlag_resetting (f : EventFlag) (a b : Nat) (s : State) : (raiseFlag f a b s).resetting = s.resetting := by unfold raiseFlag; split <;> rfl
@[simp] theorem raiseFlag_spanSet (f : EventFlag) (a b : Nat) (s : State) : (raiseFlag f a b s).spanSet = s.spanSet := by unfold raiseFlag; split <;> rfl
@[simp] theorem raiseFlag_limits (f : EventFlag) (a b : Nat) (s : State) : (raiseFlag f a b s).limits = s.limits := by unfold raiseFlag; split <;> rfl
@[simp] theorem raiseFlag_zones (f : EventFlag) (a b : Nat) (s : State) : (raiseFlag f a b s).zones = s.zones := by unfold raiseFlag; split <;> rfl
@[simp] theorem raiseFlag_cells (f : EventFlag) (a b : Nat) (s : State) : (raiseFlag f a b s).cells = s.cells := by unfold raiseFlag; split <;> rfl
@[simp] theorem raiseFlag_cues (f : EventFlag) (a b : Nat) (s : State) : (raiseFlag f a b s).cues = s.cues := by unfold raiseFlag; split <;> rfl
@[simp] theorem raiseFlag_envelope (f : EventFlag) (a b : Nat) (s : State) : (raiseFlag f a b s).envelope = s.envelope := by unfold raiseFlag; split <;> rfl
@[simp] theorem raiseFlag_gen (f : EventFlag) (a b : Nat) (s : State) : (raiseFlag f a b s).gen = s.gen := by unfold raiseFlag; split <;> rfl
@[simp] theorem raiseFlag_lengths (f : EventFlag) (a b : Nat) (s : State) : (raiseFlag f a b s).lengths = s.lengths := by unfold raiseFlag; split <;> rfl
@[simp] theorem raiseFlag_drive (f : EventFlag) (a b : Nat) (s : State) : (raiseFlag f a b s).drive = s.drive := by unfold raiseFlag; split <;> rfl
@[simp] theorem raiseFlag_tension (f : EventFlag) (a b : Nat) (s : State) : (raiseFlag f a b s).tension = s.tension := by unfold raiseFlag; split <;> rfl
@[simp] theorem raiseFlag_wear (f : EventFlag) (a b : Nat) (s : State) : (raiseFlag f a b s).wear = s.wear := by unfold raiseFlag; split <;> rfl
@[simp] theorem raiseFlag_scrubber (f : EventFlag) (a b : Nat) (s : State) : (raiseFlag f a b s).scrubber = s.scrubber := by unfold raiseFlag; split <;> rfl
@[simp] theorem raiseFlag_faults (f : EventFlag) (a b : Nat) (s : State) : (raiseFlag f a b s).faults = s.faults := by unfold raiseFlag; split <;> rfl

@[simp] theorem putOut_pending (s : State) (o : Out) : (putOut s o).pending = s.pending := by cases o <;> simp [putOut]
@[simp] theorem putOut_resetting (s : State) (o : Out) : (putOut s o).resetting = s.resetting := by cases o <;> simp [putOut]
@[simp] theorem putOut_spanSet (s : State) (o : Out) : (putOut s o).spanSet = s.spanSet := by cases o <;> simp [putOut]
@[simp] theorem putOut_limits (s : State) (o : Out) : (putOut s o).limits = s.limits := by cases o <;> simp [putOut]
@[simp] theorem putOut_zones (s : State) (o : Out) : (putOut s o).zones = s.zones := by cases o <;> simp [putOut]
@[simp] theorem putOut_cells (s : State) (o : Out) : (putOut s o).cells = s.cells := by cases o <;> simp [putOut]
@[simp] theorem putOut_cues (s : State) (o : Out) : (putOut s o).cues = s.cues := by cases o <;> simp [putOut]
@[simp] theorem putOut_envelope (s : State) (o : Out) : (putOut s o).envelope = s.envelope := by cases o <;> simp [putOut]
@[simp] theorem putOut_gen (s : State) (o : Out) : (putOut s o).gen = s.gen := by cases o <;> simp [putOut]
@[simp] theorem putOut_lengths (s : State) (o : Out) : (putOut s o).lengths = s.lengths := by cases o <;> simp [putOut]
@[simp] theorem putOut_drive (s : State) (o : Out) : (putOut s o).drive = s.drive := by cases o <;> simp [putOut]
@[simp] theorem putOut_tension (s : State) (o : Out) : (putOut s o).tension = s.tension := by cases o <;> simp [putOut]
@[simp] theorem putOut_wear (s : State) (o : Out) : (putOut s o).wear = s.wear := by cases o <;> simp [putOut]
@[simp] theorem putOut_scrubber (s : State) (o : Out) : (putOut s o).scrubber = s.scrubber := by cases o <;> simp [putOut]
@[simp] theorem putOut_faults (s : State) (o : Out) : (putOut s o).faults = s.faults := by cases o <;> simp [putOut]

/-! Updates built from others. -/

@[simp] theorem dropArm_pending (i : Nat) (s : State) : (dropArm i s).pending = s.pending := rfl
@[simp] theorem dropArm_resetting (i : Nat) (s : State) : (dropArm i s).resetting = s.resetting := rfl
@[simp] theorem dropArm_console (i : Nat) (s : State) : (dropArm i s).console = s.console := rfl
@[simp] theorem dropArm_spanSet (i : Nat) (s : State) : (dropArm i s).spanSet = s.spanSet := rfl
@[simp] theorem dropArm_limits (i : Nat) (s : State) : (dropArm i s).limits = s.limits := rfl
@[simp] theorem dropArm_zones (i : Nat) (s : State) : (dropArm i s).zones = s.zones := rfl
@[simp] theorem dropArm_cells (i : Nat) (s : State) : (dropArm i s).cells = s.cells := rfl
@[simp] theorem dropArm_cues (i : Nat) (s : State) : (dropArm i s).cues = s.cues := rfl
@[simp] theorem dropArm_gen (i : Nat) (s : State) : (dropArm i s).gen = s.gen := rfl
@[simp] theorem dropArm_lengths (i : Nat) (s : State) : (dropArm i s).lengths = s.lengths := rfl
@[simp] theorem dropArm_drive (i : Nat) (s : State) : (dropArm i s).drive = s.drive := rfl
@[simp] theorem dropArm_tension (i : Nat) (s : State) : (dropArm i s).tension = s.tension := rfl
@[simp] theorem dropArm_wear (i : Nat) (s : State) : (dropArm i s).wear = s.wear := rfl
@[simp] theorem dropArm_scrubber (i : Nat) (s : State) : (dropArm i s).scrubber = s.scrubber := rfl
@[simp] theorem dropArm_faults (i : Nat) (s : State) : (dropArm i s).faults = s.faults := rfl

@[simp] theorem addArm_pending (i : Nat) (c : ArmCond) (s : State) : (addArm i c s).pending = s.pending := rfl
@[simp] theorem addArm_resetting (i : Nat) (c : ArmCond) (s : State) : (addArm i c s).resetting = s.resetting := rfl
@[simp] theorem addArm_console (i : Nat) (c : ArmCond) (s : State) : (addArm i c s).console = s.console := rfl
@[simp] theorem addArm_spanSet (i : Nat) (c : ArmCond) (s : State) : (addArm i c s).spanSet = s.spanSet := rfl
@[simp] theorem addArm_limits (i : Nat) (c : ArmCond) (s : State) : (addArm i c s).limits = s.limits := rfl
@[simp] theorem addArm_zones (i : Nat) (c : ArmCond) (s : State) : (addArm i c s).zones = s.zones := rfl
@[simp] theorem addArm_cells (i : Nat) (c : ArmCond) (s : State) : (addArm i c s).cells = s.cells := rfl
@[simp] theorem addArm_cues (i : Nat) (c : ArmCond) (s : State) : (addArm i c s).cues = s.cues := rfl
@[simp] theorem addArm_gen (i : Nat) (c : ArmCond) (s : State) : (addArm i c s).gen = s.gen := rfl
@[simp] theorem addArm_lengths (i : Nat) (c : ArmCond) (s : State) : (addArm i c s).lengths = s.lengths := rfl
@[simp] theorem addArm_drive (i : Nat) (c : ArmCond) (s : State) : (addArm i c s).drive = s.drive := rfl
@[simp] theorem addArm_tension (i : Nat) (c : ArmCond) (s : State) : (addArm i c s).tension = s.tension := rfl
@[simp] theorem addArm_wear (i : Nat) (c : ArmCond) (s : State) : (addArm i c s).wear = s.wear := rfl
@[simp] theorem addArm_scrubber (i : Nat) (c : ArmCond) (s : State) : (addArm i c s).scrubber = s.scrubber := rfl
@[simp] theorem addArm_faults (i : Nat) (c : ArmCond) (s : State) : (addArm i c s).faults = s.faults := rfl

@[simp] theorem flyMove_pending (m : Move) (s : State) : (flyMove m s).pending = s.pending := rfl
@[simp] theorem flyMove_resetting (m : Move) (s : State) : (flyMove m s).resetting = s.resetting := rfl
@[simp] theorem flyMove_console (m : Move) (s : State) : (flyMove m s).console = s.console := rfl
@[simp] theorem flyMove_spanSet (m : Move) (s : State) : (flyMove m s).spanSet = s.spanSet := rfl
@[simp] theorem flyMove_limits (m : Move) (s : State) : (flyMove m s).limits = s.limits := rfl
@[simp] theorem flyMove_zones (m : Move) (s : State) : (flyMove m s).zones = s.zones := rfl
@[simp] theorem flyMove_cells (m : Move) (s : State) : (flyMove m s).cells = s.cells := rfl
@[simp] theorem flyMove_cues (m : Move) (s : State) : (flyMove m s).cues = s.cues := rfl
@[simp] theorem flyMove_envelope (m : Move) (s : State) : (flyMove m s).envelope = s.envelope := rfl
@[simp] theorem flyMove_lengths (m : Move) (s : State) : (flyMove m s).lengths = s.lengths := rfl
@[simp] theorem flyMove_drive (m : Move) (s : State) : (flyMove m s).drive = s.drive := rfl
@[simp] theorem flyMove_tension (m : Move) (s : State) : (flyMove m s).tension = s.tension := rfl
@[simp] theorem flyMove_wear (m : Move) (s : State) : (flyMove m s).wear = s.wear := rfl
@[simp] theorem flyMove_scrubber (m : Move) (s : State) : (flyMove m s).scrubber = s.scrubber := rfl
@[simp] theorem flyMove_faults (m : Move) (s : State) : (flyMove m s).faults = s.faults := rfl

@[simp] theorem restIn_pending (g : GenState) (s : State) : (restIn g s).pending = s.pending := rfl
@[simp] theorem restIn_resetting (g : GenState) (s : State) : (restIn g s).resetting = s.resetting := rfl
@[simp] theorem restIn_console (g : GenState) (s : State) : (restIn g s).console = s.console := rfl
@[simp] theorem restIn_spanSet (g : GenState) (s : State) : (restIn g s).spanSet = s.spanSet := rfl
@[simp] theorem restIn_limits (g : GenState) (s : State) : (restIn g s).limits = s.limits := rfl
@[simp] theorem restIn_zones (g : GenState) (s : State) : (restIn g s).zones = s.zones := rfl
@[simp] theorem restIn_cells (g : GenState) (s : State) : (restIn g s).cells = s.cells := rfl
@[simp] theorem restIn_cues (g : GenState) (s : State) : (restIn g s).cues = s.cues := rfl
@[simp] theorem restIn_envelope (g : GenState) (s : State) : (restIn g s).envelope = s.envelope := rfl
@[simp] theorem restIn_lengths (g : GenState) (s : State) : (restIn g s).lengths = s.lengths := rfl
@[simp] theorem restIn_drive (g : GenState) (s : State) : (restIn g s).drive = s.drive := rfl
@[simp] theorem restIn_tension (g : GenState) (s : State) : (restIn g s).tension = s.tension := rfl
@[simp] theorem restIn_wear (g : GenState) (s : State) : (restIn g s).wear = s.wear := rfl
@[simp] theorem restIn_scrubber (g : GenState) (s : State) : (restIn g s).scrubber = s.scrubber := rfl
@[simp] theorem restIn_faults (g : GenState) (s : State) : (restIn g s).faults = s.faults := rfl

@[simp] theorem clearFlight_pending (s : State) : (clearFlight s).pending = s.pending := rfl
@[simp] theorem clearFlight_resetting (s : State) : (clearFlight s).resetting = s.resetting := rfl
@[simp] theorem clearFlight_console (s : State) : (clearFlight s).console = s.console := rfl
@[simp] theorem clearFlight_spanSet (s : State) : (clearFlight s).spanSet = s.spanSet := rfl
@[simp] theorem clearFlight_limits (s : State) : (clearFlight s).limits = s.limits := rfl
@[simp] theorem clearFlight_zones (s : State) : (clearFlight s).zones = s.zones := rfl
@[simp] theorem clearFlight_cells (s : State) : (clearFlight s).cells = s.cells := rfl
@[simp] theorem clearFlight_cues (s : State) : (clearFlight s).cues = s.cues := rfl
@[simp] theorem clearFlight_envelope (s : State) : (clearFlight s).envelope = s.envelope := rfl
@[simp] theorem clearFlight_lengths (s : State) : (clearFlight s).lengths = s.lengths := rfl
@[simp] theorem clearFlight_drive (s : State) : (clearFlight s).drive = s.drive := rfl
@[simp] theorem clearFlight_tension (s : State) : (clearFlight s).tension = s.tension := rfl
@[simp] theorem clearFlight_wear (s : State) : (clearFlight s).wear = s.wear := rfl
@[simp] theorem clearFlight_scrubber (s : State) : (clearFlight s).scrubber = s.scrubber := rfl
@[simp] theorem clearFlight_faults (s : State) : (clearFlight s).faults = s.faults := rfl

@[simp] theorem countId_pending (s : State) : (countId s).pending = s.pending := rfl
@[simp] theorem countId_resetting (s : State) : (countId s).resetting = s.resetting := rfl
@[simp] theorem countId_console (s : State) : (countId s).console = s.console := rfl
@[simp] theorem countId_spanSet (s : State) : (countId s).spanSet = s.spanSet := rfl
@[simp] theorem countId_limits (s : State) : (countId s).limits = s.limits := rfl
@[simp] theorem countId_zones (s : State) : (countId s).zones = s.zones := rfl
@[simp] theorem countId_cells (s : State) : (countId s).cells = s.cells := rfl
@[simp] theorem countId_cues (s : State) : (countId s).cues = s.cues := rfl
@[simp] theorem countId_envelope (s : State) : (countId s).envelope = s.envelope := rfl
@[simp] theorem countId_lengths (s : State) : (countId s).lengths = s.lengths := rfl
@[simp] theorem countId_drive (s : State) : (countId s).drive = s.drive := rfl
@[simp] theorem countId_tension (s : State) : (countId s).tension = s.tension := rfl
@[simp] theorem countId_wear (s : State) : (countId s).wear = s.wear := rfl
@[simp] theorem countId_scrubber (s : State) : (countId s).scrubber = s.scrubber := rfl
@[simp] theorem countId_faults (s : State) : (countId s).faults = s.faults := rfl

@[simp] theorem dropVoidExpiry_pending (i : Nat) (s : State) : (dropVoidExpiry i s).pending = s.pending := rfl
@[simp] theorem dropVoidExpiry_resetting (i : Nat) (s : State) : (dropVoidExpiry i s).resetting = s.resetting := rfl
@[simp] theorem dropVoidExpiry_console (i : Nat) (s : State) : (dropVoidExpiry i s).console = s.console := rfl
@[simp] theorem dropVoidExpiry_spanSet (i : Nat) (s : State) : (dropVoidExpiry i s).spanSet = s.spanSet := rfl
@[simp] theorem dropVoidExpiry_limits (i : Nat) (s : State) : (dropVoidExpiry i s).limits = s.limits := rfl
@[simp] theorem dropVoidExpiry_cells (i : Nat) (s : State) : (dropVoidExpiry i s).cells = s.cells := rfl
@[simp] theorem dropVoidExpiry_cues (i : Nat) (s : State) : (dropVoidExpiry i s).cues = s.cues := rfl
@[simp] theorem dropVoidExpiry_envelope (i : Nat) (s : State) : (dropVoidExpiry i s).envelope = s.envelope := rfl
@[simp] theorem dropVoidExpiry_gen (i : Nat) (s : State) : (dropVoidExpiry i s).gen = s.gen := rfl
@[simp] theorem dropVoidExpiry_lengths (i : Nat) (s : State) : (dropVoidExpiry i s).lengths = s.lengths := rfl
@[simp] theorem dropVoidExpiry_drive (i : Nat) (s : State) : (dropVoidExpiry i s).drive = s.drive := rfl
@[simp] theorem dropVoidExpiry_tension (i : Nat) (s : State) : (dropVoidExpiry i s).tension = s.tension := rfl
@[simp] theorem dropVoidExpiry_wear (i : Nat) (s : State) : (dropVoidExpiry i s).wear = s.wear := rfl
@[simp] theorem dropVoidExpiry_scrubber (i : Nat) (s : State) : (dropVoidExpiry i s).scrubber = s.scrubber := rfl
@[simp] theorem dropVoidExpiry_faults (i : Nat) (s : State) : (dropVoidExpiry i s).faults = s.faults := rfl

@[simp] theorem beginExit_pending (i : Nat) (t : Vec3) (s : State) : (beginExit i t s).pending = s.pending := rfl
@[simp] theorem beginExit_resetting (i : Nat) (t : Vec3) (s : State) : (beginExit i t s).resetting = s.resetting := rfl
@[simp] theorem beginExit_console (i : Nat) (t : Vec3) (s : State) : (beginExit i t s).console = s.console := rfl
@[simp] theorem beginExit_spanSet (i : Nat) (t : Vec3) (s : State) : (beginExit i t s).spanSet = s.spanSet := rfl
@[simp] theorem beginExit_limits (i : Nat) (t : Vec3) (s : State) : (beginExit i t s).limits = s.limits := rfl
@[simp] theorem beginExit_zones (i : Nat) (t : Vec3) (s : State) : (beginExit i t s).zones = s.zones := rfl
@[simp] theorem beginExit_cells (i : Nat) (t : Vec3) (s : State) : (beginExit i t s).cells = s.cells := rfl
@[simp] theorem beginExit_cues (i : Nat) (t : Vec3) (s : State) : (beginExit i t s).cues = s.cues := rfl
@[simp] theorem beginExit_lengths (i : Nat) (t : Vec3) (s : State) : (beginExit i t s).lengths = s.lengths := rfl
@[simp] theorem beginExit_drive (i : Nat) (t : Vec3) (s : State) : (beginExit i t s).drive = s.drive := rfl
@[simp] theorem beginExit_tension (i : Nat) (t : Vec3) (s : State) : (beginExit i t s).tension = s.tension := rfl
@[simp] theorem beginExit_wear (i : Nat) (t : Vec3) (s : State) : (beginExit i t s).wear = s.wear := rfl
@[simp] theorem beginExit_scrubber (i : Nat) (t : Vec3) (s : State) : (beginExit i t s).scrubber = s.scrubber := rfl
@[simp] theorem beginExit_faults (i : Nat) (t : Vec3) (s : State) : (beginExit i t s).faults = s.faults := rfl

@[simp] theorem beginFullRebuild_pending (l : Link) (s : State) : (beginFullRebuild l s).pending = s.pending := rfl
@[simp] theorem beginFullRebuild_resetting (l : Link) (s : State) : (beginFullRebuild l s).resetting = s.resetting := rfl
@[simp] theorem beginFullRebuild_console (l : Link) (s : State) : (beginFullRebuild l s).console = s.console := rfl
@[simp] theorem beginFullRebuild_spanSet (l : Link) (s : State) : (beginFullRebuild l s).spanSet = s.spanSet := rfl
@[simp] theorem beginFullRebuild_limits (l : Link) (s : State) : (beginFullRebuild l s).limits = s.limits := rfl
@[simp] theorem beginFullRebuild_cues (l : Link) (s : State) : (beginFullRebuild l s).cues = s.cues := rfl
@[simp] theorem beginFullRebuild_envelope (l : Link) (s : State) : (beginFullRebuild l s).envelope = s.envelope := rfl
@[simp] theorem beginFullRebuild_gen (l : Link) (s : State) : (beginFullRebuild l s).gen = s.gen := rfl
@[simp] theorem beginFullRebuild_lengths (l : Link) (s : State) : (beginFullRebuild l s).lengths = s.lengths := rfl
@[simp] theorem beginFullRebuild_drive (l : Link) (s : State) : (beginFullRebuild l s).drive = s.drive := rfl
@[simp] theorem beginFullRebuild_tension (l : Link) (s : State) : (beginFullRebuild l s).tension = s.tension := rfl
@[simp] theorem beginFullRebuild_wear (l : Link) (s : State) : (beginFullRebuild l s).wear = s.wear := rfl
@[simp] theorem beginFullRebuild_scrubber (l : Link) (s : State) : (beginFullRebuild l s).scrubber = s.scrubber := rfl
@[simp] theorem beginFullRebuild_faults (l : Link) (s : State) : (beginFullRebuild l s).faults = s.faults := rfl

@[simp] theorem frameTaken_pending (l : Link) (s : State) : (frameTaken l s).pending = s.pending := rfl
@[simp] theorem frameTaken_resetting (l : Link) (s : State) : (frameTaken l s).resetting = s.resetting := rfl
@[simp] theorem frameTaken_spanSet (l : Link) (s : State) : (frameTaken l s).spanSet = s.spanSet := rfl
@[simp] theorem frameTaken_limits (l : Link) (s : State) : (frameTaken l s).limits = s.limits := rfl
@[simp] theorem frameTaken_zones (l : Link) (s : State) : (frameTaken l s).zones = s.zones := rfl
@[simp] theorem frameTaken_cells (l : Link) (s : State) : (frameTaken l s).cells = s.cells := rfl
@[simp] theorem frameTaken_cues (l : Link) (s : State) : (frameTaken l s).cues = s.cues := rfl
@[simp] theorem frameTaken_envelope (l : Link) (s : State) : (frameTaken l s).envelope = s.envelope := rfl
@[simp] theorem frameTaken_gen (l : Link) (s : State) : (frameTaken l s).gen = s.gen := rfl
@[simp] theorem frameTaken_lengths (l : Link) (s : State) : (frameTaken l s).lengths = s.lengths := rfl
@[simp] theorem frameTaken_drive (l : Link) (s : State) : (frameTaken l s).drive = s.drive := rfl
@[simp] theorem frameTaken_tension (l : Link) (s : State) : (frameTaken l s).tension = s.tension := rfl
@[simp] theorem frameTaken_wear (l : Link) (s : State) : (frameTaken l s).wear = s.wear := rfl
@[simp] theorem frameTaken_scrubber (l : Link) (s : State) : (frameTaken l s).scrubber = s.scrubber := rfl
@[simp] theorem frameTaken_faults (l : Link) (s : State) : (frameTaken l s).faults = s.faults := rfl

@[simp] theorem takeRequest_pending (l : Link) (t k : Byte) (s : State) : (takeRequest l t k s).pending = s.pending := rfl
@[simp] theorem takeRequest_resetting (l : Link) (t k : Byte) (s : State) : (takeRequest l t k s).resetting = s.resetting := rfl
@[simp] theorem takeRequest_spanSet (l : Link) (t k : Byte) (s : State) : (takeRequest l t k s).spanSet = s.spanSet := rfl
@[simp] theorem takeRequest_limits (l : Link) (t k : Byte) (s : State) : (takeRequest l t k s).limits = s.limits := rfl
@[simp] theorem takeRequest_zones (l : Link) (t k : Byte) (s : State) : (takeRequest l t k s).zones = s.zones := rfl
@[simp] theorem takeRequest_cells (l : Link) (t k : Byte) (s : State) : (takeRequest l t k s).cells = s.cells := rfl
@[simp] theorem takeRequest_cues (l : Link) (t k : Byte) (s : State) : (takeRequest l t k s).cues = s.cues := rfl
@[simp] theorem takeRequest_envelope (l : Link) (t k : Byte) (s : State) : (takeRequest l t k s).envelope = s.envelope := rfl
@[simp] theorem takeRequest_gen (l : Link) (t k : Byte) (s : State) : (takeRequest l t k s).gen = s.gen := rfl
@[simp] theorem takeRequest_lengths (l : Link) (t k : Byte) (s : State) : (takeRequest l t k s).lengths = s.lengths := rfl
@[simp] theorem takeRequest_drive (l : Link) (t k : Byte) (s : State) : (takeRequest l t k s).drive = s.drive := rfl
@[simp] theorem takeRequest_tension (l : Link) (t k : Byte) (s : State) : (takeRequest l t k s).tension = s.tension := rfl
@[simp] theorem takeRequest_wear (l : Link) (t k : Byte) (s : State) : (takeRequest l t k s).wear = s.wear := rfl
@[simp] theorem takeRequest_scrubber (l : Link) (t k : Byte) (s : State) : (takeRequest l t k s).scrubber = s.scrubber := rfl
@[simp] theorem takeRequest_faults (l : Link) (t k : Byte) (s : State) : (takeRequest l t k s).faults = s.faults := rfl

@[simp] theorem flushEffect_pending (s : State) : (flushEffect s).pending = s.pending := by unfold flushEffect; split <;> (try split) <;> rfl
@[simp] theorem flushEffect_resetting (s : State) : (flushEffect s).resetting = s.resetting := by unfold flushEffect; split <;> (try split) <;> rfl
@[simp] theorem flushEffect_console (s : State) : (flushEffect s).console = s.console := by unfold flushEffect; split <;> (try split) <;> rfl
@[simp] theorem flushEffect_spanSet (s : State) : (flushEffect s).spanSet = s.spanSet := by unfold flushEffect; split <;> (try split) <;> rfl
@[simp] theorem flushEffect_limits (s : State) : (flushEffect s).limits = s.limits := by unfold flushEffect; split <;> (try split) <;> rfl
@[simp] theorem flushEffect_zones (s : State) : (flushEffect s).zones = s.zones := by unfold flushEffect; split <;> (try split) <;> rfl
@[simp] theorem flushEffect_cells (s : State) : (flushEffect s).cells = s.cells := by unfold flushEffect; split <;> (try split) <;> rfl
@[simp] theorem flushEffect_cues (s : State) : (flushEffect s).cues = s.cues := by unfold flushEffect; split <;> (try split) <;> rfl
@[simp] theorem flushEffect_envelope (s : State) : (flushEffect s).envelope = s.envelope := by unfold flushEffect; split <;> (try split) <;> rfl
@[simp] theorem flushEffect_lengths (s : State) : (flushEffect s).lengths = s.lengths := by unfold flushEffect; split <;> (try split) <;> rfl
@[simp] theorem flushEffect_drive (s : State) : (flushEffect s).drive = s.drive := by unfold flushEffect; split <;> (try split) <;> rfl
@[simp] theorem flushEffect_tension (s : State) : (flushEffect s).tension = s.tension := by unfold flushEffect; split <;> (try split) <;> rfl
@[simp] theorem flushEffect_wear (s : State) : (flushEffect s).wear = s.wear := by unfold flushEffect; split <;> (try split) <;> rfl
@[simp] theorem flushEffect_scrubber (s : State) : (flushEffect s).scrubber = s.scrubber := by unfold flushEffect; split <;> (try split) <;> rfl
@[simp] theorem flushEffect_faults (s : State) : (flushEffect s).faults = s.faults := by unfold flushEffect; split <;> (try split) <;> rfl

@[simp] theorem taken_pending (s : State) (l : Link) (t k : Byte) : (s.taken l t k).pending = s.pending := rfl
@[simp] theorem taken_resetting (s : State) (l : Link) (t k : Byte) : (s.taken l t k).resetting = s.resetting := rfl
@[simp] theorem taken_spanSet (s : State) (l : Link) (t k : Byte) : (s.taken l t k).spanSet = s.spanSet := rfl
@[simp] theorem taken_limits (s : State) (l : Link) (t k : Byte) : (s.taken l t k).limits = s.limits := rfl
@[simp] theorem taken_zones (s : State) (l : Link) (t k : Byte) : (s.taken l t k).zones = s.zones := rfl
@[simp] theorem taken_cells (s : State) (l : Link) (t k : Byte) : (s.taken l t k).cells = s.cells := rfl
@[simp] theorem taken_cues (s : State) (l : Link) (t k : Byte) : (s.taken l t k).cues = s.cues := rfl
@[simp] theorem taken_envelope (s : State) (l : Link) (t k : Byte) : (s.taken l t k).envelope = s.envelope := rfl
@[simp] theorem taken_gen (s : State) (l : Link) (t k : Byte) : (s.taken l t k).gen = s.gen := rfl
@[simp] theorem taken_lengths (s : State) (l : Link) (t k : Byte) : (s.taken l t k).lengths = s.lengths := rfl
@[simp] theorem taken_drive (s : State) (l : Link) (t k : Byte) : (s.taken l t k).drive = s.drive := rfl
@[simp] theorem taken_tension (s : State) (l : Link) (t k : Byte) : (s.taken l t k).tension = s.tension := rfl
@[simp] theorem taken_wear (s : State) (l : Link) (t k : Byte) : (s.taken l t k).wear = s.wear := rfl
@[simp] theorem taken_scrubber (s : State) (l : Link) (t k : Byte) : (s.taken l t k).scrubber = s.scrubber := rfl
@[simp] theorem taken_faults (s : State) (l : Link) (t k : Byte) : (s.taken l t k).faults = s.faults := rfl
@[simp] theorem answered_pending (s : State) (l : Link) (t k : Byte) (a : Answer) : (s.answered l t k a).pending = s.pending := rfl
@[simp] theorem answered_resetting (s : State) (l : Link) (t k : Byte) (a : Answer) : (s.answered l t k a).resetting = s.resetting := rfl
@[simp] theorem answered_spanSet (s : State) (l : Link) (t k : Byte) (a : Answer) : (s.answered l t k a).spanSet = s.spanSet := rfl
@[simp] theorem answered_limits (s : State) (l : Link) (t k : Byte) (a : Answer) : (s.answered l t k a).limits = s.limits := rfl
@[simp] theorem answered_zones (s : State) (l : Link) (t k : Byte) (a : Answer) : (s.answered l t k a).zones = s.zones := rfl
@[simp] theorem answered_cells (s : State) (l : Link) (t k : Byte) (a : Answer) : (s.answered l t k a).cells = s.cells := rfl
@[simp] theorem answered_cues (s : State) (l : Link) (t k : Byte) (a : Answer) : (s.answered l t k a).cues = s.cues := rfl
@[simp] theorem answered_envelope (s : State) (l : Link) (t k : Byte) (a : Answer) : (s.answered l t k a).envelope = s.envelope := rfl
@[simp] theorem answered_gen (s : State) (l : Link) (t k : Byte) (a : Answer) : (s.answered l t k a).gen = s.gen := rfl
@[simp] theorem answered_lengths (s : State) (l : Link) (t k : Byte) (a : Answer) : (s.answered l t k a).lengths = s.lengths := rfl
@[simp] theorem answered_drive (s : State) (l : Link) (t k : Byte) (a : Answer) : (s.answered l t k a).drive = s.drive := rfl
@[simp] theorem answered_tension (s : State) (l : Link) (t k : Byte) (a : Answer) : (s.answered l t k a).tension = s.tension := rfl
@[simp] theorem answered_wear (s : State) (l : Link) (t k : Byte) (a : Answer) : (s.answered l t k a).wear = s.wear := rfl
@[simp] theorem answered_scrubber (s : State) (l : Link) (t k : Byte) (a : Answer) : (s.answered l t k a).scrubber = s.scrubber := rfl
@[simp] theorem answered_faults (s : State) (l : Link) (t k : Byte) (a : Answer) : (s.answered l t k a).faults = s.faults := rfl

/-! Events. -/

@[simp] theorem upd_st (e : Ev) (f : State → State) : (e.upd f).st = f e.st := rfl
@[simp] theorem upd_out (e : Ev) (f : State → State) : (e.upd f).out = e.out := rfl
@[simp] theorem upd_bad (e : Ev) (f : State → State) : (e.upd f).bad = e.bad := rfl
@[simp] theorem raise_st (e : Ev) (f : EventFlag) (a b : Nat) : (e.raise f a b).st = e.st := rfl
@[simp] theorem raise_out (e : Ev) (f : EventFlag) (a b : Nat) : (e.raise f a b).out = e.out ++ [.raise f a b] := rfl
@[simp] theorem raise_bad (e : Ev) (f : EventFlag) (a b : Nat) : (e.raise f a b).bad = e.bad := rfl
@[simp] theorem reply_st (e : Ev) (l : Link) (a : Answer) : (e.reply l a).st = e.st := rfl
@[simp] theorem reply_out (e : Ev) (l : Link) (a : Answer) : (e.reply l a).out = e.out ++ [.answer l a] := rfl
@[simp] theorem reply_bad (e : Ev) (l : Link) (a : Answer) : (e.reply l a).bad = e.bad := rfl
@[simp] theorem ok_st (e : Ev) (l : Link) (c : Bool) (d : List (List Byte)) : (e.ok l c d).st = e.st := rfl
@[simp] theorem ok_out (e : Ev) (l : Link) (c : Bool) (d : List (List Byte)) :
    (e.ok l c d).out = e.out ++ [.answer l ⟨.ok, c, d⟩] := rfl
@[simp] theorem ok_bad (e : Ev) (l : Link) (c : Bool) (d : List (List Byte)) : (e.ok l c d).bad = e.bad := rfl
@[simp] theorem refuse_st (e : Ev) (l : Link) (c : Code) (d : List (List Byte)) : (e.refuse l c d).st = e.st := rfl
@[simp] theorem refuse_out (e : Ev) (l : Link) (c : Code) (d : List (List Byte)) :
    (e.refuse l c d).out = e.out ++ [.answer l ⟨c, false, d⟩] := rfl
@[simp] theorem refuse_bad (e : Ev) (l : Link) (c : Code) (d : List (List Byte)) : (e.refuse l c d).bad = e.bad := rfl
@[simp] theorem badField_st (e : Ev) (l : Link) (n : Nat) : (e.badField l n).st = e.st := rfl
@[simp] theorem badField_out (e : Ev) (l : Link) (n : Nat) :
    (e.badField l n).out = e.out ++ [.answer l ⟨.badField, false, [[byte n]]⟩] := rfl
@[simp] theorem badField_bad (e : Ev) (l : Link) (n : Nat) : (e.badField l n).bad = e.bad := rfl
@[simp] theorem stateHere_st (e : Ev) : e.stateHere.st = e.st := rfl
@[simp] theorem stateHere_out (e : Ev) : e.stateHere.out = e.out ++ [.stateHere] := rfl
@[simp] theorem stateHere_bad (e : Ev) : e.stateHere.bad = e.bad := rfl
@[simp] theorem start_st (s : State) : (Ev.start s).st = s := rfl
@[simp] theorem start_out (s : State) : (Ev.start s).out = [] := rfl
@[simp] theorem start_bad (s : State) : (Ev.start s).bad = [] := rfl

/-! The ports and the winches. -/

@[simp] theorem port_setPort_same (c : Console) (l : Link) (p : Port) : (c.setPort l p).port l = p := by cases l <;> rfl
theorem port_setPort_other (c : Console) (l m : Link) (p : Port) (h : l ≠ m) : (c.setPort l p).port m = c.port m := by
  cases l <;> cases m <;> first | rfl | exact absurd rfl h
@[simp] theorem setPort_flags (c : Console) (l : Link) (p : Port) : (c.setPort l p).flags = c.flags := by cases l <;> rfl
@[simp] theorem setPort_setPort (c : Console) (l : Link) (p q : Port) : (c.setPort l p).setPort l q = c.setPort l q := by
  cases l <;> rfl
@[simp] theorem onPort_onPort (l : Link) (f g : Port → Port) (s : State) :
    onPort l f (onPort l g s) = onPort l (fun p => f (g p)) s := by
  simp [onPort]
@[simp] theorem get_of {α : Type} (f : Winch → α) (w : Winch) : (PerWinch.of f).get w = f w := by cases w <;> rfl
@[simp] theorem get_all {α : Type} (a : α) (w : Winch) : (PerWinch.all a).get w = a := by cases w <;> rfl
@[simp] theorem get_set_same {α : Type} (p : PerWinch α) (w : Winch) (a : α) : (p.set w a).get w = a := by
  cases w <;> rfl
theorem get_set_other {α : Type} (p : PerWinch α) (w v : Winch) (a : α) (h : w ≠ v) : (p.set w a).get v = p.get v := by
  cases w <;> cases v <;> first | rfl | exact absurd rfl h

end Sys2Proof.Machine
end

