-- ==== Sys2Proof/Laws/Ports.lean ====
section
/-! SUPPORT. What the operations of a Console Port can do: a frame joins the transmit list, a notice joins it or takes the place of
one that waits, an event flag is raised, an answer is produced. -/

namespace Sys2Proof.Machine

/-! A frame joins the transmit list (R198). -/

@[simp] theorem enqueue_receiver (f : Frame) (p : Port) : (p.enqueue f).receiver = p.receiver := by
  unfold Port.enqueue; split <;> rfl
@[simp] theorem enqueue_inProgress (f : Frame) (p : Port) : (p.enqueue f).inProgress = p.inProgress := by
  unfold Port.enqueue; split <;> rfl
@[simp] theorem enqueue_enables (f : Frame) (p : Port) : (p.enqueue f).enables = p.enables := by
  unfold Port.enqueue; split <;> rfl

/-- What joining the transmit list does to it, under its law. -/
theorem enqueue_frames (f : Frame) (p : Port) (h : p.queueLaw) : (p.enqueue f).frames = p.frames ++ [f] := by
  unfold Port.enqueue Port.frames
  split
  · next hs => simp [hs, h hs]
  · next g hs => simp [hs]

/-- Joining the transmit list keeps its law. -/
theorem enqueue_queueLaw (f : Frame) (p : Port) : (p.enqueue f).queueLaw := by
  unfold Port.enqueue Port.queueLaw
  split
  · intro h; cases h
  · next g hs => intro h; exact absurd (hs.symm.trans h) (by simp)

/-- A change of a port's receiver or request in progress does not matter to what joins its transmit list. -/
theorem enqueue_withReceiver (f : Frame) (p : Port) (r : Receiver) (q : Option InProgress) :
    ({ p with receiver := r, inProgress := q } : Port).enqueue f =
      { p.enqueue f with receiver := r, inProgress := q } := by
  unfold Port.enqueue
  cases p.sending <;> rfl

/-- The same for several frames that join back to back (R203). -/
theorem foldl_enqueue_withReceiver (fs : List Frame) (p : Port) (r : Receiver) (q : Option InProgress) :
    fs.foldl (fun p f => p.enqueue f) { p with receiver := r, inProgress := q } =
      { fs.foldl (fun p f => p.enqueue f) p with receiver := r, inProgress := q } := by
  induction fs generalizing p with
  | nil => rfl
  | cons f fs ih => simp only [List.foldl_cons, enqueue_withReceiver, ih]

@[simp] theorem foldl_enqueue_enables (fs : List Frame) (p : Port) :
    (fs.foldl (fun p f => p.enqueue f) p).enables = p.enables := by
  induction fs generalizing p with
  | nil => rfl
  | cons f fs ih => simp [ih]

/-- Frames that join back to back stand behind all the others, in their order. -/
theorem foldl_enqueue_frames (fs : List Frame) (p : Port) (h : p.queueLaw) :
    (fs.foldl (fun p f => p.enqueue f) p).frames = p.frames ++ fs := by
  induction fs generalizing p with
  | nil => simp
  | cons f fs ih => simp [ih _ (enqueue_queueLaw f p), enqueue_frames f p h]

/-! Notices and event flags (R204, R205). -/

@[simp] theorem notify_receiver (n a b : Nat) (p : Port) : (p.notify n a b).receiver = p.receiver := by
  unfold Port.notify; split <;> simp
@[simp] theorem notify_inProgress (n a b : Nat) (p : Port) : (p.notify n a b).inProgress = p.inProgress := by
  unfold Port.notify; split <;> simp
@[simp] theorem notify_enables (n a b : Nat) (p : Port) : (p.notify n a b).enables = p.enables := by
  unfold Port.notify; split <;> simp
@[simp] theorem notifyEnabled_inProgress (n a b : Nat) (p : Port) :
    (p.notifyEnabled n a b).inProgress = p.inProgress := by
  unfold Port.notifyEnabled; split <;> simp
@[simp] theorem notifyEnabled_receiver (n a b : Nat) (p : Port) : (p.notifyEnabled n a b).receiver = p.receiver := by
  unfold Port.notifyEnabled; split <;> simp
@[simp] theorem notifyEnabled_enables (n a b : Nat) (p : Port) : (p.notifyEnabled n a b).enables = p.enables := by
  unfold Port.notifyEnabled; split <;> simp

theorem EventFlag.number_lt (f : EventFlag) : f.number < 21 := by
  cases f <;> simp [EventFlag.number] <;> rename_i x <;> cases x <;> simp [Winch.number]

/-- Raising a set flag changes nothing (R204). -/
theorem raiseFlag_set (f : EventFlag) (a b : Nat) (s : State) (r : Raised)
    (h : s.console.flags[f.number]? = some (some r)) : raiseFlag f a b s = s := by
  simp [raiseFlag, h]

/-- Raising a clear flag sets it with the cause's subject and qualifier, and notifies the ports (R204, R205). -/
theorem raiseFlag_clear (f : EventFlag) (a b : Nat) (s : State) (h : s.console.flags[f.number]? = some none) :
    raiseFlag f a b s =
      { s with console :=
          { flags := s.console.flags.setIfInBounds f.number (some ⟨a, b⟩)
            operations := s.console.operations.notifyEnabled f.number a b
            safety := s.console.safety.notifyEnabled f.number a b } } := by
  simp [raiseFlag, h]

/-- A flag that is set stays as it was, whatever is raised (R204). -/
theorem raiseFlag_keeps (f : EventFlag) (a b : Nat) (s : State) (n : Nat) (r : Raised)
    (h : s.console.flags[n]? = some (some r)) : (raiseFlag f a b s).console.flags[n]? = some (some r) := by
  unfold raiseFlag
  split
  · next hf =>
    have hn : f.number ≠ n := by intro e; rw [e, h] at hf; simp at hf
    simpa [Vector.getElem?_setIfInBounds, hn] using h
  · exact h

@[simp] theorem raiseFlag_inProgress (f : EventFlag) (a b : Nat) (s : State) (l : Link) :
    ((raiseFlag f a b s).console.port l).inProgress = (s.console.port l).inProgress := by
  unfold raiseFlag; split <;> cases l <;> simp [Console.port]
@[simp] theorem raiseFlag_enables (f : EventFlag) (a b : Nat) (s : State) (l : Link) :
    ((raiseFlag f a b s).console.port l).enables = (s.console.port l).enables := by
  unfold raiseFlag; split <;> cases l <;> simp [Console.port]

/-! Answers (R202). -/

/-- The answer to a request just taken, as the state it leaves. -/
theorem answer_taken (s : State) (l : Link) (t k : Byte) (a : Answer) :
    onPort l (Port.answer a) (s.taken l t k) = s.answered l t k a := by
  simp only [State.taken, State.answered, onPort_onPort]
  congr 1
  funext p
  simp [Port.answer, foldl_enqueue_withReceiver]

/-- The kind of an answer. -/
theorem answerKind_eq (k : Byte) : answerKind k = k + 0x80 := rfl

/-- An answer of details that fit one frame is one frame (R203). -/
theorem answerFrames_short (r : FrameRole) (t k : Byte) (a : Answer) (h : a.details.flatten.length ≤ detailRoom) :
    answerFrames r t k a = [⟨r, t, k, a.code.value :: answerMarker a.clamped false :: a.details.flatten⟩] := by
  have split (us : List (List Byte)) (p : List Byte) (hp : p.length + us.flatten.length ≤ detailRoom) :
      splitDetails us p = [p ++ us.flatten] := by
    induction us generalizing p with
    | nil => simp [splitDetails]
    | cons u us ih =>
      simp only [List.flatten_cons, List.length_append] at hp
      have hu : p.length + u.length ≤ detailRoom := by omega
      rw [splitDetails, if_pos hu, ih]
      · simp
      · simp only [List.length_append]; omega
  simp [answerFrames, split _ [] (by simpa using h), partFrames]

end Sys2Proof.Machine
end

