-- ==== Sys2Proof/Laws/Requests.lean ====
section
/-! SUPPORT. How a command is carried through: what a list of field tests names, the cases of a request frame (R200), the end of
an event, and what a halt or a trip does. -/

namespace Sys2Proof.Machine

/-! The field tests. -/

/-- No test fails where none is named. -/
theorem firstFailing_none (l : List Bool) : firstFailing l = none ↔ ∀ b ∈ l, b = false := by
  simp [firstFailing, List.findIdx?_eq_none_iff]

/-- The test that is named fails, and none before it does; places count from 1. -/
theorem firstFailing_some (l : List Bool) (n : Nat) :
    firstFailing l = some (n + 1) ↔ l[n]? = some true ∧ ∀ b ∈ l.take n, b = false := by
  simp only [firstFailing, Option.map_eq_some_iff, Nat.add_right_cancel_iff, exists_eq_right]
  induction l generalizing n with
  | nil => simp
  | cons b l ih => cases n <;> cases b <;> simp [List.findIdx?_cons, ih]

/-! A request frame. -/

/-- While a reset is in progress a request frame is passed over. -/
theorem request_resetting {α : Type} (k : RequestKind) (r : Req α) (act : α → Ev → Ev) (s : State)
    (h : s.resetting = true) : request k r act s = s := by
  simp [request, h]

/-- A free port takes the frame and decides it (R200). -/
theorem request_free {α : Type} (k : RequestKind) (r : Req α) (act : α → Ev → Ev) (s : State)
    (h : s.portFree r.link) :
    request k r act s =
      finish s.gen.state (decideRequest k r act (Ev.start (s.taken r.link r.tag (kindCode k)))) := by
  have h2 : ((frameTaken r.link s).console.port r.link).inProgress.isSome = false := by
    simp [frameTaken, onPort, h.2]
  simp only [request, h.1, h2, Bool.false_eq_true, if_false]
  simp [takeRequest, frameTaken, State.taken]

/-- A port with a request in progress answers PORT_BUSY or discards the frame (R198, R200 item 1). -/
theorem request_busy {α : Type} (k : RequestKind) (r : Req α) (act : α → Ev → Ev) (s : State) (h : s.resetting = false)
    (hb : (s.console.port r.link).inProgress.isSome = true) :
    request k r act s = refuseBusy r.link r.tag (answerKind (kindCode k)) (frameTaken r.link s) := by
  have h2 : ((frameTaken r.link s).console.port r.link).inProgress.isSome = true := by
    simpa [frameTaken, onPort] using hb
  simp [request, h, h2]

/-- While a reset is in progress no event is taken. -/
theorem runEvent_resetting (s : State) (act : Ev → Ev) (h : s.resetting = true) : runEvent s act = s := by
  simp [runEvent, h]

/-- Otherwise the event is carried out. -/
theorem runEvent_running (s : State) (act : Ev → Ev) (h : s.resetting = false) :
    runEvent s act = finish s.gen.state (act (Ev.start s)) := by
  simp [runEvent, h]

/-- A reserved kind on the operations link (R201). -/
theorem decide_safetyOnly {α : Type} (k : RequestKind) (r : Req α) (act : α → Ev → Ev) (e : Ev)
    (hk : safetyOnly k = true) (hl : r.link = .operations) :
    decideRequest k r act e = e.refuse r.link .safetyOnly [] := by
  simp [decideRequest, hk, hl]

/-- A body of the wrong form (R200, item 4). -/
theorem decide_malformed {α : Type} (k : RequestKind) (r : Req α) (act : α → Ev → Ev) (e : Ev)
    (hk : ¬(safetyOnly k = true ∧ r.link = .operations)) (hb : r.body = .malformed) :
    decideRequest k r act e = e.badField r.link 0 := by
  simp [decideRequest, hk, hb]

/-- A request that passes the port's checks goes to its owning block (R200). -/
theorem decide_passes {α : Type} (k : RequestKind) (r : Req α) (act : α → Ev → Ev) (e : Ev) (a : α)
    (hk : ¬(safetyOnly k = true ∧ r.link = .operations)) (hb : r.body = .fields a) :
    decideRequest k r act e = act a e := by
  simp [decideRequest, hk, hb]

/-! The end of an event. -/

/-- An event whose reads all passed, and that leaves the generator in its state, puts out its acts in order. -/
theorem finish_quiet (g : GenState) (e : Ev) (hb : e.bad = []) (hg : e.st.gen.state = g) :
    finish g e = e.out.foldl putOut e.st := by
  simp [finish, settleReads, hb, withState, hg]

/-- An event that changes the generator state raises STATE after the rest, where it keeps no place for it (R97). -/
theorem finish_changed (g : GenState) (e : Ev) (hb : e.bad = []) (hg : e.st.gen.state ≠ g)
    (ho : ∀ o ∈ e.out, o ≠ .stateHere) :
    finish g e = raiseFlag .state e.st.gen.state.code 0 (e.out.foldl putOut e.st) := by
  have hn : (e.out.any fun o => o == .stateHere) = false := by simpa using ho
  have hg' : g ≠ e.st.gen.state := fun h => hg h.symm
  simp only [finish, settleReads, hb, withState, if_neg hg', hn, Bool.false_eq_true, if_false, List.foldl_append,
    List.foldl_cons, List.foldl_nil, putOut]

/-- What is put out at an event's end changes the console alone. -/
theorem foldl_putOut_console (out : List Out) (s : State) :
    out.foldl putOut s = { s with console := (out.foldl putOut s).console } := by
  induction out generalizing s with
  | nil => rfl
  | cons o out ih =>
    rw [List.foldl_cons, ih (putOut s o)]
    cases o with
    | raise f a b => simp only [putOut, raiseFlag]; split <;> rfl
    | stateHere => rfl
    | answer l a => rfl

/-- The end of an event changes nothing but the console once its reads are settled. -/
theorem finish_console (g : GenState) (e : Ev) :
    finish g e = { (settleReads e).st with console := (finish g e).console } :=
  foldl_putOut_console _ _

/-- An update outside the console, made before acts are put out, can be made after them. -/
theorem raiseFlag_comm (f : EventFlag) (a b : Nat) (u : State → State)
    (hc : ∀ s, (u s).console = s.console) (hu : ∀ s c, u { s with console := c } = { u s with console := c })
    (s : State) : raiseFlag f a b (u s) = u (raiseFlag f a b s) := by
  simp only [raiseFlag, hc]
  split
  · exact (hu s _).symm
  · rfl

/-! Halts and trips (R115 to R117). -/

/-- A trip acts in every state but UNREGISTERED and STOPPED (R117). -/
theorem trip_cases (e : Ev) :
    ((e.st.gen.state = .unregistered ∨ e.st.gen.state = .stopped) ∧ trip e = e) ∨
      (e.st.gen.state ≠ .unregistered ∧ e.st.gen.state ≠ .stopped ∧ trip e = enterStopped e) := by
  unfold trip
  split <;> simp_all

/-- A quick stop acts in IDLE, MOVING, JOGGING, BRAKING and HELD (R116). -/
theorem quickStop_cases (e : Ev) :
    ((e.st.gen.state = .unregistered ∨ e.st.gen.state = .stopped ∨ e.st.gen.state = .halted) ∧ quickStop e = e) ∨
      (e.st.gen.state ≠ .unregistered ∧ e.st.gen.state ≠ .stopped ∧ e.st.gen.state ≠ .halted ∧
        quickStop e = enterHalted e) := by
  unfold quickStop
  split <;> simp_all

/-- What a controlled halt does in each state (the table of R115). -/
theorem controlledHalt_cases (e : Ev) :
    ((e.st.gen.state = .moving ∨ e.st.gen.state = .braking) ∧ controlledHalt e = e.upd (onGen (brakeMove .halt))) ∨
      (e.st.gen.state = .jogging ∧ controlledHalt e = e.upd (onGen (brakeJog .halt))) ∨
      ((e.st.gen.state = .idle ∨ e.st.gen.state = .held) ∧ controlledHalt e = enterHalted e) ∨
      ((e.st.gen.state = .halted ∨ e.st.gen.state = .stopped ∨ e.st.gen.state = .unregistered) ∧
        controlledHalt e = e) := by
  unfold controlledHalt
  split <;> simp_all

@[simp] theorem raiseDropped_st (ids : List Nat) (r : DropReason) (e : Ev) : (raiseDropped ids r e).st = e.st := by
  unfold raiseDropped; split <;> rfl
@[simp] theorem raiseDropped_bad (ids : List Nat) (r : DropReason) (e : Ev) : (raiseDropped ids r e).bad = e.bad := by
  unfold raiseDropped; split <;> rfl

/-- The state an entry to HALTED leaves (R117). -/
theorem enterHalted_st (e : Ev) :
    (enterHalted e).st =
      { e.st with gen := e.st.gen.emptied .halted, envelope := holdArming e.st.envelope } := by
  simp [enterHalted]

/-- The state an entry to STOPPED leaves (R117, R164). -/
theorem enterStopped_st (e : Ev) :
    (enterStopped e).st =
      { e.st with gen := { e.st.gen.emptied .stopped with stepTimer := none }
                  envelope := holdArming e.st.envelope
                  drive := { e.st.drive with brake := true } } := by
  simp [enterStopped]

/-- The Fault Record after a fault is reported (R193). -/
theorem reportFault_st (c : FaultClass) (j : FaultSubject) (e : Ev) :
    (reportFault c j e).st =
      { e.st with faults := ⟨e.st.faults.flags.setIfInBounds (c.priority - 1) true, captureFault e.st c j⟩ } := by
  unfold reportFault; dsimp only; split <;> rfl

end Sys2Proof.Machine
end

