-- ==== Sys2Proof/Laws/Base.lean ====
section
/-! SUPPORT. What the shared operations leave alone: `State.base` gathers the parts of the state that only the commands of their
own chapter write, and each operation is shown to keep them. -/

namespace Sys2Proof.Machine

/-- The parts of the state that no shared operation writes: the queue of commands, the reset, the console, the Span and Limit
Sets, the rope wear, the tension statuses and the scrubber. -/
structure Base where
  pending : List Instr
  resetting : Bool
  console : Console
  spanSet : SpanSet
  limits : Limits
  wear : PerWinch WinchWear
  tension : PerWinch TensionStatus
  scrubber : Scrubber

/-- See `Base`. -/
def State.base (s : State) : Base :=
  ⟨s.pending, s.resetting, s.console, s.spanSet, s.limits, s.wear, s.tension, s.scrubber⟩

/-- Keeping the base is keeping each of its parts. -/
theorem base_eq {s t : State} (h : t.base = s.base) :
    t.pending = s.pending ∧ t.resetting = s.resetting ∧ t.console = s.console ∧ t.spanSet = s.spanSet ∧
      t.limits = s.limits ∧ t.wear = s.wear ∧ t.tension = s.tension ∧ t.scrubber = s.scrubber := by
  simpa [State.base] using h

/-- A fold of operations that keep the base keeps it. -/
theorem foldl_base {α : Type} (f : Ev → α → Ev) (h : ∀ e a, (f e a).st.base = e.st.base) (l : List α) (e : Ev) :
    (l.foldl f e).st.base = e.st.base := by
  induction l generalizing e with
  | nil => rfl
  | cons a l ih => rw [List.foldl_cons, ih, h]

@[simp] theorem onGen_base (f : Generator → Generator) (s : State) : (onGen f s).base = s.base := rfl
@[simp] theorem onEnvelope_base (f : Envelope → Envelope) (s : State) : (onEnvelope f s).base = s.base := rfl
@[simp] theorem onZones_base (f : ZoneTable → ZoneTable) (s : State) : (onZones f s).base = s.base := rfl
@[simp] theorem onDrive_base (f : DrivePort → DrivePort) (s : State) : (onDrive f s).base = s.base := rfl
@[simp] theorem onChannel_base (w : Winch) (f : Channel → Channel) (s : State) : (onChannel w f s).base = s.base := rfl
@[simp] theorem putZone_base (i : Nat) (z : Option Zone) (s : State) : (putZone i z s).base = s.base := rfl
@[simp] theorem putCue_base (i : Nat) (c : Option Cue) (s : State) : (putCue i c s).base = s.base := rfl
@[simp] theorem putCell_base (n : Nat) (ids : List Nat) (c : CellCondition) (s : State) :
    (putCell n ids c s).base = s.base := rfl
@[simp] theorem setZoneState_base (i : Nat) (z : ZoneState) (s : State) : (setZoneState i z s).base = s.base := by
  unfold setZoneState; split <;> rfl
@[simp] theorem setBlocked_base (i : Nat) (b : Bool) (s : State) : (setBlocked i b s).base = s.base := by
  unfold setBlocked; split <;> rfl
@[simp] theorem setCond_base (i : Nat) (c : CellCondition) (s : State) : (setCond i c s).base = s.base := by
  unfold setCond; split <;> rfl
@[simp] theorem writeCell_base (n : Nat) (ids : List Nat) (s : State) : (writeCell n ids s).base = s.base := by
  unfold writeCell; split <;> rfl
@[simp] theorem dropArm_base (i : Nat) (s : State) : (dropArm i s).base = s.base := rfl
@[simp] theorem addArm_base (i : Nat) (c : ArmCond) (s : State) : (addArm i c s).base = s.base := rfl
@[simp] theorem flyMove_base (m : Move) (s : State) : (flyMove m s).base = s.base := rfl
@[simp] theorem restIn_base (g : GenState) (s : State) : (restIn g s).base = s.base := rfl
@[simp] theorem clearFlight_base (s : State) : (clearFlight s).base = s.base := rfl
@[simp] theorem countId_base (s : State) : (countId s).base = s.base := rfl
@[simp] theorem dropVoidExpiry_base (i : Nat) (s : State) : (dropVoidExpiry i s).base = s.base := rfl
@[simp] theorem beginExit_base (i : Nat) (t : Vec3) (s : State) : (beginExit i t s).base = s.base := rfl
@[simp] theorem giveOrder_base (o : Order) (s : State) : (giveOrder o s).base = s.base := by cases o <;> rfl
@[simp] theorem flushEffect_base (s : State) : (flushEffect s).base = s.base := by
  unfold flushEffect; split <;> (try split) <;> rfl
@[simp] theorem commitMove_base (f : Flight) (a b : Nat) (s : State) : (commitMove f a b s).base = s.base := rfl

/-! Reads and faults. -/

@[simp] theorem markZone_base (i : Nat) (e : Ev) : (markZone i e).st.base = e.st.base := by
  unfold markZone; split <;> simp
@[simp] theorem readZone_base (e : Ev) (i : Nat) : (readZone e i).st.base = e.st.base := by
  unfold readZone; split <;> simp
@[simp] theorem readZones_base (e : Ev) : (readZones e).st.base = e.st.base := foldl_base _ readZone_base _ _
@[simp] theorem motionRead_base (ids : List Nat) (e : Ev) : (motionRead ids e).1.st.base = e.st.base := by
  unfold motionRead; split <;> simp
@[simp] theorem readCue_base (e : Ev) (n : Nat) : (readCue e n).st.base = e.st.base := by
  unfold readCue; split <;> (try split) <;> simp
@[simp] theorem reportFault_base (c : FaultClass) (j : FaultSubject) (e : Ev) :
    (reportFault c j e).st.base = e.st.base := by
  rw [reportFault_st]; rfl
@[simp] theorem enterHalted_base (e : Ev) : (enterHalted e).st.base = e.st.base := by rw [enterHalted_st]; rfl
@[simp] theorem enterStopped_base (e : Ev) : (enterStopped e).st.base = e.st.base := by rw [enterStopped_st]; rfl
@[simp] theorem trip_base (e : Ev) : (trip e).st.base = e.st.base := by unfold trip; split <;> simp
@[simp] theorem quickStop_base (e : Ev) : (quickStop e).st.base = e.st.base := by unfold quickStop; split <;> simp
@[simp] theorem controlledHalt_base (e : Ev) : (controlledHalt e).st.base = e.st.base := by
  unfold controlledHalt; split <;> simp
@[simp] theorem motionFailure_base (i : Nat) (e : Ev) : (motionFailure i e).st.base = e.st.base := by
  simp [motionFailure]
@[simp] theorem settleReads_base (e : Ev) : (settleReads e).st.base = e.st.base := by
  unfold settleReads
  split
  · rfl
  · rw [controlledHalt_base, foldl_base]; intro e i; simp

/-! The Cell Index and the cues. -/

@[simp] theorem suspectCell_base (n : Nat) (e : Ev) : (suspectCell n e).st.base = e.st.base := by
  unfold suspectCell; split <;> simp
@[simp] theorem rebuildCell_base (n : Nat) (e : Ev) : (rebuildCell n e).st.base = e.st.base := by simp [rebuildCell]
@[simp] theorem changeCell_base (n : Nat) (f : List Nat → List Nat) (e : Ev) :
    (changeCell n f e).st.base = e.st.base := by
  unfold changeCell; dsimp only; split <;> (try split) <;> simp
@[simp] theorem computeBlocked_base (e : Ev) (n : Nat) : (computeBlocked e n).st.base = e.st.base := by
  unfold computeBlocked; dsimp only; split <;> simp
@[simp] theorem recomputeOne_base (e : Ev) (n : Nat) : (recomputeOne e n).st.base = e.st.base := by
  unfold recomputeOne; split <;> simp
@[simp] theorem recomputeBlocked_base (e : Ev) : (recomputeBlocked e).st.base = e.st.base :=
  foldl_base _ recomputeOne_base _ _

/-! Table operations. -/

@[simp] theorem closeOp_base (op : TableOp) (e : Ev) : (closeOp op e).st.base = e.st.base := by
  unfold closeOp; dsimp only; split <;> simp only [reply_st, stateHere_st, upd_st, onZones_base] <;> split <;> simp
@[simp] theorem beginOp_base (op : TableOp) (e : Ev) : (beginOp op e).st.base = e.st.base := by
  unfold beginOp; split <;> simp
@[simp] theorem takeExpiry_base (i : Nat) (e : Ev) : (takeExpiry i e).st.base = e.st.base := by simp [takeExpiry]
@[simp] theorem beginWork_base (w : Work) (e : Ev) : (beginWork w e).st.base = e.st.base := by
  unfold beginWork; split <;> simp
@[simp] theorem runWaiting_base (ws : List Work) (e : Ev) : (runWaiting ws e).st.base = e.st.base := by
  induction ws generalizing e with
  | nil => simp [runWaiting]
  | cons w ws ih => unfold runWaiting; dsimp only; split <;> (try split) <;> simp [ih]
@[simp] theorem runIfIdle_base (e : Ev) : (runIfIdle e).st.base = e.st.base := by unfold runIfIdle; split <;> simp
@[simp] theorem orderWork_base (ws : List Work) (e : Ev) : (orderWork ws e).st.base = e.st.base := by
  simp [orderWork]
@[simp] theorem endOp_base (op : TableOp) (e : Ev) : (endOp op e).st.base = e.st.base := by simp [endOp]
@[simp] theorem orderRebuild_base (n : Nat) (e : Ev) : (orderRebuild n e).st.base = e.st.base := by
  unfold orderRebuild; split <;> simp
@[simp] theorem readCell_base (n : Nat) (e : Ev) : (readCell n e).st.base = e.st.base := by
  unfold readCell; split <;> simp
@[simp] theorem countCell_base (i : Option Nat) (n : Nat) (e : Ev) : (countCell i n e).1.st.base = e.st.base := by
  unfold countCell; dsimp only; split <;> simp
@[simp] theorem firstFull_base (i : Option Nat) (ns : List Nat) (e : Ev) : (firstFull i ns e).1.st.base = e.st.base := by
  induction ns generalizing e with
  | nil => rfl
  | cons n ns ih => unfold firstFull; dsimp only; split <;> simp [ih]
@[simp] theorem visit_base (op : TableOp) (e : Ev) : (visit op e).st.base = e.st.base := by
  unfold visit; split <;> simp

/-! The Envelope Unit. -/

@[simp] theorem dropInside_base (b : Box) (e : Ev) : (dropInside b e).st.base = e.st.base := by simp [dropInside]
@[simp] theorem activationEffects_base (i : Nat) (a : Bool) (e : Ev) :
    (activationEffects i a e).st.base = e.st.base := by
  unfold activationEffects
  split
  · rfl
  · dsimp only
    split <;> split <;> (try split) <;> simp
@[simp] theorem fallDueIfSpent_base (i : Nat) (e : Ev) : (fallDueIfSpent i e).st.base = e.st.base := by
  unfold fallDueIfSpent; split <;> simp
@[simp] theorem settle_base (i : Nat) (b : Box) (e : Ev) : (settle i b e).st.base = e.st.base := by
  unfold settle; split <;> simp
@[simp] theorem makeActive_base (b : Bool) (i : Nat) (e : Ev) : (makeActive b i e).st.base = e.st.base := by
  unfold makeActive; dsimp only
  split
  · simp
  · split
    · simp
    · split <;> simp
@[simp] theorem withdraw_base (i : Nat) (e : Ev) : (withdraw i e).st.base = e.st.base := by
  unfold withdraw; dsimp only
  split
  · simp
  · split <;> simp
@[simp] theorem activationPass_base (ids : List Nat) (e : Ev) : (activationPass ids e).st.base = e.st.base := by
  unfold activationPass; apply foldl_base; intro e i; split <;> simp
@[simp] theorem planningPass_base (ids : List Nat) (e : Ev) : (planningPass ids e).st.base = e.st.base := by
  induction ids generalizing e with
  | nil => rfl
  | cons i ids ih => unfold planningPass; dsimp only; split <;> simp [ih]
@[simp] theorem resolveArming_base (e : Ev) : (resolveArming e).st.base = e.st.base := by
  simp only [resolveArming, planningPass_base, activationPass_base]
  exact foldl_base _ readZone_base _ _

/-! The Path Generator. -/

@[simp] theorem tryBegin_base (m : Move) (e : Ev) : (tryBegin m e).1.st.base = e.st.base := by
  unfold tryBegin; dsimp only; split
  · split <;> simp
  · simp
@[simp] theorem queuePhase_base (ms : List Move) (e : Ev) : (queuePhase ms e).st.base = e.st.base := by
  induction ms generalizing e with
  | nil => simp [queuePhase]
  | cons m ms ih => unfold queuePhase; dsimp only; split <;> simp [ih]
@[simp] theorem stackPhase_base (cs : List Context) (e : Ev) : (stackPhase cs e).st.base = e.st.base := by
  induction cs generalizing e with
  | nil => simp [stackPhase]
  | cons c cs ih =>
    unfold stackPhase; split
    · simp
    · dsimp only; split <;> simp [ih]
@[simp] theorem advance_base (e : Ev) : (advance e).st.base = e.st.base := by
  unfold advance; split
  · simp
  · dsimp only; split <;> simp
@[simp] theorem succession_base (e : Ev) : (succession e).st.base = e.st.base := by
  unfold succession; split
  · simp
  · dsimp only; split <;> simp
@[simp] theorem arrive_base (f : Flight) (e : Ev) : (arrive f e).st.base = e.st.base := by simp [arrive]
@[simp] theorem arriveExit_base (f : Flight) (e : Ev) : (arriveExit f e).st.base = e.st.base := by
  unfold arriveExit; dsimp only; split <;> simp
@[simp] theorem complete_base (f : Flight) (e : Ev) : (complete f e).st.base = e.st.base := by
  unfold complete; split <;> simp
@[simp] theorem endBraking_base (f : Flight) (b : Bool) (e : Ev) : (endBraking f b e).st.base = e.st.base := by
  unfold endBraking; split <;> (try split) <;> simp [dropBraked, pushBraked]
@[simp] theorem endJog_base (e : Ev) : (endJog e).st.base = e.st.base := by simp [endJog]
@[simp] theorem enterUnregistered_base (b : Bool) (e : Ev) : (enterUnregistered b e).st.base = e.st.base := by
  unfold enterUnregistered; dsimp only
  rw [foldl_base _ (fun e i => makeActive_base b i e)]
  simp only [raiseDropped_st, upd_st]
  rfl
@[simp] theorem liftHold_base (e : Ev) : (liftHold e).st.base = e.st.base := by
  unfold liftHold; split <;> (try split) <;> simp

/-! Lengths, frames and steps. -/

@[simp] theorem raiseWinches_base (f : EventFlag) (h : Winch → Bool) (e : Ev) :
    (raiseWinches f h e).st.base = e.st.base := by
  unfold raiseWinches; apply foldl_base; intro e w; split <;> simp
@[simp] theorem lengthOffer_base (sp : Span) (p : Vec3) (e : Ev) : (lengthOffer sp p e).1.st.base = e.st.base := by
  unfold lengthOffer; dsimp only; split <;> simp
@[simp] theorem sendTo_base (k : Winch → Sent) (e : Ev) (w : Winch) : (sendTo k e w).st.base = e.st.base := by
  unfold sendTo; dsimp only; split <;> simp
@[simp] theorem sendAll_base (k : Winch → Sent) (e : Ev) : (sendAll k e).st.base = e.st.base :=
  foldl_base _ (sendTo_base k) _ _
@[simp] theorem sendSet_base (l : PerWinch RopeLength) (e : Ev) : (sendSet l e).st.base = e.st.base := by
  simp [sendSet]
@[simp] theorem candidateCheck_base (sp : Span) (p : Vec3) (e : Ev) :
    (candidateCheck sp p e).1.st.base = e.st.base := by
  unfold candidateCheck; split
  · dsimp only
    generalize hm : motionRead _ _ = r
    have h : r.1.st.base = e.st.base := by rw [← hm]; simp
    obtain ⟨e2, _ | i⟩ := r <;> simpa using h
  · rfl
@[simp] theorem breach_base (p : Vec3) (e : Ev) : (breach p e).st.base = e.st.base := by simp [breach]
@[simp] theorem deliver_base (sp : Span) (p : Vec3) (e : Ev) : (deliver sp p e).1.st.base = e.st.base := by
  unfold deliver
  generalize hm : lengthOffer sp p e = r
  have h : r.1.st.base = e.st.base := by rw [← hm]; simp
  obtain ⟨e1, _ | l⟩ := r
  · exact h
  · have h2 := sendSet_base l e1
    dsimp only
    generalize sendSet l e1 = e2 at h2
    exact h2.trans h
@[simp] theorem offer_base (sp : Span) (p : Vec3) (e : Ev) : (offer sp p e).1.st.base = e.st.base := by
  unfold offer
  generalize hm : candidateCheck sp p e = r
  have h : r.1.st.base = e.st.base := by rw [← hm]; simp
  obtain ⟨e1, _ | _ | _⟩ := r <;> simpa using h
@[simp] theorem afterMove_base (f : Flight) (v : Nat) (e : Ev) : (afterMove f v e).st.base = e.st.base := by
  unfold afterMove
  generalize hm : motionRead _ _ = r
  have h : r.1.st.base = e.st.base := by rw [← hm]; simp
  obtain ⟨e1, _ | i⟩ := r
  · dsimp only at h ⊢
    split <;> split <;> (try split) <;> simpa using h
  · simpa using h
@[simp] theorem moveStep_base (sp : Span) (f : Flight) (e : Ev) : (moveStep sp f e).st.base = e.st.base := by
  unfold moveStep
  generalize hm : motionRead _ _ = r
  have h : r.1.st.base = e.st.base := by rw [← hm]; simp
  obtain ⟨e1, _ | i⟩ := r
  · dsimp only at h ⊢
    generalize hn : offer _ _ _ = q
    have h2 : q.1.st.base = e1.st.base := by rw [← hn]; simp
    obtain ⟨e2, _ | _⟩ := q
    · exact h2.trans h
    · simpa using h2.trans h
  · simpa using h
@[simp] theorem brakeStep_base (sp : Span) (f : Flight) (e : Ev) : (brakeStep sp f e).st.base = e.st.base := by
  unfold brakeStep
  dsimp only
  split
  all_goals
    generalize hn : offer _ _ _ = q
    have h2 : q.1.st.base = e.st.base := by rw [← hn]; simp
    obtain ⟨e2, _ | _⟩ := q
    · exact h2
    · dsimp only
      try split
      all_goals simpa using h2
@[simp] theorem slide_base (sp : Span) (p : Vec3) (us : List Vec3) (e : Ev) :
    (slide sp p us e).1.st.base = e.st.base := by
  induction us generalizing e with
  | nil =>
    unfold slide
    generalize hm : candidateCheck _ _ _ = q
    have h : q.1.st.base = e.st.base := by rw [← hm]; simp
    obtain ⟨e1, _ | _ | _⟩ := q <;> exact h
  | cons u us ih =>
    unfold slide
    generalize hm : candidateCheck _ _ _ = r
    have h : r.1.st.base = e.st.base := by rw [← hm]; simp
    obtain ⟨e1, _ | _ | _⟩ := r
    · exact h
    · exact (ih e1).trans h
    · exact h
@[simp] theorem afterJog_base (e : Ev) : (afterJog e).st.base = e.st.base := by
  unfold afterJog; split <;> (try split) <;> (try split) <;> simp
@[simp] theorem jogOffer_base (sp : Span) (u : Vec3) (e : Ev) : (jogOffer sp u e).st.base = e.st.base := by
  unfold jogOffer
  dsimp only
  generalize hm : slide _ _ _ _ = r
  have h : r.1.st.base = e.st.base := by rw [← hm]; simp
  obtain ⟨e1, _ | u'⟩ := r
  · exact h
  · dsimp only at h ⊢
    generalize hn : deliver _ _ _ = q
    have h2 : q.1.st.base = e1.st.base := by rw [← hn]; simp
    obtain ⟨e2, _ | _⟩ := q
    · exact h2.trans h
    · simpa using h2.trans h
@[simp] theorem jogStep_base (sp : Span) (e : Ev) : (jogStep sp e).st.base = e.st.base := by
  unfold jogStep
  dsimp only
  split
  · simp
  · generalize hm : motionRead _ _ = r
    have h : r.1.st.base = e.st.base := by rw [← hm]; simp
    obtain ⟨e1, _ | i⟩ := r
    · dsimp only at h ⊢
      split
      · simpa using h
      · split <;> simpa using h
    · simpa using h
@[simp] theorem pathStep_base (sp : Span) (e : Ev) : (pathStep sp e).st.base = e.st.base := by
  unfold pathStep
  split <;> (try split) <;> simp

end Sys2Proof.Machine
end

