-- ==== Sys2Proof/Laws/Slots.lean ====
section
/-! SUPPORT. Reads after writes of zone slots, cue slots and cells, and what inserting and removing an id does to a list. -/

namespace Sys2Proof.Machine

/-! Zone slots. -/

/-- A slot that has been written reads as written, and its record passes its check (R17). -/
theorem zoneAt_putZone_same (i : Nat) (z : Option Zone) (s : State) (h : i < 64) : zoneAt (putZone i z s) i = z := by
  simp [zoneAt, h]
theorem zoneAt_putZone_other (i j : Nat) (z : Option Zone) (s : State) (h : i ≠ j) :
    zoneAt (putZone i z s) j = zoneAt s j := by
  simp [zoneAt, h]
theorem zoneFails_putZone_same (i : Nat) (z : Option Zone) (s : State) (h : i < 64) :
    zoneFails (putZone i z s) i = false := by
  cases z <;> simp [zoneFails, h]
theorem zoneFails_putZone_other (i j : Nat) (z : Option Zone) (s : State) (h : i ≠ j) :
    zoneFails (putZone i z s) j = zoneFails s j := by
  simp [zoneFails, h]
theorem zoneAt_none_of_ge (i : Nat) (s : State) (h : 64 ≤ i) : zoneAt s i = none := by
  simp [zoneAt, h]

/-- The state field lies outside the check word (R17, R181). -/
theorem zoneCheck_state (i : Nat) (z : Zone) (st : ZoneState) :
    zoneCheck i (some { z with state := st }) = zoneCheck i (some z) := rfl
/-- The BLOCKED flag lies outside the check word (R57, R181). -/
theorem cueCheck_blocked (n : Nat) (c : Cue) (b : Bool) :
    cueCheck n (some { c with blocked := b }) = cueCheck n (some c) := rfl

/-- Only a record that fails its check is changed by its read (R182). -/
theorem readZone_sound (e : Ev) (i : Nat) (h : zoneFails e.st i = false) : readZone e i = e := by
  simp [readZone, h]
/-- A read of records that all pass changes nothing (R182). -/
theorem readZones_sound (e : Ev) (h : e.st.zonesSound) : readZones e = e := by
  have fold (l : List Nat) (hl : ∀ i ∈ l, zoneFails e.st i = false) : l.foldl readZone e = e := by
    induction l with
    | nil => rfl
    | cons i l ih =>
      rw [List.foldl_cons, readZone_sound e i (hl i (by simp))]
      exact ih fun j hj => hl j (by simp [hj])
  exact fold zoneIds h
theorem motionRead_sound (ids : List Nat) (e : Ev) (h : ∀ i ∈ ids, zoneFails e.st i = false) :
    motionRead ids e = (e, none) := by
  have : ids.find? (zoneFails e.st) = none := by simpa [List.find?_eq_none] using h
  simp [motionRead, this]
theorem readCue_sound (e : Ev) (n : Nat) (h : cueFails e.st n = false) : readCue e n = e := by
  simp [readCue, h]
theorem readCell_sound (n : Nat) (e : Ev) (h : cellFails e.st n = false) : readCell n e = e := by
  simp [readCell, h]

/-! Cue slots and cells. -/

theorem cueAt_putCue_same (n : Nat) (c : Option Cue) (s : State) (h : n < 96) : cueAt (putCue n c s) n = c := by
  simp [cueAt, h]
theorem cueAt_putCue_other (n m : Nat) (c : Option Cue) (s : State) (h : n ≠ m) :
    cueAt (putCue n c s) m = cueAt s m := by
  simp [cueAt, h]

/-- Setting BLOCKED on a record just written is writing it with that flag (R57). -/
theorem setBlocked_putCue (n : Nat) (c : Cue) (b : Bool) (s : State) (h : n < 96) :
    setBlocked n b (putCue n (some c) s) = putCue n (some { c with blocked := b }) s := by
  have hb : cueCheck n (some { c with blocked := b }) = cueCheck n (some c) := rfl
  simp [setBlocked, putCue, h, hb]

theorem idsAt_putCell_same (n : Nat) (ids : List Nat) (c : CellCondition) (s : State) (h : n < 192) :
    idsAt (putCell n ids c s) n = ids := by
  simp [idsAt, h]
theorem condAt_putCell_same (n : Nat) (ids : List Nat) (c : CellCondition) (s : State) (h : n < 192) :
    condAt (putCell n ids c s) n = c := by
  simp [condAt, h]
theorem idsAt_putCell_other (n m : Nat) (ids : List Nat) (c : CellCondition) (s : State) (h : n ≠ m) :
    idsAt (putCell n ids c s) m = idsAt s m := by
  simp [idsAt, h]
theorem condAt_putCell_other (n m : Nat) (ids : List Nat) (c : CellCondition) (s : State) (h : n ≠ m) :
    condAt (putCell n ids c s) m = condAt s m := by
  simp [condAt, h]

/-! Lists of ids (R46). -/

theorem mem_insertId (i j : Nat) (l : List Nat) : j ∈ insertId i l ↔ j = i ∨ j ∈ l := by
  induction l with
  | nil => simp [insertId]
  | cons k l ih =>
    unfold insertId
    split
    · simp
    · split
      · next h => subst h; simp
      · simp [ih]; tauto

/-- Inserting an id keeps the ascending order. -/
theorem insertId_ascending (i : Nat) (l : List Nat) (h : l.Pairwise (· < ·)) : (insertId i l).Pairwise (· < ·) := by
  induction l with
  | nil => simp [insertId]
  | cons k l ih =>
    rw [List.pairwise_cons] at h
    unfold insertId
    split
    · next hk =>
      refine List.pairwise_cons.2 ⟨?_, List.pairwise_cons.2 h⟩
      intro a ha
      rcases List.mem_cons.1 ha with rfl | ha
      · exact hk
      · exact Nat.lt_trans hk (h.1 a ha)
    · split
      · exact List.pairwise_cons.2 h
      · next hk he =>
        refine List.pairwise_cons.2 ⟨?_, ih h.2⟩
        intro a ha
        rcases (mem_insertId i a l).1 ha with rfl | ha
        · omega
        · exact h.1 a ha

/-- Removing an id keeps the ascending order. -/
theorem erase_ascending (i : Nat) (l : List Nat) (h : l.Pairwise (· < ·)) : (l.erase i).Pairwise (· < ·) :=
  h.sublist List.erase_sublist

/-- The ids a rebuild writes stand in ascending order (R52). -/
theorem coverIds_ascending (s : State) (n : Nat) : (coverIds s n).Pairwise (· < ·) := by
  unfold coverIds
  split
  · simp
  · exact (List.pairwise_lt_range).filter _

/-- A written list keeps the law of R46 where the ids are ascending. -/
theorem writeCell_law (n : Nat) (ids : List Nat) (s : State) (h : ids.Pairwise (· < ·)) (hs : s.cellLaw) :
    (writeCell n ids s).cellLaw := by
  have put (ids : List Nat) (c : CellCondition) (hp : ids.Pairwise (· < ·)) (hl : ids.length ≤ 8) :
      (putCell n ids c s).cellLaw := by
    intro m
    by_cases hm : n = m
    · subst hm
      by_cases hn : n < 192
      · rw [idsAt_putCell_same n ids c s hn]; exact ⟨hl, hp⟩
      · simp [idsAt, hn]
    · rw [idsAt_putCell_other n m ids c s hm]; exact hs m
  unfold writeCell
  split
  · next hl => exact put ids .current h hl
  · exact put [] .overfull .nil (by simp)

/-! Waiting work behind an operation. -/

/-- Putting expiries into order adds no work and drops none. -/
theorem placeExpiries_length (ids : List Nat) (ws : List Work) : (placeExpiries ids ws).length = ws.length := by
  induction ws generalizing ids with
  | nil => cases ids <;> rfl
  | cons w r ih => cases w <;> cases ids <;> simp [placeExpiries, ih]

/-- Work other than an expiry keeps its place when expiries are put into order (R11). -/
theorem placeExpiries_other (ids : List Nat) (ws : List Work) (n : Nat) (w : Work) (hw : ∀ i, w ≠ .expiry i) :
    (placeExpiries ids ws)[n]? = some w ↔ ws[n]? = some w := by
  induction ws generalizing ids n with
  | nil => cases ids <;> simp [placeExpiries]
  | cons v r ih =>
    cases v <;> cases ids <;> cases n <;> simp [placeExpiries, ih]
    all_goals constructor <;> rintro rfl <;> exact absurd rfl (hw _)

/-- Every operation but a full rebuild leaves the waiting work as it is at its end (R21). -/
@[simp] theorem handsOver_other (op : TableOp) (ws : List Work) (h : op.kind ≠ .fullRebuild) : op.handsOver ws = ws := by
  simp [TableOp.handsOver, h]

/-- An operation touches every cell it visits (R50). -/
theorem opTouchesCell_visits (s : State) (op : TableOp) (n : Nat) (ho : s.zones.op = some op) (hv : op.visits s n = true)
    (hk : op.kind ≠ .cellRebuild) : opTouchesCell s n = true := by
  unfold opTouchesCell
  rw [ho]
  cases hc : op.kind <;> simp_all

end Sys2Proof.Machine
end

