-- ==== Sys2Proof/Tests/Slice0.lean ====
section
/-! SUPPORT. The model's own tests: the checks of WellFormed on ill-formed terms, the manual's worked examples, frames written
out byte by byte, and states that meet the hypotheses of the statements (`witness_<statement>`). -/

namespace Sys2Proof.Tests

open Sys2Proof.Machine

-- one proof at a time: many kernel evaluations at once ask for more threads than the check's memory limit allows
set_option Elab.async false

/-! States. -/

/-- One winch of the worked example of section 1.3. -/
def winch (x y : Int) : WinchSpan := ⟨⟨x, y, 35000⟩, 3500, 10000, 150000, 6872, 36, 20000⟩

/-- The span of the worked example of section 1.3, with the motion values of section 6.13. -/
def span : Span :=
  ⟨⟨-55000, 55000, -35000, 35000, 2000, 30000⟩,
    ⟨winch (-60000) (-40000), winch 60000 (-40000), winch 60000 40000, winch (-60000) 40000⟩, 10000, 16, 32, 1500⟩

/-- A channel that is ALIVE and READY at 4,800 N. -/
def channel : Channel := ⟨7, some (.length 79785053), true, 0, .alive, some 79785053, 4800, some .ready, some 79785053⟩

/-- The trolley's position in the states below. -/
def home : Vec3 := ⟨0, 0, 10000000⟩

/-- Move 40 of section 6.13 at its start. -/
def flight : Flight :=
  ⟨⟨40, .goto, ⟨3000000, 4000000, 10000000⟩, none, 1000⟩, home, ⟨3000000, 4000000, 0⟩, 5000000, 0⟩

/-- A configured machine, registered at `home`, in a generator state. -/
def standing (g : GenState) : State :=
  { State.reset with
    spanSet := ⟨some span, false⟩
    gen := { Generator.reset with
      state := g, pos := some home, nextId := 41, stepTimer := if g = .stopped then none else some 2
      flight := if g = .moving ∨ g = .braking then some flight else none
      jog := if g = .jogging then ⟨true, ⟨800, 400, 0⟩, Vec3.zero, some 100, none⟩ else Jog.closed }
    lengths := some (PerWinch.all ⟨79785053, 36635⟩)
    drive := { State.reset.drive with
      channels := PerWinch.all channel, brake := decide (g = .stopped), setSinceRelease := true } }

/-- A configured machine whose generator is UNREGISTERED. -/
def configured : State :=
  { State.reset with
    spanSet := ⟨some span, false⟩
    drive := { State.reset.drive with channels := PerWinch.all { channel with latest := some .hold, lastCommand := none } } }

/-- A zone with a box. -/
def zone (st : ZoneState) (kind : Byte) (b : Box) : Zone :=
  { state := st, kindByte := kind, box := b, cap := if kind = 2 then some 500 else none, remaining := none,
    ownerByte := 1, revision := 0, pendingBox := none, prior := none, suspect := false }

/-- A box far from `home`: the corner box of section 2.4. -/
def corner : Box := ⟨47000, 56000, -9000, 9000, 0, 7000⟩

/-- A machine with an ACTIVE KEEP_OUT zone 5 over the corner box, indexed in its first two cells. -/
def fenced (g : GenState) : State :=
  putCell 79 [5] .current (putCell 78 [5] .current (putZone 5 (some (zone .active 1 corner)) (standing g)))

/-- A cue at a target. -/
def cue (p : Vec3) : Cue := ⟨p, none, 0, false, false⟩

/-- A request frame with fields. -/
def ask {α : Type} (l : Link) (a : α) : Req α := ⟨l, 80, .fields a⟩

/-- The state after a command. -/
def after (i : Instr) (s : State) : State :=
  match exec i s with
  | .next t => t
  | .fault _ => s
  | .refused _ => s

/-! The checks of WellFormed. -/

theorem test_wf_takes_the_corner_zone :
    (Instr.zoneAdd (ask .operations ⟨5, 1, corner, none, some 120⟩)).wf = true := by decide +kernel
theorem test_wf_refuses_a_wide_id : (Instr.zoneQuery (ask .safety 256)).wf = false := by decide +kernel
theorem test_wf_refuses_a_wide_kind : (Instr.zoneAdd (ask .safety ⟨5, 256, corner, none, none⟩)).wf = false := by
  decide +kernel
theorem test_wf_refuses_a_wide_cap : (Instr.zoneAdd (ask .safety ⟨5, 2, corner, some 65536, none⟩)).wf = false := by
  decide +kernel
theorem test_wf_refuses_a_wide_lifetime :
    (Instr.zoneAmend (ask .safety ⟨5, none, none, some 65536, none⟩)).wf = false := by decide +kernel
theorem test_wf_refuses_a_wide_box :
    (Instr.zoneAmend (ask .safety ⟨5, some ⟨0, 2147483648, 0, 1, 0, 1⟩, none, none, none⟩)).wf = false := by
  decide +kernel
theorem test_wf_refuses_a_wide_point :
    (Instr.register (ask .safety ⟨0, 0, -2147483649⟩)).wf = false := by decide +kernel
theorem test_wf_refuses_a_wide_retired_id : (Instr.cueRetire (ask .safety ⟨256, none⟩)).wf = false := by decide +kernel
theorem test_wf_refuses_a_wide_cue_speed :
    (Instr.cueStore (ask .safety ⟨1, none, true, some 65536⟩)).wf = false ∧
      (Instr.cueAmend (ask .safety ⟨1, none, some 65536, none⟩)).wf = false := by decide +kernel
theorem test_wf_refuses_a_wide_move_speed :
    (Instr.goto (ask .safety ⟨home, some 65536⟩)).wf = false ∧
      (Instr.recall (ask .safety ⟨1, some 65536⟩)).wf = false := by decide +kernel
theorem test_wf_refuses_an_option_without_its_body :
    (Instr.gotoPriority ⟨.safety, 1, .malformed⟩).wf = false ∧
      (Instr.recallPriority ⟨.safety, 1, .malformed⟩).wf = false ∧
      (Instr.flushAll ⟨.safety, 1, .malformed⟩).wf = false := by decide +kernel
theorem test_wf_refuses_another_rows_scope :
    (Instr.flushQueue (ask .safety (.neither 1))).wf = false ∧ (Instr.flushQueue (ask .safety (.neither 2))).wf = false ∧
      (Instr.flushQueue (ask .safety (.neither 256))).wf = false := by decide +kernel
theorem test_wf_refuses_a_wide_span :
    (Instr.setSpan (ask .safety { span with clearance := 65536 })).wf = false ∧
      (Instr.setSpan (ask .safety { span with accel := 256 })).wf = false ∧
      (Instr.setSpan (ask .safety { span with winch := { span.winch with w3 := { span.winch.w3 with lmax := 4294967296 } } })).wf
        = false := by decide +kernel
theorem test_wf_refuses_wide_limits :
    (Instr.setLimits (ask .safety { Limits.reset with wear := 65536 })).wf = false := by decide +kernel
theorem test_wf_refuses_wide_counters :
    (Instr.wearLoad (ask .safety ⟨1, Vector.replicate 64 65536⟩)).wf = false := by decide +kernel
theorem test_wf_refuses_a_request_kind : (Instr.unknownRequest .safety 1 0x22).wf = false := by decide +kernel
theorem test_wf_refuses_a_wide_feedback :
    (Instr.feedbackFrame .w1 (.fields ⟨1, 0, 4294967296, 0, 1⟩)).wf = false ∧
      (Instr.feedbackFrame .w1 (.fields ⟨1, 0, 0, 65536, 1⟩)).wf = false := by decide +kernel

/-! Frames, written out from the tables of section 12.6. -/

/-- R209: the CRC of the nine characters "123456789". -/
theorem test_crc_of_the_nine_digits :
    crc16 [0x31, 0x32, 0x33, 0x34, 0x35, 0x36, 0x37, 0x38, 0x39] = 0x29B1 := by decide +kernel

theorem test_no_table_word_is_a_command : decodeTableWord 8 0 = none := by rfl

theorem test_frame_goto :
    decodeRequest .operations 80 0x0C
        [0xB8, 0x0B, 0, 0, 0xA0, 0x0F, 0, 0, 0x10, 0x27, 0, 0, 0x01, 0xE8, 0x03] =
      .goto (ask .operations ⟨⟨3000, 4000, 10000⟩, some 1000⟩) := by decide +kernel

theorem test_frame_goto_priority_negative :
    decodeRequest .safety 80 0x0C [0xF0, 0xD8, 0xFF, 0xFF, 0, 0, 0, 0, 0x10, 0x27, 0, 0, 0x02, 0, 0] =
      .gotoPriority (ask .safety ⟨⟨-10000, 0, 10000⟩, none⟩) := by decide +kernel

theorem test_frame_zone_retire_with_revision :
    decodeRequest .safety 80 0x03 [5, 0x01, 9] = .zoneRetire (ask .safety ⟨5, some 9⟩) := by decide +kernel

theorem test_frame_flush_scopes :
    decodeRequest .safety 80 0x11 [1] = .flushQueue (ask .safety .queue) ∧
      decodeRequest .safety 80 0x11 [2] = .flushAll (ask .safety ()) ∧
      decodeRequest .safety 80 0x11 [3] = .flushQueue (ask .safety (.neither 3)) := by decide +kernel

theorem test_frame_of_a_wrong_length :
    decodeRequest .safety 80 0x13 [0] = .release ⟨.safety, 80, .malformed⟩ := by decide +kernel

theorem test_frame_clear_events :
    decodeRequest .operations 80 0x20 [0x20, 0, 0x10, 0] = .clearEvents (ask .operations 0x00100020#32) := by
  decide +kernel

theorem test_frame_recall : decodeRequest .operations 80 0x0D [14, 0, 0, 0] = .recall (ask .operations ⟨14, none⟩) := by
  decide +kernel

theorem test_frame_of_an_unknown_kind :
    decodeRequest .safety 80 0x23 [1] = .unknownRequest .safety 80 0x23 := by decide +kernel

/-- A feedback frame of drive 2, sequence 7, 47,998,000 µm, 4,800 N, READY. -/
theorem test_feedback_frame :
    decodeFeedback [0x81, 2, 7, 0x30, 0x64, 0xDC, 0x02, 0xC0, 0x12, 1, 0x65, 0x69] =
      .fields ⟨2, 7, 47998000, 4800, 1⟩ := by decide +kernel

/-- R196: a gap inside a frame discards it, and the receiver hunts from the byte after its delimiter. -/
theorem test_receiver_hunts_after_a_break :
    receiveConsole .safety 9 ([Sym.byte 0x7E, .byte 2, .byte 0, .brk] ++ [.byte 0x7E, .byte 2, .byte 0, .byte 1, .byte 0x13, .byte 0xCB, .byte 0x78]) =
      [.consoleFrameDiscard .safety .brk, .release ⟨.safety, 1, .fields ()⟩] := by decide +kernel

/-! The manual's worked examples. -/

/-- Section 1.3: checks 11 and 12 for winch 1. -/
theorem test_geometric_checks_for_winch_1 :
    slackLength (winch (-60000) (-40000)) (farthestCorner span.w ⟨-60000, -40000, 35000⟩) = 144705524 ∧
      slackLength (winch (-60000) (-40000)) ⟨-55000, -35000, 30000⟩ = 12160254 ∧ spanBad span = none ∧
      spanBad { span with winch := { span.winch with w1 := { span.winch.w1 with lmax := 140000 } } } = some (11, 1) := by
  decide +kernel

/-- Section 3.8: the cells of zone 5, the cell of the trolley, and the cells only the amended box covers. -/
theorem test_cells_of_the_corner_zone :
    rangeCells (planRange span false corner) = [78, 79, 94, 95, 110, 111, 126, 127] ∧
      cellOf span.w ⟨28000000, 0, 12000000⟩ = 5 * 16 + 12 ∧
      cellsOutside (planRange span false ⟨36000, 44000, -9000, 9000, 0, 7000⟩) (planRange span false corner) =
        [77, 93, 109, 125] := by decide +kernel

/-- Section 8.10: winch 1 at (10, 5, 12) m under 4,800 N. -/
theorem test_length_of_winch_1 :
    ropeCalc (winch (-60000) (-40000)) ⟨10000000, 5000000, 12000000⟩ 4800 = ⟨41442, 89795109⟩ ∧
      rateLimited 20000 89781300 89795109 = 89795109 ∧ rateLimited 13808 89781300 89795109 = 89795108 := by decide +kernel

/-- Section 10.2: the tensions of the load spike, one after the other. -/
theorem test_tension_of_a_load_spike :
    [37900, 38200, 37800, 37400, 40100, 39600, 39400, 37500].foldl
        (fun l t => l ++ [tensionNext Limits.reset (l.getLastD .normal) t]) [] =
      [.normal, .overload, .overload, .normal, .critical, .critical, .overload, .normal] := by decide +kernel

/-- Section 10.5: the metre completed at 47,986,000 µm is charged to segment 2 of winch 3, whose counter reaches the limit. -/
theorem test_wear_of_a_segment_reaching_its_limit :
    let w : WinchWear := ⟨(Vector.replicate 64 0).setIfInBounds 2 59999, 997000⟩
    let e := feedWear .w3 47986000 12000 (Ev.start { standing .moving with wear := ⟨w, w, w, w⟩ })
    (e.st.wear.get .w3).accumulator = 9000 ∧ (e.st.wear.get .w3).counters[2] = 60000 ∧
      e.out = [.raise (.wear .w3) 2 0] := by decide +kernel

/-- Section 5.11: the entry distance of zone 7 and the braking distance at 2,000 µm/step. -/
theorem test_entry_and_braking_distance :
    entryDistance ⟨flight.move, home, ⟨40000000, 0, 0⟩, 40000000, 28000000⟩
        ⟨29500000, 34500000, -3500000, 3500000, -1500000, 13500000⟩ = some 29500000 ∧
      brakingDistance 2000 32 = 61504 ∧ brakingDistance 1000 32 = 15128 := by decide +kernel

/-- Section 4.8: a cue whose target lies on two faces of the inflated box is stored BLOCKED. -/
theorem test_cue_on_the_face_is_blocked :
    cueBlocked (fenced .idle) ⟨45500, 2000, 8500⟩ = true ∧ cueBlocked (fenced .idle) ⟨45400, 2000, 8600⟩ = false := by
  decide +kernel

/-- Section 6.13: the first step of move 40, and the step that reaches its cap. -/
theorem test_steps_of_move_40 :
    ((after .stepTimerExpiry (standing .moving)).gen.v = 16 ∧
      (after .stepTimerExpiry (standing .moving)).gen.pos = some ⟨10, 13, 10000000⟩) ∧
      moveSpeed { flight with s := 31248 } 992 16 [] = 1000 ∧ flight.offerAt 32248 = ⟨19349, 25798, 10000000⟩ := by
  decide +kernel

/-- Section 6.13: braking from 1,000 µm/step, and the stop at 8. -/
theorem test_braking_of_move_40 :
    let at_ (v s : Nat) (p : Vec3) : State :=
      { standing .braking with gen := { (standing .braking).gen with
          v := v, pos := some p, purpose := some .cut, flight := some { flight with s := s } } }
    let t := after .stepTimerExpiry (at_ 1000 1032248 ⟨619349, 825798, 10000000⟩)
    t.gen.v = 968 ∧ t.gen.pos = some ⟨619930, 826573, 10000000⟩ ∧
      (after .stepTimerExpiry (at_ 8 1047376 ⟨628426, 837901, 10000000⟩)).gen.state = .idle := by decide +kernel

/-- Section 7.7: the step that slides along the x face of zone 7. -/
theorem test_slide_along_a_face :
    let p : Vec3 := ⟨20099696, 3696, 10000000⟩
    let s := putCell (cellOf span.w p) [7] .current
      (putZone 7 (some (zone .active 1 ⟨21600, 23500, -2000, 2000, 0, 12000⟩)) (standing .jogging))
    let t := after .stepTimerExpiry
      { s with gen := { s.gen with pos := some p, jog := { s.gen.jog with velocity := ⟨336, 336, 0⟩ } } }
    t.gen.jog.velocity = ⟨0, 352, 0⟩ ∧ t.gen.pos = some ⟨20099696, 4048, 10000000⟩ := by decide +kernel

/-! One command at a time. -/

/-- R9: SET_SPAN leaves its rebuild in flight before cell 0; its last visit answers. -/
theorem test_set_span_begins_and_ends :
    (after (.setSpan (ask .safety span)) State.reset).zones.op.isSome = true ∧
      (after .cellVisit { configured with zones := { configured.zones with
        op := some ⟨.fullRebuild, none, some .safety, false, .rebuilding, 191, .cells [], []⟩ } }).zones.op = none := by
  decide +kernel

/-- R26, R80: a KEEP_OUT zone over the trolley's cell is ARMING when its indexing ends with the trolley inside. -/
theorem test_zone_over_the_trolley_is_arming :
    let z := zone .pending 1 ⟨-1000, 1000, -1000, 1000, 0, 12000⟩
    let s := putZone 9 (some z) (standing .moving)
    let t := after .cellVisit { s with zones := { s.zones with
      op := some ⟨.zoneAdd, some 9, some .safety, false, .inserting, 87, .cells [], []⟩ } }
    zoneIs t 9 .arming = true ∧ t.gen.state = .braking ∧ t.gen.purpose = some .cut ∧
      t.envelope.arming = [⟨9, .rest⟩] := by decide +kernel

/-- R11: the expiries that fell due during a full rebuild are taken in ascending id order when it ends. -/
theorem test_expiries_behind_a_full_rebuild :
    let due := { zone .active 1 corner with remaining := some 0 }
    let s := putCell 78 [4, 9] .current (putZone 9 (some due) (putZone 4 (some due) configured))
    let t := after .cellVisit { s with zones := { s.zones with
      op := some ⟨.fullRebuild, none, some .safety, false, .rebuilding, 191, .cells [], []⟩
      waiting := [.expiry 9, .expiry 4] } }
    t.zones.op.map TableOp.zone = some (some 4) ∧ t.zones.waiting = [.expiry 9] := by decide +kernel

/-- R50, R191: a cell whose list has failed, which the removal in flight is still to visit, is passed over by the scrubber. -/
theorem test_scrubber_passes_a_cell_to_be_visited :
    let s := fenced .idle
    let bad : State := { s with
      cells := s.cells.setIfInBounds 100 ⟨[], 0, .current⟩, scrubber := ⟨260, some 10⟩
      zones := { s.zones with op := some ⟨.zoneRetire, some 5, some .safety, false, .removing false, 78, .listing, []⟩ } }
    cellFails bad 100 = true ∧ cellFails (after .scrubberTimerExpiry bad) 100 = true ∧
      condAt (after .scrubberTimerExpiry { bad with zones := s.zones }) 100 = .rebuilding := by decide +kernel

/-- R71, R183: a damaged cue whose target has come to lie outside W is suspect and BLOCKED from its failed read on. -/
theorem test_damaged_cue_outside_w :
    let s := standing .idle
    let t := after (.cueQuery (ask .safety 3))
      { s with cues := s.cues.setIfInBounds 3 ⟨some (cue ⟨60000, 0, 9000⟩), 0⟩ }
    cueAt t 3 = some { cue ⟨60000, 0, 9000⟩ with suspect := true, blocked := true } := by decide +kernel

/-- R149, R163: STOP trips a moving generator, whose lengths stay. -/
theorem test_stop_keeps_the_lengths :
    (after .stopAsserted (standing .moving)).gen.state = .stopped ∧
      (after .stopAsserted (standing .moving)).lengths = (standing .moving).lengths := by decide +kernel

/-- R119, R120: a registration beyond the tolerance is refused, and one within it releases BRAKE. -/
theorem test_register :
    (after (.register (ask .operations ⟨0, 0, 10000⟩)) configured).drive.brake = false ∧
      (after (.register (ask .operations ⟨500, 0, 10000⟩)) configured).gen.state = .unregistered := by decide +kernel

/-- R200: a second request while one is in progress is answered PORT_BUSY, kind 80h added, with its own tag. -/
theorem test_second_request_is_busy :
    let s := onPort .safety (fun p => { p with inProgress := some ⟨1, 0x15⟩ }) State.reset
    ((after (.zoneList (ask .safety ())) s).console.port .safety).sending = some ⟨.busy, 80, 0x85, [0x01, 0x00]⟩ := by
  decide +kernel

/-- The queue: the front command runs on the rest of the queue. -/
theorem test_step_takes_the_front :
    step { State.reset with pending := [.stopAsserted, .stopReleased] } =
      exec .stopAsserted { State.reset with pending := [.stopReleased] } := by rfl

/-! States that meet the hypotheses of the statements. -/

theorem standing_free (g : GenState) (l : Link) : (standing g).portFree l := by cases l <;> exact ⟨rfl, rfl⟩
theorem fenced_free (g : GenState) (l : Link) : (fenced g).portFree l := by cases l <;> exact ⟨rfl, rfl⟩
theorem reset_free (l : Link) : State.reset.portFree l := by cases l <;> exact ⟨rfl, rfl⟩
theorem reset_zones_sound : State.reset.zonesSound := by unfold State.zonesSound; decide +kernel
theorem reset_cues_sound : State.reset.cuesSound := by unfold State.cuesSound; decide +kernel
theorem standing_zones_sound (g : GenState) : (standing g).zonesSound := reset_zones_sound
theorem standing_cues_sound (g : GenState) : (standing g).cuesSound := reset_cues_sound
theorem sound_with_cue (n : Nat) (c : Option Cue) {s : State} (h : s.zonesSound) : (putCue n c s).zonesSound :=
  fun i hi => h i hi
theorem fenced_zones_sound : (fenced .idle).zonesSound := by unfold State.zonesSound; decide +kernel
theorem fenced_cues_sound (g : GenState) : (fenced g).cuesSound := reset_cues_sound

/-- What holds of the value an option may hold, from a test of the option. -/
theorem all_some {α : Type} {o : Option α} {P : α → Prop} [DecidablePred P] (h : o.all (fun x => decide (P x)) = true) :
    ∀ x, o = some x → P x := by
  rintro x rfl
  simpa using h

theorem candidate_passes {s : State} {sp : Span} {p : Vec3}
    (h : boxHas (boxMicro sp.w) p = true ∧ cellFails s (cellOf sp.w p) = false ∧
      ∀ id ∈ suppliedIds s (cellOf sp.w p), zoneFails s id = false ∧ outsideZone s p id = true) :
    s.candidatePasses sp p := ⟨h.1, ⟨h.2.1, fun i hi => (h.2.2 i hi).1⟩, fun i hi => (h.2.2 i hi).2⟩

theorem offer_passes {s : State} {sp : Span} {p : Vec3}
    (h : (boxHas (boxMicro sp.w) p = true ∧ cellFails s (cellOf sp.w p) = false ∧
      ∀ id ∈ suppliedIds s (cellOf sp.w p), zoneFails s id = false ∧ outsideZone s p id = true) ∧
      ∀ w ∈ [Winch.w1, .w2, .w3, .w4], inDrum (sp.winch.get w) (s.ropeAt sp p w).commanded = true) :
    s.offerPasses sp p := ⟨candidate_passes h.1, fun w => h.2 w (by cases w <;> simp)⟩

theorem none_lost {s : State} (h : s.drive.channels = PerWinch.all channel) : s.noneGetsLost := by
  intro w hw
  rw [h] at hw
  cases w <;> exact Bool.noConfusion (show true = false from hw.2.1)

theorem no_slow {s : State}
    (h : ∀ i ∈ zoneIds, (zoneAt s i).all fun z => decide (z.state = .active → z.isSlow = false)) : s.noSlow :=
  fun i hi z hz => all_some (h i hi) z hz

theorem lowest_slow {s : State} {test : Box → Bool} {id cap : Nat} (h1 : slowCapWhere s test id = some cap)
    (h2 : ∀ j ∈ zoneIds, (slowCapWhere s test j).all fun k => decide (cap < k ∨ cap = k ∧ id ≤ j)) :
    lowestSlow s test id cap := ⟨h1, fun j hj k hk => all_some (h2 j hj) k hk⟩

/-- The Length Unit's results in the states above. -/
def lengths : PerWinch RopeLength := PerWinch.all ⟨79785053, 36635⟩

/-- `standing` with its generator changed. -/
def moved (g : GenState) (f : Generator → Generator) : State := { standing g with gen := f (standing g).gen }

theorem moved_due (g : GenState) (f : Generator → Generator) (p : Vec3) (h : (f (standing g).gen).stepTimer.isSome = true)
    (hp : (f (standing g).gen).pos = some p) : (moved g f).stepDue span p lengths :=
  ⟨rfl, h, rfl, hp, rfl, none_lost rfl⟩

/-- `standing` with a request in progress on the safety link. -/
def busy (g : GenState) : State := onPort .safety (fun p => { p with inProgress := some ⟨1, 0x01⟩ }) (standing g)

/-- A port-busy frame that waits. -/
def waitingBusy : Frame := ⟨.busy, 1, 0x85, [0x01, 0x00]⟩

/-- Moves with some ids. -/
def moves (ids : List Nat) : List Move := ids.map fun i => ⟨i, .goto, home, none, 1000⟩

/-- `standing` with some contexts on the stack. -/
def stacked (g : GenState) (ids : List Nat) : State :=
  { standing g with gen := { (standing g).gen with stack := (moves ids).map fun m => ⟨m, .manual⟩ } }

theorem witness_StepTakesTheFrontCommand :
    ({ State.reset with pending := [.stopAsserted, .stopReleased] } : State).pending = [.stopAsserted, .stopReleased] ∧
      State.reset.pending = [] := ⟨rfl, rfl⟩

theorem witness_EveryCommandRunsAndKeepsTheQueue :
    Instr.stopReleased.wf = true ∧ isRequestKind 0x01 = true ∧ isRequestKind 0x22 = true ∧
      ∃ t, exec .stopReleased State.reset = .next t := ⟨rfl, rfl, rfl, _, rfl⟩

theorem witness_ResetsClearEveryBlock : State.reset.pending = [] ∧ State.reset.drive.stopInput = false := ⟨rfl, rfl⟩

theorem witness_ResetsLastUntilTheirEnd :
    ({ State.reset with resetting := true } : State).resetting = true ∧ State.reset.resetting = false ∧
      Instr.stepTimerExpiry.wf = true ∧ beginsReset .stepTimerExpiry = false ∧ Instr.stepTimerExpiry ≠ .endOfReset ∧
      Instr.stepTimerExpiry ≠ .stopAsserted ∧ Instr.stepTimerExpiry ≠ .stopReleased := by decide +kernel

theorem witness_PortsDecideFreeAndBusy_free :
    State.reset.portFree .operations ∧ isRequestKind 0x00 = false ∧ isRequestKind 0x23 = false ∧
      requestOf (.wearReset (ask .operations 1)) = some (.operations, 80, .wearReset) ∧
      requestOf (.release ⟨.safety, 80, .malformed⟩) = some (.safety, 80, .release) ∧
      malformedRequest (.release ⟨.safety, 80, .malformed⟩) = true := ⟨reset_free _, rfl, rfl, rfl, rfl, rfl⟩

theorem witness_PortsDecideFreeAndBusy_busy :
    (busy .idle).resetting = false ∧ ((busy .idle).console.port .safety).inProgress.isSome = true ∧
      ((busy .idle).console.port .safety).busyWaiting < 8 ∧
      (let s := onPort .safety (fun p => { p with waiting := List.replicate 8 waitingBusy }) (busy .idle)
       s.resetting = false ∧ (s.console.port .safety).inProgress.isSome = true ∧
         8 ≤ (s.console.port .safety).busyWaiting) ∧
      requestOf (.zoneList (ask .safety ())) = some (.safety, 80, .zoneList) ∧ isRequestKind 0x23 = false := by
  decide +kernel

theorem witness_LinkEventsRaiseTheFlagAndSendOn :
    State.reset.resetting = false ∧
      ((onPort .safety (fun p => p.enqueue waitingBusy) State.reset).console.port .safety).sending = some waitingBusy := by
  decide +kernel

theorem witness_AnswerIsSplitIntoParts :
    ∀ u ∈ (⟨.ok, false, [List.replicate 238 0, [1]]⟩ : Answer).details, u.length ≤ 238 := by decide +kernel

theorem witness_EventFlagsAreRaisedAndAnswered :
    State.reset.console.flags[EventFlag.number .fault]? = some none ∧
      (raiseFlag .fault 3 0 State.reset).console.flags[EventFlag.number .fault]? = some (some ⟨3, 0⟩) := by decide +kernel

theorem witness_EventFlagsAreRaisedAndAnswered_requests :
    (raiseFlag .fault 3 0 State.reset).portFree .safety ∧ (0x1FFFFF#32).toNat < 2 ^ 21 ∧
      2 ^ 21 ≤ (0x200000#32).toNat := ⟨⟨rfl, rfl⟩, by decide, by decide⟩

theorem witness_FlagsStandUntilCleared :
    let s := raiseFlag .fault 3 0 State.reset
    (∃ t, exec (.clearEvents (ask .safety 0x1#32)) s = .next t) ∧
      beginsReset (.clearEvents (ask .safety 0x1#32)) = false ∧ (0x1#32).getLsbD 18 = false ∧
      s.console.flags[18] = some ⟨3, 0⟩ := ⟨⟨_, rfl⟩, rfl, by decide, by decide +kernel⟩

theorem witness_ClearFaultEmptiesTheFaultRecord :
    (standing .halted).portFree .safety ∧ (standing .halted).portFree .operations ∧
      State.reset.faults = ⟨Vector.replicate 9 false, none⟩ := ⟨standing_free _ _, standing_free _ _, rfl⟩

theorem witness_WearRequestsReportAndRewrite :
    (standing .idle).portFree .operations ∧ ((0 : Nat) = 0 ∨ 4 < 0) ∧ ((5 : Nat) = 0 ∨ 4 < 5) :=
  ⟨standing_free _ _, by decide, by decide⟩

theorem witness_WearRequestsReportAndRewrite_rewrite :
    (standing .stopped).portFree .operations ∧ (standing .stopped).portFree .safety ∧ ((5 : Nat) = 0 ∨ 4 < 5) ∧
      4 = Winch.w4.number ∧ (standing .idle).drive.brake = false ∧ (standing .stopped).drive.brake = true :=
  ⟨standing_free _ _, standing_free _ _, by decide, rfl, rfl, rfl⟩

theorem witness_StatusQueriesChangeNothing : (standing .moving).portFree .operations := standing_free _ _

theorem witness_ZoneAndCueQueriesReportTheRecords_zones :
    (fenced .idle).portFree .operations ∧ zoneFails (fenced .idle) 5 = false ∧ zoneFails (fenced .idle) 63 = false ∧
      63 < 64 ∧ (fenced .idle).zonesSound ∧ (fenced .idle).spanSet.span = some span ∧
      (pointOk ⟨50000, 0, 5000⟩ = true ∧ boxHas span.w ⟨50000, 0, 5000⟩ = true ∧
        cellFails (fenced .idle) (cellOf span.w (toMicro ⟨50000, 0, 5000⟩)) = false) ∧
      pointOk ⟨55001, 0, 5000⟩ = true ∧ boxHas span.w ⟨55001, 0, 5000⟩ = false :=
  ⟨fenced_free _ _, by decide +kernel, by decide +kernel, by decide, fenced_zones_sound, rfl, by decide +kernel,
    by decide +kernel, by decide +kernel⟩

theorem witness_ZoneAndCueQueriesReportTheRecords_cues :
    let s := putCue 95 (some (cue ⟨0, 0, 9000⟩)) (standing .idle)
    s.portFree .operations ∧ cueFails s 95 = false ∧ 95 < 96 ∧ s.cuesSound :=
  ⟨⟨rfl, rfl⟩, by decide +kernel, by decide, by unfold State.cuesSound; decide +kernel⟩

/-- `fenced` with a damaged record in zone slot 5. -/
def damaged (g : GenState) : State :=
  { fenced g with zones := { (fenced g).zones with
      slots := (fenced g).zones.slots.setIfInBounds 5 ⟨some (zone .active 1 corner), 0⟩ } }

theorem witness_DamagedZoneReadHalts :
    ∀ g ∈ [GenState.idle, .held, .moving, .braking, .jogging, .halted, .stopped],
      (damaged g).resetting = false ∧ ((damaged g).console.port .safety).inProgress = none ∧
        zoneAt (damaged g) 5 = some (zone .active 1 corner) ∧ zoneFails (damaged g) 5 = true ∧
        (damaged g).console.flags[17] = none ∧ (damaged g).faults.captured = none := by decide +kernel

/-- A ZONE_ADD of the corner zone as zone 6. -/
def addCorner : ZoneAddFields := ⟨6, 1, corner, none, some 3601⟩

theorem witness_ZoneAddBeginsItsOperation :
    State.reset.portFree .operations ∧ State.reset.spanSet.span = none ∧
      (fenced .idle).portFree .operations ∧ (fenced .idle).spanSet.span = some span ∧
      zoneAddBad { addCorner with id := 64 } = some 1 ∧
      (zoneAddBad { addCorner with id := 5 } = none ∧ (zoneAt (fenced .idle) 5).isSome = true) ∧
      (zoneAddBad addCorner = none ∧ zoneAt (fenced .idle) 6 = none ∧
        rangeCells (planRange span (decide (addCorner.kind = 2)) addCorner.box) = 78 :: [79, 94, 95, 110, 111, 126, 127]) ∧
      (∀ n ∈ 78 :: [79, 94, 95, 110, 111, 126, 127], condAt (fenced .idle) n = .current ∧ cellFails (fenced .idle) n = false) ∧
      (∀ n ∈ 78 :: [79, 94, 95, 110, 111, 126, 127], (idsAt (fenced .idle) n).length < 8) ∧
      (fenced .idle).zones.op = none :=
  ⟨reset_free _, rfl, fenced_free _ _, rfl, by decide +kernel, by decide +kernel, by decide +kernel, by decide +kernel,
    by decide +kernel, rfl⟩

/-- `fenced` with a full list in cell 79. -/
def crowded : State := putCell 79 [10, 11, 12, 13, 14, 15, 16, 17] .current (fenced .idle)

theorem witness_ZoneAddBeginsItsOperation_full_cell :
    (∀ n ∈ 78 :: [79, 94, 95, 110, 111, 126, 127], condAt crowded n = .current ∧ cellFails crowded n = false) ∧
      78 :: [79, 94, 95, 110, 111, 126, 127] = [78] ++ 79 :: [94, 95, 110, 111, 126, 127] ∧
      (∀ m ∈ [78], (idsAt crowded m).length < 8) ∧ 8 ≤ (idsAt crowded 79).length := by decide +kernel

theorem witness_ZoneAmendIsRefusedOrTakesEffect :
    (fenced .idle).portFree .operations ∧ (fenced .idle).spanSet.span = some span ∧
      zoneAt (fenced .idle) 5 = some (zone .active 1 corner) ∧ zoneFails (fenced .idle) 5 = false ∧
      ((zone .active 1 corner).ownerByte = 1 ∧ (zone .active 1 corner).suspect = false) ∧
      (zoneAmendBad (zone .active 1 corner) ⟨5, none, none, some 0, some 0⟩ = none) ∧
      zoneAmendBad (zone .active 1 corner) ⟨5, some ⟨36000, 44000, -9000, 9000, 0, 7000⟩, none, none, none⟩ = none ∧
      (∀ n ∈ rangeCells (planRange span (zone .active 1 corner).isSlow ⟨36000, 44000, -9000, 9000, 0, 7000⟩),
        (condAt (fenced .idle) n = .current ∧ cellFails (fenced .idle) n = false) ∧
          ((idsAt (fenced .idle) n).length < 8 ∨ 5 ∈ idsAt (fenced .idle) n)) ∧
      cellsOutside (planRange span (zone .active 1 corner).isSlow ⟨36000, 44000, -9000, 9000, 0, 7000⟩)
        (planRange span (zone .active 1 corner).isSlow (zone .active 1 corner).box) = 77 :: [93, 109, 125] :=
  ⟨fenced_free _ _, rfl, by decide +kernel, by decide +kernel, by decide, by decide +kernel, by decide +kernel,
    by decide +kernel, by decide +kernel⟩

/-- `standing` with a zone in slot 6. -/
def holding (z : Zone) : State := putZone 6 (some z) (standing .idle)

theorem witness_ZoneAmendIsRefusedOrTakesEffect_refused :
    (∀ z ∈ [zone .pending 1 corner, zone .retiring 1 corner, zone .arming 1 corner,
        { zone .active 1 corner with ownerByte := 2 }, { zone .active 1 corner with suspect := true },
        { zone .active 1 corner with revision := 255 }],
      zoneAt (holding z) 6 = some z ∧ zoneFails (holding z) 6 = false) ∧
      zoneAt (fenced .idle) 64 = none ∧ (0 : Byte) ≠ { zone .active 1 corner with revision := 255 }.revision ∧
      zoneAmendBad (zone .active 1 corner) ⟨6, none, some 500, none, none⟩ = some 3 ∧
      (let r := rangeCells (planRange span false corner)
       (∀ n ∈ r, condAt crowded n = .current ∧ cellFails crowded n = false) ∧
         r = [78] ++ 79 :: [94, 95, 110, 111, 126, 127] ∧ (∀ m ∈ [78], (idsAt crowded m).length < 8 ∨ 5 ∈ idsAt crowded m) ∧
         8 ≤ (idsAt crowded 79).length ∧ 5 ∉ idsAt crowded 79) := by decide +kernel

theorem witness_ZoneRetireIsRefusedOrBegins :
    (fenced .idle).portFree .operations ∧ zoneAt (fenced .idle) 5 = some (zone .active 1 corner) ∧
      (fenced .idle).zones.op = none ∧ (fenced .idle).zonesSound ∧ (fenced .idle).cuesSound ∧
      nextListing (fenced .idle) 5 0 = some 78 :=
  ⟨fenced_free _ _, by decide +kernel, rfl, fenced_zones_sound, fenced_cues_sound _, by decide +kernel⟩

theorem witness_ZoneRetireIsRefusedOrBegins_arming :
    let s := putCell 78 [6] .current (putZone 6 (some (zone .arming 1 corner)) (standing .moving))
    s.portFree .safety ∧ zoneAt s 6 = some (zone .arming 1 corner) ∧ zoneFails s 6 = false ∧ s.gen.state = .moving ∧
      s.zones.op = none ∧ s.zonesSound ∧ s.cuesSound ∧ nextListing s 6 0 = some 78 :=
  ⟨⟨rfl, rfl⟩, by decide +kernel, by decide +kernel, rfl, rfl, by unfold State.zonesSound; decide +kernel,
    by unfold State.cuesSound; decide +kernel, by decide +kernel⟩

theorem witness_CueRequestsWriteTheirRecord :
    let s := putCue 95 (some (cue ⟨0, 0, 9000⟩)) (standing .idle)
    s.portFree .operations ∧ s.spanSet.span = some span ∧ s.zonesSound ∧
      (cueStoreBad ⟨95, some ⟨55000, 0, 2000⟩, false, some 25000⟩ = none ∧ boxHas span.w ⟨55000, 0, 2000⟩ = true) ∧
      (cueStoreBad ⟨0, none, true, none⟩ = none ∧ s.gen.state ≠ .unregistered ∧ s.gen.state ≠ .stopped ∧
        s.gen.pos = some home) ∧
      boxHas span.w ⟨55001, 0, 2000⟩ = false ∧ (standing .stopped).gen.state = .stopped ∧
      cueAt s 95 = some (cue ⟨0, 0, 9000⟩) ∧ cueFails s 95 = false ∧
      cueAmendBad ⟨95, some ⟨55000, 0, 2000⟩, some 0, some 0⟩ = none ∧
      boxHas (boxMicro span.w) (toMicro ⟨55000, 0, 2000⟩) = true ∧ (1 : Byte) ≠ (cue ⟨0, 0, 9000⟩).revision ∧
      cueAt s 94 = none :=
  ⟨⟨rfl, rfl⟩, rfl, sound_with_cue _ _ (standing_zones_sound .idle), by decide +kernel, by decide +kernel, by decide +kernel, rfl,
    by decide +kernel, by decide +kernel, by decide +kernel, by decide +kernel, by decide, by decide +kernel⟩

/-- A state with an operation in flight. -/
def indexingOf (s : State) (op : TableOp) : State := { s with zones := { s.zones with op := some op } }

/-- `fenced` with an operation in flight. -/
def indexing (op : TableOp) : State := indexingOf (fenced .idle) op

theorem witness_CellVisitChangesOneList :
    (let s := indexing ⟨.zoneAdd, some 6, some .safety, false, .inserting, 78, .cells [79], []⟩
     s.resetting = false ∧ s.cellSound 78 ∧ (insertId 6 (idsAt s 78)).length ≤ 8) ∧
      (let s := indexing ⟨.zoneAmend, some 5, some .safety, false, .removing false, 78, .cells [79], []⟩
       s.cellSound 78 ∧ ((idsAt s 78).erase 5).length ≤ 8) ∧
      (let s := indexing ⟨.cellRebuild, none, none, false, .rebuilding, 78, .cells [79], []⟩
       s.zonesSound ∧ (coverIds s 78).length ≤ 8) :=
  ⟨⟨rfl, by unfold State.cellSound; decide +kernel, by decide +kernel⟩,
    ⟨by unfold State.cellSound; decide +kernel, by decide +kernel⟩, fenced_zones_sound, by decide +kernel⟩

/-- Nine zones over the corner. -/
def nine : State :=
  [6, 7, 8, 9, 10, 11, 12, 13].foldl (fun s i => putZone i (some (zone .active 1 corner)) s)
    (indexing ⟨.cellRebuild, none, none, false, .rebuilding, 78, .cells [79], []⟩)

theorem witness_CellVisitChangesOneList_overfull : nine.zonesSound ∧ 8 < (coverIds nine 78).length :=
  ⟨by unfold State.zonesSound; decide +kernel, by decide +kernel⟩

/-- The end of the indexing of zone 6 over a box, with the generator in a state. -/
def closing (g : GenState) (kind : Byte) (b : Box) (op : TableOp) : State :=
  onPort .safety (fun p => { p with inProgress := some ⟨1, 0x01⟩ })
    { putZone 6 (some (zone .pending kind b)) (standing g) with
      zones := { (putZone 6 (some (zone .pending kind b)) (standing g)).zones with op := some op } }

/-- The last visit of the ZONE_ADD of zone 6. -/
def lastVisit : TableOp := ⟨.zoneAdd, some 6, some .safety, true, .inserting, 78, .cells [], [77]⟩

/-- A box over `home`. -/
def above : Box := ⟨-1000, 1000, -1000, 1000, 0, 12000⟩

/-- A box over the whole of W. -/
def everywhere : Box := ⟨-56000, 56000, -36000, 36000, 0, 31000⟩

theorem closing_common (g : GenState) (kind : Byte) (b : Box) (op : TableOp) :
    (closing g kind b op).resetting = false ∧ (closing g kind b op).zones.waiting = [] ∧
      (closing g kind b op).cuesSound ∧ (closing g kind b op).zones.op = some op ∧
      (closing g kind b op).gen = (standing g).gen ∧ (closing g kind b op).spanSet.span = some span ∧
      ((closing g kind b op).console.port .safety).inProgress = some ⟨1, 0x01⟩ :=
  ⟨rfl, rfl, reset_cues_sound, rfl, rfl, rfl, rfl⟩

theorem witness_IndexedZoneTakesTheDecision :
    ∀ b ∈ [corner, above, everywhere], ∀ kind ∈ [1, 2],
      let s := closing .idle kind b lastVisit
      (∀ i ∈ zoneIds, zoneFails s i = false) ∧ zoneAt s 6 = some (zone .pending kind b) ∧
        (zone .pending kind b).isSlow = decide (kind = 2) ∧ (region span.clearance b).isSome = true ∧
        (condAt s 78 = .current ∧ cellFails s 78 = false) ∧ (insertId 6 (idsAt s 78)).length ≤ 8 ∧
        s.gen.queue = [] ∧ s.gen.stack = [] ∧ s.gen.pos = some home ∧ s.gen.nextId ∉ heldIds s.gen := by decide +kernel

/-- The inflated box of a KEEP_OUT zone. -/
def inflated (b : Box) : Box := (region span.clearance b).getD b

/-- A box that move 40 enters 1,100 mm on, and one it enters within its braking distance at 1,000 µm/step. -/
def ahead (near : Bool) : Box := if near then ⟨1509, 4000, 1500, 4500, 0, 12000⟩ else ⟨2160, 4000, 1500, 4500, 0, 12000⟩

/-- Move 40 as an exit move. -/
def leaving : Flight := { flight with move := { flight.move with kind := .exit } }

theorem decision_places :
    (boxHas (inflated corner) home = false ∧ boxHas (inflated above) home = true ∧
      ∀ k, boxHas (inflated (ahead k)) home = false) ∧
      entryDistance flight (inflated corner) = none ∧ entryDistance flight (inflated above) = some 0 ∧
      entryDistance leaving (inflated above) = some 0 ∧ entryDistance leaving (inflated corner) = none ∧
      entryDistance flight (inflated (ahead false)) = some 1100000 ∧
      entryDistance flight (inflated (ahead true)) = some 15000 ∧
      flight.s + brakingDistance 0 span.brakeAccel < 1100000 ∧
      15000 ≤ flight.s + brakingDistance 1000 span.brakeAccel := by decide +kernel

/-- The rows that end ACTIVE: at rest outside the box, in flight with no entry distance, and in flight towards it. -/
theorem witness_IndexedZoneTakesTheDecision_active :
    (∀ g ∈ [GenState.idle, .held, .jogging, .halted, .stopped],
      (standing g).decidesActive span home (inflated corner) (standing g).gen) ∧
      (∀ g ∈ [GenState.moving, .braking], (standing g).decidesActive span home (inflated corner) (standing g).gen) ∧
      (standing .moving).decidesActive span home (inflated (ahead false)) (standing .moving).gen.cutting ∧
      (standing .braking).decidesActive span home (inflated (ahead false)) (standing .braking).gen := by
  obtain ⟨⟨h1, -, h2⟩, h3, -, -, -, h4, -, h5, -⟩ := decision_places
  refine ⟨fun g hg => .inl ⟨h1, rfl, ?_⟩, fun g hg => .inr ⟨flight, ?_, .inl ⟨?_, h3, rfl, fun _ _ => h1⟩⟩,
    .inr ⟨flight, rfl, .inr ⟨_, h4, h2 false, h5, .inl ⟨rfl, by decide, rfl⟩⟩⟩,
    .inr ⟨flight, rfl, .inr ⟨_, h4, h2 false, h5, .inr ⟨rfl, rfl⟩⟩⟩⟩
  all_goals revert g; decide

/-- The rows that end ARMING: the trolley inside the box, an exit move that meets it, and an entry too near to brake. -/
theorem witness_IndexedZoneTakesTheDecision_arming :
    (∀ g ∈ [GenState.halted, .stopped],
      (standing g).decidesArming span home (inflated above) .release (standing g).gen) ∧
      (∃ k, (standing .jogging).decidesArming span home (inflated above) .rest
        { (standing .jogging).gen with jog := { (standing .jogging).gen.jog with request := ⟨0, 0, 0⟩, purpose := some k } }) ∧
      (moved .moving fun g => { g with flight := some leaving }).decidesArming span home (inflated above) .exit
        { (standing .moving).gen with flight := some leaving } ∧
      (standing .moving).decidesArming span home (inflated above) .rest (standing .moving).gen.cutting ∧
      (let s := moved .moving fun g => { g with v := 1000 }
       s.decidesArming span home (inflated (ahead true)) .rest s.gen.cutting) ∧
      (standing .braking).decidesArming span home (inflated above) .rest (standing .braking).gen := by
  obtain ⟨⟨-, h1, -⟩, -, h2, h3, -, -, h4, -, h5⟩ := decision_places
  refine ⟨fun g hg => .inl ⟨h1, .inl ⟨?_, rfl, rfl⟩⟩, ⟨.zone, .inl ⟨h1, .inr ⟨rfl, rfl, rfl⟩⟩⟩,
    .inr ⟨leaving, rfl, .inl ⟨rfl, rfl, .inl h1, rfl, rfl⟩⟩,
    .inr ⟨flight, rfl, .inr ⟨_, h2, .inl h1, rfl, .inl ⟨rfl, by decide, rfl⟩⟩⟩,
    .inr ⟨flight, rfl, .inr ⟨_, h4, .inr h5, rfl, .inl ⟨rfl, by decide, rfl⟩⟩⟩,
    .inr ⟨flight, rfl, .inr ⟨_, h2, .inl h1, rfl, .inr ⟨rfl, rfl⟩⟩⟩⟩
  revert g; decide

/-- A queue and a stack with a move into the corner zone each, and one elsewhere each. -/
def bound (g : Generator) : Generator :=
  { g with queue := [⟨42, .goto, ⟨50000000, 0, 5000000⟩, none, 1000⟩, ⟨43, .goto, home, none, 1000⟩]
           stack := [⟨⟨44, .goto, home, none, 1000⟩, .auto⟩, ⟨⟨45, .goto, ⟨50000000, 0, 5000000⟩, none, 1000⟩, .manual⟩] }

theorem witness_IndexedZoneTakesTheDecision_dropped :
    let s : State := { closing .idle 1 corner lastVisit with gen := bound (standing .idle).gen }
    s.decidesActive span home (inflated corner) s.gen ∧ s.gen.lostTo (inflated corner) = [42, 45] ∧
      (s.gen.without (inflated corner)).queue = [⟨43, .goto, home, none, 1000⟩] ∧
      (s.gen.without (inflated corner)).stack = [⟨⟨44, .goto, home, none, 1000⟩, .auto⟩] :=
  ⟨.inl ⟨by decide +kernel, rfl, .inl rfl⟩, by decide +kernel, by decide +kernel, by decide +kernel⟩

/-- An exit planned at once, and none. -/
theorem witness_IndexedZoneTakesTheDecision_exit :
    (planExit (closing .idle 1 above lastVisit) 6 (some (inflated above))).isSome = true ∧
      planExit (closing .held 1 everywhere lastVisit) 6 (some (inflated everywhere)) = none ∧
      boxHas (inflated everywhere) home = true ∧ (standing .held).gen.state = .held ∧
      nextListing
        { setZoneState 6 .retiring (closing .idle 1 everywhere lastVisit) with
          cells := (standing .idle).cells.setIfInBounds 78 ⟨[6], cellCheck [6], .current⟩ } 6 0 = some 78 := by
  decide +kernel

theorem witness_IndexedZoneTakesTheDecision_no_exit :
    let op : TableOp := ⟨.zoneAdd, some 6, some .safety, true, .removing true, 78, .listing, [77, 78]⟩
    let s := putCell 78 [6] .current (closing .idle 1 everywhere op)
    s.zones.op = some op ∧ (condAt s 78 = .current ∧ cellFails s 78 = false) ∧
      ((idsAt s 78).erase 6).length ≤ 8 ∧
      nextListing
        { s with cells := s.cells.setIfInBounds 78 ⟨(idsAt s 78).erase 6, cellCheck ((idsAt s 78).erase 6), .current⟩ }
        6 79 = none := by decide +kernel

/-- The ZONE_AMEND of zone 6 from one box to another, at a visit of a phase, with the generator in a state. -/
def amending (g : GenState) (kind : Byte) (old new : Box) (phase : Phase) : State :=
  onPort .safety (fun p => { p with inProgress := some ⟨1, 0x02⟩ })
    (indexingOf (putZone 6 (some { zone .active kind old with pendingBox := some ⟨new, none, some 30⟩ }) (standing g))
      ⟨.zoneAmend, some 6, some .safety, true, phase, 78, .cells [], [77]⟩)

theorem witness_AmendedZoneTakesTheDecision :
    ∀ b ∈ [corner, above, everywhere], ∀ kind ∈ [1, 2],
      let s := amending .idle kind ⟨40000, 50000, -9000, 9000, 0, 7000⟩ b .inserting
      s.resetting = false ∧ s.zones.waiting = [] ∧
        (zoneAt s 6).any (fun z => z.state == .active && z.pendingBox == some ⟨b, none, some 30⟩) = true ∧
        (∀ i ∈ zoneIds, zoneFails s i = false) ∧ (condAt s 78 = .current ∧ cellFails s 78 = false) ∧
        (s.console.port .safety).inProgress = some ⟨1, 0x02⟩ ∧ s.spanSet.span = some span ∧
        s.zones.op = some ⟨.zoneAmend, some 6, some .safety, true, .inserting, 78, .cells [], [77]⟩ ∧
        (insertId 6 (idsAt s 78)).length ≤ 8 ∧ s.gen.pos = some home ∧ (region span.clearance b).isSome = true ∧
        s.gen.nextId ∉ heldIds s.gen := by decide +kernel

/-- The rows of the decision, with moves to drop, with an exit and without one. -/
theorem witness_AmendedZoneTakesTheDecision_rows :
    let from_ : Box := ⟨40000, 50000, -9000, 9000, 0, 7000⟩
    let s : State := { amending .idle 1 from_ corner .inserting with gen := bound (standing .idle).gen }
    (s.cuesSound ∧ s.decidesActive span home (inflated corner) s.gen ∧ s.gen.lostTo (inflated corner) = [42, 45]) ∧
      (amending .halted 1 from_ above .inserting).decidesArming span home (inflated above) .release
        (standing .halted).gen ∧
      (planExit (amending .idle 1 from_ above .inserting) 6 (some (inflated above))).isSome = true ∧
      planExit (amending .held 1 from_ everywhere .inserting) 6 (some (inflated everywhere)) = none ∧
      cellsOutside (planRange span false from_) (planRange span false corner) ≠ [] ∧
      cellsOutside (planRange span false corner) (planRange span false corner) = [] :=
  ⟨⟨reset_cues_sound, .inl ⟨by decide +kernel, rfl, .inl rfl⟩, by decide +kernel⟩,
    .inl ⟨by decide +kernel, .inl ⟨.inl rfl, rfl, rfl⟩⟩, by decide +kernel, by decide +kernel, by decide +kernel,
    by decide +kernel⟩

/-- The last visit of the removal that follows. -/
theorem witness_AmendedZoneTakesTheDecision_removal :
    ∀ k : Bool,
      let s := putCell 78 [6] .current (amending .idle 1 corner above (.removing k))
      s.zones.op = some ⟨.zoneAmend, some 6, some .safety, true, .removing k, 78, .cells [], [77]⟩ ∧
        (condAt s 78 = .current ∧ cellFails s 78 = false) ∧ ((idsAt s 78).erase 6).length ≤ 8 := by decide +kernel

theorem witness_OneSecondCountsDown :
    (let s := putZone 63 (some { zone .active 1 corner with remaining := some 1 })
        (indexing ⟨.cellRebuild, none, none, false, .rebuilding, 78, .cells [79], []⟩)
     s.resetting = false ∧ s.zones.secondTimer.isSome = true ∧ s.zonesSound ∧ s.zones.op.isSome = true) ∧
      (let s := putZone 63 (some { zone .active 1 corner with remaining := some 2 }) (standing .idle)
       s.zonesSound ∧ s.zones.op = none ∧ s.zones.waiting = [] ∧ s.zones.secondTimer.isSome = true ∧
         ∀ id ∈ zoneIds, ∀ z ∈ zoneAt s id, z.state = .active → z.remaining ≠ some 1) :=
  ⟨⟨rfl, rfl, by unfold State.zonesSound; decide +kernel, rfl⟩, by unfold State.zonesSound; decide +kernel, rfl, rfl, rfl,
    by decide +kernel⟩

theorem witness_OneSecondCountsDown_due :
    let s := putCell 78 [63] .current
      (putZone 63 (some { zone .active 1 corner with remaining := some 1 }) (standing .idle))
    let counted : State := { s with zones := { s.zones with slots := s.countedDown, secondTimer := some 1000 } }
    s.zones.op = none ∧ s.zones.waiting = [] ∧ s.zonesSound ∧ s.cuesSound ∧
      ((List.range 64).filter fun id => (zoneAt s id).any fun z => z.state == .active && z.remaining == some 1) = 63 :: [] ∧
      nextListing (setZoneState 63 .retiring counted) 63 0 = some 78 :=
  ⟨rfl, rfl, by unfold State.zonesSound; decide +kernel, by unfold State.cuesSound; decide +kernel, by decide +kernel,
    by decide +kernel⟩

theorem witness_ScrubberTakesItsItem :
    ∀ n ∈ [0, 63, 64, 159, 160, 351],
      let s := { fenced .idle with scrubber := ⟨n, some 10⟩ }
      s.resetting = false ∧ s.scrubber.timer.isSome = true ∧
        (s.scrubber.position < 64 → zoneFails s s.scrubber.position = false) ∧
        (64 ≤ s.scrubber.position → s.scrubber.position < 160 → cueFails s (s.scrubber.position - 64) = false) ∧
        (160 ≤ s.scrubber.position →
          condAt s (s.scrubber.position - 160) = .current ∧ cellFails s (s.scrubber.position - 160) = false) := by
  decide +kernel

/-- The scrubber at an item. -/
def scrubbing (n : Nat) (s : State) : State := { s with scrubber := ⟨n, some 10⟩ }

/-- A damaged zone record, and one that the operation in flight passes over. -/
theorem witness_ScrubberTakesItsItem_zone :
    (∀ g ∈ [GenState.idle, .moving, .stopped],
      let s := scrubbing 5 (damaged g)
      s.resetting = false ∧ s.scrubber.timer.isSome = true ∧ s.zones.op = none ∧ zoneFails s 5 = true ∧
        (zoneAt s 5).isSome = true ∧ s.console.flags[17] = none ∧ s.faults.captured = none) ∧
      (let s := scrubbing 5 (indexingOf (damaged .idle) ⟨.zoneAmend, some 5, some .safety, false, .inserting, 78, .cells [], []⟩)
       s.zones.op.any (fun op => op.zone == some 5) = true ∧ zoneFails s 5 = true) := by decide +kernel

/-- A damaged cue record whose target lies in W, and one whose target does not. -/
theorem witness_ScrubberTakesItsItem_cue :
    ∀ x ∈ [55000, 55001],
      let s : State := { scrubbing 159 (standing .idle) with
        cues := (standing .idle).cues.setIfInBounds 95 ⟨some (cue ⟨x, 0, 9000⟩), 0⟩ }
      s.scrubber.position = 159 ∧ cueFails s 95 = true ∧ cueAt s 95 = some (cue ⟨x, 0, 9000⟩) ∧
        (s.spanSet.span.any fun sp => boxHas (boxMicro sp.w) (toMicro (cue ⟨x, 0, 9000⟩).target)) = decide (x = 55000) := by
  decide +kernel

/-- A cell with damage or with too many zones, in an idle table and behind an operation on another cell. -/
theorem witness_ScrubberTakesItsItem_cell :
    let worn (c : CellCondition) (s : State) : State := scrubbing 351 { s with cells := s.cells.setIfInBounds 191 ⟨[], 0, c⟩ }
    let other : TableOp := ⟨.cellRebuild, none, none, false, .rebuilding, 78, .cells [], []⟩
    (worn .current (standing .idle)).zones.op = none ∧ (worn .current (standing .idle)).zones.waiting = [] ∧
      ¬(worn .current (standing .idle)).touchedCell 191 ∧
      (cellFails (worn .current (standing .idle)) 191 = true ∧ condAt (worn .current (standing .idle)) 191 = .current) ∧
      condAt (worn .overfull (standing .idle)) 191 = .overfull ∧
      condAt (worn .rebuilding (standing .idle)) 191 = .rebuilding ∧
      ¬(worn .overfull (indexing other)).touchedCell 191 ∧ (worn .overfull (indexing other)).zones.op = some other ∧
      (worn .current (indexing { other with kind := .fullRebuild })).touchedCell 191 ∧
      (worn .current (indexing { other with cell := 191 })).touchedCell 191 := by
  refine ⟨rfl, rfl, ?_, by decide +kernel, by decide +kernel, by decide +kernel, ?_, rfl, ⟨_, rfl, trivial⟩, ⟨_, rfl, rfl⟩⟩
  · rintro ⟨op, h, -⟩
    cases h
  · rintro ⟨op, h, k⟩
    cases h
    exact absurd k (by decide)

theorem standing_none_lost (g : GenState) : (standing g).noneGetsLost := by
  intro w h; cases w <;> exact Bool.noConfusion (show true = false from h.2.1)

theorem witness_HoldTimerSendsItsFrames :
    (standing .stopped).resetting = false ∧ (standing .stopped).drive.holdTimer.isSome = true ∧
      (standing .stopped).noneGetsLost ∧
      (∀ w, ((standing .stopped).drive.channels.get w).lastCommand = some ((PerWinch.all (79785053 : Int)).get w)) ∧
      (standing .stopped).drive.brake = true ∧
      ((standing .idle).drive.brake = false ∧ (standing .idle).drive.setSinceRelease = true ∧
        (standing .idle).drive.setSinceExpiry = false) ∧
      ({ (standing .idle).drive with setSinceExpiry := true }).setSinceExpiry = true :=
  ⟨rfl, rfl, standing_none_lost _, by intro w; cases w <;> rfl, rfl, ⟨rfl, rfl, rfl⟩, rfl⟩

theorem witness_HoldTimerSendsItsFrames_before_any_length :
    configured.resetting = false ∧ configured.drive.holdTimer.isSome = true ∧ configured.noneGetsLost ∧
      configured.drive.brake = true ∧ (configured.drive.channels.get .w1).lastCommand = none :=
  ⟨rfl, rfl, by intro w h; cases w <;> exact Bool.noConfusion (show true = false from h.2.1), rfl, rfl⟩

/-- `standing` with a LENGTH frame on every channel that is not answered. -/
def unanswered (g : GenState) (misses : Nat) : State :=
  { standing g with drive := { (standing g).drive with
      channels := PerWinch.all { channel with answered := false, misses := misses } } }

theorem witness_LostDriveAndCriticalTensionTrip :
    (let s := { unanswered .moving 4 with drive := { (unanswered .moving 4).drive with setSinceRelease := false } }
     s.resetting = false ∧ s.drive.holdTimer.isSome = true ∧ s.drive.brake = false ∧ s.drive.setSinceRelease = false ∧
       s.gen.state ≠ .unregistered ∧ s.gen.state ≠ .stopped ∧ (s.drive.channels.get .w2).latest.isSome = true ∧
       (s.drive.channels.get .w2).answered = false ∧ (s.drive.channels.get .w2).misses = 4 ∧
       (s.drive.channels.get .w2).status = .alive) ∧
      (let s := unanswered .moving 0
       (Winch.w2.number = 2 ∧ (79785053 : Nat) < 2 ^ 30) ∧ (s.drive.channels.get .w2).latest.isSome = true ∧
         (7 : Byte) = (s.drive.channels.get .w2).sequence ∧ (s.drive.channels.get .w2).answered = false ∧
         s.limits.criticalLimit < 40001 ∧ s.tension.get .w2 ≠ .critical ∧ s.gen.state ≠ .unregistered ∧
         s.gen.state ≠ .stopped) := by decide +kernel

theorem witness_LostDriveAndCriticalTensionTrip_sendings :
    let s := unanswered .moving 4
    (s.drive.setSinceRelease = true ∧ s.drive.setSinceExpiry = false ∧
      ∀ v, (s.drive.channels.get v).lastCommand = some ((PerWinch.all (79785053 : Int)).get v)) ∧
      (s.gen.stepTimer.isSome = true ∧ s.spanSet.span = some span ∧ s.gen.pos = some home ∧ s.lengths = some lengths ∧
        s.gen.flight = some flight) ∧ s.noSlow ∧
      s.offerPasses span (flight.offerAt (min (flight.s + freeSpeed flight s.gen.v span.accel) flight.dist)) ∧
      (unanswered .held 4).offerPasses span home :=
  ⟨⟨rfl, rfl, by intro v; cases v <;> rfl⟩, ⟨rfl, rfl, rfl, rfl, rfl⟩, no_slow (by decide +kernel),
    offer_passes (by decide +kernel), offer_passes (by decide +kernel)⟩

theorem witness_JogSetsTheRequestVector :
    (∀ g ∈ [GenState.idle, .held, .jogging], (standing g).spanSet.span = some span ∧ (standing g).envelope.arming = [] ∧
      activeSuspect (standing g) = false) ∧ (standing .jogging).portFree .operations ∧
      (standing .jogging).gen.jog.purpose = none ∧ (standing .jogging).resetting = false ∧
      (standing .jogging).gen.jog.deadman = some 100 :=
  ⟨by decide +kernel, standing_free _ _, rfl, rfl, rfl⟩

theorem witness_AcceptedStepCommits :
    (∀ g ∈ [GenState.idle, .held, .halted, .moving], (standing g).stepDue span home lengths) ∧
      (standing .idle).offerPasses span home ∧
      (standing .moving).gen.flight = some flight ∧ (standing .moving).noSlow ∧ flight.s + 16 < flight.dist ∧
      (standing .moving).offerPasses span ⟨10, 13, 10000000⟩ := by
  refine ⟨fun g hg => ⟨rfl, ?_, rfl, rfl, rfl, none_lost rfl⟩, offer_passes (by decide +kernel), rfl,
    no_slow (by decide +kernel), by decide, offer_passes (by decide +kernel)⟩
  revert g hg
  decide

/-- `standing` in flight at its cap, with SLOW zone 7 over a box. -/
def slowed (b : Box) : State := putZone 7 (some (zone .active 2 b)) (moved .moving fun g => { g with v := 1000 })

/-- The limits of a step of `flight`, as the statement forms them. -/
def stepLimits (s : State) : List Nat :=
  [flight.move.cap, Nat.sqrt (2 * span.accel * (flight.dist - flight.s))] ++ zoneIds.filterMap fun i =>
    (zoneAt s i).bind fun z =>
      if z.state = .active ∧ z.isSlow = true then
        ((region 0 z.box).bind (entryDistance flight)).bind fun e =>
          z.cap.map fun m => if e = flight.s then m else Nat.sqrt (m ^ 2 + 2 * span.accel * (e - flight.s))
      else none

/-- A zone 20 mm ahead: the step keeps below the limit of its approach. -/
theorem witness_SlowZonesLimitAMove :
    let s := slowed ⟨12, 2000, 16, 2000, 0, 12000⟩
    s.stepDue span home lengths ∧ s.gen.flight = some flight ∧ s.zonesSound ∧
      (943 ∈ stepLimits s ∧ ∀ x ∈ stepLimits s, 943 ≤ x) ∧ stepSpeed s.gen.v span.accel 943 = 984 ∧
      flight.s + 984 < flight.dist ∧ s.offerPasses span (flight.offerAt 984) ∧
      ∀ i ∈ zoneIds, ∀ m, slowCapWhere s (exactPointIn { flight with s := 984 }) i = some m → 984 ≤ m :=
  ⟨⟨rfl, rfl, rfl, rfl, rfl, none_lost rfl⟩, rfl, by unfold State.zonesSound; decide +kernel, by decide +kernel,
    by decide +kernel, by decide, offer_passes (by decide +kernel), fun i hi => all_some (by revert i hi; decide +kernel)⟩

/-- A zone over the trolley: the step is above its cap. -/
theorem witness_SlowZonesLimitAMove_overspeed :
    let s := slowed above
    s.zonesSound ∧ (500 ∈ stepLimits s ∧ ∀ x ∈ stepLimits s, 500 ≤ x) ∧ stepSpeed s.gen.v span.accel 500 = 984 ∧
      s.offerPasses span (flight.offerAt 984) ∧ lowestSlow s (exactPointIn { flight with s := 984 }) 7 500 ∧ 500 < 984 :=
  ⟨by unfold State.zonesSound; decide +kernel, by decide +kernel, by decide +kernel, offer_passes (by decide +kernel),
    lowest_slow (by decide +kernel) (by decide +kernel), by decide⟩

/-- Move 40, one step short of its target. -/
def nearly : Flight := { flight with s := 4999990 }

/-- `standing`, one step short of the target of move 40. -/
def arriving (q : List Move) (st : List Context) : State :=
  moved .moving fun g =>
    { g with v := 16, flight := some nearly, pos := some (nearly.offerAt 4999990), queue := q, stack := st }

/-- A context above its resume kind. -/
def context (r : Resume) : Context := ⟨⟨3, .goto, ⟨0, 5000000, 10000000⟩, none, 1000⟩, r⟩

theorem witness_ArrivalGoesOnByTheSuccession :
    (∀ q st, (arriving q st).stepDue span (nearly.offerAt 4999990) lengths ∧ (arriving q st).gen.flight = some nearly ∧
      (arriving q st).envelope.arming = [] ∧ (arriving q st).gen.waiting = none ∧ (arriving q st).zonesSound ∧
      (arriving q st).noSlow ∧ (arriving q st).offerPasses span (nearly.offerAt nearly.dist)) ∧
      nearly.move.kind ≠ .exit ∧ nearly.dist ≤ nearly.s + freeSpeed nearly 16 span.accel ∧
      (let m : Move := (context .auto).move
       pathOk (arriving [] [context .auto]) (nearly.offerAt nearly.dist) m.target = true ∧
         pathOk (arriving [m] []) (nearly.offerAt nearly.dist) m.target = true ∧
         distance (nearly.offerAt nearly.dist) m.target ≠ 0) ∧
      pathOk (arriving [{ flight.move with target := ⟨55000001, 0, 10000000⟩ }] []) (nearly.offerAt nearly.dist)
        ⟨55000001, 0, 10000000⟩ = false := by
  refine ⟨fun q st => ⟨moved_due _ _ _ rfl rfl, rfl, rfl, rfl, reset_zones_sound,
    no_slow (show ∀ i ∈ zoneIds, (zoneAt State.reset i).all _ = true by decide +kernel), ?_⟩, by decide, by decide +kernel,
    by decide +kernel, by decide +kernel⟩
  have h : (arriving [] []).offerPasses span (nearly.offerAt nearly.dist) := offer_passes (by decide +kernel)
  exact h

/-- `standing` braking a move at a place with a speed. -/
def slowing (v s : Nat) (purpose : Purpose) (w : Option Move) (arm : List ArmEntry) : State :=
  { moved .braking fun g =>
      { g with v := v, flight := some { flight with s := s }, pos := some (flight.offerAt s), purpose := some purpose
               waiting := w } with
    envelope := ⟨arm, none⟩ }

theorem slowing_due (v s : Nat) (purpose : Purpose) (w : Option Move) (arm : List ArmEntry) :
    (slowing v s purpose w arm).stepDue span (flight.offerAt s) lengths := ⟨rfl, rfl, rfl, rfl, rfl, none_lost rfl⟩

/-- The boundary speeds: 32, where the trolley stops, and 33, where it goes on, short of D and onto it. -/
theorem witness_BrakingSlowsStopsAndFollowsItsPurpose :
    (span.brakeAccel < 33 ∧ (slowing 33 4999998 .hold none []).offerPasses span (flight.offerAt 4999999)) ∧
      (32 ≤ span.brakeAccel ∧ (slowing 32 1000000 .hold none []).offerPasses span (flight.offerAt 1000000)) ∧
      (flight.dist ≤ 4999999 + (33 - span.brakeAccel) ∧
        (slowing 33 4999999 .priority (some (context .auto).move) []).offerPasses span (flight.offerAt flight.dist)) ∧
      (let s := slowing 32 1000000 .priority (some (context .auto).move) []
       s.zonesSound ∧ pathOk s (flight.offerAt 1000000) (context .auto).move.target = true ∧
         distance (flight.offerAt 1000000) (context .auto).move.target ≠ 0) ∧
      (let s := slowing 33 4999999 .priority (some (context .auto).move) []
       s.gen.purpose = some .priority ∧ s.gen.waiting = some (context .auto).move ∧ s.zonesSound ∧
         pathOk s (flight.offerAt flight.dist) (context .auto).move.target = true ∧
         distance (flight.offerAt flight.dist) (context .auto).move.target ≠ 0) ∧
      ∀ k ∈ [Purpose.cut, .flush, .hold, .halt],
        (slowing 32 1000000 k none []).gen.purpose = some k ∧ (slowing 32 1000000 k none []).gen.waiting = none ∧
          (slowing 32 1000000 k none []).gen.stack = [] ∧ (slowing 32 1000000 k none []).gen.queue = [] :=
  ⟨⟨by decide, offer_passes (by decide +kernel)⟩, ⟨by decide, offer_passes (by decide +kernel)⟩,
    ⟨by decide, offer_passes (by decide +kernel)⟩, ⟨reset_zones_sound, by decide +kernel, by decide +kernel⟩,
    ⟨rfl, rfl, reset_zones_sound, by decide +kernel, by decide +kernel⟩, by decide⟩

/-- `standing` in a jog session. -/
def jogged (p u r : Vec3) (k : Option JogPurpose) : State :=
  moved .jogging fun g => { g with pos := some p, jog := ⟨true, r, u, some 100, k⟩ }

/-- The upper corner of W, where a jog outwards passes no variant. -/
def topCorner : Vec3 := ⟨55000000, 35000000, 30000000⟩

/-- The first of the eight velocities, tried in the open; and the last, in the corner. -/
theorem witness_JogStepsSlideAndEnd :
    (∀ p u r k, (jogged p u r k).stepDue span p lengths ∧ (jogged p u r k).zonesSound ∧
      noSlowWhere (jogged p u r k) fun b => boxHas b p) ∧
      (jogged home Vec3.zero ⟨800, 400, 0⟩ none).offerPasses span (home.add ⟨16, 16, 0⟩) ∧
      (∀ v ∈ [(⟨16, 16, 16⟩ : Vec3), ⟨16, 16, 0⟩, ⟨16, 0, 16⟩, ⟨0, 16, 16⟩, ⟨16, 0, 0⟩, ⟨0, 16, 0⟩, ⟨0, 0, 16⟩],
        (jogged topCorner Vec3.zero ⟨800, 800, 800⟩ none).candidateFails span (topCorner.add v)) ∧
      (jogged topCorner Vec3.zero ⟨800, 800, 800⟩ none).offerPasses span (topCorner.add ⟨0, 0, 0⟩) := by
  refine ⟨fun p u r k => ⟨moved_due _ _ _ rfl rfl, reset_zones_sound, fun j hj => ?_⟩, offer_passes (by decide +kernel),
    fun v hv => Or.inl (by revert v hv; decide +kernel), offer_passes (by decide +kernel)⟩
  have h : ∀ j ∈ zoneIds, zoneAt State.reset j = none := by decide +kernel
  show (zoneAt State.reset j).bind _ = none
  rw [h j hj]
  rfl

/-- At rest with no request, and under each purpose, in IDLE's and HELD's succession. -/
theorem witness_JogStepsSlideAndEnd_ends :
    (∀ k ∈ [none, some JogPurpose.zone, some .flush, some .halt],
      (jogged home ⟨32, 0, 0⟩ Vec3.zero k).gen.waiting = none ∧ (jogged home ⟨32, 0, 0⟩ Vec3.zero k).gen.stack = [] ∧
        (jogged home ⟨32, 0, 0⟩ Vec3.zero k).gen.queue = []) ∧
      (jogged home ⟨32, 0, 0⟩ Vec3.zero (some .zone)).offerPasses span (home.add ⟨0, 0, 0⟩) ∧
      (stacked .jogging [1]).gen.stack = [⟨⟨1, .goto, home, none, 1000⟩, .manual⟩] :=
  ⟨by decide, offer_passes (by decide +kernel), rfl⟩

theorem witness_JogStepsSlideAndEnd_capped :
    let s := putZone 7 (some (zone .active 2 above)) (jogged home ⟨516, 0, 0⟩ ⟨800, 0, 0⟩ none)
    s.stepDue span home lengths ∧ s.zonesSound ∧ lowestSlow s (fun b => boxHas b home) 7 500 ∧
      s.offerPasses span (home.add ⟨500, 0, 0⟩) :=
  ⟨⟨rfl, rfl, rfl, rfl, rfl, none_lost rfl⟩, by unfold State.zonesSound; decide +kernel,
    lowest_slow (by decide +kernel) (by decide +kernel), offer_passes (by decide +kernel)⟩

theorem witness_ExitPlanIsTheNearestFace :
    (standing .idle).gen.pos = some home ∧
      planExit (standing .idle) 6 (region span.clearance ⟨-1000, 900, -1000, 1000, 0, 12000⟩) =
        some ⟨2500000, 0, 10000000⟩ ∧
      planExit (standing .idle) 6 (region span.clearance everywhere) = none := by decide +kernel

/-- `slowing` to a stop with arming zone 6 over a box. -/
def resolving (z : Zone) (op : Option TableOp) : State :=
  let s := putZone 6 (some z) (slowing 32 1000000 .cut none [⟨6, .rest⟩])
  { s with zones := { s.zones with op := op } }

theorem resolving_due (z : Zone) (op : Option TableOp) :
    (resolving z op).stepDue span (flight.offerAt 1000000) lengths := ⟨rfl, rfl, rfl, rfl, rfl, none_lost rfl⟩

/-- Outside the box, inside it with an exit, and inside it without one, added and amended. -/
theorem witness_ArmingSetIsResolvedAtRest :
    let prior : Prior := ⟨corner, some 5, 3, false⟩
    let amended : Zone := { zone .arming 1 everywhere with prior := some prior }
    (∀ z ∈ [zone .arming 1 corner, zone .arming 1 above, zone .arming 1 everywhere, amended],
      (∀ i ∈ zoneIds, zoneFails (resolving z (some lastVisit)) i = false) ∧
        zoneAt (resolving z (some lastVisit)) 6 = some z ∧ z.isSlow = false) ∧
      (resolving (zone .arming 1 corner) none).cuesSound ∧
      (resolving (zone .arming 1 corner) none).offerPasses span (flight.offerAt 1000000) ∧
      (∀ b, region span.clearance corner = some b → boxHas b (flight.offerAt 1000000) = false) ∧
      (∀ c ∈ [above, everywhere], (region span.clearance c).any fun b => boxHas b (flight.offerAt 1000000)) ∧
      (planExit (resolving (zone .arming 1 above) none) 6 (region span.clearance above)).isSome = true ∧
      (∀ z ∈ [zone .arming 1 everywhere, amended],
        planExit (resolving z (some lastVisit)) 6 (region span.clearance everywhere) = none) ∧ prior.remaining ≠ some 0 :=
  ⟨by decide +kernel, reset_cues_sound, offer_passes (by decide +kernel), all_some (by decide +kernel), by decide +kernel,
    by decide +kernel, by decide +kernel, by decide⟩

theorem witness_ArmingSetIsResolvedAtRest_exit :
    let out : Flight := { nearly with move := { nearly.move with kind := .exit } }
    let s : State :=
      { putZone 6 (some (zone .arming 1 corner))
          (moved .moving fun g => { g with v := 16, flight := some out, pos := some (out.offerAt 4999990) }) with
        envelope := ⟨[⟨6, .exit⟩], some ⟨6, out.move.target⟩⟩ }
    s.stepDue span (out.offerAt 4999990) lengths ∧ s.gen.flight = some out ∧ s.zonesSound ∧ s.cuesSound ∧ s.noSlow ∧
      out.dist ≤ out.s + freeSpeed out s.gen.v span.accel ∧ s.offerPasses span (out.offerAt out.dist) ∧
      zoneAt s 6 = some (zone .arming 1 corner) ∧
      ∀ b, region span.clearance corner = some b → boxHas b (out.offerAt out.dist) = false :=
  ⟨⟨rfl, rfl, rfl, rfl, rfl, none_lost rfl⟩, rfl, by unfold State.zonesSound; decide +kernel, reset_cues_sound,
    no_slow (by decide +kernel), by decide +kernel, offer_passes (by decide +kernel), by decide +kernel,
    all_some (by decide +kernel)⟩

theorem witness_FailedOfferHalts :
    let short : Span := { span with winch := { span.winch with w3 := { span.winch.w3 with lmin := 79786 } } }
    let tight := { standing .held with spanSet := ⟨some short, false⟩ }
    (moved .idle fun g => { g with pos := some ⟨55000001, 0, 10000000⟩ }).candidateFails span ⟨55000001, 0, 10000000⟩ ∧
      tight.spanSet.span = some short ∧ tight.candidatePasses short home ∧
      inDrum (short.winch.get .w3) (tight.ropeAt short home .w3).commanded = false :=
  ⟨Or.inl (by decide +kernel), rfl, candidate_passes (by decide +kernel), by decide +kernel⟩

/-- A box that the next point of move 40 lies in, in MOVING and in BRAKING. -/
theorem witness_FailedOfferHalts_in_flight :
    let walled (s : State) : State :=
      putCell (cellOf span.w (home.add ⟨1, 1, 0⟩)) [6] .current (putZone 6 (some (zone .active 1 above)) s)
    (walled (standing .moving)).noSlow ∧
      (walled (standing .moving)).candidateFails span
        (flight.offerAt (min (flight.s + freeSpeed flight 0 span.accel) flight.dist)) ∧
      (walled (slowing 33 0 .hold none [])).candidateFails span (flight.offerAt (min (0 + (33 - span.brakeAccel)) flight.dist)) :=
  ⟨no_slow (by decide +kernel), Or.inr ⟨by unfold State.candidateSound; decide +kernel, by decide +kernel⟩,
    Or.inr ⟨by unfold State.candidateSound; decide +kernel, by decide +kernel⟩⟩

theorem witness_SetSpanBeginsAFullRebuild :
    ({ standing .idle with spanSet := ⟨some span, true⟩ } : State).spanSet.locked = true ∧
      (standing .idle).spanSet.locked = false ∧
      spanBad { span with winch := { span.winch with w1 := { span.winch.w1 with lmax := 140000 } } } = some (11, 1) ∧
      spanBad span = none ∧ (indexing ⟨.cellRebuild, none, none, false, .rebuilding, 78, .cells [79], []⟩).zones.op.isSome = true ∧
      (standing .idle).zones.op = none ∧ (standing .idle).zonesSound ∧ (standing .idle).cuesSound ∧
      (standing .idle).envelope.arming = [] ∧ firstOverfull (standing .idle) span = none ∧ (standing .idle).portFree .safety :=
  ⟨rfl, rfl, by decide +kernel, by decide +kernel, rfl, rfl, standing_zones_sound _, standing_cues_sound _, rfl,
    by decide +kernel, standing_free _ _⟩

theorem witness_SetSpanBeginsAFullRebuild_full :
    let s : State := { nine with zones := { nine.zones with op := none } }
    let count (n : Nat) : Nat := ((List.range 64).filter fun i =>
      (zoneAt s i).any fun z => inRange (planRange span z.isSlow z.box) n).length
    s.zones.op = none ∧ s.zonesSound ∧ 78 < 192 ∧ (∀ m, m < 78 → count m ≤ 8) ∧ 8 < count 78 :=
  ⟨rfl, by unfold State.zonesSound; decide +kernel, by decide, by decide +kernel, by decide +kernel⟩

theorem witness_SetLimitsReplacesTheLimitSet :
    (standing .idle).portFree .operations ∧ (standing .idle).portFree .safety ∧
      (standing .idle).spanSet.locked = false := ⟨standing_free _ _, standing_free _ _, rfl⟩

theorem witness_LockFreezesSpanAndLimits :
    let s : State := { standing .idle with spanSet := ⟨some span, true⟩ }
    s.portFree .operations ∧ s.portFree .safety ∧ s.spanSet.locked = true ∧ (∃ t, exec .stepTimerExpiry s = .next t) ∧
      beginsReset .stepTimerExpiry = false := ⟨⟨rfl, rfl⟩, ⟨rfl, rfl⟩, rfl, ⟨_, rfl⟩, rfl⟩

theorem witness_QueuedMovesJoinTheTail :
    let s := putCue 95 (some (cue ⟨0, 0, 9000⟩))
      { standing .moving with gen := { (standing .moving).gen with queue := moves [42, 43, 44, 45, 46, 47, 48] } }
    s.portFree .operations ∧ s.spanSet.span = some span ∧ s.zonesSound ∧
      (s.gen.state ≠ .unregistered ∧ s.gen.state ≠ .stopped ∧ s.gen.state ≠ .halted ∧
        ¬(s.gen.state = .braking ∧ s.gen.purpose = some .halt) ∧ (s.gen.state ≠ .idle ∨ s.envelope.arming ≠ []) ∧
        activeSuspect s = false ∧ s.gen.queue.length < 8 ∧ (some 1000 : Option Nat) ≠ some 0 ∧ s.gen.nextId ∉ heldIds s.gen) ∧
      (pointOk ⟨60000, 0, 10000⟩ = true ∧
        pathOk s (planningPoint s) (clampTo (boxMicro span.w) (toMicro ⟨60000, 0, 10000⟩)) = true) ∧
      cueAt s 95 = some (cue ⟨0, 0, 9000⟩) ∧ cueFails s 95 = false ∧
      pathOk s (planningPoint s) (toMicro (cue ⟨0, 0, 9000⟩).target) = true :=
  ⟨⟨rfl, rfl⟩, rfl, sound_with_cue _ _ (standing_zones_sound .moving), by decide +kernel, by decide +kernel, by decide +kernel,
    by decide +kernel, by decide +kernel⟩

theorem witness_MovesBeginAtOnceInIdle :
    let s := putCue 95 (some (cue ⟨0, 0, 9000⟩)) (standing .idle)
    s.portFree .operations ∧ s.spanSet.span = some span ∧ s.zonesSound ∧
      (s.gen.state = .idle ∧ s.gen.pos = some home ∧ s.gen.queue = [] ∧ s.gen.stack = [] ∧ s.gen.flight = none ∧
        s.gen.waiting = none ∧ s.envelope.arming = [] ∧ activeSuspect s = false) ∧
      (pointOk ⟨60000, 0, 10000⟩ = true ∧ pathOk s home (clampTo (boxMicro span.w) (toMicro ⟨60000, 0, 10000⟩)) = true ∧
        distance home (clampTo (boxMicro span.w) (toMicro ⟨60000, 0, 10000⟩)) ≠ 0) ∧
      cueAt s 95 = some (cue ⟨0, 0, 9000⟩) ∧ cueFails s 95 = false ∧
      pathOk s home (toMicro (cue ⟨0, 0, 9000⟩).target) = true ∧ distance home (toMicro (cue ⟨0, 0, 9000⟩).target) ≠ 0 :=
  ⟨⟨rfl, rfl⟩, rfl, sound_with_cue _ _ (standing_zones_sound .idle), by decide +kernel, by decide +kernel, by decide +kernel,
    by decide +kernel, by decide +kernel, by decide +kernel⟩

theorem witness_PriorityMoveBrakesTheExecutingMove :
    let exit : Flight := { flight with move := { flight.move with kind := .exit } }
    let out : State := { standing .moving with gen := { (standing .moving).gen with flight := some exit } }
    (out.spanSet.span = some span ∧ out.gen.state = .moving ∧ out.gen.pos = some home ∧ out.gen.flight = some exit ∧
      activeSuspect out = false ∧ pointOk ⟨0, 5000, 10000⟩ = true ∧ exit.move.kind = .exit) ∧
      (flight.move.kind ≠ .exit ∧ (⟨[⟨9, .rest⟩], none⟩ : Envelope).arming ≠ []) ∧
      4 ≤ (stacked .moving [1, 2, 3, 4]).gen.stack.length ∧ (stacked .moving [1, 2, 3]).portFree .operations ∧
      (stacked .moving [1, 2, 3]).zonesSound ∧ (stacked .moving [1, 2, 3]).gen.stack.length < 4 ∧
      (stacked .moving [1, 2, 3]).gen.nextId ∉ heldIds (stacked .moving [1, 2, 3]).gen ∧
      pathOk (stacked .moving [1, 2, 3]) home (clampTo (boxMicro span.w) (toMicro ⟨0, 5000, 10000⟩)) = true :=
  ⟨by decide +kernel, by decide +kernel, by decide +kernel, ⟨rfl, rfl⟩, standing_zones_sound .moving, by decide +kernel,
    by decide +kernel, by decide +kernel⟩

theorem witness_HoldAndResume :
    (stacked .moving [1, 2, 3]).portFree .operations ∧ (stacked .moving [1, 2, 3]).gen.flight = some flight ∧
      flight.move.kind ≠ .exit ∧ (stacked .moving [1, 2, 3]).gen.stack.length < 4 ∧
      4 ≤ (stacked .moving [1, 2, 3, 4]).gen.stack.length ∧
      (let c : Context := ⟨⟨3, .goto, ⟨0, 5000000, 10000000⟩, none, 1000⟩, .manual⟩
       let s := { standing .held with gen := { (standing .held).gen with stack := [c] } }
       s.portFree .operations ∧ s.zonesSound ∧ s.gen.state = .held ∧ activeSuspect s = false ∧ s.envelope.arming = [] ∧
         s.gen.pos = some home ∧ pathOk s home c.move.target = true ∧ distance home c.move.target ≠ 0) ∧
      activeSuspect (putZone 5 (some { zone .active 1 corner with suspect := true }) (standing .held)) = true :=
  ⟨⟨rfl, rfl⟩, rfl, by decide, by decide, by decide,
    ⟨⟨rfl, rfl⟩, standing_zones_sound .held, rfl, by decide +kernel, rfl, rfl, by decide +kernel, by decide +kernel⟩,
    by decide +kernel⟩

theorem witness_FlushDropsWhatWaits :
    (∀ g ∈ [GenState.idle, .halted, .stopped, .held, .moving, .braking, .jogging], (standing g).gen.state = g) ∧
      configured.gen.state = .unregistered ∧ (standing .moving).gen.flight = some flight ∧ flight.move.kind ≠ .exit ∧
      (∀ k ∈ [Purpose.hold, .priority, .cut], (slowing 33 0 k none []).gen.purpose = some k) ∧
      (stacked .held [1, 2]).portFree .safety := ⟨by decide, rfl, rfl, by decide, by decide, ⟨rfl, rfl⟩⟩

theorem witness_RegisterTakesThePosition :
    let m : PerWinch Int := PerWinch.all 79785053
    configured.portFree .operations ∧ pointOk ⟨0, 0, 10000⟩ = true ∧ configured.gen.state = .unregistered ∧
      configured.drive.stopLevel = false ∧ configured.spanSet.span = some span ∧
      (∀ w, (configured.drive.channels.get w).status = .alive ∧ (configured.drive.channels.get w).drive ≠ some .fault ∧
        (configured.drive.channels.get w).measured = some (m.get w)) ∧
      boxHas (boxMicro span.w) (toMicro ⟨0, 0, 10000⟩) = true ∧ configured.zonesSound ∧
      (∀ i ∈ zoneIds, zoneAt configured i = none) ∧
      (∀ w, inDrum (span.winch.get w) (ropeCalc (span.winch.get w) (toMicro ⟨0, 0, 10000⟩) 4800).commanded = true ∧
        inDrum (span.winch.get w) (m.get w) = true ∧
        ((ropeCalc (span.winch.get w) (toMicro ⟨0, 0, 10000⟩) 4800).commanded - m.get w).natAbs
          ≤ configured.limits.tolerance * 1000) := by
  refine ⟨⟨rfl, rfl⟩, by decide +kernel, rfl, rfl, rfl, ?_, by decide +kernel, reset_zones_sound, by decide +kernel, ?_⟩ <;>
    (intro w; cases w <;> decide +kernel)

/-- `configured` with one channel changed. -/
def unwell (w : Winch) (f : Channel → Channel) : State :=
  { configured with drive := { configured.drive with
      channels := configured.drive.channels.set w (f (configured.drive.channels.get w)) } }

/-- The refusals: a coordinate, the state, the span, a channel, W, and an ACTIVE zone over the position. -/
theorem witness_RegisterTakesThePosition_refused :
    262143 < (262144 : Int).natAbs ∧ ¬262143 < (-262143 : Int).natAbs ∧ (standing .idle).gen.state ≠ .unregistered ∧
      State.reset.spanSet.span = none ∧ State.reset.gen.state = .unregistered ∧
      (∀ w ∈ [Winch.w1, .w4],
        ((unwell w fun c => { c with status := .silent }).drive.channels.get w).status ≠ .alive ∧
          ((unwell w fun c => { c with drive := some .fault }).drive.channels.get w).drive = some .fault) ∧
      boxHas (boxMicro span.w) (toMicro ⟨55001, 0, 10000⟩) = false ∧
      (let s := putZone 7 (some (zone .active 1 above)) configured
       s.zonesSound ∧ (zoneAt s 7).any (fun z => z.state == .active && z.isKeepOut) = true ∧
         boxHas (inflated above) (toMicro ⟨0, 0, 10000⟩) = true ∧ ∀ i ∈ zoneIds, i < 7 → zoneAt s i = none) :=
  ⟨by decide, by decide, by decide, rfl, rfl, by decide +kernel, by decide +kernel,
    by unfold State.zonesSound; decide +kernel, by decide +kernel, by decide +kernel, by decide +kernel⟩

/-- A measured length at the tolerance, and one beyond it. -/
theorem witness_RegisterTakesThePosition_mismatch :
    let rc := ropeCalc (span.winch.get .w2) (toMicro ⟨0, 0, 10000⟩) 4800
    (∀ d ∈ [(0 : Int), 100000, 100001],
      ((unwell .w2 fun c => { c with measured := some (rc.commanded + d).toNat }).drive.channels.get .w2).measured =
        some (rc.commanded + d).toNat) ∧
      (rc.commanded - (rc.commanded + 100000)).natAbs ≤ configured.limits.tolerance * 1000 ∧
      ¬(rc.commanded - (rc.commanded + 100001)).natAbs ≤ configured.limits.tolerance * 1000 := by decide +kernel

/-- The refusals of RELEASE, in order, in HALTED and in STOPPED. -/
theorem witness_ReleaseLeavesHaltedAndStopped_refused :
    let one (g : GenState) (f : Channel → Channel) : State :=
      { standing g with drive := { (standing g).drive with
          channels := (standing g).drive.channels.set .w3 (f ((standing g).drive.channels.get .w3)) } }
    let tense (g : GenState) (t : TensionStatus) : State := { standing g with tension := (standing g).tension.set .w3 t }
    let marked (g : GenState) : State := putZone 5 (some { zone .active 1 corner with suspect := true }) (standing g)
    (standing .idle).gen.state ≠ .halted ∧ (standing .idle).gen.state ≠ .stopped ∧
      ((one .halted fun c => { c with drive := some .braked }).drive.channels.get .w3).drive ≠ some .ready ∧
      (tense .halted .slack).tension.get .w3 ≠ .normal ∧
      (∀ w ∈ Winch.all, ((tense .halted .slack).drive.channels.get w).status = .alive ∧
        ((tense .halted .slack).drive.channels.get w).drive = some .ready) ∧
      (∀ g ∈ [GenState.halted, .stopped], activeSuspect (marked g) = true ∧
        ∀ w ∈ Winch.all, (marked g).tension.get w = .normal) ∧
      ({ standing .stopped with drive := { (standing .stopped).drive with stopLevel := true } } : State).drive.stopLevel
        = true ∧
      (tense .stopped .critical).tension.get .w3 = .critical ∧ (tense .stopped .critical).drive.stopLevel = false ∧
      ((one .stopped fun c => { c with status := .lost }).drive.channels.get .w3).status = .lost := by decide +kernel

theorem witness_ReleaseLeavesHaltedAndStopped :
    (standing .stopped).portFree .safety ∧
      (∀ g ∈ [GenState.halted, .stopped], activeSuspect (standing g) = false ∧ (standing g).gen.waiting = none ∧
        (standing g).gen.stack = [] ∧ (standing g).gen.queue = [] ∧ (standing g).envelope.arming = []) ∧
      (∀ w, ((standing .halted).drive.channels.get w).status = .alive ∧
        ((standing .halted).drive.channels.get w).drive = some .ready ∧ (standing .halted).tension.get w = .normal) ∧
      ((standing .stopped).drive.stopLevel = false ∧ (standing .stopped).spanSet.span = some span ∧
        (standing .stopped).lengths = some (PerWinch.all ⟨79785053, 36635⟩)) ∧
      (∀ w, ((standing .stopped).drive.channels.get w).measured = some ((PerWinch.all (79785053 : Int)).get w) ∧
        inDrum (span.winch.get w) 79785053 = true) ∧
      ¬((79785053 : Int) - 79885054).natAbs ≤ (standing .stopped).limits.tolerance * 1000 := by
  refine ⟨standing_free _ _, by decide +kernel, ?_, by decide +kernel, ?_, by decide +kernel⟩ <;>
    (intro w; cases w <;> decide +kernel)

theorem witness_StopTripsTheGenerator :
    (standing .moving).resetting = false ∧ (standing .stopped).gen.state = .stopped ∧
      configured.gen.state = .unregistered ∧ (standing .moving).gen.state ≠ .unregistered ∧
      (standing .moving).gen.state ≠ .stopped := by decide

theorem witness_FeedbackIsStoredOrIgnored :
    let s := unanswered .stopped 0
    let f : FeedbackFields := ⟨2, 7, 1073741823, 4800, 1⟩
    s.resetting = false ∧ s.matchedFrame .w2 f ∧ s.frameFollows .w2 f ∧ 2 ^ 30 ≤ (1073741824 : Nat) ∧ s.drive.brake = true ∧
      s.gen.state = .stopped ∧ tensionNext s.limits (s.tension.get .w2) 4800 = s.tension.get .w2 := by
  unfold State.matchedFrame State.frameFollows
  exact ⟨rfl, by decide, Or.inl rfl, by decide, rfl, rfl, by decide +kernel⟩

/-- BRAKE released, nothing measured before, and a frame at the following limit. -/
theorem witness_FeedbackIsStoredOrIgnored_released :
    let s := { standing .moving with drive := { (standing .moving).drive with
      channels := PerWinch.all { channel with answered := false, measured := none } } }
    let f : FeedbackFields := ⟨2, 7, 79485053, 4800, 1⟩
    s.matchedFrame .w2 f ∧ s.frameFollows .w2 f ∧ s.drive.brake = false ∧ (s.drive.channels.get .w2).measured = none :=
  ⟨by unfold State.matchedFrame; decide, Or.inr (Or.inr ⟨79785053, rfl, by decide +kernel⟩), rfl, rfl⟩

/-- One micrometre beyond the following limit; and a FAULT. -/
theorem witness_FollowingErrorsHaltAndDriveFaultsTrip :
    let s := unanswered .moving 0
    let f : FeedbackFields := ⟨2, 7, 79485052, 4800, 1⟩
    s.resetting = false ∧ s.matchedFrame .w2 f ∧ s.drive.brake = false ∧
      (s.drive.channels.get .w2).latest = some (.length 79785053) ∧
      s.limits.following * 1000 < ((79785053 : Int) - (f.measured : Int)).natAbs ∧
      tensionNext s.limits (s.tension.get .w2) f.tension = s.tension.get .w2 ∧
      s.matchedFrame .w2 { f with status := 3 } ∧ s.gen.state ≠ .unregistered ∧ s.gen.state ≠ .stopped := by
  unfold State.matchedFrame
  decide +kernel

/-- Tensions at the limits: 38,001 enters OVER, and 37,500 leaves it. -/
theorem witness_TensionEntriesFollowTheTable :
    let s := unanswered .held 0
    let t : State := { s with tension := s.tension.set .w2 .overload }
    let f : FeedbackFields := ⟨2, 7, 79785053, 38001, 1⟩
    (Limits.reset.hysteresis ≤ Limits.reset.overLimit ∧ Limits.reset.hysteresis ≤ Limits.reset.criticalLimit) ∧
      s.matchedFrame .w2 f ∧ s.frameFollows .w2 f ∧
      tensionNext s.limits (s.tension.get .w2) 38001 = .overload ∧ s.tension.get .w2 = .normal ∧
      tensionNext t.limits (t.tension.get .w2) 37500 = .normal ∧ t.tension.get .w2 = .overload ∧
      s.console.flags[7] = none ∧ s.faults.captured = none :=
  ⟨by decide, by unfold State.matchedFrame; decide, Or.inr (Or.inr ⟨79785053, rfl, by decide⟩), by decide +kernel, rfl,
    by decide +kernel, rfl, by decide +kernel, rfl⟩

/-- One micrometre short of a metre in the accumulator, and a counter one short of the limit. -/
theorem witness_FeedbackCountsRopeWear :
    let s := { unanswered .moving 0 with
      wear := PerWinch.all ⟨(Vector.replicate 64 0).setIfInBounds 4 59999, 999999⟩ }
    let f : FeedbackFields := ⟨2, 7, 79785054, 4800, 1⟩
    s.matchedFrame .w2 f ∧ s.frameFollows .w2 f ∧ tensionNext s.limits (s.tension.get .w2) 4800 = s.tension.get .w2 ∧
      s.drive.brake = false ∧ (s.drive.channels.get .w2).measured = some 79785053 ∧ (s.wear.get .w2).law ∧
      min (79785054 / 16000000) 63 = 4 ∧ s.limits.wear ≤ (s.wear.get .w2).counters[4] + 1 :=
  ⟨by unfold State.matchedFrame; decide, Or.inr (Or.inr ⟨79785053, rfl, by decide⟩), by decide +kernel, rfl, rfl,
    by unfold WinchWear.law; decide +kernel, by decide, by decide +kernel⟩

theorem witness_WearStaysInItsBounds :
    (Instr.stopReleased.wf = true ∧ ∃ t, exec .stopReleased State.reset = .next t) ∧ State.reset.wearLaw ∧
      Instr.stopReleased ≠ .powerUp := by
  refine ⟨⟨rfl, _, rfl⟩, ?_, by decide⟩
  intro w
  cases w <;> exact ⟨by decide +kernel, by decide⟩

theorem witness_FaultRecordCapturesTheHighest :
    (∃ t, exec .stopReleased State.reset = .next t) ∧ State.reset.faults.law :=
  ⟨⟨_, rfl⟩, by show ∀ i : Fin 9, _; decide +kernel⟩

theorem witness_CellListsStayOrdered : (∃ t, exec .stopReleased State.reset = .next t) ∧ State.reset.cellLaw := by
  refine ⟨⟨_, rfl⟩, fun n => ?_⟩
  have h : idsAt State.reset n = [] := by
    by_cases hn : n < 192
    · simp [idsAt, State.reset, emptyCell, hn]
    · simp [idsAt, State.reset, hn]
  rw [h]
  exact ⟨by decide, List.Pairwise.nil⟩

theorem witness_BrakeAndJogFollowTheGenerator :
    (∃ t, exec .stepTimerExpiry (standing .jogging) = .next t) ∧ (standing .jogging).brakeLaw ∧
      (standing .jogging).jogLaw :=
  ⟨⟨_, rfl⟩, by unfold State.brakeLaw; decide, by unfold State.jogLaw; decide⟩

theorem witness_MoveCollectionsStayBounded :
    (∃ t, exec .stepTimerExpiry (stacked .braking [1, 2, 3]) = .next t) ∧ (stacked .braking [1, 2, 3]).gen.collectionsLaw :=
  ⟨⟨_, rfl⟩, by unfold Generator.collectionsLaw; decide +kernel⟩

theorem witness_HaltsStandUntilReleased :
    (after (.release (ask .safety ())) (standing .stopped)).gen.state ≠ .stopped ∧ (standing .stopped).gen.state = .stopped ∧
      (after (.register (ask .safety ⟨0, 0, 10000⟩)) configured).gen.state ≠ .unregistered ∧
      configured.gen.state = .unregistered ∧
      (after (.release (ask .safety ())) (standing .halted)).gen.state = .idle ∧ (standing .halted).gen.state = .halted := by
  decide +kernel

theorem witness_RequestsSurviveTheirFrames :
    (Instr.recallPriority (ask .safety ⟨95, some 25000⟩)).wf = true ∧
      encodeRequest (.recallPriority (ask .safety ⟨95, some 25000⟩)) = some (.safety, 80, 0x0D, [95, 3, 0xA8, 0x61]) := by
  decide +kernel

theorem witness_RequestsSurviveTheirFrames_collected :
    (List.replicate 240 (0 : Byte)).length ≤ 240 ∧
      (Instr.feedbackFrame .w2 (.fields ⟨2, 7, 47998000, 4800, 1⟩)).wf = true := by decide +kernel

/-- A move of ten steps along one axis, in one direction or the other. -/
def stroke (back : Bool) (s : Nat) : Flight :=
  ⟨⟨1, .goto, home, none, 1⟩, ⟨if back then 10 else -10, 0, 0⟩, ⟨if back then -10 else 10, 0, 0⟩, 10, s⟩

/-- A box that spans two values of x, about the axis. -/
def slab (lo hi : Int) : Box := ⟨lo, hi, -1, 1, -1, 1⟩

/-- The entry distance at s, at D, and between them with the box entered through each of its faces; and none. -/
theorem witness_SegmentChecksAreExact :
    (∀ k s, 0 < (stroke k s).dist) ∧
      entryDistance (stroke true 0) (slab 2 3) = some 7 ∧ entryDistance (stroke false 0) (slab (-3) (-2)) = some 7 ∧
      entryDistance (stroke true 8) (slab 2 3) = some 8 ∧ entryDistance (stroke false 7) (slab (-3) (-2)) = some 7 ∧
      entryDistance (stroke true 9) (slab 2 3) = none ∧ entryDistance (stroke true 0) (slab 0 0) = some 10 ∧
      entryDistance (stroke false 0) (slab 0 3) = some 10 ∧ entryDistance (stroke true 10) (slab 0 3) = some 10 ∧
      exactPointIn (stroke true 7) (slab 2 3) = true ∧ exactPointIn (stroke true 6) (slab 2 3) = false := by
  refine ⟨fun _ _ => Nat.succ_pos 9, ?_⟩
  decide +kernel

/-- A box met between the ends, at either end alone, and not at all. -/
theorem witness_SegmentChecksAreExact_segments :
    segmentMeets ⟨10, 0, 0⟩ ⟨-10, 0, 0⟩ (slab 2 3) = true ∧ segmentMeets ⟨-10, 0, 0⟩ ⟨10, 0, 0⟩ (slab 2 3) = true ∧
      segmentMeets ⟨10, 0, 0⟩ ⟨3, 0, 0⟩ (slab 2 3) = true ∧ segmentMeets ⟨3, 0, 0⟩ ⟨10, 0, 0⟩ (slab 2 3) = true ∧
      segmentMeets ⟨10, 0, 0⟩ ⟨4, 0, 0⟩ (slab 2 3) = false ∧ segmentMeets ⟨10, 2, 0⟩ ⟨-10, 2, 0⟩ (slab 2 3) = false := by
  decide +kernel

/-- Each field test failing first, and all passing at the bounds. -/
theorem witness_FieldTestsFollowTheirBounds :
    [{ addCorner with id := 64 }, { addCorner with kind := 3 }, { addCorner with box := { corner with xhi := 262144 } },
        { addCorner with box := { corner with xlo := 56000 } }, { addCorner with cap := some 5 },
        { addCorner with lifetime := some 0 }, { addCorner with id := 63, box := { corner with xhi := 262143 } }].map zoneAddBad =
      [some 1, some 2, some 3, some 4, some 5, some 6, none] ∧
      [(⟨6, none, none, none, none⟩ : ZoneAmendFields), ⟨6, some { corner with zlo := 7000 }, none, none, none⟩,
        ⟨6, none, some 500, none, none⟩, ⟨6, some corner, none, none, none⟩, ⟨6, some corner, none, some 0, none⟩].map
          (zoneAmendBad { zone .active 1 corner with suspect := true }) = [some 1, some 2, some 3, some 4, none] ∧
      [(⟨96, none, true, none⟩ : CueStoreFields), ⟨95, none, false, none⟩, ⟨95, some ⟨0, -262144, 0⟩, false, none⟩,
        ⟨95, none, true, some 0⟩, ⟨95, none, true, some 25001⟩, ⟨95, some ⟨0, -262143, 0⟩, false, some 25000⟩].map
          cueStoreBad = [some 1, some 2, some 3, some 4, some 4, none] ∧
      [(⟨1, none, none, none⟩ : CueAmendFields), ⟨1, some ⟨0, 0, 262144⟩, none, none⟩, ⟨1, none, some 25001, none⟩,
        ⟨1, none, some 0, none⟩].map cueAmendBad = [some 1, some 2, some 3, none] := by decide +kernel

/-- Each check of SET_SPAN failing first. -/
theorem witness_FieldTestsFollowTheirBounds_span :
    let winch2 (f : WinchSpan → WinchSpan) : Span := { span with winch := span.winch.set .w2 (f (span.winch.get .w2)) }
    [{ span with w := { span.w with xhi := 262144 } }, { span with w := { span.w with ylo := 35000 } },
        { span with w := { span.w with xlo := 39001 } }, winch2 fun w => { w with anchor := ⟨0, 0, 262144⟩ },
        winch2 fun w => { w with lmin := 150000 }, winch2 fun w => { w with scale := 35 },
        winch2 fun w => { w with rate := 50001 }, { span with brakeAccel := 15 },
        winch2 fun w => { w with anchor := ⟨207144, -40000, 35000⟩ }, winch2 fun w => { w with anchor := ⟨60000, -40000, 30999⟩ },
        winch2 fun w => { w with lmax := 144705 }, winch2 fun w => { w with lmin := 12161 },
        winch2 fun w => { w with lmin := 12160, lmax := 144706 }].map spanBad =
      [some (1, 0), some (2, 0), some (3, 0), some (4, 2), some (5, 2), some (6, 2), some (7, 2), some (8, 0), some (9, 2),
        some (10, 2), some (11, 2), some (12, 2), none] := by decide +kernel

/-- The planning point at the queue, at the stack, at the executing move and at the trolley. -/
theorem witness_FieldTestsFollowTheirBounds_planning :
    ((standing .moving).gen.pos = some home ∧ (standing .moving).gen.flight = some flight ∧
      (standing .moving).gen.queue = [] ∧ (standing .moving).gen.stack = []) ∧
      planningPoint (standing .moving) = ⟨3000000, 4000000, 10000000⟩ ∧
      (slowing 33 0 .cut none []).gen.pos = some home ∧ planningPoint (slowing 33 0 .cut none []) = home ∧
      planningPoint (slowing 33 0 .hold none []) = ⟨3000000, 4000000, 10000000⟩ ∧
      planningPoint (moved .idle bound) = home ∧
      planningPoint (moved .idle fun g => { bound g with queue := [] }) = ⟨50000000, 0, 5000000⟩ := by decide +kernel

theorem witness_RootsAndBrakingDistances :
    0 < distance home ⟨3000000, 4000000, 10000000⟩ ∧ (0 : Nat) < 1 := by decide +kernel

end Sys2Proof.Tests
end

