-- ==== Sys2Proof/Proofs/RequestRules.lean ====
section
/-! SUPPORT. A request taken by a free port and answered, and what the requests of every chapter leave alone. -/

namespace Sys2Proof.Machine

/-! Requests answered at once (R200 to R202). -/

/-- The request is carried out where the port's own checks pass (R200). -/
theorem request_passes {α : Type} (k : RequestKind) (r : Req α) (act : α → Ev → Ev) (s : State) (a : α)
    (h : s.portFree r.link) (hk : ¬(safetyOnly k = true ∧ r.link = .operations)) (hb : r.body = .fields a) :
    request k r act s = finish s.gen.state (act a (Ev.start (s.taken r.link r.tag (kindCode k)))) := by
  rw [request_free k r act s h, decide_passes k r act _ a hk hb]

/-- A request that updates the state outside the ports, keeps the generator's state and is then answered leaves the updated
state, answered (R202). -/
theorem finish_upd_reply (s : State) (l : Link) (t k : Byte) (f : State → State) (a : Answer)
    (hf : f (s.taken l t k) = (f s).taken l t k) (hg : (f s).gen.state = s.gen.state) :
    finish s.gen.state (((Ev.start (s.taken l t k)).upd f).reply l a) = (f s).answered l t k a := by
  rw [finish_quiet _ _ rfl (by simp [hf, hg])]
  simp only [reply_out, upd_out, start_out, List.nil_append, List.foldl_cons, List.foldl_nil, putOut, reply_st, upd_st,
    start_st, hf]
  exact answer_taken (f s) l t k a

/-- An answer without an update changes nothing but the port (R202). -/
theorem finish_reply (s : State) (l : Link) (t k : Byte) (a : Answer) :
    finish s.gen.state ((Ev.start (s.taken l t k)).reply l a) = s.answered l t k a :=
  finish_upd_reply s l t k id a rfl rfl

/-- A request reserved to the safety link is refused on the operations link (R201). -/
theorem request_safetyOnly {α : Type} (k : RequestKind) (r : Req α) (act : α → Ev → Ev) (s : State)
    (h : s.portFree r.link) (hk : safetyOnly k = true) (hl : r.link = .operations) :
    request k r act s = s.answered r.link r.tag (kindCode k) ⟨.safetyOnly, false, []⟩ := by
  rw [request_free k r act s h, decide_safetyOnly k r act _ hk hl]
  exact finish_reply s r.link r.tag (kindCode k) _

/-! The requests of the Zone Table. -/

@[simp] theorem startPhase_base (op : TableOp) (e : Ev) (f : TableOp → Ev → Ev)
    (hf : ∀ op e, (f op e).st.base = e.st.base) : (startPhase op e f).st.base = e.st.base := by
  unfold startPhase
  split
  · simp
  · rw [hf]; simp

@[simp] theorem startRemoval_base (op : TableOp) (b : Bool) (p : VisitPlan) (e : Ev) :
    (startRemoval op b p e).st.base = e.st.base := startPhase_base _ _ _ endOp_base

@[simp] theorem endAdd_base (op : TableOp) (id : Nat) (e : Ev) : (endAdd op id e).st.base = e.st.base := by
  unfold endAdd
  dsimp only
  split
  · simp
  · split
    · simp
    · split
      · simp
      · simp
      · split <;> simp

@[simp] theorem amendActive_base (op : TableOp) (id : Nat) (z : Zone) (p : PendingBox) (o : Order) (e : Ev) :
    (amendActive op id z p o e).st.base = e.st.base := by simp [amendActive]

@[simp] theorem amendArming_base (id : Nat) (z : Zone) (p : PendingBox) (c : ArmCond) (e : Ev) :
    (amendArming id z p c e).st.base = e.st.base := by simp [amendArming]

@[simp] theorem endAmend_base (op : TableOp) (id : Nat) (e : Ev) : (endAmend op id e).st.base = e.st.base := by
  unfold endAmend
  dsimp only
  split
  · simp
  · split
    · simp
    · split
      · simp
      · split
        · simp
        · simp
        · split <;> simp

@[simp] theorem endIndexing_base (op : TableOp) (e : Ev) : (endIndexing op e).st.base = e.st.base := by
  unfold endIndexing; dsimp only; split <;> simp
@[simp] theorem endPhase_base (op : TableOp) (e : Ev) : (endPhase op e).st.base = e.st.base := by
  unfold endPhase; split <;> simp
@[simp] theorem cellVisitEvent_base (e : Ev) : (cellVisitEvent e).st.base = e.st.base := by
  unfold cellVisitEvent; dsimp only; split
  · rfl
  · split <;> simp

@[simp] theorem zoneAdd_base (l : Link) (f : ZoneAddFields) (e : Ev) : (zoneAdd l f e).st.base = e.st.base := by
  unfold zoneAdd
  split
  · rfl
  · split
    · rfl
    · split
      · rfl
      · dsimp only
        generalize hq : firstFull none _ e = q
        have h : q.1.st.base = e.st.base := by rw [← hq]; simp
        obtain ⟨e1, _ | n⟩ := q
        · dsimp only at h ⊢
          split
          · exact h
          · simpa [startPhase_base _ _ _ endIndexing_base] using h
        · exact h

@[simp] theorem amendBox_base (l : Link) (z : Zone) (f : ZoneAmendFields) (b : Box) (e : Ev) :
    (amendBox l z f b e).st.base = e.st.base := by
  unfold amendBox
  split
  · rfl
  · generalize hq : firstFull (some f.id) _ e = q
    have h : q.1.st.base = e.st.base := by rw [← hq]; simp
    obtain ⟨e1, _ | n⟩ := q
    · dsimp only at h ⊢
      split
      · exact h
      · simpa [startPhase_base _ _ _ endIndexing_base] using h
    · exact h

@[simp] theorem zoneAmend_base (l : Link) (f : ZoneAmendFields) (e : Ev) : (zoneAmend l f e).st.base = e.st.base := by
  unfold zoneAmend
  dsimp only
  split
  · rfl
  · split
    · simp
    · repeat' split
      all_goals simp [amendInPlace]

@[simp] theorem zoneRetire_base (l : Link) (f : RetireFields) (e : Ev) : (zoneRetire l f e).st.base = e.st.base := by
  unfold zoneRetire
  dsimp only
  split
  · rfl
  · split
    · simp
    · repeat' split
      all_goals simp [startPhase_base _ _ _ endOp_base]

@[simp] theorem zoneQuery_base (l : Link) (n : Nat) (e : Ev) : (zoneQuery l n e).st.base = e.st.base := by
  unfold zoneQuery; split <;> simp
@[simp] theorem zoneList_base (l : Link) (e : Ev) : (zoneList l e).st.base = e.st.base := by simp [zoneList]
@[simp] theorem pointLookup_base (l : Link) (p : Vec3) (e : Ev) : (pointLookup l p e).st.base = e.st.base := by
  unfold pointLookup
  dsimp only
  split
  · rfl
  · split
    · rfl
    · split
      · rfl
      · split
        · simp [foldl_base readZone readZone_base]
        · simp

theorem countDown_base (e : Ev) (id : Nat) : (countDown e id).st.base = e.st.base := by
  unfold countDown
  split
  · dsimp only; split <;> simp
  · rfl
@[simp] theorem oneSecond_base (e : Ev) : (oneSecond e).st.base = e.st.base := by
  unfold oneSecond
  split
  · rfl
  · simp [foldl_base countDown countDown_base]

/-! The requests of the Cue Table. -/

@[simp] theorem storeCue_base (l : Link) (n : Nat) (p : Vec3) (v : Option Nat) (e : Ev) :
    (storeCue l n p v e).st.base = e.st.base := by simp [storeCue]
@[simp] theorem cueStore_base (l : Link) (f : CueStoreFields) (e : Ev) : (cueStore l f e).st.base = e.st.base := by
  unfold cueStore
  repeat' split
  all_goals simp
@[simp] theorem amendCue_base (l : Link) (c : Cue) (f : CueAmendFields) (e : Ev) :
    (amendCue l c f e).st.base = e.st.base := by
  simp only [amendCue, ok_st]; split <;> simp
@[simp] theorem cueAmend_base (l : Link) (f : CueAmendFields) (e : Ev) : (cueAmend l f e).st.base = e.st.base := by
  unfold cueAmend
  dsimp only
  repeat' split
  all_goals simp
@[simp] theorem cueRetire_base (l : Link) (f : RetireFields) (e : Ev) : (cueRetire l f e).st.base = e.st.base := by
  unfold cueRetire
  dsimp only
  repeat' split
  all_goals simp
@[simp] theorem cueQuery_base (l : Link) (n : Nat) (e : Ev) : (cueQuery l n e).st.base = e.st.base := by
  unfold cueQuery; split <;> simp
@[simp] theorem cueList_base (l : Link) (e : Ev) : (cueList l e).st.base = e.st.base := by
  simp [cueList, foldl_base readCue readCue_base]
@[simp] theorem resolveCue_base (n : Nat) (e : Ev) : (resolveCue n e).1.st.base = e.st.base := by
  unfold resolveCue
  dsimp only
  repeat' split
  all_goals simp

/-! The motion requests. -/

@[simp] theorem admitQueued_base (l : Link) (a : Asked) (e : Ev) : (admitQueued l a e).st.base = e.st.base := by
  unfold admitQueued; dsimp only; split <;> simp
@[simp] theorem admitPriority_base (l : Link) (a : Asked) (e : Ev) : (admitPriority l a e).st.base = e.st.base := by
  unfold admitPriority; dsimp only; split <;> simp
@[simp] theorem admitMove_base (b : Bool) (l : Link) (a : Asked) (e : Ev) :
    (admitMove b l a e).st.base = e.st.base := by
  unfold admitMove
  dsimp only
  repeat' split
  all_goals simp
@[simp] theorem gotoRequest_base (b : Bool) (l : Link) (f : GotoFields) (e : Ev) :
    (gotoRequest b l f e).st.base = e.st.base := by
  unfold gotoRequest
  repeat' split
  all_goals simp
@[simp] theorem recallRequest_base (b : Bool) (l : Link) (f : RecallFields) (e : Ev) :
    (recallRequest b l f e).st.base = e.st.base := by
  unfold recallRequest
  split
  · rfl
  · split
    · rfl
    · have h := resolveCue_base f.cue e
      generalize resolveCue f.cue e = q at h
      obtain ⟨e1, _ | _⟩ := q <;> simpa using h
@[simp] theorem hold_base (l : Link) (e : Ev) : (hold l e).st.base = e.st.base := by
  unfold hold
  repeat' split
  all_goals simp
@[simp] theorem resume_base (l : Link) (e : Ev) : (resume l e).st.base = e.st.base := by
  unfold resume
  dsimp only
  repeat' split
  all_goals simp
@[simp] theorem flushQueue_base (l : Link) (c : FlushScope) (e : Ev) : (flushQueue l c e).st.base = e.st.base := by
  cases c <;> simp [flushQueue]
@[simp] theorem flushAll_base (l : Link) (e : Ev) : (flushAll l e).st.base = e.st.base := by simp [flushAll]
@[simp] theorem acceptRegister_base (sp : Span) (p : Vec3) (s : State) : (acceptRegister sp p s).base = s.base := rfl
@[simp] theorem acceptRelease_base (s : State) : (acceptRelease s).base = s.base := rfl
@[simp] theorem register_base (l : Link) (p : Vec3) (e : Ev) : (register l p e).st.base = e.st.base := by
  unfold register
  dsimp only
  repeat' split
  all_goals simp
@[simp] theorem release_base (l : Link) (e : Ev) : (release l e).st.base = e.st.base := by
  unfold release
  split
  · split <;> simp [releaseHalted]
  · split
    · simp
    · unfold releaseStopped; dsimp only; split <;> simp
  all_goals simp
@[simp] theorem jog_base (l : Link) (v : Vec3) (e : Ev) : (jog l v e).st.base = e.st.base := by
  unfold jog
  repeat' split
  all_goals simp
@[simp] theorem deadman_base (e : Ev) : (deadman e).st.base = e.st.base := by unfold deadman; split <;> simp
@[simp] theorem stepTimer_base (e : Ev) : (stepTimer e).st.base = e.st.base := by unfold stepTimer; split <;> simp
@[simp] theorem holdTimer_base (e : Ev) : (holdTimer e).st.base = e.st.base := by
  unfold holdTimer
  split
  · rfl
  · unfold holdFrames; split <;> simp

end Sys2Proof.Machine
end

