-- ==== Sys2Proof/Proofs/LockedSpan.lean ====
section
/-! SUPPORT. The Span Set, its lock and the Limit Set as one value: what keeps them, up to every command but a reset while the
lock is set (R7, R13, R15). -/

namespace Sys2Proof.Machine

/-- What LOCK freezes: the Span Set with its lock, and the Limit Set. -/
def State.frozen (s : State) : SpanSet × Limits := (s.spanSet, s.limits)

theorem frozen_of_base {s t : State} (h : t.base = s.base) : t.frozen = s.frozen := by
  obtain ⟨-, -, -, hspan, hlimits, -, -, -⟩ := base_eq h
  exact Prod.ext hspan hlimits

@[simp] theorem onPort_frozen (l : Link) (f : Port → Port) (s : State) : (onPort l f s).frozen = s.frozen := rfl
@[simp] theorem raiseFlag_frozen (f : EventFlag) (a b : Nat) (s : State) : (raiseFlag f a b s).frozen = s.frozen := by
  simp [State.frozen]

/-- What an event leaves frozen, its end leaves frozen. -/
theorem finish_frozen (g : GenState) (e : Ev) : (finish g e).frozen = e.st.frozen := by
  rw [finish_console]
  change (settleReads e).st.frozen = e.st.frozen
  exact frozen_of_base (settleReads_base e)

theorem refuseBusy_frozen (l : Link) (t k : Byte) (s : State) : (refuseBusy l t k s).frozen = s.frozen := by
  unfold refuseBusy; split <;> simp

/-- An act keeps what is frozen, from a state where the lock is set. -/
def KeepsFrozen (act : Ev → Ev) : Prop := ∀ e : Ev, e.st.spanSet.locked = true → (act e).st.frozen = e.st.frozen

theorem keepsFrozen_of_base {act : Ev → Ev} (h : ∀ e, (act e).st.base = e.st.base) : KeepsFrozen act :=
  fun e _ => frozen_of_base (h e)

theorem request_frozen {α : Type} (k : RequestKind) (r : Req α) (act : α → Ev → Ev) (s : State)
    (hl : s.spanSet.locked = true) (h : ∀ a, KeepsFrozen (act a)) : (request k r act s).frozen = s.frozen := by
  unfold request
  dsimp only
  split
  · rfl
  · split
    · rw [refuseBusy_frozen]; rfl
    · rw [finish_frozen]
      unfold decideRequest
      split
      · rfl
      · split
        · rfl
        · next a _ => exact h a _ hl

theorem runEvent_frozen (s : State) (act : Ev → Ev) (hl : s.spanSet.locked = true) (h : KeepsFrozen act) :
    (runEvent s act).frozen = s.frozen := by
  unfold runEvent
  split
  · rfl
  · rw [finish_frozen]; exact h _ hl

/-! The three requests that write what is frozen. -/

theorem setSpan_keepsFrozen (l : Link) (sp : Span) : KeepsFrozen (setSpan l sp) := by
  intro e hl; simp [setSpan, hl]
theorem setLimits_keepsFrozen (l : Link) (v : Limits) : KeepsFrozen (setLimits l v) := by
  intro e hl; simp [setLimits, hl]
/-- LOCK again sets a lock that is set already. -/
theorem lock_keepsFrozen (l : Link) : KeepsFrozen (lock l) := by
  intro e hl
  unfold lock
  split
  · rfl
  · simp [State.frozen, ← hl]

/-! The events and requests that write beyond the base of the state. -/

theorem rewriteWear_keepsFrozen (l : Link) (n : Nat) (c : Vector Nat 64) : KeepsFrozen (rewriteWear l n c) := by
  intro e _
  unfold rewriteWear
  split
  · rfl
  · split <;> rfl
theorem clearEvents_keepsFrozen (l : Link) (m : BitVec 32) : KeepsFrozen (clearEvents l m) := by
  intro e _; unfold clearEvents; split <;> simp [State.frozen]
theorem setNotices_keepsFrozen (l : Link) (m : BitVec 32) : KeepsFrozen (setNotices l m) := by
  intro e _; unfold setNotices; split <;> simp [State.frozen]
theorem clearFault_keepsFrozen (l : Link) : KeepsFrozen (clearFault l) := fun _ _ => rfl
theorem wearQuery_base (l : Link) (n : Nat) (e : Ev) : (wearQuery l n e).st.base = e.st.base := by
  unfold wearQuery; split <;> rfl
theorem scrub_keepsFrozen : KeepsFrozen scrub := by
  intro e _
  have item (n : Nat) : (scrubItem n e).st.base = e.st.base := by
    unfold scrubItem
    repeat' split
    all_goals simp
  unfold scrub
  split
  · rfl
  · change (scrubItem e.st.scrubber.position e).st.frozen = e.st.frozen
    exact frozen_of_base (item _)

theorem monitorTension_frozen (w : Winch) (t : Nat) (e : Ev) : (monitorTension w t e).st.frozen = e.st.frozen := by
  have effects (st : TensionStatus) (e : Ev) : (tensionEffects w st e).st.base = e.st.base := by
    cases st <;> simp only [tensionEffects, tensionHalt] <;> (try split) <;> simp
  unfold monitorTension
  dsimp only
  split
  · rfl
  · rw [frozen_of_base (effects _ _)]; rfl
theorem feedIfMoved_frozen (w : Winch) (b : Bool) (o : Option Int) (m : Nat) (e : Ev) :
    (feedIfMoved w b o m e).st.frozen = e.st.frozen := by
  unfold feedIfMoved feedWear
  dsimp only
  repeat' split
  all_goals rfl
theorem judgeDrive_base (w : Winch) (b : Bool) (st : DriveStatus) (e : Ev) :
    (judgeDrive w b st e).st.base = e.st.base := by
  unfold judgeDrive; split <;> simp
theorem followCheck_base (w : Winch) (o : Option Sent) (m : Nat) (e : Ev) :
    (followCheck w o m e).st.base = e.st.base := by
  unfold followCheck
  repeat' split
  all_goals simp
theorem takeFeedback_frozen (w : Winch) (f : FeedbackFields) (st : DriveStatus) (e : Ev) :
    (takeFeedback w f st e).st.frozen = e.st.frozen := by
  unfold takeFeedback
  dsimp only
  split
  all_goals
    simp only [frozen_of_base (followCheck_base _ _ _ _), frozen_of_base (judgeDrive_base _ _ _ _), feedIfMoved_frozen,
      monitorTension_frozen]
    rfl
theorem feedbackEvent_keepsFrozen (w : Winch) (b : Body FeedbackFields) : KeepsFrozen (feedbackEvent w b) := by
  intro e _
  unfold feedbackEvent receiveFeedback
  split
  · rfl
  · split
    · rfl
    · split
      · rw [takeFeedback_frozen]; rfl
      · rfl

/-! Every command. -/

theorem next_inj {s t : State} (h : (Host.Outcome.next s : Host.Outcome State Fault Refusal) = .next t) : s = t := by
  cases h; rfl

/-- While the lock is set no command but a reset changes the Span Set, its lock or the Limit Set (R15). -/
theorem exec_keeps_frozen (i : Instr) (s t : State) (h : exec i s = .next t) (hl : s.spanSet.locked = true)
    (hb : beginsReset i = false) : t.frozen = s.frozen := by
  have req {α : Type} {k : RequestKind} {r : Req α} {act : α → Ev → Ev} (ha : ∀ a, KeepsFrozen (act a))
      (h : (Host.Outcome.next (request k r act s) : Host.Outcome State Fault Refusal) = .next t) : t.frozen = s.frozen := by
    rw [← next_inj h]; exact request_frozen k r act s hl ha
  have ev {act : Ev → Ev} (ha : KeepsFrozen act)
      (h : (Host.Outcome.next (runEvent s act) : Host.Outcome State Fault Refusal) = .next t) : t.frozen = s.frozen := by
    rw [← next_inj h]; exact runEvent_frozen s act hl ha
  have keep {u : State} (hu : u.frozen = s.frozen)
      (h : (Host.Outcome.next u : Host.Outcome State Fault Refusal) = .next t) : t.frozen = s.frozen := by
    rw [← next_inj h]; exact hu
  match i, h, hb with
  | .powerUp, _, hb => cases hb
  | .resetLine, _, hb => cases hb
  | .zoneAdd r, h, _ => exact req (fun a => keepsFrozen_of_base (zoneAdd_base r.link a)) h
  | .zoneAmend r, h, _ => exact req (fun a => keepsFrozen_of_base (zoneAmend_base r.link a)) h
  | .zoneRetire r, h, _ => exact req (fun a => keepsFrozen_of_base (zoneRetire_base r.link a)) h
  | .zoneQuery r, h, _ => exact req (fun a => keepsFrozen_of_base (zoneQuery_base r.link a)) h
  | .zoneList r, h, _ => exact req (fun _ => keepsFrozen_of_base (zoneList_base r.link)) h
  | .pointLookup r, h, _ => exact req (fun a => keepsFrozen_of_base (pointLookup_base r.link a)) h
  | .cueStore r, h, _ => exact req (fun a => keepsFrozen_of_base (cueStore_base r.link a)) h
  | .cueAmend r, h, _ => exact req (fun a => keepsFrozen_of_base (cueAmend_base r.link a)) h
  | .cueRetire r, h, _ => exact req (fun a => keepsFrozen_of_base (cueRetire_base r.link a)) h
  | .cueQuery r, h, _ => exact req (fun a => keepsFrozen_of_base (cueQuery_base r.link a)) h
  | .cueList r, h, _ => exact req (fun _ => keepsFrozen_of_base (cueList_base r.link)) h
  | .goto r, h, _ => exact req (fun a => keepsFrozen_of_base (gotoRequest_base false r.link a)) h
  | .gotoPriority r, h, _ => exact req (fun a => keepsFrozen_of_base (gotoRequest_base true r.link a)) h
  | .recall r, h, _ => exact req (fun a => keepsFrozen_of_base (recallRequest_base false r.link a)) h
  | .recallPriority r, h, _ => exact req (fun a => keepsFrozen_of_base (recallRequest_base true r.link a)) h
  | .jog r, h, _ => exact req (fun a => keepsFrozen_of_base (jog_base r.link a)) h
  | .hold r, h, _ => exact req (fun _ => keepsFrozen_of_base (hold_base r.link)) h
  | .resume r, h, _ => exact req (fun _ => keepsFrozen_of_base (resume_base r.link)) h
  | .flushQueue r, h, _ => exact req (fun a => keepsFrozen_of_base (flushQueue_base r.link a)) h
  | .flushAll r, h, _ => exact req (fun _ => keepsFrozen_of_base (flushAll_base r.link)) h
  | .register r, h, _ => exact req (fun a => keepsFrozen_of_base (register_base r.link a)) h
  | .release r, h, _ => exact req (fun _ => keepsFrozen_of_base (release_base r.link)) h
  | .motionQuery r, h, _ => exact req (act := fun _ => motionQuery r.link) (fun _ _ _ => rfl) h
  | .setSpan r, h, _ => exact req (setSpan_keepsFrozen r.link) h
  | .setLimits r, h, _ => exact req (setLimits_keepsFrozen r.link) h
  | .lock r, h, _ => exact req (fun _ => lock_keepsFrozen r.link) h
  | .configQuery r, h, _ => exact req (act := fun _ => configQuery r.link) (fun _ _ _ => rfl) h
  | .tensionQuery r, h, _ => exact req (act := fun _ => tensionQuery r.link) (fun _ _ _ => rfl) h
  | .driveQuery r, h, _ => exact req (act := fun _ => driveQuery r.link) (fun _ _ _ => rfl) h
  | .faultQuery r, h, _ => exact req (act := fun _ => faultQuery r.link) (fun _ _ _ => rfl) h
  | .clearFault r, h, _ => exact req (fun _ => clearFault_keepsFrozen r.link) h
  | .wearQuery r, h, _ => exact req (fun a => keepsFrozen_of_base (wearQuery_base r.link a)) h
  | .wearLoad r, h, _ =>
    exact req (act := fun f : WearLoadFields => rewriteWear r.link f.winch f.counters)
      (fun _ => rewriteWear_keepsFrozen _ _ _) h
  | .wearReset r, h, _ => exact req (fun n => rewriteWear_keepsFrozen r.link n _) h
  | .clearEvents r, h, _ => exact req (clearEvents_keepsFrozen r.link) h
  | .setNotices r, h, _ => exact req (setNotices_keepsFrozen r.link) h
  | .eventQuery r, h, _ => exact req (act := fun _ => eventQuery r.link) (fun _ _ _ => rfl) h
  | .unknownRequest l tag kind, h, _ =>
    simp only [exec, execUnknownRequest] at h
    split at h
    · cases h
    · refine keep ?_ h
      unfold takeUnknown
      dsimp only
      repeat' split
      all_goals simp [refuseBusy_frozen, frameTaken]
  | .consoleFrameDiscard l d, h, _ => refine keep ?_ h; split <;> simp [frameTaken]
  | .frameSent l, h, _ => refine keep ?_ h; split <;> simp
  | .stepTimerExpiry, h, _ => exact ev (keepsFrozen_of_base stepTimer_base) h
  | .holdTimerExpiry, h, _ => exact ev (keepsFrozen_of_base holdTimer_base) h
  | .oneSecondTimerExpiry, h, _ => exact ev (keepsFrozen_of_base oneSecond_base) h
  | .deadmanExpiry, h, _ => exact ev (keepsFrozen_of_base deadman_base) h
  | .scrubberTimerExpiry, h, _ => exact ev scrub_keepsFrozen h
  | .cellVisit, h, _ => exact ev (keepsFrozen_of_base cellVisitEvent_base) h
  | .feedbackFrame w b, h, _ => exact ev (feedbackEvent_keepsFrozen w b) h
  | .stopAsserted, h, _ =>
    refine keep ?_ h
    rw [runEvent_frozen (setStop true s) trip hl (keepsFrozen_of_base trip_base)]; rfl
  | .stopReleased, h, _ => exact keep (u := setStop false s) rfl h
  | .endOfReset, h, _ => refine keep ?_ h; split <;> rfl

/-! LOCK and the requests it refuses. -/

theorem lock_answers (s : State) (tag : Byte) (h : s.portFree .safety) :
    exec (.lock ⟨.safety, tag, .fields ()⟩) s = .next
      (if s.spanSet.span.isSome then
        State.answered { s with spanSet := ⟨s.spanSet.span, true⟩ } .safety tag 0x17 ⟨.ok, false, []⟩
      else s.answered .safety tag 0x17 ⟨.notConfigured, false, []⟩) := by
  have run := request_passes .lock ⟨.safety, tag, .fields ()⟩ (fun _ => lock .safety) s () h (by simp) rfl
  refine congrArg Host.Outcome.next (run.trans ?_)
  unfold lock
  simp only [start_st, taken_spanSet]
  cases hsp : s.spanSet.span with
  | none => exact finish_reply s .safety tag 0x17 _
  | some sp =>
    refine (finish_upd_reply s .safety tag 0x17 (fun s => { s with spanSet := { s.spanSet with locked := true } })
      ⟨.ok, false, []⟩ rfl rfl).trans ?_
    simp [hsp]

theorem setSpan_locked (s : State) (l : Link) (tag : Byte) (sp : Span) (h : s.portFree l) (hl : s.spanSet.locked = true) :
    exec (.setSpan ⟨l, tag, .fields sp⟩) s = .next (s.answered l tag 0x15 ⟨.locked, false, []⟩) := by
  have run := request_passes .setSpan ⟨l, tag, .fields sp⟩ (setSpan l) s sp h (by simp [safetyOnly]) rfl
  refine congrArg Host.Outcome.next (run.trans ?_)
  simp only [setSpan, start_st, taken_spanSet, hl, if_true]
  exact finish_reply s l tag 0x15 _

theorem setLimits_locked (s : State) (tag : Byte) (v : Limits) (h : s.portFree .safety) (hl : s.spanSet.locked = true) :
    exec (.setLimits ⟨.safety, tag, .fields v⟩) s = .next (s.answered .safety tag 0x16 ⟨.locked, false, []⟩) := by
  have run := request_passes .setLimits ⟨.safety, tag, .fields v⟩ (setLimits .safety) s v h (by simp) rfl
  refine congrArg Host.Outcome.next (run.trans ?_)
  simp only [setLimits, start_st, taken_spanSet, hl, if_true]
  exact finish_reply s .safety tag 0x16 _

end Sys2Proof.Machine

section
open Sys2Proof Sys2Proof.Machine

/-- Settles O37: the third clause by the cases of `exec_keeps_frozen`. -/
theorem lockFreezesSpanAndLimits : Obligations.LockFreezesSpanAndLimits := by
  refine ⟨fun s tag => ⟨fun h => ?_, lock_answers s tag⟩, fun s tag hl => ⟨?_, ?_⟩, fun i s t h hl hb => ?_⟩
  · exact congrArg Host.Outcome.next (request_safetyOnly .lock ⟨.operations, tag, .fields ()⟩ _ s h rfl rfl)
  · exact fun l sp h => setSpan_locked s l tag sp h hl
  · exact fun v h => setLimits_locked s tag v h hl
  · exact Prod.ext_iff.1 (exec_keeps_frozen i s t h hl hb)

end
end

