-- ==== Sys2Proof/Proofs/LimitsAndQueries.lean ====
section
/-! SUPPORT. SET_LIMITS (R13, R14): its six checks as a chain, and what it leaves. -/

namespace Sys2Proof.Machine

/-- The first test that fails, test by test. -/
theorem firstFailing_cons (b : Bool) (l : List Bool) :
    firstFailing (b :: l) = if b then some 1 else (firstFailing l).map (· + 1) := by
  unfold firstFailing
  rw [List.findIdx?_cons]
  split <;> simp [Function.comp_def]

/-- The six checks of SET_LIMITS in their order (R13). -/
theorem limitsBad_eq (v : Limits) :
    limitsBad v =
      if 65535 < v.slackLimit ∨ 65535 < v.overLimit ∨ 65535 < v.criticalLimit ∨ 5000 < v.hysteresis then some 1
      else if v.overLimit < v.slackLimit + 2 * v.hysteresis then some 2
      else if v.criticalLimit ≤ v.overLimit then some 3
      else if v.following < 10 ∨ 2000 < v.following ∨ v.tolerance < 1 ∨ 2000 < v.tolerance then some 4
      else if v.following < v.tolerance then some 5
      else if v.wear < 1 ∨ 65535 < v.wear then some 6
      else none := by
  simp only [limitsBad, firstFailing_cons, Bool.or_eq_true, decide_eq_true_eq, or_assoc]
  repeat' split
  all_goals rfl

/-- SET_LIMITS on the safety link without the lock: the first failed check, or the new Limit Set (R13, R14). -/
theorem setLimits_unlocked (s : State) (tag : Byte) (v : Limits) (h : s.portFree .safety) (hl : s.spanSet.locked = false) :
    exec (.setLimits ⟨.safety, tag, .fields v⟩) s = .next
      (match (limitsBad v).map byte with
      | some n => s.answered .safety tag 0x16 ⟨.badField, false, [[n]]⟩
      | none => State.answered { s with limits := v } .safety tag 0x16 ⟨.ok, false, []⟩) := by
  have run := request_passes .setLimits ⟨.safety, tag, .fields v⟩ (setLimits .safety) s v h (by simp) rfl
  refine congrArg Host.Outcome.next (run.trans ?_)
  simp only [setLimits, start_st, taken_spanSet, hl, Bool.false_eq_true, if_false]
  cases limitsBad v with
  | some n => exact finish_reply s .safety tag 0x16 _
  | none => exact finish_upd_reply s .safety tag 0x16 (fun s => { s with limits := v }) ⟨.ok, false, []⟩ rfl rfl

end Sys2Proof.Machine

section
open Sys2Proof Sys2Proof.Machine

/-- Settles O36. -/
theorem setLimitsReplacesTheLimitSet : Obligations.SetLimitsReplacesTheLimitSet := by
  refine fun s tag v => ⟨fun h => ?_, fun h => ?_⟩
  · exact congrArg Host.Outcome.next (request_safetyOnly .setLimits ⟨.operations, tag, .fields v⟩ _ s h rfl rfl)
  · intro failed
    have hf : failed = (limitsBad v).map byte := by
      rw [limitsBad_eq]
      simp only [failed, apply_ite (Option.map byte)]
      rfl
    cases hl : s.spanSet.locked with
    | true => exact setLimits_locked s tag v h hl
    | false =>
      rw [setLimits_unlocked s tag v h hl, hf]
      cases limitsBad v <;> rfl

end
end

section
/-! SUPPORT. The five status queries: each report, item by item, is the one the manual lists (R16, R123, R165, R173, R194). -/

namespace Sys2Proof.Machine

/-- A request that is answered OK from the state as it stands changes nothing but the port. -/
theorem query_answers (k : RequestKind) (l : Link) (tag : Byte) (s : State) (report : State → List (List Byte))
    (h : s.portFree l) (hk : safetyOnly k = false) (hr : report (s.taken l tag (kindCode k)) = report s) :
    request k ⟨l, tag, .fields ()⟩ (fun _ e => e.ok l false (report e.st)) s =
      s.answered l tag (kindCode k) ⟨.ok, false, report s⟩ := by
  rw [request_passes k ⟨l, tag, .fields ()⟩ _ s () h (by simp [hk]) rfl]
  simp only [start_st, hr]
  exact finish_reply s l tag (kindCode k) _

/-! Items that may be absent, and items that name a value (R210). -/

theorem optBytes_purpose (o : Option Purpose) :
    optBytes 1 (fun p : Purpose => [byte p.code]) o =
      match o with
      | none => [0, 0]
      | some p => [1, match p with | .cut => 1 | .hold => 2 | .priority => 3 | .flush => 4 | .halt => 5] := by
  cases o with
  | none => rfl
  | some p => cases p <;> rfl
theorem optBytes_jogPurpose (o : Option JogPurpose) :
    optBytes 1 (fun p : JogPurpose => [byte p.code]) o =
      match o with
      | none => [0, 0]
      | some p => [1, match p with | .zone => 1 | .flush => 2 | .halt => 3] := by
  cases o with
  | none => rfl
  | some p => cases p <;> rfl
theorem optBytes_position (f : Vec3 → List Byte) (o : Option Vec3) :
    optBytes 12 f o = match o with | none => List.replicate 13 0 | some p => 1 :: f p := by
  cases o <;> rfl
theorem optBytes_flight (f : Flight → List Byte) (o : Option Flight) :
    optBytes 27 f o = match o with | none => List.replicate 28 0 | some m => 1 :: f m := by
  cases o <;> rfl
theorem optBytes_move (f : Move → List Byte) (o : Option Move) :
    optBytes 19 f o = match o with | none => List.replicate 20 0 | some m => 1 :: f m := by
  cases o <;> rfl
theorem optBytes_cueNumber (o : Option Nat) :
    optBytes 1 (fun n => [byte n]) o = match o with | none => [0, 0] | some n => [1, byte n] := by
  cases o <;> rfl
theorem optBytes_length (o : Option Int) :
    optBytes 4 lengthBytes o = match o with | none => [0, 0, 0, 0, 0] | some x => 1 :: le32 x.toNat := by
  cases o <;> rfl
theorem optBytes_lengths (f : PerWinch RopeLength → List Byte) (o : Option (PerWinch RopeLength)) :
    optBytes 4 f o = match o with | none => [0, 0, 0, 0, 0] | some r => 1 :: f r := by
  cases o <;> rfl
theorem optBytes_sent (n : Byte) (o : Option Sent) :
    optBytes 2 (fun k : Sent => [n, byte k.code]) o =
      match o with
      | none => [0, 0, 0]
      | some k => [1, n, match k with | .length _ => 1 | .hold => 2] := by
  cases o with
  | none => rfl
  | some k => cases k <;> rfl
theorem optBytes_driveStatus (o : Option DriveStatus) :
    optBytes 1 (fun d : DriveStatus => [byte d.code]) o =
      match o with
      | none => [0, 0]
      | some d => [1, match d with | .ready => 1 | .braked => 2 | .fault => 3] := by
  cases o with
  | none => rfl
  | some d => cases d <;> rfl
theorem optBytes_captured (f : Captured → List Byte) (o : Option Captured) :
    optBytes 16 f o = match o with | none => List.replicate 17 0 | some c => 1 :: f c := by
  cases o <;> rfl

theorem byte_linkStatus (c : LinkStatus) : byte c.code = match c with | .silent => 1 | .alive => 2 | .lost => 3 := by
  cases c <;> rfl
theorem byte_resume (r : Resume) : byte r.code = match r with | .manual => 1 | .auto => 2 := by
  cases r <;> rfl
theorem byte_moveKind (k : MoveKind) : byte k.code = match k with | .goto => 1 | .recall => 2 | .exit => 3 := by
  cases k <;> rfl

end Sys2Proof.Machine

section
open Sys2Proof Sys2Proof.Machine

/-- Settles O12: the items of each report, one by one. -/
theorem statusQueriesChangeNothing : Obligations.StatusQueriesChangeNothing := by
  intro s l tag h
  have ok {k : Byte} {r d : List (List Byte)} (e : r = d) :
      s.answered l tag k ⟨.ok, false, r⟩ = s.answered l tag k ⟨.ok, false, d⟩ := by rw [e]
  refine ⟨?motion, ?config, ?tension, ?drive, ?fault⟩
  case motion =>
    intro moveBytes
    have hmove : moveReport = moveBytes := by
      funext m
      simp only [moveReport, byte_moveKind, optBytes_cueNumber]
      rfl
    have hcontext : contextReport = fun c => moveBytes c.move ++ [match c.resume with | .manual => (1 : Byte) | .auto => 2] := by
      funext c
      simp only [contextReport, hmove, byte_resume]
    refine congrArg Host.Outcome.next ((query_answers .motionQuery l tag s motionReport h rfl rfl).trans (ok ?_))
    simp only [motionReport, counted, hmove, hcontext, flightReport, optBytes_purpose, optBytes_jogPurpose,
      optBytes_position, optBytes_flight, optBytes_move, List.length_map]
    rfl
  case config =>
    refine congrArg Host.Outcome.next ((query_answers .configQuery l tag s (fun s =>
      [[if s.spanSet.span.isSome then 2 else 1], boolByte s.spanSet.locked, optBytes 138 spanReport s.spanSet.span] ++
        limitsReport s.limits) h rfl rfl).trans (ok ?_))
    cases s.spanSet.span with
    | none => rfl
    | some sp => simp [spanReport, perWinch, PerWinch.toList, optBytes, limitsReport, boolByte]
  case tension =>
    refine congrArg Host.Outcome.next ((query_answers .tensionQuery l tag s (fun s =>
      [le16 s.limits.slackLimit, le16 s.limits.overLimit, le16 s.limits.criticalLimit, le16 s.limits.hysteresis] ++
        Winch.all.flatMap (tensionReport s)) h rfl rfl).trans (ok ?_))
    unfold tensionReport
    simp only [optBytes_lengths]
    rfl
  case drive =>
    refine congrArg Host.Outcome.next ((query_answers .driveQuery l tag s (fun s =>
      [boolByte s.drive.brake, boolByte s.drive.stopLevel] ++ s.drive.channels.toList.flatMap channelReport)
        h rfl rfl).trans (ok ?_))
    unfold channelReport
    simp only [optBytes_sent, optBytes_length, optBytes_driveStatus, byte_linkStatus]
    rfl
  case fault =>
    refine congrArg Host.Outcome.next ((query_answers .faultQuery l tag s (fun s =>
      s.faults.flags.toList.map boolByte ++ [optBytes 16 capturedReport s.faults.captured]) h rfl rfl).trans (ok ?_))
    unfold capturedReport
    simp only [optBytes_captured, optBytes_position]
    rfl

end
end

