-- ==== Sys2Proof/Proofs/Resets.lean ====
section
/-! SUPPORT. What a reset leaves in each block, as it begins (R1, R3, R17, R46, R57, R73, R96, R136, R151, R174, R192, R199). -/

namespace Sys2Proof.Machine

/-- Every zone slot is FREE (R17). -/
theorem zoneAt_beginReset (wear : PerWinch WinchWear) (s : State) (id : Nat) : zoneAt (s.beginReset wear) id = none := by
  by_cases h : id < 64 <;> simp [zoneAt, State.beginReset, State.reset, freeZoneSlot, h]

/-- Every cue slot is FREE (R57). -/
theorem cueAt_beginReset (wear : PerWinch WinchWear) (s : State) (n : Nat) : cueAt (s.beginReset wear) n = none := by
  by_cases h : n < 96 <;> simp [cueAt, State.beginReset, State.reset, freeCueSlot, h]

/-- Every cell is empty and CURRENT, with the word of its empty list (R46). -/
theorem cell_beginReset (wear : PerWinch WinchWear) (s : State) (n : Nat) (h : n < 192) :
    (s.beginReset wear).cells[n]? = some emptyCell := by
  simp [State.beginReset, State.reset, h]

theorem beginReset_blocksCleared (wear : PerWinch WinchWear) (s : State) : (s.beginReset wear).blocksCleared := by
  have cells (n : Nat) (h : n < 192) : idsAt (s.beginReset wear) n = [] ∧ condAt (s.beginReset wear) n = .current ∧
      cellFails (s.beginReset wear) n = false := by
    simp [idsAt, condAt, cellFails, cell_beginReset wear s n h, emptyCell]
  have enables (n : Fin 21) : Port.inReset.enables.getLsbD n = decide (n.val = 18) := by
    revert n; decide
  refine ⟨rfl, zoneAt_beginReset wear s, rfl, rfl, rfl, cueAt_beginReset wear s, cells, rfl, rfl, rfl, rfl, rfl,
    get_all _, get_all _, get_all _, rfl, rfl, rfl, rfl, rfl, rfl, ?_, ?_, ?_⟩
  · intro i; simp [State.beginReset, State.reset]
  · intro i; simp [State.beginReset]
  · intro l
    have port : (s.beginReset wear).console.port l = Port.inReset := by cases l <;> rfl
    rw [port]
    exact ⟨rfl, rfl, rfl, enables⟩

/-- With no command waiting and the STOP input released, a power-up and its end leave the state after reset (log entry 2). -/
theorem endReset_beginReset (s : State) (hp : s.pending = []) (hs : s.drive.stopInput = false) :
    (s.beginReset (PerWinch.all WinchWear.reset)).endReset = State.reset := by
  simp only [State.endReset, State.beginReset, hp, hs]
  rfl

end Sys2Proof.Machine

section
open Sys2Proof Sys2Proof.Machine

/-- Settles O3. -/
theorem resetsClearEveryBlock : Obligations.ResetsClearEveryBlock := by
  refine ⟨fun s => ⟨_, _, rfl, rfl, beginReset_blocksCleared _ s, beginReset_blocksCleared _ s, fun w => ⟨?_, ?_⟩,
    rfl, rfl, rfl, rfl⟩, fun s hp hs => ⟨_, rfl, congrArg Host.Outcome.next (endReset_beginReset s hp hs)⟩⟩
  · exact get_all WinchWear.reset w
  · exact get_of _ w

end
end

