-- ==== Sys2Proof/Proofs/FieldTests.lean ====
section
/-! SUPPORT. The field tests against their written bounds (R5, R6, R23, R27, R58, R61), and the planning point (R76). -/

namespace Sys2Proof.Machine

/-! A list of tests names the first that fails. -/

/-- The place, counting from 1, is that of the first proposition that holds; there is none where none holds. -/
def NamesFirst (o : Option Nat) (tests : List Prop) : Prop :=
  match o with
  | none => ∀ t ∈ tests, ¬t
  | some n => ∃ t, 0 < n ∧ tests[n - 1]? = some t ∧ t ∧ ∀ u ∈ tests.take (n - 1), ¬u

/-- Tests that decide propositions one by one name the first of them that holds. -/
theorem firstFailing_namesFirst {fails : List Bool} {tests : List Prop}
    (h : List.Forall₂ (fun b t => b = true ↔ t) fails tests) : NamesFirst (firstFailing fails) tests := by
  induction h with
  | nil => intro t ht; simp at ht
  | @cons b t fails tests hb hrest ih =>
    rw [firstFailing_cons]
    split
    · next hb' => exact ⟨t, by simp, by simp, hb.1 hb', by simp⟩
    · next hb' =>
      have ht : ¬t := fun ht => hb' (hb.2 ht)
      cases ho : firstFailing fails with
      | none =>
        rw [ho] at ih
        intro u hu
        rcases List.mem_cons.1 hu with rfl | hu
        · exact ht
        · exact ih u hu
      | some n =>
        rw [ho] at ih
        obtain ⟨u, hn, hu, hu', hbefore⟩ := ih
        obtain ⟨m, rfl⟩ : ∃ m, n = m + 1 := ⟨n - 1, by omega⟩
        refine ⟨u, by simp, by simpa using hu, hu', ?_⟩
        intro v hv
        change v ∈ t :: tests.take m at hv
        rcases List.mem_cons.1 hv with rfl | hv
        · exact ht
        · exact hbefore v hv

/-- The labels of the first of some labelled checks that fails. -/
def firstLabelled (l : List (Bool × Nat × Nat)) : Option (Nat × Nat) := (l.find? Prod.fst).map Prod.snd

/-- The label is that of the first proposition that holds; there is none where none holds. -/
def LabelsFirst (o : Option (Nat × Nat)) (checks : List (Prop × Nat × Nat)) : Prop :=
  match o with
  | none => ∀ c ∈ checks, ¬c.1
  | some n => ∃ k fails, checks[k]? = some (fails, n) ∧ fails ∧ ∀ c ∈ checks.take k, ¬c.1

/-- A check that decides a proposition under the same label. -/
def Decides (b : Bool × Nat × Nat) (c : Prop × Nat × Nat) : Prop := (b.1 = true ↔ c.1) ∧ b.2 = c.2

theorem firstLabelled_labelsFirst {fails : List (Bool × Nat × Nat)} {checks : List (Prop × Nat × Nat)}
    (h : List.Forall₂ Decides fails checks) : LabelsFirst (firstLabelled fails) checks := by
  induction h with
  | nil => intro c hc; simp at hc
  | @cons b c fails checks hb hrest ih =>
    obtain ⟨hb, hlabel⟩ := hb
    unfold firstLabelled
    rw [List.find?_cons]
    split
    · next hb' => exact ⟨0, c.1, by rw [hlabel]; rfl, hb.1 hb', by simp⟩
    · next hb' =>
      have hc : ¬c.1 := fun hc => by simp [hb.2 hc] at hb'
      change LabelsFirst (firstLabelled fails) (c :: checks)
      cases ho : firstLabelled fails with
      | none =>
        rw [ho] at ih
        intro d hd
        rcases List.mem_cons.1 hd with rfl | hd
        · exact hc
        · exact ih d hd
      | some n =>
        rw [ho] at ih
        obtain ⟨k, u, hu, hu', hbefore⟩ := ih
        refine ⟨k + 1, u, by simpa using hu, hu', ?_⟩
        intro d hd
        rcases List.mem_cons.1 (by simpa using hd) with rfl | hd
        · exact hc
        · exact hbefore d hd

theorem firstLabelled_append (l m : List (Bool × Nat × Nat)) :
    firstLabelled (l ++ m) = (firstLabelled l).or (firstLabelled m) := by
  unfold firstLabelled
  rw [List.find?_append]
  cases l.find? Prod.fst <;> rfl

/-! Coordinates (section 6.2 of the introduction). -/

theorem not_coordOk (x : Int) : (!coordOk x) = true ↔ 262143 < x.natAbs := by
  simp only [coordOk, Bool.not_eq_true', Bool.and_eq_false_iff, decide_eq_false_iff_not]
  omega

theorem not_pointOk (p : Vec3) : (!pointOk p) = true ↔ 262143 < p.x.natAbs ∨ 262143 < p.y.natAbs ∨ 262143 < p.z.natAbs := by
  simp only [pointOk, Bool.not_and, Bool.or_eq_true, not_coordOk, or_assoc]

theorem not_boxCoordsOk (b : Box) : (!boxCoordsOk b) = true ↔
    262143 < b.xlo.natAbs ∨ 262143 < b.xhi.natAbs ∨ 262143 < b.ylo.natAbs ∨ 262143 < b.yhi.natAbs ∨
      262143 < b.zlo.natAbs ∨ 262143 < b.zhi.natAbs := by
  simp only [boxCoordsOk, Bool.not_and, Bool.or_eq_true, not_coordOk, or_assoc]

theorem not_boxStrict (b : Box) : (!boxStrict b) = true ↔ b.xhi ≤ b.xlo ∨ b.yhi ≤ b.ylo ∨ b.zhi ≤ b.zlo := by
  simp only [boxStrict, Bool.not_and, Bool.or_eq_true, Bool.not_eq_true', decide_eq_false_iff_not, Int.not_lt, or_assoc]

theorem exceeds_iff (m : Nat) (o : Option Nat) : exceeds m o = true ↔ ∃ v, o = some v ∧ m < v := by
  simp [exceeds, Option.any_eq_true]

/-! SET_SPAN's checks as one list (R5, R6). -/

theorem decides_append {l l' : List (Bool × Nat × Nat)} {m m' : List (Prop × Nat × Nat)}
    (h : List.Forall₂ Decides l m) (h' : List.Forall₂ Decides l' m') : List.Forall₂ Decides (l ++ l') (m ++ m') :=
  List.rel_append h h'

/-- One check of the four winches, with its number and theirs. -/
def winchCheck (holds : Nat → WinchSpan → Bool) (p : PerWinch WinchSpan) (c : Nat) : List (Bool × Nat × Nat) :=
  Winch.all.map fun w => (!holds c (p.get w), c, w.number)

/-- It decides for each winch what it decides for any. -/
theorem winchCheck_decides (holds : Nat → WinchSpan → Bool) (p : PerWinch WinchSpan) (c : Nat) {fails : WinchSpan → Prop}
    (h : ∀ ws, (!holds c ws) = true ↔ fails ws) :
    List.Forall₂ Decides (winchCheck holds p c) (Winch.all.map fun w => (fails (p.get w), c, w.number)) :=
  List.forall₂_map_right_iff.2 (List.forall₂_map_left_iff.2 (List.forall₂_same.2 fun _ _ => ⟨h _, rfl⟩))

theorem firstWinchFailing_eq (holds : Nat → WinchSpan → Bool) (p : PerWinch WinchSpan) (cs : List Nat) :
    firstWinchFailing holds p cs = firstLabelled (cs.flatMap (winchCheck holds p)) := by
  induction cs with
  | nil => rfl
  | cons c cs ih =>
    have one : firstLabelled (winchCheck holds p c) =
        (Winch.all.find? fun w => !holds c (p.get w)).map fun w => (c, w.number) := by
      unfold firstLabelled winchCheck
      rw [List.find?_map, Option.map_map]
      rfl
    rw [List.flatMap_cons, firstLabelled_append, one, firstWinchFailing, ih]
    cases Winch.all.find? fun w => !holds c (p.get w) <;> rfl

/-- All checks of SET_SPAN with their numbers and winches. -/
def spanChecks (sp : Span) : List (Bool × Nat × Nat) :=
  [(!boxCoordsOk sp.w, 1, 0), (!boxStrict sp.w, 2, 0),
      (decide (sp.w.xhi - sp.w.xlo < 16000) || decide (sp.w.yhi - sp.w.ylo < 12000), 3, 0)] ++
    ([4, 5, 6, 7].flatMap (winchCheck spanWinchOk sp.winch) ++
      ([(!spanMotionOk sp, 8, 0)] ++
        [9, 10, 11, 12].flatMap (winchCheck (fun c ws => spanGeometryOk c sp.w ws) sp.winch)))

/-- The same list, check by check. -/
theorem spanChecks_eq (sp : Span) :
    spanChecks sp =
      [(!boxCoordsOk sp.w, 1, 0), (!boxStrict sp.w, 2, 0),
          (decide (sp.w.xhi - sp.w.xlo < 16000) || decide (sp.w.yhi - sp.w.ylo < 12000), 3, 0)] ++
        winchCheck spanWinchOk sp.winch 4 ++ winchCheck spanWinchOk sp.winch 5 ++
        winchCheck spanWinchOk sp.winch 6 ++ winchCheck spanWinchOk sp.winch 7 ++ [(!spanMotionOk sp, 8, 0)] ++
        winchCheck (fun c ws => spanGeometryOk c sp.w ws) sp.winch 9 ++
        winchCheck (fun c ws => spanGeometryOk c sp.w ws) sp.winch 10 ++
        winchCheck (fun c ws => spanGeometryOk c sp.w ws) sp.winch 11 ++
        winchCheck (fun c ws => spanGeometryOk c sp.w ws) sp.winch 12 := by
  simp only [spanChecks, List.flatMap_cons, List.flatMap_nil, List.append_nil, List.append_assoc]

theorem spanBad_eq (sp : Span) : spanBad sp = firstLabelled (spanChecks sp) := by
  have box (a b c : Bool) : firstLabelled [(a, 1, 0), (b, 2, 0), (c, 3, 0)] =
      (firstFailing [a, b, c]).map fun n => (n, 0) := by
    simp only [firstFailing_cons, firstLabelled, List.find?_cons]
    cases a with
    | true => rfl
    | false =>
      cases b with
      | true => rfl
      | false => cases c <;> rfl
  have motion : firstLabelled [(!spanMotionOk sp, 8, 0)] = if !spanMotionOk sp then some (8, 0) else none := by
    cases spanMotionOk sp <;> rfl
  rw [spanChecks, firstLabelled_append, firstLabelled_append, firstLabelled_append, box, motion,
    ← firstWinchFailing_eq, ← firstWinchFailing_eq, spanBad, ← spanBoxBad]
  cases spanBoxBad sp.w with
  | some n => rfl
  | none =>
    cases firstWinchFailing spanWinchOk sp.winch [4, 5, 6, 7] with
    | some c => rfl
    | none => cases spanMotionOk sp <;> rfl

/-! The geometric checks (R6). -/

/-- A bound that is at least as far from a coordinate as both is as far as the one the check takes. -/
theorem fartherBound_natAbs (lo hi a x : Int) (hx : x = lo ∨ x = hi) (hlo : (a - lo).natAbs ≤ (a - x).natAbs)
    (hhi : (a - hi).natAbs ≤ (a - x).natAbs) : (a - fartherBound lo hi a).natAbs = (a - x).natAbs := by
  unfold fartherBound
  split <;> rcases hx with rfl | rfl <;> omega

/-- The bound the check takes is one of the two, and at least as far as both. -/
theorem fartherBound_farther (lo hi a : Int) :
    (fartherBound lo hi a = lo ∨ fartherBound lo hi a = hi) ∧
      (a - lo).natAbs ≤ (a - fartherBound lo hi a).natAbs ∧ (a - hi).natAbs ≤ (a - fartherBound lo hi a).natAbs := by
  unfold fartherBound
  split <;> omega

/-- A slack length depends on how far the point is from the anchor on each axis alone. -/
theorem slackLength_congr (ws : WinchSpan) (p q : Vec3) (hx : (ws.anchor.x - p.x).natAbs = (ws.anchor.x - q.x).natAbs)
    (hy : (ws.anchor.y - p.y).natAbs = (ws.anchor.y - q.y).natAbs)
    (hz : (ws.anchor.z - p.z).natAbs = (ws.anchor.z - q.z).natAbs) : slackLength ws p = slackLength ws q := by
  have axis (a x y : Int) (h : (a - x).natAbs = (a - y).natAbs) :
      (x * 1000 - a * 1000).natAbs = (y * 1000 - a * 1000).natAbs := by omega
  simp only [slackLength, geometricLength, distance, normSq, Vec3.sub, toMicro, axis _ _ _ hx, axis _ _ _ hy,
    axis _ _ _ hz]

/-- Two bounds are not both near a coordinate exactly where one of them is far from it. -/
theorem not_cornersNear (lo hi a : Int) :
    cornersNear lo hi a = false ↔ ∃ x, (x = lo ∨ x = hi) ∧ 262143 < (x - a).natAbs := by
  have both : cornersNear lo hi a = false ↔ 262143 < (lo - a).natAbs ∨ 262143 < (hi - a).natAbs := by
    simp only [cornersNear, Bool.and_eq_false_iff, decide_eq_false_iff_not]
    omega
  rw [both]
  constructor
  · rintro (h | h)
    · exact ⟨lo, .inl rfl, h⟩
    · exact ⟨hi, .inr rfl, h⟩
  · rintro ⟨x, rfl | rfl, h⟩
    · exact .inl h
    · exact .inr h

/-- Check 9 fails exactly where some corner of W is far from the anchor on some axis (R6). -/
theorem spanGeometry_nine (w : Box) (ws : WinchSpan) : (!spanGeometryOk 9 w ws) = true ↔
    ∃ c : Vec3, (c.x = w.xlo ∨ c.x = w.xhi) ∧ (c.y = w.ylo ∨ c.y = w.yhi) ∧ (c.z = w.zlo ∨ c.z = w.zhi) ∧
      (262143 < (c.x - ws.anchor.x).natAbs ∨ 262143 < (c.y - ws.anchor.y).natAbs ∨
        262143 < (c.z - ws.anchor.z).natAbs) := by
  simp only [spanGeometryOk, Bool.not_eq_true', Bool.and_eq_false_iff, not_cornersNear]
  constructor
  · rintro ((⟨x, hx, h⟩ | ⟨y, hy, h⟩) | ⟨z, hz, h⟩)
    · exact ⟨⟨x, w.ylo, w.zlo⟩, hx, .inl rfl, .inl rfl, .inl h⟩
    · exact ⟨⟨w.xlo, y, w.zlo⟩, .inl rfl, hy, .inl rfl, .inr (.inl h)⟩
    · exact ⟨⟨w.xlo, w.ylo, z⟩, .inl rfl, .inl rfl, hz, .inr (.inr h)⟩
  · rintro ⟨c, hx, hy, hz, h | h | h⟩
    · exact .inl (.inl ⟨c.x, hx, h⟩)
    · exact .inl (.inr ⟨c.y, hy, h⟩)
    · exact .inr ⟨c.z, hz, h⟩

/-- A coordinate is one of a range's bounds, and no bound lies farther from `a` (R6). -/
def FarthestBound (lo hi a x : Int) : Prop :=
  (x = lo ∨ x = hi) ∧ (a - lo).natAbs ≤ (a - x).natAbs ∧ (a - hi).natAbs ≤ (a - x).natAbs

/-- Check 11 fails exactly where the rope to some farthest corner is longer than the drum's (R6). -/
theorem spanGeometry_eleven (w : Box) (ws : WinchSpan) : (!spanGeometryOk 11 w ws) = true ↔
    ∃ c : Vec3, FarthestBound w.xlo w.xhi ws.anchor.x c.x ∧ FarthestBound w.ylo w.yhi ws.anchor.y c.y ∧
      FarthestBound w.zlo w.zhi ws.anchor.z c.z ∧ ws.lmax * 1000 < slackLength ws c := by
  simp only [spanGeometryOk, Bool.not_eq_true', decide_eq_false_iff_not, Nat.not_le]
  constructor
  · exact fun h => ⟨farthestCorner w ws.anchor, fartherBound_farther _ _ _, fartherBound_farther _ _ _,
      fartherBound_farther _ _ _, h⟩
  · rintro ⟨c, ⟨hx, hx1, hx2⟩, ⟨hy, hy1, hy2⟩, ⟨hz, hz1, hz2⟩, h⟩
    have same : slackLength ws (farthestCorner w ws.anchor) = slackLength ws c :=
      slackLength_congr ws _ _ (fartherBound_natAbs _ _ _ _ hx hx1 hx2) (fartherBound_natAbs _ _ _ _ hy hy1 hy2)
        (fartherBound_natAbs _ _ _ _ hz hz1 hz2)
    rwa [same]

/-- Check 12 fails exactly where the rope to the nearest point of W is shorter than the drum's (R6). -/
theorem spanGeometry_twelve (w : Box) (ws : WinchSpan) : (!spanGeometryOk 12 w ws) = true ↔
    ∃ c : Vec3, c.x = max w.xlo (min w.xhi ws.anchor.x) ∧ c.y = max w.ylo (min w.yhi ws.anchor.y) ∧
      c.z = max w.zlo (min w.zhi ws.anchor.z) ∧ slackLength ws c < ws.lmin * 1000 := by
  simp only [spanGeometryOk, Bool.not_eq_true', decide_eq_false_iff_not, Nat.not_le]
  constructor
  · exact fun h => ⟨clampTo w ws.anchor, rfl, rfl, rfl, h⟩
  · rintro ⟨⟨x, y, z⟩, hx, hy, hz, h⟩
    have point : clampTo w ws.anchor = ⟨x, y, z⟩ := by rw [clampTo, ← hx, ← hy, ← hz]
    rwa [point]

/-! The per-winch field checks and the motion check (R5). -/

theorem not_spanWinch_five (ws : WinchSpan) : (!spanWinchOk 5 ws) = true ↔
    65535 < ws.offset ∨ 1073000 < ws.lmin ∨ 1073000 < ws.lmax ∨ ws.lmax ≤ ws.lmin := by
  simp only [spanWinchOk, Bool.not_eq_true', Bool.and_eq_false_iff, decide_eq_false_iff_not]
  omega

theorem not_spanWinch_six (ws : WinchSpan) :
    (!spanWinchOk 6 ws) = true ↔ ws.scale ∉ [34, 36, 38, 40] ∨ 65535 < ws.compliance := by
  simp only [spanWinchOk, Bool.not_and, Bool.or_eq_true, Bool.not_eq_true', decide_eq_false_iff_not, Nat.not_le,
    List.contains_eq_mem]

theorem not_spanWinch_seven (ws : WinchSpan) : (!spanWinchOk 7 ws) = true ↔ ws.rate < 1 ∨ 50000 < ws.rate := by
  simp only [spanWinchOk, Bool.not_eq_true', Bool.and_eq_false_iff, decide_eq_false_iff_not]
  omega

theorem not_spanMotionOk (sp : Span) : (!spanMotionOk sp) = true ↔
    sp.top < 1 ∨ 25000 < sp.top ∨ sp.accel < 1 ∨ 64 < sp.accel ∨ sp.brakeAccel < sp.accel ∨ 128 < sp.brakeAccel ∨
      5000 < sp.clearance := by
  simp only [spanMotionOk, Bool.not_eq_true', Bool.and_eq_false_iff, decide_eq_false_iff_not]
  omega

theorem spanGeometry_ten (w : Box) (ws : WinchSpan) :
    (!spanGeometryOk 10 w ws) = true ↔ ws.anchor.z < w.zhi + 1000 := by
  simp only [spanGeometryOk, Bool.not_eq_true', decide_eq_false_iff_not, Int.not_le]

/-! The planning point (R76). -/

theorem planningPoint_queue (s : State) (m : Move) (h : s.gen.queue.getLast? = some m) : planningPoint s = m.target := by
  simp [planningPoint, h]

theorem planningPoint_stack (s : State) (c : Context) (hq : s.gen.queue = []) (h : s.gen.stack.getLast? = some c) :
    planningPoint s = c.move.target := by
  simp [planningPoint, hq, h]

/-- The move that executes, for the planning point: in MOVING, or braking to be taken up again. -/
def State.executing (s : State) : Prop :=
  s.gen.state = .moving ∨ s.gen.state = .braking ∧ (s.gen.purpose = some .hold ∨ s.gen.purpose = some .priority)

theorem planningPoint_executing (s : State) (f : Flight) (hq : s.gen.queue = []) (hs : s.gen.stack = [])
    (hf : s.gen.flight = some f) (he : s.executing) : planningPoint s = f.move.target := by
  simp only [planningPoint, hq, hs, hf, List.getLast?_nil]
  exact if_pos he

theorem planningPoint_resting (s : State) (p : Vec3) (hp : s.gen.pos = some p) (hq : s.gen.queue = [])
    (hs : s.gen.stack = []) (h : s.gen.flight = none ∨ ¬s.executing) : planningPoint s = p := by
  have hpos : posOf s = p := by simp [posOf, hp]
  cases hf : s.gen.flight with
  | none => simp [planningPoint, hq, hs, hf, hpos]
  | some f =>
    have he : ¬s.executing := h.resolve_left (by simp [hf])
    simp only [planningPoint, hq, hs, hf, hpos, List.getLast?_nil]
    exact if_neg he

end Sys2Proof.Machine

section
open Sys2Proof Sys2Proof.Machine

/-- Settles O59. -/
theorem fieldTestsFollowTheirBounds : Obligations.FieldTestsFollowTheirBounds := by
  unfold Obligations.FieldTestsFollowTheirBounds
  intro far farPoint farBox flat first
  refine ⟨fun f => ?zoneAdd, fun z f => ?zoneAmend, fun f => ?cueStore, fun f => ?cueAmend, ?span, ?planning⟩
  case zoneAdd =>
    refine firstFailing_namesFirst (.cons ?_ (.cons ?_ (.cons (not_boxCoordsOk _) (.cons (not_boxStrict _)
      (.cons ?_ (.cons ?_ .nil))))))
    · simp
    · simp
    · by_cases h : f.kind = 2 <;> simp [h, Option.isSome_iff_ne_none]
    · simp
  case zoneAmend =>
    refine firstFailing_namesFirst (.cons ?_ (.cons ?_ (.cons ?_ (.cons ?_ .nil))))
    · simp [and_assoc]
    · simp only [Option.any_eq_true, Bool.or_eq_true, not_boxCoordsOk, not_boxStrict]
      rfl
    · simp [Zone.isKeepOut, Option.isSome_iff_ne_none]
    · simp [or_assoc]
  case cueStore =>
    refine firstFailing_namesFirst (.cons ?_ (.cons ?_ (.cons ?_ (.cons ?_ .nil))))
    · simp
    · cases f.target <;> cases f.here <;> simp
    · simp only [Option.any_eq_true, not_pointOk]
      rfl
    · simp only [Bool.or_eq_true, beq_iff_eq, exceeds_iff]
      cases f.speed <;> simp [cueSpeedMax]
  case cueAmend =>
    refine firstFailing_namesFirst (.cons ?_ (.cons ?_ (.cons ?_ .nil)))
    · simp
    · simp only [Option.any_eq_true, not_pointOk]
      rfl
    · exact exceeds_iff cueSpeedMax f.speed
  case span =>
    intro sp ofWinch farther nearest rope checks
    rw [spanBad_eq]
    refine firstLabelled_labelsFirst (checks := checks) ?_
    rw [spanChecks_eq]
    refine decides_append (decides_append (decides_append (decides_append (decides_append (decides_append
      (decides_append (decides_append (decides_append ?box ?c4) ?c5) ?c6) ?c7) ?c8) ?c9) ?c10) ?c11) ?c12
    case c4 => exact winchCheck_decides spanWinchOk _ 4 fun ws => not_pointOk ws.anchor
    case c5 => exact winchCheck_decides spanWinchOk _ 5 not_spanWinch_five
    case c6 => exact winchCheck_decides spanWinchOk _ 6 not_spanWinch_six
    case c7 => exact winchCheck_decides spanWinchOk _ 7 not_spanWinch_seven
    case c8 => exact .cons ⟨not_spanMotionOk sp, rfl⟩ .nil
    case c9 => exact winchCheck_decides (fun c ws => spanGeometryOk c sp.w ws) _ 9 (spanGeometry_nine sp.w)
    case c10 => exact winchCheck_decides (fun c ws => spanGeometryOk c sp.w ws) _ 10 (spanGeometry_ten sp.w)
    case c11 => exact winchCheck_decides (fun c ws => spanGeometryOk c sp.w ws) _ 11 (spanGeometry_eleven sp.w)
    case c12 => exact winchCheck_decides (fun c ws => spanGeometryOk c sp.w ws) _ 12 (spanGeometry_twelve sp.w)
    case box =>
      refine .cons ⟨not_boxCoordsOk sp.w, rfl⟩ (.cons ⟨not_boxStrict sp.w, rfl⟩ (.cons ⟨?_, rfl⟩ .nil))
      simp
  case planning =>
    intro s p hp
    refine ⟨fun m hm => planningPoint_queue s m hm, fun hq => ⟨fun c hc => planningPoint_stack s c hq hc, ?_⟩⟩
    intro hs executing
    exact ⟨fun f hf he => planningPoint_executing s f hq hs hf he, planningPoint_resting s p hp hq hs⟩

end
end

