-- ==== Sys2Proof/Proofs/SetSpan.lean ====
section
/-! SUPPORT. SET_SPAN (R7 to R11): the order of its refusals, the recomputation of BLOCKED over sound records, and the state an
accepted span leaves. -/

namespace Sys2Proof.Machine

/-! The BLOCKED flags of sound records (R66, R67). -/

/-- A cue slot with its BLOCKED flag as R66 gives it for a state. -/
def CueSlot.reblocked (s : State) (k : CueSlot) : CueSlot :=
  { k with cue := k.cue.map fun c => { c with blocked := cueBlocked s c.target } }

/-- In `e'` the first `n` cues have their BLOCKED flags as R66 gives them for `e`, and nothing else has changed. -/
structure ReblockedUpTo (e : Ev) (n : Nat) (e' : Ev) : Prop where
  out : e'.out = e.out
  bad : e'.bad = e.bad
  st : e'.st = { e.st with cues := e'.st.cues }
  slot : ∀ m, e'.st.cues[m]? = if m < n then (e.st.cues[m]?).map (CueSlot.reblocked e.st) else e.st.cues[m]?

/-- Over sound records the recomputation of a cue sets its flag where its slot is not FREE (R66, R71). -/
theorem recomputeOne_sound (e : Ev) (n : Nat) (hz : e.st.zonesSound) (hc : cueFails e.st n = false) :
    recomputeOne e n =
      match cueAt e.st n with
      | some c => e.upd (setBlocked n (cueBlocked e.st c.target))
      | none => e := by
  unfold recomputeOne computeBlocked
  rw [readCue_sound e n hc, readZones_sound e hz]
  cases h : cueAt e.st n <;> simp [h]

theorem recomputeOne_reblocks {e e' : Ev} {n : Nat} (hz : e.st.zonesSound) (hc : e.st.cuesSound) (hn : n < 96)
    (h : ReblockedUpTo e n e') : ReblockedUpTo e (n + 1) (recomputeOne e' n) := by
  obtain ⟨hout, hbad, hst, hslot⟩ := h
  have hz' : e'.st.zonesSound := by rw [hst]; exact hz
  have hslotn : e'.st.cues[n]? = e.st.cues[n]? := by simp [hslot n]
  have hc' : cueFails e'.st n = false := by
    have := hc n (List.mem_range.2 hn)
    unfold cueFails at this ⊢
    rwa [hslotn]
  have hblocked (p : Vec3) : cueBlocked e'.st p = cueBlocked e.st p := by rw [hst]; rfl
  have hget : e.st.cues[n]? = some e.st.cues[n] := Vector.getElem?_eq_getElem hn
  rw [recomputeOne_sound e' n hz' hc']
  unfold cueAt
  rw [hslotn, hget, Option.bind_some]
  have hslots (m : Nat) (hm : m ≠ n) : (if m < n then (e.st.cues[m]?).map (CueSlot.reblocked e.st) else e.st.cues[m]?) =
      if m < n + 1 then (e.st.cues[m]?).map (CueSlot.reblocked e.st) else e.st.cues[m]? := by
    have : m < n + 1 ↔ m < n := by omega
    simp only [this]
  cases hk : e.st.cues[n] with
  | mk cue check =>
    cases cue with
    | none =>
      refine ⟨hout, hbad, hst, fun m => ?_⟩
      by_cases hm : m = n
      · subst hm
        simp only [hslotn, hget, hk]
        simp [CueSlot.reblocked]
      · rw [← hslots m hm]; exact hslot m
    | some c =>
      have hset : setBlocked n (cueBlocked e'.st c.target) e'.st =
          { e'.st with
            cues := e'.st.cues.setIfInBounds n ⟨some { c with blocked := cueBlocked e.st c.target }, check⟩ } := by
        unfold setBlocked
        rw [hslotn, hget, hk, hblocked]
      refine ⟨hout, hbad, ?_, fun m => ?_⟩
      · rw [upd_st, hset, hst]
      · rw [upd_st, hset]
        by_cases hm : m = n
        · subst hm
          simp [hn, hk, CueSlot.reblocked]
        · rw [← hslots m hm, ← hslot m]
          simp [Ne.symm hm]

/-- Over sound records the recomputation gives every cue its flag, and changes nothing else (R66, R67). -/
theorem recomputeBlocked_sound (e : Ev) (hz : e.st.zonesSound) (hc : e.st.cuesSound) :
    recomputeBlocked e = e.upd fun s => { s with cues := s.reblocked } := by
  have upTo (n : Nat) (hn : n ≤ 96) : ReblockedUpTo e n ((List.range n).foldl recomputeOne e) := by
    induction n with
    | zero => exact ⟨rfl, rfl, rfl, fun m => by simp⟩
    | succ n ih =>
      rw [List.range_succ, List.foldl_append]
      exact recomputeOne_reblocks hz hc (by omega) (ih (by omega))
  obtain ⟨hout, hbad, hst, hslot⟩ := upTo 96 (by omega)
  change (List.range 96).foldl recomputeOne e = _
  have hcues : ((List.range 96).foldl recomputeOne e).st.cues = e.st.reblocked := by
    apply Vector.ext
    intro m hm
    have h := hslot m
    rw [if_pos hm, Vector.getElem?_eq_getElem hm, Vector.getElem?_eq_getElem hm] at h
    simpa [State.reblocked, CueSlot.reblocked] using h
  generalize (List.range 96).foldl recomputeOne e = e' at hout hbad hst hcues
  rw [hcues] at hst
  obtain ⟨st, out, bad⟩ := e'
  simp only at hout hbad hst
  rw [hout, hbad, hst]
  rfl

/-! The port through an event's end (R97, R202). -/

/-- The place of STATE adds no other act. -/
theorem mem_withState {g g' : GenState} {out : List Out} {o : Out} (h : o ∈ withState g g' out) :
    o ∈ out ∨ o = .raise .state g'.code 0 := by
  unfold withState at h
  split at h
  · exact .inl h
  · split at h
    · rcases List.mem_append.1 h with h | h
      · rcases List.mem_append.1 h with h | h
        · exact .inl ((List.takeWhile_sublist _).subset h)
        · exact .inr (List.mem_singleton.1 h)
      · exact .inl ((List.dropWhile_sublist _).subset (List.mem_of_mem_tail h))
    · rcases List.mem_append.1 h with h | h
      · exact .inl h
      · exact .inr (List.mem_singleton.1 h)

/-- Acts that answer no request leave every request in progress. -/
theorem foldl_putOut_inProgress (out : List Out) (s : State) (l : Link) (h : ∀ m a, Out.answer m a ∉ out) :
    ((out.foldl putOut s).console.port l).inProgress = (s.console.port l).inProgress := by
  induction out generalizing s with
  | nil => rfl
  | cons o out ih =>
    rw [List.foldl_cons, ih _ fun m a hm => h m a (List.mem_cons_of_mem _ hm)]
    cases o with
    | raise f a b => exact raiseFlag_inProgress f a b s l
    | stateHere => rfl
    | answer m a => exact absurd List.mem_cons_self (h m a)

/-- An event whose reads all passed and that answers no request leaves every request in progress. -/
theorem finish_inProgress (g : GenState) (e : Ev) (l : Link) (hb : e.bad = []) (h : ∀ m a, Out.answer m a ∉ e.out) :
    ((finish g e).console.port l).inProgress = (e.st.console.port l).inProgress := by
  have hr : settleReads e = e := by simp [settleReads, hb]
  unfold finish
  rw [hr, foldl_putOut_inProgress]
  intro m a hm
  rcases mem_withState hm with hm | hm
  · exact h m a hm
  · cases hm

/-- An event whose reads all passed ends with its own state, the console apart. -/
theorem finish_sound (g : GenState) (e : Ev) (hb : e.bad = []) :
    finish g e = { e.st with console := (finish g e).console } := by
  have hr : settleReads e = e := by simp [settleReads, hb]
  simpa [hr] using finish_console g e

/-! The acceptance (R9 to R11). -/

/-- With no zone ARMING the entry to UNREGISTERED makes none ACTIVE (R91, R118). -/
theorem enterUnregistered_noArming (b : Bool) (e : Ev) (h : e.st.envelope.arming = []) :
    enterUnregistered b e =
      raiseDropped (allIds e.st.gen) .span (e.upd fun s =>
        { s with gen := { s.gen.emptied .unregistered with pos := none, stepTimer := none }
                 lengths := none
                 drive := { s.drive with brake := true } }) := by
  simp [enterUnregistered, armingIds, h]

/-- The state an accepted SET_SPAN leaves over sound records with no zone ARMING (R9 to R11, R67, R118). -/
def State.spanAccepted (l : Link) (sp : Span) (s : State) : State :=
  { beginFullRebuild l { s with spanSet := { s.spanSet with span := some sp } } with
    gen := { s.gen.emptied .unregistered with pos := none, stepTimer := none }
    lengths := none
    drive := { s.drive with brake := true }
    cues := State.reblocked { s with spanSet := { s.spanSet with span := some sp } } }

/-- A change of the state does not matter to what is dropped. -/
theorem raiseDropped_upd (ids : List Nat) (r : DropReason) (f : State → State) (e : Ev) :
    raiseDropped ids r (e.upd f) = (raiseDropped ids r e).upd f := by
  cases ids <;> rfl

theorem raiseDropped_noAnswer (ids : List Nat) (r : DropReason) (e : Ev) (h : ∀ m a, Out.answer m a ∉ e.out) :
    ∀ m a, Out.answer m a ∉ (raiseDropped ids r e).out := by
  cases ids with
  | nil => exact h
  | cons i ids =>
    intro m a hm
    rcases List.mem_append.1 hm with hm | hm
    · exact h m a hm
    · cases List.mem_singleton.1 hm

theorem acceptSpan_sound (l : Link) (sp : Span) (e : Ev) (ha : e.st.envelope.arming = []) (hz : e.st.zonesSound)
    (hc : e.st.cuesSound) :
    acceptSpan l sp e = (raiseDropped (allIds e.st.gen) .span e).upd (State.spanAccepted l sp) := by
  have enter := enterUnregistered_noArming false
    (e.upd fun s => beginFullRebuild l { s with spanSet := { s.spanSet with span := some sp } }) ha
  rw [acceptSpan, enter, raiseDropped_upd, raiseDropped_upd, recomputeBlocked_sound]
  · rfl
  · rw [upd_st, upd_st, raiseDropped_st]; exact hz
  · rw [upd_st, upd_st, raiseDropped_st]; exact hc

/-! The refusals in their order (R7, R8). -/

/-- SET_SPAN at a free port is the event of the request taken. -/
theorem exec_setSpan (s : State) (l : Link) (tag : Byte) (sp : Span) (h : s.portFree l) :
    exec (.setSpan ⟨l, tag, .fields sp⟩) s =
      .next (finish s.gen.state (setSpan l sp (Ev.start (s.taken l tag 0x15)))) :=
  congrArg Host.Outcome.next
    (request_passes .setSpan ⟨l, tag, .fields sp⟩ (setSpan l) s sp h (by simp [safetyOnly]) rfl)

/-- A SET_SPAN that is refused changes nothing but the port. -/
theorem setSpan_refused (s : State) (l : Link) (tag : Byte) (sp : Span) (c : Code) (d : List (List Byte))
    (h : s.portFree l) (hr : setSpan l sp (Ev.start (s.taken l tag 0x15)) = (Ev.start (s.taken l tag 0x15)).refuse l c d) :
    exec (.setSpan ⟨l, tag, .fields sp⟩) s = .next (s.answered l tag 0x15 ⟨c, false, d⟩) := by
  rw [exec_setSpan s l tag sp h, hr]
  exact congrArg Host.Outcome.next (finish_reply s l tag 0x15 ⟨c, false, d⟩)

/-- The generator states that exclude SET_SPAN (R7, item 3). -/
theorem excludesSpan_iff (s : State) : excludesSpan s = true ↔
    s.gen.state = .moving ∨ s.gen.state = .jogging ∨ s.gen.state = .braking ∨ s.gen.state = .held ∨
      s.gen.state = .stopped := by
  unfold excludesSpan
  split <;> simp_all

theorem setSpan_badField {l : Link} {sp : Span} {e : Ev} {c : Nat × Nat} (hl : e.st.spanSet.locked = false)
    (hb : spanBad sp = some c) : setSpan l sp e = e.refuse l .badField [[byte c.1], [byte c.2]] := by
  simp [setSpan, hl, hb]

theorem setSpan_wrongState {l : Link} {sp : Span} {e : Ev} (hl : e.st.spanSet.locked = false) (hb : spanBad sp = none)
    (hx : excludesSpan e.st = true) : setSpan l sp e = e.refuse l .wrongState [] := by
  simp [setSpan, hl, hb, hx]

theorem setSpan_busy {l : Link} {sp : Span} {e : Ev} (hl : e.st.spanSet.locked = false) (hb : spanBad sp = none)
    (hx : excludesSpan e.st = false) (ho : e.st.zones.op.isSome = true) : setSpan l sp e = e.refuse l .busy [] := by
  simp [setSpan, hl, hb, hx, ho]

/-- A span that passes the field tests outside the excluded states (R7, item 4, and R8). -/
theorem setSpan_decided (l : Link) (sp : Span) (e : Ev) (hl : e.st.spanSet.locked = false) (hb : spanBad sp = none)
    (hx : excludesSpan e.st = false) (ho : e.st.zones.op = none) (hz : e.st.zonesSound) :
    setSpan l sp e =
      match firstOverfull e.st sp with
      | some n => e.refuse l .cellFull [le16 n, [byte (newCount e.st sp n)]]
      | none => acceptSpan l sp e := by
  cases hf : firstOverfull e.st sp <;> simp [setSpan, hl, hb, hx, ho, readZones_sound e hz, hf]

theorem firstOverfull_some {s : State} {sp : Span} {n : Nat} (hn : n < 192) (hbefore : ∀ m, m < n → newCount s sp m ≤ 8)
    (h : 8 < newCount s sp n) : firstOverfull s sp = some n := by
  refine List.find?_range_eq_some.2 ⟨by simpa using h, List.mem_range.2 hn, fun m hm => ?_⟩
  simpa using hbefore m hm

theorem firstOverfull_none {s : State} {sp : Span} (h : ∀ n, n < 192 → newCount s sp n ≤ 8) :
    firstOverfull s sp = none := by
  refine List.find?_eq_none.2 fun n hn => ?_
  simpa using h n (List.mem_range.1 hn)

/-- The event of an accepted SET_SPAN answers nothing yet: the full rebuild answers at its end (R11). -/
theorem setSpan_accepted (s : State) (l : Link) (tag : Byte) (sp : Span) (h : s.portFree l)
    (hl : s.spanSet.locked = false) (hb : spanBad sp = none) (hx : excludesSpan s = false) (ho : s.zones.op = none)
    (hz : s.zonesSound) (hc : s.cuesSound) (ha : s.envelope.arming = []) (hn : ∀ n, n < 192 → newCount s sp n ≤ 8) :
    ∃ t, exec (.setSpan ⟨l, tag, .fields sp⟩) s = .next t ∧
      t = { (s.taken l tag 0x15).spanAccepted l sp with console := t.console } ∧
      (t.console.port l).inProgress = some ⟨tag, 0x15⟩ := by
  have hfull : firstOverfull (s.taken l tag 0x15) sp = none := firstOverfull_none hn
  have hev : setSpan l sp (Ev.start (s.taken l tag 0x15)) =
      (raiseDropped (allIds s.gen) .span (Ev.start (s.taken l tag 0x15))).upd (State.spanAccepted l sp) := by
    rw [setSpan_decided l sp (Ev.start (s.taken l tag 0x15)) hl hb hx ho hz, start_st, hfull]
    exact acceptSpan_sound l sp _ ha hz hc
  refine ⟨_, exec_setSpan s l tag sp h, ?_, ?_⟩
  · rw [hev]
    refine (finish_sound _ _ ?_).trans ?_
    · simp
    · simp
  · have quiet : ∀ m a, Out.answer m a ∉ (raiseDropped (allIds s.gen) .span (Ev.start (s.taken l tag 0x15))).out :=
      raiseDropped_noAnswer _ _ _ fun m a hm => by simp at hm
    rw [hev]
    rw [finish_inProgress (h := by rw [upd_out]; exact quiet)]
    · simp only [upd_st, raiseDropped_st, start_st]
      change ((s.taken l tag 0x15).console.port l).inProgress = _
      simp [State.taken]
    · simp

end Sys2Proof.Machine

section
open Sys2Proof Sys2Proof.Machine

/-- Settles O35. -/
theorem setSpanBeginsAFullRebuild : Obligations.SetSpanBeginsAFullRebuild := by
  intro s l tag sp h
  refine ⟨setSpan_locked s l tag sp h, fun n w hl hb => ?badField, fun hl hb hg => ?wrongState,
    fun hl hb hg => ⟨fun ho => ?busy, fun ho hz => ⟨fun n hn hbefore hfull => ?cellFull, fun hc ha hroom => ?accepted⟩⟩⟩
  case badField => exact setSpan_refused s l tag sp _ _ h (setSpan_badField hl hb)
  case wrongState => exact setSpan_refused s l tag sp _ _ h (setSpan_wrongState hl hb ((excludesSpan_iff s).2 hg))
  all_goals
    have hx : excludesSpan s = false := by
      rw [Bool.eq_false_iff, Ne, excludesSpan_iff]
      rcases hg with hg | hg | hg <;> simp [hg]
  case busy => exact setSpan_refused s l tag sp _ _ h (setSpan_busy hl hb hx ho)
  case cellFull =>
    refine setSpan_refused s l tag sp _ _ h ?_
    rw [setSpan_decided l sp (Ev.start (s.taken l tag 0x15)) hl hb hx ho hz,
      firstOverfull_some (s := (Ev.start (s.taken l tag 0x15)).st) hn hbefore hfull]
    rfl
  case accepted =>
    obtain ⟨t, ht, hst, hport⟩ := setSpan_accepted s l tag sp h hl hb hx ho hz hc ha hroom
    refine ⟨t, ht, ?_, ?_, ?_, ?_, ?_, ?_, ?_, ?_, hport, ?_, ?_, ?_, ?_, ?_⟩
    · rw [hst]; exact congrArg (SpanSet.mk (some sp)) hl
    all_goals rw [hst]; rfl

end
end


-- ==== Sys2Proof/Proofs/CellFrame.lean ====
section
/-! SUPPORT. What leaves the Cell Index alone. Most operations write no cell; the order of a rebuild writes a cell's condition
and no list (R52), so that everything with a candidate check or a capacity count in it keeps the lists. -/

namespace Sys2Proof.Machine

/-- A fold of operations that write no cell writes none. -/
theorem foldl_cells {α : Type} (f : Ev → α → Ev) (h : ∀ e a, (f e a).st.cells = e.st.cells) (l : List α) (e : Ev) :
    (l.foldl f e).st.cells = e.st.cells := by
  induction l generalizing e with
  | nil => rfl
  | cons a l ih => rw [List.foldl_cons, ih, h]

/-! Reads, faults and halts. -/

@[simp] theorem markZone_cells (i : Nat) (e : Ev) : (markZone i e).st.cells = e.st.cells := by
  unfold markZone; split <;> simp
@[simp] theorem readZone_cells (e : Ev) (i : Nat) : (readZone e i).st.cells = e.st.cells := by
  unfold readZone; split <;> simp
@[simp] theorem readZones_cells (e : Ev) : (readZones e).st.cells = e.st.cells := by
  unfold readZones; exact foldl_cells _ readZone_cells _ _
@[simp] theorem motionRead_cells (ids : List Nat) (e : Ev) : (motionRead ids e).1.st.cells = e.st.cells := by
  unfold motionRead; split <;> simp
theorem cells_of_motionRead {ids : List Nat} {e e' : Ev} {o : Option Nat} (h : motionRead ids e = (e', o)) :
    e'.st.cells = e.st.cells := by
  simpa [h] using motionRead_cells ids e
@[simp] theorem readCue_cells (e : Ev) (n : Nat) : (readCue e n).st.cells = e.st.cells := by
  unfold readCue; repeat' split
  all_goals simp
@[simp] theorem reportFault_cells (c : FaultClass) (j : FaultSubject) (e : Ev) :
    (reportFault c j e).st.cells = e.st.cells := by
  rw [reportFault_st]
@[simp] theorem enterHalted_cells (e : Ev) : (enterHalted e).st.cells = e.st.cells := by rw [enterHalted_st]
@[simp] theorem enterStopped_cells (e : Ev) : (enterStopped e).st.cells = e.st.cells := by rw [enterStopped_st]
@[simp] theorem trip_cells (e : Ev) : (trip e).st.cells = e.st.cells := by unfold trip; split <;> simp
@[simp] theorem quickStop_cells (e : Ev) : (quickStop e).st.cells = e.st.cells := by unfold quickStop; split <;> simp
@[simp] theorem controlledHalt_cells (e : Ev) : (controlledHalt e).st.cells = e.st.cells := by
  unfold controlledHalt; split <;> simp
@[simp] theorem motionFailure_cells (i : Nat) (e : Ev) : (motionFailure i e).st.cells = e.st.cells := by
  simp [motionFailure]
@[simp] theorem settleReads_cells (e : Ev) : (settleReads e).st.cells = e.st.cells := by
  unfold settleReads
  split
  · rfl
  · rw [controlledHalt_cells, foldl_cells]; intro e i; simp
@[simp] theorem finish_cells (g : GenState) (e : Ev) : (finish g e).cells = e.st.cells := by
  rw [finish_console]; simp

/-! The cues and the table's operations. -/

@[simp] theorem suspectCell_cells (n : Nat) (e : Ev) : (suspectCell n e).st.cells = e.st.cells := by
  unfold suspectCell; split <;> simp
@[simp] theorem computeBlocked_cells (e : Ev) (n : Nat) : (computeBlocked e n).st.cells = e.st.cells := by
  unfold computeBlocked; dsimp only; split <;> simp
@[simp] theorem recomputeOne_cells (e : Ev) (n : Nat) : (recomputeOne e n).st.cells = e.st.cells := by
  unfold recomputeOne; split <;> simp
@[simp] theorem recomputeBlocked_cells (e : Ev) : (recomputeBlocked e).st.cells = e.st.cells := by
  unfold recomputeBlocked; exact foldl_cells _ recomputeOne_cells _ _
@[simp] theorem closeOp_cells (op : TableOp) (e : Ev) : (closeOp op e).st.cells = e.st.cells := by
  unfold closeOp; dsimp only
  repeat' split
  all_goals simp
@[simp] theorem beginOp_cells (op : TableOp) (e : Ev) : (beginOp op e).st.cells = e.st.cells := by
  unfold beginOp; split <;> simp
@[simp] theorem beginWork_cells (w : Work) (e : Ev) : (beginWork w e).st.cells = e.st.cells := by
  cases w <;> simp [beginWork, takeExpiry]
@[simp] theorem runWaiting_cells (ws : List Work) (e : Ev) : (runWaiting ws e).st.cells = e.st.cells := by
  induction ws generalizing e with
  | nil => simp [runWaiting]
  | cons w ws ih =>
    unfold runWaiting; dsimp only
    repeat' split
    all_goals simp [ih]
@[simp] theorem runIfIdle_cells (e : Ev) : (runIfIdle e).st.cells = e.st.cells := by unfold runIfIdle; split <;> simp
@[simp] theorem orderWork_cells (ws : List Work) (e : Ev) : (orderWork ws e).st.cells = e.st.cells := by
  simp [orderWork]
@[simp] theorem endOp_cells (op : TableOp) (e : Ev) : (endOp op e).st.cells = e.st.cells := by simp [endOp]

/-! The Envelope Unit. -/

@[simp] theorem dropInside_cells (b : Box) (e : Ev) : (dropInside b e).st.cells = e.st.cells := by simp [dropInside]
@[simp] theorem activationEffects_cells (i : Nat) (a : Bool) (e : Ev) :
    (activationEffects i a e).st.cells = e.st.cells := by
  unfold activationEffects; dsimp only
  repeat' split
  all_goals simp
@[simp] theorem fallDueIfSpent_cells (i : Nat) (e : Ev) : (fallDueIfSpent i e).st.cells = e.st.cells := by
  unfold fallDueIfSpent; split <;> simp
@[simp] theorem settle_cells (i : Nat) (b : Box) (e : Ev) : (settle i b e).st.cells = e.st.cells := by
  unfold settle; split <;> simp
@[simp] theorem makeActive_cells (b : Bool) (i : Nat) (e : Ev) : (makeActive b i e).st.cells = e.st.cells := by
  unfold makeActive; dsimp only
  repeat' split
  all_goals simp
@[simp] theorem withdraw_cells (i : Nat) (e : Ev) : (withdraw i e).st.cells = e.st.cells := by
  unfold withdraw; dsimp only
  repeat' split
  all_goals simp
@[simp] theorem activationPass_cells (ids : List Nat) (e : Ev) : (activationPass ids e).st.cells = e.st.cells := by
  unfold activationPass; apply foldl_cells; intro e i; split <;> simp
@[simp] theorem planningPass_cells (ids : List Nat) (e : Ev) : (planningPass ids e).st.cells = e.st.cells := by
  induction ids generalizing e with
  | nil => rfl
  | cons i ids ih => unfold planningPass; dsimp only; split <;> simp [ih]
@[simp] theorem resolveArming_cells (e : Ev) : (resolveArming e).st.cells = e.st.cells := by
  simp only [resolveArming, planningPass_cells, activationPass_cells]
  exact foldl_cells _ readZone_cells _ _

/-! The Path Generator. -/

@[simp] theorem tryBegin_cells (m : Move) (e : Ev) : (tryBegin m e).1.st.cells = e.st.cells := by
  unfold tryBegin; dsimp only
  repeat' split
  all_goals simp
@[simp] theorem queuePhase_cells (ms : List Move) (e : Ev) : (queuePhase ms e).st.cells = e.st.cells := by
  induction ms generalizing e with
  | nil => simp [queuePhase]
  | cons m ms ih => unfold queuePhase; dsimp only; split <;> simp [ih]
@[simp] theorem stackPhase_cells (cs : List Context) (e : Ev) : (stackPhase cs e).st.cells = e.st.cells := by
  induction cs generalizing e with
  | nil => simp [stackPhase]
  | cons c cs ih =>
    unfold stackPhase; dsimp only
    repeat' split
    all_goals simp [ih]
@[simp] theorem advance_cells (e : Ev) : (advance e).st.cells = e.st.cells := by
  unfold advance; dsimp only
  repeat' split
  all_goals simp
@[simp] theorem succession_cells (e : Ev) : (succession e).st.cells = e.st.cells := by
  unfold succession; dsimp only
  repeat' split
  all_goals simp
@[simp] theorem arrive_cells (f : Flight) (e : Ev) : (arrive f e).st.cells = e.st.cells := by simp [arrive]
@[simp] theorem complete_cells (f : Flight) (e : Ev) : (complete f e).st.cells = e.st.cells := by
  unfold complete arriveExit; dsimp only
  repeat' split
  all_goals simp
@[simp] theorem endBraking_cells (f : Flight) (b : Bool) (e : Ev) : (endBraking f b e).st.cells = e.st.cells := by
  unfold endBraking dropBraked pushBraked
  repeat' split
  all_goals simp
@[simp] theorem enterUnregistered_cells (b : Bool) (e : Ev) : (enterUnregistered b e).st.cells = e.st.cells := by
  unfold enterUnregistered; dsimp only
  rw [foldl_cells _ (fun e i => makeActive_cells b i e)]
  simp
@[simp] theorem liftHold_cells (e : Ev) : (liftHold e).st.cells = e.st.cells := by
  unfold liftHold
  repeat' split
  all_goals simp
@[simp] theorem raiseWinches_cells (f : EventFlag) (h : Winch → Bool) (e : Ev) :
    (raiseWinches f h e).st.cells = e.st.cells := by
  unfold raiseWinches; apply foldl_cells; intro e w; split <;> simp
@[simp] theorem lengthOffer_cells (sp : Span) (p : Vec3) (e : Ev) : (lengthOffer sp p e).1.st.cells = e.st.cells := by
  unfold lengthOffer; dsimp only; split <;> simp
@[simp] theorem sendAll_cells (k : Winch → Sent) (e : Ev) : (sendAll k e).st.cells = e.st.cells := by
  refine foldl_cells _ (fun e w => ?_) _ _
  unfold sendTo; dsimp only; split <;> simp
@[simp] theorem deliver_cells (sp : Span) (p : Vec3) (e : Ev) : (deliver sp p e).1.st.cells = e.st.cells := by
  have h := lengthOffer_cells sp p e
  unfold deliver
  split <;> simp_all [sendSet]

/-! What writes a condition alone keeps the lists. -/

/-- The lists of all cells, whatever their words and conditions (R46). -/
def idLists (c : Vector Cell 192) : Vector (List Nat) 192 := c.map Cell.ids

theorem idsAt_eq (s : State) (n : Nat) : idsAt s n = ((idLists s.cells)[n]?).getD [] := by
  simp [idsAt, idLists]

@[simp] theorem idLists_setCond (n : Nat) (c : CellCondition) (s : State) :
    idLists (setCond n c s).cells = idLists s.cells := by
  unfold setCond
  split
  · next k hk =>
    ext m hm : 1
    by_cases hn : n = m
    · subst hn
      have hk' : s.cells[n] = k := by simpa [hm] using hk
      simp [idLists, hk']
    · simp [idLists, hn]
  · rfl
@[simp] theorem idLists_orderRebuild (n : Nat) (e : Ev) :
    idLists (orderRebuild n e).st.cells = idLists e.st.cells := by
  unfold orderRebuild; split <;> simp
@[simp] theorem idLists_readCell (n : Nat) (e : Ev) : idLists (readCell n e).st.cells = idLists e.st.cells := by
  unfold readCell; split <;> simp
@[simp] theorem idLists_countCell (i : Option Nat) (n : Nat) (e : Ev) :
    idLists (countCell i n e).1.st.cells = idLists e.st.cells := by
  unfold countCell; dsimp only; split <;> simp
@[simp] theorem idLists_firstFull (i : Option Nat) (ns : List Nat) (e : Ev) :
    idLists (firstFull i ns e).1.st.cells = idLists e.st.cells := by
  induction ns generalizing e with
  | nil => rfl
  | cons n ns ih => unfold firstFull; dsimp only; split <;> simp [ih]
@[simp] theorem idLists_candidateCheck (sp : Span) (p : Vec3) (e : Ev) :
    idLists (candidateCheck sp p e).1.st.cells = idLists e.st.cells := by
  unfold candidateCheck; dsimp only
  split
  · split
    all_goals next hm => simp [cells_of_motionRead hm]
  · rfl
@[simp] theorem idLists_offer (sp : Span) (p : Vec3) (e : Ev) :
    idLists (offer sp p e).1.st.cells = idLists e.st.cells := by
  have h := idLists_candidateCheck sp p e
  unfold offer
  split <;> simp_all [breach]
theorem idLists_of_offer {sp : Span} {p : Vec3} {e e' : Ev} {b : Bool} (h : offer sp p e = (e', b)) :
    idLists e'.st.cells = idLists e.st.cells := by
  simpa [h] using idLists_offer sp p e
@[simp] theorem afterMove_cells (f : Flight) (v : Nat) (e : Ev) : (afterMove f v e).st.cells = e.st.cells := by
  have h := motionRead_cells (slowIds e.st) e
  unfold afterMove; dsimp only
  repeat' split
  all_goals simp_all
@[simp] theorem idLists_moveStep (sp : Span) (f : Flight) (e : Ev) :
    idLists (moveStep sp f e).st.cells = idLists e.st.cells := by
  unfold moveStep; dsimp only
  split
  · next hm => simp [cells_of_motionRead hm]
  · next hm =>
    split
    · next hq => rw [idLists_of_offer hq, cells_of_motionRead hm]
    · next hq => simp [commitMove, idLists_of_offer hq, cells_of_motionRead hm]
@[simp] theorem idLists_brakeStep (sp : Span) (f : Flight) (e : Ev) :
    idLists (brakeStep sp f e).st.cells = idLists e.st.cells := by
  unfold brakeStep; dsimp only
  split
  · split
    · next hq => exact idLists_of_offer hq
    · next hq => simp [commitMove, idLists_of_offer hq]
  · split
    · next hq => exact idLists_of_offer hq
    · next hq => split <;> simp [commitMove, idLists_of_offer hq]
@[simp] theorem idLists_slide (sp : Span) (p : Vec3) (us : List Vec3) (e : Ev) :
    idLists (slide sp p us e).1.st.cells = idLists e.st.cells := by
  induction us generalizing e with
  | nil =>
    have h := idLists_candidateCheck sp p e
    unfold slide
    split <;> simp_all
  | cons u us ih =>
    have h := idLists_candidateCheck sp (p.add u) e
    unfold slide
    split <;> simp_all
@[simp] theorem afterJog_cells (e : Ev) : (afterJog e).st.cells = e.st.cells := by
  unfold afterJog endJog
  repeat' split
  all_goals simp
@[simp] theorem idLists_jogOffer (sp : Span) (u : Vec3) (e : Ev) :
    idLists (jogOffer sp u e).st.cells = idLists e.st.cells := by
  have h := idLists_slide sp (posOf e.st) (slideVariants u) e
  unfold jogOffer; dsimp only
  split
  · simp_all
  · next e1 u' hs =>
    have h2 := deliver_cells sp ((posOf e.st).add u') e1
    split <;> simp_all
@[simp] theorem idLists_jogStep (sp : Span) (e : Ev) : idLists (jogStep sp e).st.cells = idLists e.st.cells := by
  have h := motionRead_cells (slowIds e.st) e
  unfold jogStep; dsimp only
  repeat' split
  all_goals simp_all
@[simp] theorem idLists_pathStep (sp : Span) (e : Ev) : idLists (pathStep sp e).st.cells = idLists e.st.cells := by
  unfold pathStep
  repeat' split
  all_goals simp

/-! The requests and events of the Zone Table but a visit. -/

theorem startPhase_cells (op : TableOp) (e : Ev) (f : TableOp → Ev → Ev)
    (hf : ∀ op e, (f op e).st.cells = e.st.cells) : (startPhase op e f).st.cells = e.st.cells := by
  unfold startPhase; split <;> simp [hf]
@[simp] theorem startRemoval_cells (op : TableOp) (b : Bool) (p : VisitPlan) (e : Ev) :
    (startRemoval op b p e).st.cells = e.st.cells := startPhase_cells _ _ _ endOp_cells
@[simp] theorem endAdd_cells (op : TableOp) (id : Nat) (e : Ev) : (endAdd op id e).st.cells = e.st.cells := by
  unfold endAdd; dsimp only
  repeat' split
  all_goals simp
@[simp] theorem endAmend_cells (op : TableOp) (id : Nat) (e : Ev) : (endAmend op id e).st.cells = e.st.cells := by
  unfold endAmend amendActive amendArming; dsimp only
  repeat' split
  all_goals simp
@[simp] theorem endIndexing_cells (op : TableOp) (e : Ev) : (endIndexing op e).st.cells = e.st.cells := by
  unfold endIndexing; dsimp only; split <;> simp
@[simp] theorem endPhase_cells (op : TableOp) (e : Ev) : (endPhase op e).st.cells = e.st.cells := by
  unfold endPhase; split <;> simp
@[simp] theorem idLists_zoneAdd (l : Link) (f : ZoneAddFields) (e : Ev) :
    idLists (zoneAdd l f e).st.cells = idLists e.st.cells := by
  unfold zoneAdd; dsimp only
  split
  · rfl
  · next sp _ =>
    have h := idLists_firstFull none (rangeCells (planRange sp (decide (f.kind = 2)) f.box)) e
    repeat' split
    all_goals simp_all [startPhase_cells _ _ _ endIndexing_cells]
@[simp] theorem idLists_amendBox (l : Link) (z : Zone) (f : ZoneAmendFields) (b : Box) (e : Ev) :
    idLists (amendBox l z f b e).st.cells = idLists e.st.cells := by
  unfold amendBox
  split
  · rfl
  · next sp _ =>
    have h := idLists_firstFull (some f.id) (rangeCells (planRange sp z.isSlow b)) e
    repeat' split
    all_goals simp_all [startPhase_cells _ _ _ endIndexing_cells]
@[simp] theorem idLists_zoneAmend (l : Link) (f : ZoneAmendFields) (e : Ev) :
    idLists (zoneAmend l f e).st.cells = idLists e.st.cells := by
  unfold zoneAmend; dsimp only
  repeat' split
  all_goals simp [amendInPlace]
@[simp] theorem zoneRetire_cells (l : Link) (f : RetireFields) (e : Ev) :
    (zoneRetire l f e).st.cells = e.st.cells := by
  unfold zoneRetire; dsimp only
  repeat' split
  all_goals simp [startPhase_cells _ _ _ endOp_cells]
@[simp] theorem zoneQuery_cells (l : Link) (n : Nat) (e : Ev) : (zoneQuery l n e).st.cells = e.st.cells := by
  unfold zoneQuery; split <;> simp
@[simp] theorem idLists_pointLookup (l : Link) (p : Vec3) (e : Ev) :
    idLists (pointLookup l p e).st.cells = idLists e.st.cells := by
  unfold pointLookup; dsimp only
  repeat' split
  all_goals simp [foldl_cells readZone readZone_cells]
theorem countDown_cells (e : Ev) (id : Nat) : (countDown e id).st.cells = e.st.cells := by
  unfold countDown; dsimp only
  repeat' split
  all_goals simp
@[simp] theorem oneSecond_cells (e : Ev) : (oneSecond e).st.cells = e.st.cells := by
  unfold oneSecond; split <;> simp [foldl_cells countDown countDown_cells]

/-! The other requests. -/

@[simp] theorem cueStore_cells (l : Link) (f : CueStoreFields) (e : Ev) : (cueStore l f e).st.cells = e.st.cells := by
  unfold cueStore storeCue
  repeat' split
  all_goals simp
@[simp] theorem cueAmend_cells (l : Link) (f : CueAmendFields) (e : Ev) : (cueAmend l f e).st.cells = e.st.cells := by
  unfold cueAmend amendCue; dsimp only
  repeat' split
  all_goals simp
@[simp] theorem cueRetire_cells (l : Link) (f : RetireFields) (e : Ev) : (cueRetire l f e).st.cells = e.st.cells := by
  unfold cueRetire; dsimp only
  repeat' split
  all_goals simp
@[simp] theorem cueQuery_cells (l : Link) (n : Nat) (e : Ev) : (cueQuery l n e).st.cells = e.st.cells := by
  unfold cueQuery; split <;> simp
@[simp] theorem cueList_cells (l : Link) (e : Ev) : (cueList l e).st.cells = e.st.cells := by
  simp [cueList, foldl_cells readCue readCue_cells]
@[simp] theorem resolveCue_cells (n : Nat) (e : Ev) : (resolveCue n e).1.st.cells = e.st.cells := by
  unfold resolveCue; dsimp only
  repeat' split
  all_goals simp
@[simp] theorem admitMove_cells (b : Bool) (l : Link) (a : Asked) (e : Ev) :
    (admitMove b l a e).st.cells = e.st.cells := by
  unfold admitMove admitQueued admitPriority; dsimp only
  repeat' split
  all_goals simp
@[simp] theorem gotoRequest_cells (b : Bool) (l : Link) (f : GotoFields) (e : Ev) :
    (gotoRequest b l f e).st.cells = e.st.cells := by
  unfold gotoRequest
  repeat' split
  all_goals simp
@[simp] theorem recallRequest_cells (b : Bool) (l : Link) (f : RecallFields) (e : Ev) :
    (recallRequest b l f e).st.cells = e.st.cells := by
  have h := resolveCue_cells f.cue e
  unfold recallRequest
  repeat' split
  all_goals simp_all
@[simp] theorem hold_cells (l : Link) (e : Ev) : (hold l e).st.cells = e.st.cells := by
  unfold hold
  repeat' split
  all_goals simp
@[simp] theorem resume_cells (l : Link) (e : Ev) : (resume l e).st.cells = e.st.cells := by
  unfold resume; dsimp only
  repeat' split
  all_goals simp
@[simp] theorem flushQueue_cells (l : Link) (c : FlushScope) (e : Ev) :
    (flushQueue l c e).st.cells = e.st.cells := by
  cases c <;> simp [flushQueue]
@[simp] theorem flushAll_cells (l : Link) (e : Ev) : (flushAll l e).st.cells = e.st.cells := by simp [flushAll]
@[simp] theorem register_cells (l : Link) (p : Vec3) (e : Ev) : (register l p e).st.cells = e.st.cells := by
  unfold register; dsimp only
  repeat' split
  all_goals simp [acceptRegister, releaseBrake]
@[simp] theorem release_cells (l : Link) (e : Ev) : (release l e).st.cells = e.st.cells := by
  unfold release releaseHalted releaseStopped; dsimp only
  repeat' split
  all_goals simp [acceptRelease, releaseBrake]
@[simp] theorem jog_cells (l : Link) (v : Vec3) (e : Ev) : (jog l v e).st.cells = e.st.cells := by
  unfold jog; dsimp only
  repeat' split
  all_goals simp
@[simp] theorem wearQuery_cells (l : Link) (n : Nat) (e : Ev) : (wearQuery l n e).st.cells = e.st.cells := by
  unfold wearQuery; split <;> simp
@[simp] theorem rewriteWear_cells (l : Link) (n : Nat) (c : Vector Nat 64) (e : Ev) :
    (rewriteWear l n c e).st.cells = e.st.cells := by
  unfold rewriteWear
  repeat' split
  all_goals simp
@[simp] theorem setLimits_cells (l : Link) (v : Limits) (e : Ev) : (setLimits l v e).st.cells = e.st.cells := by
  unfold setLimits
  repeat' split
  all_goals simp
@[simp] theorem lock_cells (l : Link) (e : Ev) : (lock l e).st.cells = e.st.cells := by unfold lock; split <;> simp
@[simp] theorem clearEvents_cells (l : Link) (m : BitVec 32) (e : Ev) : (clearEvents l m e).st.cells = e.st.cells := by
  unfold clearEvents; split <;> simp
@[simp] theorem setNotices_cells (l : Link) (m : BitVec 32) (e : Ev) : (setNotices l m e).st.cells = e.st.cells := by
  unfold setNotices; split <;> simp

/-! Events of timers and drives. -/

@[simp] theorem holdTimer_cells (e : Ev) : (holdTimer e).st.cells = e.st.cells := by
  unfold holdTimer holdFrames
  repeat' split
  all_goals simp
@[simp] theorem deadman_cells (e : Ev) : (deadman e).st.cells = e.st.cells := by unfold deadman; split <;> simp
@[simp] theorem idLists_stepTimer (e : Ev) : idLists (stepTimer e).st.cells = idLists e.st.cells := by
  unfold stepTimer; split <;> simp
@[simp] theorem idLists_scrub (e : Ev) : idLists (scrub e).st.cells = idLists e.st.cells := by
  unfold scrub scrubItem
  repeat' split
  all_goals simp
@[simp] theorem feedbackEvent_cells (w : Winch) (b : Body FeedbackFields) (e : Ev) :
    (feedbackEvent w b e).st.cells = e.st.cells := by
  have tension (t : Nat) (e : Ev) : (monitorTension w t e).st.cells = e.st.cells := by
    unfold monitorTension tensionEffects tensionHalt; dsimp only
    repeat' split
    all_goals simp
  have wear (b : Bool) (o : Option Int) (m : Nat) (e : Ev) : (feedIfMoved w b o m e).st.cells = e.st.cells := by
    unfold feedIfMoved feedWear; dsimp only
    repeat' split
    all_goals simp
  unfold feedbackEvent receiveFeedback takeFeedback judgeDrive followCheck; dsimp only
  repeat' split
  all_goals simp [tension, wear]

end Sys2Proof.Machine
end


-- ==== Sys2Proof/Proofs/CellLists.lean ====
section
/-! SUPPORT. The law of the cell lists (R46) through every command: a visit writes a list that is in order again, and SET_SPAN
and the resets empty them all. -/

namespace Sys2Proof.Machine

/-! The law of the lists (R46). -/

/-- The law speaks of the lists alone. -/
theorem cellLaw_of_idLists {s t : State} (h : idLists t.cells = idLists s.cells) (hs : s.cellLaw) : t.cellLaw := by
  intro n
  rw [idsAt_eq, h, ← idsAt_eq]
  exact hs n

/-- Empty lists keep the law. -/
theorem cellLaw_of_empty {s : State} (h : ∀ n, idsAt s n = []) : s.cellLaw := by
  intro n
  rw [h n]
  exact ⟨by simp, .nil⟩

/-- An act keeps the law of the lists. -/
def KeepsCellLaw (act : Ev → Ev) : Prop := ∀ e : Ev, e.st.cellLaw → (act e).st.cellLaw

theorem keepsCellLaw_of_idLists {act : Ev → Ev} (h : ∀ e, idLists (act e).st.cells = idLists e.st.cells) :
    KeepsCellLaw act :=
  fun e => cellLaw_of_idLists (h e)

theorem rebuildCell_keepsCellLaw (n : Nat) : KeepsCellLaw (rebuildCell n) := by
  intro e h
  simp only [rebuildCell, upd_st]
  exact writeCell_law n _ _ (coverIds_ascending _ n) (cellLaw_of_idLists (by simp) h)

/-- A change of a list that keeps the ascending order keeps the law, at a trusted list and at a recomputed one (R48, R51). -/
theorem changeCell_keepsCellLaw (n : Nat) (f : List Nat → List Nat)
    (hf : ∀ l : List Nat, l.Pairwise (· < ·) → (f l).Pairwise (· < ·)) : KeepsCellLaw (changeCell n f) := by
  intro e h
  have rebuilt : (rebuildCell n (suspectCell n e)).st.cellLaw :=
    rebuildCell_keepsCellLaw n _ (cellLaw_of_idLists (by simp) h)
  unfold changeCell
  dsimp only
  split
  · exact writeCell_law n _ _ (hf _ (h n).2) h
  · split
    · exact writeCell_law n _ _ (hf _ (rebuilt n).2) rebuilt
    · exact rebuilt

theorem visit_keepsCellLaw (op : TableOp) : KeepsCellLaw (visit op) := by
  unfold visit
  cases op.phase with
  | inserting => exact changeCell_keepsCellLaw _ _ (insertId_ascending _)
  | removing b => exact changeCell_keepsCellLaw _ _ (erase_ascending _)
  | rebuilding => exact rebuildCell_keepsCellLaw _

/-- What follows a visit writes no list. -/
theorem cellVisitEvent_keepsCellLaw : KeepsCellLaw cellVisitEvent := by
  intro e h
  unfold cellVisitEvent
  dsimp only
  split
  · exact h
  · next op _ =>
    have hv := visit_keepsCellLaw op e h
    split
    · exact cellLaw_of_idLists (by simp) hv
    · exact cellLaw_of_idLists (by simp) hv

/-- An accepted SET_SPAN discards every list (R54), and a refused one leaves them. -/
theorem setSpan_keepsCellLaw (l : Link) (sp : Span) : KeepsCellLaw (setSpan l sp) := by
  intro e h
  unfold setSpan
  dsimp only
  split
  · exact h
  · split
    · exact h
    · split
      · exact h
      · split
        · exact h
        · split
          · exact cellLaw_of_idLists (by simp) h
          · refine cellLaw_of_empty fun n => ?_
            by_cases hn : n < 192 <;> simp [acceptSpan, idsAt, beginFullRebuild, hn]

theorem beginReset_cellLaw (wear : PerWinch WinchWear) (s : State) : (s.beginReset wear).cellLaw := by
  refine cellLaw_of_empty fun n => ?_
  by_cases hn : n < 192
  · simp [idsAt, cell_beginReset wear s n hn, emptyCell]
  · simp [idsAt, hn]

/-! Every command. -/

theorem request_cellLaw {α : Type} (k : RequestKind) (r : Req α) (act : α → Ev → Ev) (s : State) (hs : s.cellLaw)
    (h : ∀ a, KeepsCellLaw (act a)) : (request k r act s).cellLaw := by
  unfold request
  dsimp only
  split
  · exact hs
  · split
    · unfold refuseBusy
      split <;> exact cellLaw_of_idLists (by simp) hs
    · refine cellLaw_of_idLists (congrArg idLists (finish_cells _ _)) ?_
      unfold decideRequest
      split
      · exact hs
      · split
        · exact hs
        · exact h _ _ hs

theorem runEvent_cellLaw (s : State) (act : Ev → Ev) (hs : s.cellLaw) (h : KeepsCellLaw act) :
    (runEvent s act).cellLaw := by
  unfold runEvent
  split
  · exact hs
  · exact cellLaw_of_idLists (congrArg idLists (finish_cells _ _)) (h _ hs)

/-- The lists are written by a visit, by SET_SPAN and by the resets; every other command leaves them as they are. -/
theorem exec_cellLaw (i : Instr) (s t : State) (h : exec i s = .next t) (hs : s.cellLaw) : t.cellLaw := by
  have reqLaw {α : Type} {k : RequestKind} {r : Req α} {act : α → Ev → Ev} (ha : ∀ a, KeepsCellLaw (act a))
      (h : (Host.Outcome.next (request k r act s) : Host.Outcome State Fault Refusal) = .next t) : t.cellLaw := by
    rw [← next_inj h]; exact request_cellLaw k r act s hs ha
  have req {α : Type} {k : RequestKind} {r : Req α} {act : α → Ev → Ev}
      (ha : ∀ a e, idLists (act a e).st.cells = idLists e.st.cells)
      (h : (Host.Outcome.next (request k r act s) : Host.Outcome State Fault Refusal) = .next t) : t.cellLaw :=
    reqLaw (fun a => keepsCellLaw_of_idLists (ha a)) h
  have evLaw {act : Ev → Ev} (ha : KeepsCellLaw act)
      (h : (Host.Outcome.next (runEvent s act) : Host.Outcome State Fault Refusal) = .next t) : t.cellLaw := by
    rw [← next_inj h]; exact runEvent_cellLaw s act hs ha
  have ev {act : Ev → Ev} (ha : ∀ e, idLists (act e).st.cells = idLists e.st.cells)
      (h : (Host.Outcome.next (runEvent s act) : Host.Outcome State Fault Refusal) = .next t) : t.cellLaw :=
    evLaw (keepsCellLaw_of_idLists ha) h
  have keep {u : State} (hu : u.cells = s.cells)
      (h : (Host.Outcome.next u : Host.Outcome State Fault Refusal) = .next t) : t.cellLaw := by
    rw [← next_inj h]; exact cellLaw_of_idLists (congrArg idLists hu) hs
  match i, h with
  | .powerUp, h => rw [← next_inj h]; exact beginReset_cellLaw _ s
  | .resetLine, h => rw [← next_inj h]; exact beginReset_cellLaw _ s
  | .setSpan r, h => exact reqLaw (setSpan_keepsCellLaw r.link) h
  | .cellVisit, h => exact evLaw cellVisitEvent_keepsCellLaw h
  | .zoneAdd r, h => exact req (act := zoneAdd r.link) (by simp) h
  | .zoneAmend r, h => exact req (act := zoneAmend r.link) (by simp) h
  | .zoneRetire r, h => exact req (act := zoneRetire r.link) (by simp) h
  | .zoneQuery r, h => exact req (act := zoneQuery r.link) (by simp) h
  | .zoneList r, h => exact req (act := fun _ => zoneList r.link) (by simp [zoneList]) h
  | .pointLookup r, h => exact req (act := pointLookup r.link) (by simp) h
  | .cueStore r, h => exact req (act := cueStore r.link) (by simp) h
  | .cueAmend r, h => exact req (act := cueAmend r.link) (by simp) h
  | .cueRetire r, h => exact req (act := cueRetire r.link) (by simp) h
  | .cueQuery r, h => exact req (act := cueQuery r.link) (by simp) h
  | .cueList r, h => exact req (act := fun _ => cueList r.link) (by simp) h
  | .goto r, h => exact req (act := gotoRequest false r.link) (by simp) h
  | .gotoPriority r, h => exact req (act := gotoRequest true r.link) (by simp) h
  | .recall r, h => exact req (act := recallRequest false r.link) (by simp) h
  | .recallPriority r, h => exact req (act := recallRequest true r.link) (by simp) h
  | .jog r, h => exact req (act := jog r.link) (by simp) h
  | .hold r, h => exact req (act := fun _ => hold r.link) (by simp) h
  | .resume r, h => exact req (act := fun _ => resume r.link) (by simp) h
  | .flushQueue r, h => exact req (act := flushQueue r.link) (by simp) h
  | .flushAll r, h => exact req (act := fun _ => flushAll r.link) (by simp) h
  | .register r, h => exact req (act := register r.link) (by simp) h
  | .release r, h => exact req (act := fun _ => release r.link) (by simp) h
  | .motionQuery r, h => exact req (act := fun _ => motionQuery r.link) (fun _ _ => rfl) h
  | .setLimits r, h => exact req (act := setLimits r.link) (by simp) h
  | .lock r, h => exact req (act := fun _ => lock r.link) (by simp) h
  | .configQuery r, h => exact req (act := fun _ => configQuery r.link) (fun _ _ => rfl) h
  | .tensionQuery r, h => exact req (act := fun _ => tensionQuery r.link) (fun _ _ => rfl) h
  | .driveQuery r, h => exact req (act := fun _ => driveQuery r.link) (fun _ _ => rfl) h
  | .faultQuery r, h => exact req (act := fun _ => faultQuery r.link) (fun _ _ => rfl) h
  | .clearFault r, h => exact req (act := fun _ => clearFault r.link) (fun _ _ => rfl) h
  | .wearQuery r, h => exact req (act := wearQuery r.link) (by simp) h
  | .wearLoad r, h => exact req (act := fun f : WearLoadFields => rewriteWear r.link f.winch f.counters) (by simp) h
  | .wearReset r, h => exact req (act := fun n => rewriteWear r.link n (Vector.replicate 64 0)) (by simp) h
  | .clearEvents r, h => exact req (act := clearEvents r.link) (by simp) h
  | .setNotices r, h => exact req (act := setNotices r.link) (by simp) h
  | .eventQuery r, h => exact req (act := fun _ => eventQuery r.link) (fun _ _ => rfl) h
  | .unknownRequest l tag kind, h =>
    simp only [exec, execUnknownRequest] at h
    split at h
    · cases h
    · refine keep ?_ h
      unfold takeUnknown refuseBusy
      dsimp only
      repeat' split
      all_goals simp
  | .consoleFrameDiscard l d, h => refine keep ?_ h; split <;> simp
  | .frameSent l, h => refine keep ?_ h; split <;> simp
  | .stepTimerExpiry, h => exact ev (by simp) h
  | .holdTimerExpiry, h => exact ev (by simp) h
  | .oneSecondTimerExpiry, h => exact ev (by simp) h
  | .deadmanExpiry, h => exact ev (by simp) h
  | .scrubberTimerExpiry, h => exact ev (by simp) h
  | .feedbackFrame w b, h => exact ev (act := feedbackEvent w b) (by simp) h
  | .stopAsserted, h =>
    rw [← next_inj h]
    exact runEvent_cellLaw (setStop true s) trip hs (keepsCellLaw_of_idLists (by simp))
  | .stopReleased, h => exact keep (u := setStop false s) rfl h
  | .endOfReset, h => refine keep ?_ h; split <;> rfl

end Sys2Proof.Machine

section
open Sys2Proof Sys2Proof.Machine

/-- Settles O52: by the cases of `exec_cellLaw`. -/
theorem cellListsStayOrdered : Obligations.CellListsStayOrdered := exec_cellLaw

end
end

