-- ==== Sys2Proof/Proofs/CellVisits.lean ====
section
/-! SUPPORT. A visit with further cells to come is one written list (R48, R52). -/

namespace Sys2Proof.Machine

/-- The state after a visit has written one list and the operation stands before a next cell (R48). -/
def State.visited (s : State) (op : TableOp) (ids : List Nat) (next : Nat) (rest : List Nat) : State :=
  onZones (fun t =>
      { t with op := some { op with cell := next, plan := .cells rest, visited := op.cell :: op.visited } })
    (writeCell op.cell ids s)

/-- Where the visit is one written list and its plan names a next cell, the command leaves `State.visited`. -/
theorem exec_cellVisit_writes {s : State} {op : TableOp} {next : Nat} {rest : List Nat} (ids : List Nat)
    (hr : s.resetting = false) (ho : s.zones.op = some op) (hp : op.plan = .cells (next :: rest))
    (hv : visit op (Ev.start s) = (Ev.start s).upd (writeCell op.cell ids)) :
    exec .cellVisit s = .next (s.visited op ids next rest) := by
  have event : cellVisitEvent (Ev.start s) = (Ev.start s).upd fun s => s.visited op ids next rest := by
    simp only [cellVisitEvent, start_st, ho, hv, TableOp.next, hp]
    rfl
  refine congrArg Host.Outcome.next ((runEvent_running s cellVisitEvent hr).trans ?_)
  rw [event, finish_quiet _ _ rfl (by simp [State.visited])]
  rfl

/-- A trusted list takes a visit's change as it stands (R48). -/
theorem changeCell_sound (n : Nat) (f : List Nat → List Nat) (e : Ev) (h : e.st.cellSound n) :
    changeCell n f e = e.upd (writeCell n (f (idsAt e.st n))) := if_pos h

/-- Over sound records a rebuild writes the ids that cover the cell (R52). -/
theorem rebuildCell_sound (n : Nat) (e : Ev) (h : e.st.zonesSound) :
    rebuildCell n e = e.upd (writeCell n (coverIds e.st n)) := by
  simp [rebuildCell, readZones_sound e h]

theorem writeCell_fits {n : Nat} {ids : List Nat} {s : State} (h : ids.length ≤ 8) :
    writeCell n ids s = putCell n ids .current s := if_pos h
theorem writeCell_overfull {n : Nat} {ids : List Nat} {s : State} (h : 8 < ids.length) :
    writeCell n ids s = putCell n [] .overfull s := if_neg (Nat.not_le.2 h)

end Sys2Proof.Machine

section
open Sys2Proof Sys2Proof.Machine

/-- Settles O19: each visit is one written list, which fits its cell or leaves it OVERFULL. -/
theorem cellVisitChangesOneList : Obligations.CellVisitChangesOneList := by
  intro s op id next rest hr ho hp
  refine ⟨fun hz hc => ⟨fun hphase hlen => ?inserting, fun b hphase hlen => ?removing⟩,
    fun hphase hs => ⟨fun hlen => ?rebuilt, fun hlen => ?overfull⟩⟩
  case inserting =>
    rw [exec_cellVisit_writes (insertId id (idsAt s op.cell)) hr ho hp]
    · rw [State.visited, writeCell_fits hlen]; rfl
    · simp only [visit, hphase, hz, Option.getD_some]
      exact changeCell_sound _ _ _ hc
  case removing =>
    rw [exec_cellVisit_writes ((idsAt s op.cell).erase id) hr ho hp]
    · rw [State.visited, writeCell_fits hlen]; rfl
    · simp only [visit, hphase, hz, Option.getD_some]
      exact changeCell_sound _ _ _ hc
  all_goals
    rw [exec_cellVisit_writes (coverIds s op.cell) hr ho hp (by
      simp only [visit, hphase]; exact rebuildCell_sound _ _ hs)]
  case rebuilt => rw [State.visited, writeCell_fits hlen]; rfl
  case overfull => rw [State.visited, writeCell_overfull hlen]; rfl

end
end

