-- ==== Sys2Proof/Proofs/Scrubber.lean ====
section
/-! SUPPORT. The scrubber (R190, R191): the item it takes, the order of a rebuild (R52), and the failure of a zone's request
read with the controlled halt that follows it (R115, R186). -/

namespace Sys2Proof.Machine

/-! Events put out beside an update of another block. -/

/-- An update outside the console, made before acts are put out, can be made after them. -/
theorem foldl_putOut_comm (out : List Out) (u : State → State) (hc : ∀ s, (u s).console = s.console)
    (hu : ∀ s c, u { s with console := c } = { u s with console := c }) (s : State) :
    out.foldl putOut (u s) = u (out.foldl putOut s) := by
  induction out generalizing s with
  | nil => rfl
  | cons o out ih =>
    have one : putOut (u s) o = u (putOut s o) := by
      cases o with
      | raise f a b => exact raiseFlag_comm f a b u hc hu s
      | stateHere => rfl
      | answer l a => simp only [putOut, onPort, hc]; exact (hu s _).symm
    rw [List.foldl_cons, List.foldl_cons, one, ih]

/-- A flag that is set stays as it was, whatever an event puts out (R204). -/
theorem foldl_putOut_keeps (out : List Out) (s : State) (n : Nat) (r : Raised)
    (h : s.console.flags[n]? = some (some r)) : (out.foldl putOut s).console.flags[n]? = some (some r) := by
  induction out generalizing s with
  | nil => exact h
  | cons o out ih =>
    refine ih _ ?_
    cases o with
    | raise f a b => exact raiseFlag_keeps f a b s n r h
    | stateHere => exact h
    | answer l a => simpa [putOut] using h

/-- An act that is put out first stays first when STATE finds its place. -/
theorem withState_cons_raise (g g' : GenState) (f : EventFlag) (a b : Nat) (out : List Out) :
    ∃ l, withState g g' (.raise f a b :: out) = .raise f a b :: l := by
  unfold withState
  split
  · exact ⟨_, rfl⟩
  · split
    · exact ⟨_, rfl⟩
    · exact ⟨_, rfl⟩

/-! Settling a request read (R115, R186). -/

/-- A controlled halt changes the generator as R115's table says, and at most the envelope beside it. -/
theorem controlledHalt_st (e : Ev) :
    ∃ v, (controlledHalt e).st = { e.st with gen := e.st.gen.haltingFrom, envelope := v } := by
  cases h : e.st.gen.state <;> simp only [controlledHalt, Generator.haltingFrom, h]
  case idle | held => exact ⟨_, enterHalted_st e⟩
  case jogging => exact ⟨_, by rw [← h]; rfl⟩
  all_goals exact ⟨_, rfl⟩

theorem raiseDropped_out (ids : List Nat) (r : DropReason) (e : Ev) : e.out <+: (raiseDropped ids r e).out := by
  cases ids with
  | nil => exact List.prefix_refl _
  | cons i ids => exact List.prefix_append _ _

theorem controlledHalt_out (e : Ev) : e.out <+: (controlledHalt e).out := by
  rcases controlledHalt_cases e with ⟨-, h⟩ | ⟨-, h⟩ | ⟨-, h⟩ | ⟨-, h⟩ <;> rw [h]
  case inr.inr.inl => exact raiseDropped_out (allIds e.st.gen) .halt (e.upd _)
  all_goals exact List.prefix_refl _

theorem reportFault_out (c : FaultClass) (j : FaultSubject) (e : Ev) : e.out <+: (reportFault c j e).out := by
  unfold reportFault
  dsimp only
  split
  · exact List.prefix_refl _
  · exact List.prefix_append _ _

/-- One failed request read is one RECORD_CHECK and a controlled halt (R186). -/
theorem settleReads_one {e : Ev} {i : Nat} (h : e.bad = [i]) :
    settleReads e = controlledHalt (reportFault .recordCheck (.number i) e) := by
  simp [settleReads, h]

/-- The state after an event with one failed request read, up to its console and the envelope. -/
theorem finish_oneFailure (g : GenState) {e : Ev} {i : Nat} (h : e.bad = [i]) :
    ∃ v, finish g e =
      { e.st with
        gen := e.st.gen.haltingFrom, envelope := v, console := (finish g e).console
        faults := ⟨e.st.faults.flags.setIfInBounds 5 true, captureFault e.st .recordCheck (.number i)⟩ } := by
  obtain ⟨v, hv⟩ := controlledHalt_st (reportFault .recordCheck (.number i) e)
  refine ⟨v, (finish_console g e).trans ?_⟩
  rw [settleReads_one h, hv, reportFault_st]
  rfl

/-- A clear flag that an event raises first, before one failed read is settled, is set with that cause (R204). -/
theorem finish_raised_first (g : GenState) {e : Ev} {i : Nat} {f : EventFlag} {a b : Nat} (h : e.bad = [i])
    (ho : e.out = [.raise f a b]) (hf : e.st.console.flags[f.number]? = some none) :
    (finish g e).console.flags[f.number]? = some (some ⟨a, b⟩) := by
  have settled : e.out <+: (settleReads e).out := by
    rw [settleReads_one h]
    exact (reportFault_out _ _ _).trans (controlledHalt_out _)
  obtain ⟨l, hl⟩ := settled
  rw [ho, List.singleton_append] at hl
  obtain ⟨-, -, console, -, -, -, -, -⟩ := base_eq (settleReads_base e)
  obtain ⟨l', hl'⟩ := withState_cons_raise g (settleReads e).st.gen.state f a b l
  rw [finish, ← hl, hl', List.foldl_cons]
  refine foldl_putOut_keeps _ _ _ _ ?_
  rw [putOut, raiseFlag_clear _ _ _ _ (by rw [console]; exact hf)]
  simp [EventFlag.number_lt]

/-! Failed reads (R182, R187). -/

theorem readZone_failed {e : Ev} {i : Nat} {z : Zone} (h : zoneFails e.st i = true) (hz : zoneAt e.st i = some z) :
    readZone e i =
      ⟨putZone i (some { z with suspect := true }) e.st, e.out ++ [.raise .suspect i 1], insertId i e.bad⟩ := by
  simp [readZone, h, markZone, hz, Ev.upd, Ev.raise]

theorem readCue_failed {e : Ev} {n : Nat} {c : Cue} (h : cueFails e.st n = true) (hc : cueAt e.st n = some c) :
    readCue e n = (e.upd (putCue n (some (c.failed e.st)))).raise .suspect n 2 := by
  simp [readCue, h, hc]

/-! The order of a rebuild (R52). -/

theorem setCond_eq (n : Nat) (c : CellCondition) (s : State) :
    setCond n c s = { s with cells := (setCond n c s).cells } := by
  unfold setCond; split <;> rfl

/-- In an idle table with nothing waiting the rebuild begins at once; behind an operation it waits (R52). -/
theorem orderRebuild_orders {n : Nat} {e : Ev} (hc : condAt e.st n ≠ .rebuilding)
    (hw : e.st.zones.op.isSome = true ∨ e.st.zones.waiting = []) :
    orderRebuild n e = e.upd fun s => s.rebuildOrdered n := by
  rw [orderRebuild, if_neg hc]
  unfold orderWork runIfIdle
  cases ho : e.st.zones.op with
  | some op =>
    simp only [upd_st, onZones_zones, setCond_zones, ho, Option.isSome_some, if_true]
    simp only [Ev.upd, State.rebuildOrdered, ho]
    rw [setCond_eq]
    simp [onZones, ho]
  | none =>
    have hw' : e.st.zones.waiting = [] := by simpa [ho] using hw
    simp only [upd_st, onZones_zones, setCond_zones, ho, hw', Option.isSome_none, Bool.false_eq_true, if_false,
      List.nil_append, runWaiting, workStands, if_true, beginWork, beginOp, TableOp.next, Option.isSome_some]
    simp only [Ev.upd, State.rebuildOrdered, ho]
    rw [setCond_eq]
    simp [onZones, hw']

/-- A failed list raises SUSPECT, and its rebuild is ordered (R188). -/
theorem readCell_failed {n : Nat} {e : Ev} (hf : cellFails e.st n = true)
    (hw : e.st.zones.op.isSome = true ∨ e.st.zones.waiting = []) :
    readCell n e = (e.raise .suspect n 3).upd fun s => s.rebuildOrdered n := by
  have hc : condAt e.st n ≠ .rebuilding := by
    intro h
    unfold condAt at h
    unfold cellFails at hf
    cases hk : e.st.cells[n]? <;> simp_all
  rw [readCell, if_pos hf, suspectCell, if_pos hf]
  exact orderRebuild_orders hc hw

theorem opTouchesCell_iff (s : State) (n : Nat) : opTouchesCell s n = true ↔ s.touchedCell n := by
  unfold opTouchesCell State.touchedCell
  cases s.zones.op with
  | none => simp
  | some op => cases h : op.kind <;> simp [h, or_assoc]

/-! The item at the scrub position (R190, R191). -/

/-- The position advances, from 351 back to 0, and the timer starts a fresh period (R190). -/
def State.scrubbed (n : Nat) (s : State) : State := { s with scrubber := ⟨if n < 351 then n + 1 else 0, some 10⟩ }

theorem scrub_running (e : Ev) (ht : e.st.scrubber.timer.isSome = true) :
    scrub e = (scrubItem e.st.scrubber.position e).upd (State.scrubbed e.st.scrubber.position) := by
  obtain ⟨t, ht⟩ := Option.isSome_iff_exists.1 ht
  have next (n : Nat) : nextScrub n = if n < 351 then n + 1 else 0 := by unfold nextScrub; split <;> split <;> omega
  simp only [scrub, ht, next]
  rfl

section
variable {s : State} (hr : s.resetting = false) (ht : s.scrubber.timer.isSome = true)
include hr ht

theorem exec_scrub {e : Ev} (hi : scrubItem s.scrubber.position (Ev.start s) = e) :
    exec .scrubberTimerExpiry s = .next (finish s.gen.state (e.upd (State.scrubbed s.scrubber.position))) := by
  refine congrArg Host.Outcome.next ((runEvent_running s scrub hr).trans ?_)
  rw [scrub_running (Ev.start s) ht, start_st, hi]

/-- An item whose taking fails no zone record and keeps the generator: what it puts out, and the scrubber's advance. -/
theorem exec_scrub_quiet {e : Ev} (hi : scrubItem s.scrubber.position (Ev.start s) = e) (hb : e.bad = [])
    (hg : e.st.gen = s.gen) :
    exec .scrubberTimerExpiry s = .next ((e.out.foldl putOut e.st).scrubbed s.scrubber.position) := by
  have quiet := finish_quiet s.gen.state (e.upd (State.scrubbed s.scrubber.position)) hb (congrArg Generator.state hg)
  rw [exec_scrub hr ht hi, quiet]
  exact congrArg Host.Outcome.next
    (foldl_putOut_comm e.out (State.scrubbed s.scrubber.position) (fun _ => rfl) (fun _ _ => rfl) e.st)

/-- An item that is passed over (R191). -/
theorem exec_scrub_passes (hi : scrubItem s.scrubber.position (Ev.start s) = Ev.start s) :
    exec .scrubberTimerExpiry s = .next (s.scrubbed s.scrubber.position) :=
  exec_scrub_quiet hr ht hi rfl rfl

end

theorem scrubItem_zone {n : Nat} (h : n < 64) (e : Ev) :
    scrubItem n e = if opTouchesZone e.st n then e else readZone e n := if_pos h

/-- The event once a damaged zone record has been read: it is marked suspect, and its failure waits to be settled (R184,
R186). -/
def zoneMarked (n : Nat) (z : Zone) (s : State) : Ev :=
  ⟨putZone n (some { z with suspect := true }) s, [.raise .suspect n 1], [n]⟩

/-- A damaged zone record that no operation touches: the record is marked, its fault reported and the generator halted
(R184, R186, R191). -/
theorem exec_scrub_failedZone {s : State} (hr : s.resetting = false) (ht : s.scrubber.timer.isSome = true) {n : Nat}
    (hp : s.scrubber.position = n) (hn : n < 64) (hop : opTouchesZone s n = false) (hf : zoneFails s n = true) {z : Zone}
    (hz : zoneAt s n = some z) :
    ∃ t v, exec .scrubberTimerExpiry s = .next t ∧
      t = { (putZone n (some { z with suspect := true }) s).scrubbed n with
            gen := s.gen.haltingFrom, envelope := v, console := t.console
            faults := ⟨s.faults.flags.setIfInBounds 5 true, captureFault s .recordCheck (.number n)⟩ } ∧
      (s.console.flags[17]? = some none → t.console.flags[17]? = some (some ⟨n, 1⟩)) := by
  subst hp
  let e := (zoneMarked s.scrubber.position z s).upd (State.scrubbed s.scrubber.position)
  have item : scrubItem s.scrubber.position (Ev.start s) = zoneMarked s.scrubber.position z s := by
    rw [scrubItem_zone hn, start_st, if_neg (by simp [hop]), readZone_failed hf hz]
    rfl
  obtain ⟨v, hv⟩ := finish_oneFailure s.gen.state (e := e) (i := s.scrubber.position) rfl
  exact ⟨_, v, exec_scrub hr ht item, hv, fun h => finish_raised_first s.gen.state (f := .suspect) (e := e) rfl rfl h⟩

theorem scrubItem_cue {n : Nat} (h : 64 ≤ n) (h' : n < 160) (e : Ev) : scrubItem n e = readCue e (n - 64) := by
  rw [scrubItem, if_neg (Nat.not_lt.2 h), if_pos h']

theorem scrubItem_cell {n : Nat} (h : 160 ≤ n) (e : Ev) (ht : ¬e.st.touchedCell (n - 160)) :
    (condAt e.st (n - 160) = .current → scrubItem n e = readCell (n - 160) e) ∧
      (condAt e.st (n - 160) = .overfull → scrubItem n e = orderRebuild (n - 160) e) ∧
      (condAt e.st (n - 160) = .rebuilding → scrubItem n e = e) := by
  rw [← opTouchesCell_iff] at ht
  rw [scrubItem, if_neg (by omega), if_neg (by omega), if_neg ht]
  exact ⟨fun hc => by rw [hc], fun hc => by rw [hc], fun hc => by rw [hc]⟩

theorem scrubItem_touchedCell {n : Nat} (h : 160 ≤ n) (e : Ev) (ht : e.st.touchedCell (n - 160)) :
    scrubItem n e = e := by
  rw [scrubItem, if_neg (by omega), if_neg (by omega), if_pos ((opTouchesCell_iff _ _).2 ht)]

end Sys2Proof.Machine

section
open Sys2Proof Sys2Proof.Machine

/-- Settles O23: by the kind of the item at the scrub position, and what its read finds. -/
theorem scrubberTakesItsItem : Obligations.ScrubberTakesItsItem := by
  intro s hr ht n on
  refine ⟨fun hn => ⟨fun h => ?zonePasses, fun hop hf z hz => ?zoneFails⟩,
    fun hn hn' => ⟨fun h => ?cuePasses, fun hf c hc => ?cueFails⟩,
    fun hn => ⟨fun h => ?cellPasses, fun htouch hw => ⟨fun hc => ?overfull, fun hc hf => ?cellFails⟩⟩⟩
  case zonePasses =>
    refine exec_scrub_passes hr ht ?_
    rw [scrubItem_zone hn]
    rcases h with ⟨op, ho, hz⟩ | hf
    · exact if_pos (by simp [opTouchesZone, ho, hz])
    · rw [readZone_sound _ _ hf, ite_self]
  case zoneFails =>
    have untouched : opTouchesZone s n = false := by
      cases ho : s.zones.op with
      | none => simp [opTouchesZone, ho]
      | some op => simpa [opTouchesZone, ho] using hop op ho
    obtain ⟨t, v, run, hst, hflag⟩ := exec_scrub_failedZone hr ht rfl hn untouched hf hz
    have zones : t.zones = (putZone n (some { z with suspect := true }) s).zones := by rw [hst]; rfl
    have zoneAt_t (j : Nat) : zoneAt t j = zoneAt (putZone n (some { z with suspect := true }) s) j := by
      simp only [zoneAt, zones]
    have zoneFails_t (j : Nat) : zoneFails t j = zoneFails (putZone n (some { z with suspect := true }) s) j := by
      simp only [zoneFails, zones]
    refine ⟨t, run, by rw [hst]; rfl, ?_, ?_, fun j hj => ⟨?_, ?_⟩, ?_, ?_, ?_, by rw [hst], by rw [hst]; rfl,
      by rw [hst]; rfl, by rw [hst]; rfl, by rw [hst]; rfl, by rw [hst]; rfl, by rw [hst]; rfl, by rw [hst]; rfl,
      by rw [hst]; rfl⟩
    · rw [zoneAt_t, zoneAt_putZone_same _ _ _ hn]
    · rw [zoneFails_t, zoneFails_putZone_same _ _ _ hn]
    · rw [zoneAt_t, zoneAt_putZone_other _ _ _ _ hj.symm]
    · rw [zoneFails_t, zoneFails_putZone_other _ _ _ _ hj.symm]
    · intro h; simpa using hflag (by simpa using h)
    · rw [hst]; simp
    · intro h; rw [hst]; simp only [captureFault, h]; rfl
  case cuePasses =>
    refine exec_scrub_passes hr ht ?_
    rw [scrubItem_cue hn hn', readCue_sound _ _ h]
  case cueFails =>
    have item := (scrubItem_cue hn hn' (Ev.start s)).trans (readCue_failed hf hc)
    exact exec_scrub_quiet hr ht item rfl rfl
  case cellPasses =>
    refine exec_scrub_passes hr ht ?_
    by_cases htouch : s.touchedCell (n - 160)
    · exact scrubItem_touchedCell hn _ htouch
    · obtain ⟨current, -, rebuilding⟩ := scrubItem_cell hn (Ev.start s) htouch
      rcases h with h | h | ⟨hc, hf⟩
      · exact absurd h htouch
      · exact rebuilding h
      · rw [current hc, readCell_sound (n - 160) (Ev.start s) hf]
  case overfull =>
    obtain ⟨-, overfull, -⟩ := scrubItem_cell hn (Ev.start s) htouch
    have item := (overfull hc).trans (orderRebuild_orders (by rw [start_st, hc]; decide) hw)
    exact exec_scrub_quiet hr ht item rfl rfl
  case cellFails =>
    obtain ⟨current, -, -⟩ := scrubItem_cell hn (Ev.start s) htouch
    have item := (current hc).trans (readCell_failed hf hw)
    exact exec_scrub_quiet hr ht item rfl rfl

end
end

