-- ==== Sys2Proof/Proofs/ResetLaws.lean ====
section
/-! SUPPORT. The laws that the commands keep hold of the state after reset (R46, R100, R124, R164, R174, R192). -/

namespace Sys2Proof.Machine

theorem reset_wearLaw : State.reset.wearLaw := by
  intro w
  have hw : State.reset.wear.get w = WinchWear.reset := get_all _ w
  rw [hw]
  exact ⟨fun i => by simp [WinchWear.reset], by decide⟩

theorem reset_faultsLaw : State.reset.faults.law := by
  intro i
  simp [State.reset]

theorem reset_cellLaw : State.reset.cellLaw := by
  refine cellLaw_of_empty fun n => ?_
  by_cases hn : n < 192 <;> simp [idsAt, State.reset, emptyCell, hn]

/-- The generator is UNREGISTERED and BRAKE is asserted. -/
theorem reset_brakeLaw : State.reset.brakeLaw := iff_of_true rfl (.inl rfl)

theorem reset_jogLaw : State.reset.jogLaw := ⟨nofun, fun _ => rfl⟩

theorem reset_collectionsLaw : State.reset.gen.collectionsLaw :=
  ⟨Nat.zero_le 8, Nat.zero_le 4, fun _ _ => Nat.zero_le 3, .nil⟩

end Sys2Proof.Machine

section
open Sys2Proof Sys2Proof.Machine

/-- Settles O56. -/
theorem resetKeepsEveryLaw : Obligations.ResetKeepsEveryLaw :=
  ⟨reset_wearLaw, reset_faultsLaw, reset_cellLaw, reset_brakeLaw, reset_jogLaw, reset_collectionsLaw⟩

end
end

