-- ==== Sys2Proof/Proofs/CueRecords.lean ====
section
/-! SUPPORT. The Cue Table's requests (R58 to R63): the slot each writes, over sound records. -/

namespace Sys2Proof.Machine

/-! Requests that update the state and are answered (R200 to R202). -/

section
variable {α : Type} {k : RequestKind} {l : Link} {tag : Byte} {act : α → Ev → Ev} {s : State} {a : α}

/-- A request that updates the state outside the ports, leaves the generator in its state and is then answered. -/
theorem request_updates (u : State → State) (ans : Answer) (h : s.portFree l) (hk : safetyOnly k = false)
    (hact : act a (Ev.start (s.taken l tag (kindCode k))) = ((Ev.start (s.taken l tag (kindCode k))).upd u).reply l ans)
    (hu : u (s.taken l tag (kindCode k)) = (u s).taken l tag (kindCode k)) (hg : (u s).gen.state = s.gen.state) :
    request k ⟨l, tag, .fields a⟩ act s = (u s).answered l tag (kindCode k) ans := by
  rw [request_passes k ⟨l, tag, .fields a⟩ act s a h (by simp [hk]) rfl, hact]
  exact finish_upd_reply s l tag (kindCode k) u ans hu hg

/-- A request that is answered without an update. -/
theorem request_replies (ans : Answer) (h : s.portFree l) (hk : safetyOnly k = false)
    (hact : act a (Ev.start (s.taken l tag (kindCode k))) = (Ev.start (s.taken l tag (kindCode k))).reply l ans) :
    request k ⟨l, tag, .fields a⟩ act s = s.answered l tag (kindCode k) ans :=
  request_updates id ans h hk hact rfl rfl

end

/-! Cue slots, over sound records. -/

theorem lt_of_cueAt {s : State} {n : Nat} {c : Cue} (h : cueAt s n = some c) : n < 96 := by
  by_contra hn
  simp [cueAt, hn] at h

/-- The BLOCKED flag of a record just written is computed in place (R66). -/
theorem computeBlocked_putCue (e : Ev) (n : Nat) (c : Cue) (hn : n < 96) (hz : e.st.zonesSound) :
    computeBlocked (e.upd (putCue n (some c))) n =
      e.upd (putCue n (some { c with blocked := cueBlocked e.st c.target })) := by
  have read : readZones (e.upd (putCue n (some c))) = e.upd (putCue n (some c)) := readZones_sound _ hz
  simp only [computeBlocked, read, upd_st, cueAt_putCue_same n (some c) e.st hn]
  exact congrArg (fun t => { e with st := t }) (setBlocked_putCue n c (cueBlocked e.st c.target) e.st hn)

theorem not_stale_iff (o : Option Byte) (held : Byte) : stale o held = false ↔ ∀ r, o = some r → r = held := by
  cases o <;> simp [stale]

/-! CUE_STORE (R58 to R60). -/

theorem cueStoreBad_number {f : CueStoreFields} (h : cueStoreBad f = none) : f.number < 96 := by
  have inRange := (firstFailing_none _).1 h (decide (95 < f.number)) List.mem_cons_self
  have := of_decide_eq_false inRange
  omega

/-- The record that CUE_STORE writes (R60). -/
def storedCue (s : State) (target : Vec3) (speed : Option Nat) : Cue := ⟨target, speed, 0, false, cueBlocked s target⟩

theorem storeCue_sound (l : Link) (n : Nat) (p : Vec3) (v : Option Nat) (e : Ev) (hn : n < 96) (hz : e.st.zonesSound) :
    storeCue l n p v e =
      (e.upd (putCue n (some (storedCue e.st p v)))).ok l false
        [[byte n], pointBytes p, [0], boolByte (cueBlocked e.st p)] := by
  rw [storeCue, computeBlocked_putCue e n _ hn hz, upd_st, cueAt_putCue_same n _ e.st hn]
  rfl

section
variable {l : Link} {f : CueStoreFields} {e : Ev} {sp : Span} (hsp : e.st.spanSet.span = some sp)
  (hf : cueStoreBad f = none)
include hsp hf

theorem cueStore_target {p : Vec3} (ht : f.target = some p) :
    cueStore l f e = if boxHas sp.w p then storeCue l f.number p f.speed e else e.refuse l .outOfVolume [] := by
  simp only [cueStore, hsp, hf, ht]

theorem cueStore_here (ht : f.target = none) :
    cueStore l f e =
      if registered e.st then storeCue l f.number (toMm (posOf e.st)) f.speed e else e.refuse l .notRegistered [] := by
  simp only [cueStore, hsp, hf, ht]

end

theorem registered_iff (s : State) : registered s = true ↔ s.gen.state ≠ .unregistered ∧ s.gen.state ≠ .stopped := by
  unfold registered
  cases s.gen.state <;> simp

/-! CUE_AMEND (R61, R62). -/

/-- The record that CUE_AMEND writes (R62). -/
def amendedCue (s : State) (c : Cue) (f : CueAmendFields) : Cue where
  target := f.target.getD c.target
  speed := amendSpeed f.speed c.speed
  revision := c.revision + 1
  suspect := c.suspect && (f.target.isNone || f.speed.isNone)
  blocked := match f.target with
    | none => c.blocked
    | some p => cueBlocked s p

theorem amendCue_sound (l : Link) (c : Cue) (f : CueAmendFields) (e : Ev) (hn : f.number < 96)
    (hz : f.target ≠ none → e.st.zonesSound) :
    amendCue l c f e =
      (e.upd (putCue f.number (some (amendedCue e.st c f)))).ok l false
        [[byte f.number], [c.revision + 1], boolByte (amendedCue e.st c f).blocked,
          boolByte (amendedCue e.st c f).suspect] := by
  cases ht : f.target with
  | none =>
    simp only [amendCue, ht, Option.isSome_none, Bool.false_eq_true, if_false, upd_st,
      cueAt_putCue_same f.number _ e.st hn, amendedCue, Bool.false_and, Bool.not_false, Option.isNone_none, Bool.true_or]
    rfl
  | some p =>
    have computed := fun c => computeBlocked_putCue e f.number c hn (hz (by simp [ht]))
    simp only [amendCue, ht, Option.isSome_some, if_true, computed, upd_st, cueAt_putCue_same f.number _ e.st hn,
      amendedCue, Bool.true_and, Option.isNone_some, Bool.false_or, Option.not_isSome]
    rfl

theorem cueAmend_passes {l : Link} {f : CueAmendFields} {e : Ev} {c : Cue} (hc : cueAt e.st f.number = some c)
    (hs : cueFails e.st f.number = false) (hr : ∀ r, f.revision = some r → r = c.revision) (hf : cueAmendBad f = none)
    (hw : ∀ p, f.target = some p → inW e.st (toMicro p) = true) : cueAmend l f e = amendCue l c f e := by
  have fresh : stale f.revision c.revision = false := (not_stale_iff _ _).2 hr
  have inside : (f.target.all fun t => inW e.st (toMicro t)) = true := by
    cases ht : f.target with
    | none => rfl
    | some p => exact hw p ht
  simp only [cueAmend, readCue_sound e f.number hs, hc, fresh, hf, inside, Bool.false_eq_true, if_false, if_true]

/-! CUE_RETIRE (R63). -/

theorem cueRetire_stored {l : Link} {f : RetireFields} {e : Ev} {c : Cue} (hc : cueAt e.st f.id = some c)
    (hs : cueFails e.st f.id = false) :
    cueRetire l f e =
      if stale f.revision c.revision then e.refuse l .stale [[c.revision]]
      else (e.upd (putCue f.id none)).ok l false [] := by
  simp only [cueRetire, readCue_sound e f.id hs, hc]

theorem cueFails_of_free {s : State} {n : Nat} (h : cueAt s n = none) : cueFails s n = false := by
  unfold cueAt at h
  unfold cueFails
  cases hk : s.cues[n]? with
  | none => rfl
  | some k =>
    obtain ⟨cue, check⟩ := k
    have hfree : cue = none := by simpa [hk] using h
    rw [hfree]

theorem cueRetire_free {l : Link} {f : RetireFields} {e : Ev} (hc : cueAt e.st f.id = none) :
    cueRetire l f e = e.refuse l .noSuchCue [] := by
  simp only [cueRetire, readCue_sound e f.id (cueFails_of_free hc), hc]

end Sys2Proof.Machine

section
open Sys2Proof Sys2Proof.Machine

/-- Settles O18: each accepted request is one written slot, and each refused one leaves the table as it is. -/
theorem cueRequestsWriteTheirRecord : Obligations.CueRequestsWriteTheirRecord := by
  refine ⟨fun s l tag f sp hfree hsp hf => ⟨fun p hz hp => ?stored, fun p ht hout => ?outside, fun ht hg => ?unregistered⟩,
    fun s l tag sp hfree hsp => ⟨fun f c hc hs hr hf hw hz => ?amended,
      fun f c hc hs => ⟨fun hr => ?retired, fun r hr hne => ?stale⟩, fun f hc => ?free⟩⟩
  case stored =>
    have store : cueStore l f (Ev.start (s.taken l tag 0x07)) =
        storeCue l f.number p f.speed (Ev.start (s.taken l tag 0x07)) := by
      rcases hp with ⟨ht, hin⟩ | ⟨q, ht, hu, hst, hq, rfl⟩
      · rw [cueStore_target hsp hf ht, if_pos hin]
      · have hpos : posOf (s.taken l tag 0x07) = q := by simp [posOf, hq]
        rw [cueStore_here hsp hf ht, start_st, if_pos ((registered_iff (s.taken l tag 0x07)).2 ⟨hu, hst⟩), hpos]
    exact congrArg Host.Outcome.next (request_updates (k := .cueStore) (putCue f.number (some (storedCue s p f.speed))) _
      hfree rfl (store.trans (storeCue_sound l f.number p f.speed _ (cueStoreBad_number hf) hz)) rfl rfl)
  case outside =>
    refine congrArg Host.Outcome.next (request_replies (k := .cueStore) _ hfree rfl ?_)
    rw [cueStore_target hsp hf ht, if_neg (by simp [hout])]
    rfl
  case unregistered =>
    refine congrArg Host.Outcome.next (request_replies (k := .cueStore) _ hfree rfl ?_)
    have off : ¬registered (s.taken l tag 0x07) = true := by
      rw [registered_iff]; rintro ⟨hu, hst⟩; exact hg.elim hu hst
    rw [cueStore_here hsp hf ht]
    exact if_neg off
  case amended =>
    have inside (p : Vec3) (ht : f.target = some p) : inW (s.taken l tag 0x08) (toMicro p) = true := by
      simpa [inW, hsp] using hw p ht
    have amend : cueAmend l f (Ev.start (s.taken l tag 0x08)) = amendCue l c f (Ev.start (s.taken l tag 0x08)) :=
      cueAmend_passes hc hs hr hf inside
    exact congrArg Host.Outcome.next (request_updates (k := .cueAmend) (putCue f.number (some (amendedCue s c f))) _
      hfree rfl (amend.trans (amendCue_sound l c f _ (lt_of_cueAt hc) hz)) rfl rfl)
  case retired =>
    refine congrArg Host.Outcome.next (request_updates (k := .cueRetire) (putCue f.id none) _ hfree rfl ?_ rfl rfl)
    rw [cueRetire_stored hc hs, if_neg (by simp [(not_stale_iff _ _).2 hr])]
    rfl
  case stale =>
    have old : stale f.revision c.revision = true := by simp [stale, hr, hne]
    refine congrArg Host.Outcome.next (request_replies (k := .cueRetire) _ hfree rfl ?_)
    rw [cueRetire_stored hc hs, if_pos old]
    rfl
  case free =>
    exact congrArg Host.Outcome.next (request_replies (k := .cueRetire) _ hfree rfl (cueRetire_free hc))

end
end

