-- ==== Sys2Proof/Proofs/MoveAdmission.lean ====
section
/-! SUPPORT. Queued and priority moves (R99, R102 to R105): the checks they pass, the entry that joins the tail, and the move
that begins at once in IDLE. -/

namespace Sys2Proof.Machine

/-! The move that is admitted (R69, R76, R99). -/

theorem freshFrom_free {held : List Nat} {n : Nat} (h : n ∉ held) (k : Nat) : freshFrom held k n = n := by
  cases k <;> simp [freshFrom, h]

/-- A counter that no move holds is the id taken, and its successor the counter after it (R99). -/
theorem takeId_free {g : Generator} (h : g.nextId ∉ heldIds g) : takeId g = (g.nextId, nextId g.nextId) := by
  simp [takeId, freshFrom_free h]

/-- The counter takes the next id (R99). -/
theorem countId_free {s : State} (h : s.gen.nextId ∉ heldIds s.gen) :
    countId s = { s with gen := { s.gen with nextId := nextId s.gen.nextId } } := by
  simp only [countId, onGen, takeId_free h]

/-- What a GOTO asks for under a span: its target limited to W (R76). -/
def gotoAsked (sp : Span) (f : GotoFields) : Asked :=
  ⟨.goto, none, clampTo (boxMicro sp.w) (toMicro f.target), f.speed,
    decide (clampTo (boxMicro sp.w) (toMicro f.target) ≠ toMicro f.target)⟩

/-- The move asked for, under an id and a span: its cap is the speed it names, up to the top speed (R99). -/
def Asked.move (a : Asked) (id : Nat) (sp : Span) : Move :=
  ⟨id, a.kind, a.target, a.cue, min (a.speed.getD sp.top) sp.top⟩

/-- The answer to an admitted move (R99, R103). -/
def Asked.answer (a : Asked) (id : Nat) (sp : Span) : Answer :=
  ⟨.ok, a.limited || a.speed.any fun v => decide (sp.top < v), [le16 id]⟩

section
variable {s : State} {sp : Span} (hsp : s.spanSet.span = some sp)
include hsp

theorem askGoto_eq (f : GotoFields) : askGoto s f = gotoAsked sp f := by
  simp [askGoto, gotoAsked, hsp]

theorem topSpeed_eq : topSpeed s = sp.top := by
  simp [topSpeed, hsp]

theorem admitted_eq (hid : s.gen.nextId ∉ heldIds s.gen) (a : Asked) : admitted a s = a.move s.gen.nextId sp := by
  simp only [admitted, takeId_free hid, capOf, topSpeed_eq hsp, Asked.move]

theorem admitted_answer (hid : s.gen.nextId ∉ heldIds s.gen) (a : Asked) :
    (⟨.ok, askedClamps s a, [le16 (admitted a s).id]⟩ : Answer) = a.answer s.gen.nextId sp := by
  rw [admitted_eq hsp hid]
  simp only [askedClamps, exceeds, topSpeed_eq hsp, Asked.move, Asked.answer]

end

/-! The refusals of R102. -/

theorem moveBad_none {target : Option Vec3} {speed : Option Nat} (ht : ∀ p, target = some p → pointOk p = true)
    (hv : speed ≠ some 0) : moveBad target speed = none := by
  refine (firstFailing_none _).2 ?_
  cases target with
  | none => simp [hv]
  | some p => simp [hv, ht p rfl]

theorem halting_eq_false {s : State} (hh : s.gen.state ≠ .halted)
    (hb : ¬(s.gen.state = .braking ∧ s.gen.purpose = some .halt)) : halting s = false := by
  simpa [halting, hh] using hb

theorem moveRefusal_queued {s : State} (hr : registered s = true) (hh : halting s = false)
    (hz : activeSuspect s = false) : moveRefusal false s = none := by
  simp [moveRefusal, hr, hh, hz]

/-- In IDLE with no entry in the arming set, neither form of the request is refused. -/
theorem moveRefusal_idle {s : State} (hi : s.gen.state = .idle) (ha : s.envelope.arming = [])
    (hz : activeSuspect s = false) (priority : Bool) : moveRefusal priority s = none := by
  simp [moveRefusal, registered, halting, exitFlying, hi, ha, hz]

theorem roomRefusal_queued {s : State} (h : s.gen.queue.length < 8) : roomRefusal false s = none := by
  simp [roomRefusal, h]

theorem roomRefusal_idle {s : State} (hi : s.gen.state = .idle) (hq : s.gen.queue = []) (priority : Bool) :
    roomRefusal priority s = none := by
  cases priority <;> simp [roomRefusal, hi, hq]

/-! A request that passes its checks is admitted (R69, R102). -/

section
variable {priority : Bool} {l : Link} {e : Ev}

theorem gotoRequest_admits {f : GotoFields} {sp : Span} (hsp : e.st.spanSet.span = some sp)
    (ht : pointOk f.target = true) (hv : f.speed ≠ some 0) (hr : moveRefusal priority e.st = none) :
    gotoRequest priority l f e = admitMove priority l (gotoAsked sp f) e := by
  have sound : moveBad (some f.target) f.speed = none := moveBad_none (by simpa using ht) hv
  simp only [gotoRequest, sound, hr, askGoto_eq hsp]

/-- A cue that RECALL accepts: STORED, sound, not suspect and not BLOCKED (R69). -/
structure State.recallable (s : State) (n : Nat) (c : Cue) : Prop where
  inRange : n ≤ 95
  stored : cueAt s n = some c
  sound : cueFails s n = false
  trusted : c.suspect = false
  clear : c.blocked = false

theorem resolveCue_recallable {n : Nat} {c : Cue} (h : e.st.recallable n c) : resolveCue n e = (e, .cue c) := by
  simp [resolveCue, Nat.not_lt.2 h.inRange, readCue_sound e n h.sound, h.stored, h.trusted, h.clear]

theorem recallRequest_admits {f : RecallFields} {c : Cue} (hc : e.st.recallable f.cue c) (hv : f.speed ≠ some 0)
    (hr : moveRefusal priority e.st = none) :
    recallRequest priority l f e = admitMove priority l (askRecall f.cue f.speed c) e := by
  have sound : moveBad none f.speed = none := moveBad_none nofun hv
  simp only [recallRequest, sound, hr, resolveCue_recallable hc]

theorem admitMove_clear {a : Asked} (hroom : roomRefusal priority e.st = none) (hz : e.st.zonesSound)
    (hp : pathOk e.st (if priority then posOf e.st else planningPoint e.st) a.target = true) :
    admitMove priority l a e = if priority then admitPriority l a e else admitQueued l a e := by
  simp only [admitMove, hroom, readZones_sound e hz, if_pos hp]

end

/-! An entry at the tail (R103). -/

/-- A move has taken its id and stands at the tail of the queue. -/
def State.queued (m : Move) (s : State) : State := onGen (fun g => { g with queue := g.queue ++ [m] }) (countId s)

/-- While the head cannot begin, an admitted move waits at the tail. -/
theorem admitQueued_waits {l : Link} {a : Asked} {e : Ev} {sp : Span} (hsp : e.st.spanSet.span = some sp)
    (hid : e.st.gen.nextId ∉ heldIds e.st.gen) (h : e.st.gen.state ≠ .idle ∨ e.st.envelope.arming ≠ []) :
    admitQueued l a e =
      (e.upd (State.queued (a.move e.st.gen.nextId sp))).reply l (a.answer e.st.gen.nextId sp) := by
  have waits : ¬(e.st.gen.state = .idle ∧ e.st.envelope.arming.isEmpty = true) := by
    rw [List.isEmpty_iff]
    rintro ⟨hi, ha⟩
    exact h.elim (fun h => h hi) fun h => h ha
  rw [← admitted_answer hsp hid, ← admitted_eq hsp hid]
  exact if_neg waits

/-! A move that begins at once (R103 to R105). -/

/-- The generator rests in IDLE at a fine position, with nothing queued, suspended, waiting or arming. -/
structure State.idleAt (s : State) (p : Vec3) : Prop where
  state : s.gen.state = .idle
  pos : s.gen.pos = some p
  queue : s.gen.queue = []
  stack : s.gen.stack = []
  flight : s.gen.flight = none
  waiting : s.gen.waiting = none
  arming : s.envelope.arming = []

theorem State.idleAt.taken {s : State} {p : Vec3} (h : s.idleAt p) (l : Link) (t k : Byte) : (s.taken l t k).idleAt p :=
  ⟨h.state, h.pos, h.queue, h.stack, h.flight, h.waiting, h.arming⟩

theorem State.idleAt.posOf {s : State} {p : Vec3} (h : s.idleAt p) : posOf s = p := by
  simp [Machine.posOf, h.pos]

theorem State.idleAt.planningPoint {s : State} {p : Vec3} (h : s.idleAt p) : planningPoint s = p :=
  planningPoint_resting s p h.pos h.queue h.stack (.inl h.flight)

/-- Nothing holds a move id. -/
theorem State.idleAt.nextId_free {s : State} {p : Vec3} (h : s.idleAt p) : s.gen.nextId ∉ heldIds s.gen := by
  simp [heldIds, allIds, waitingIds, h.queue, h.stack, h.flight, h.waiting]

/-- A move has taken its id and flies from the fine position. -/
def State.begun (m : Move) (s : State) : State := flyMove m (countId s)

theorem tryBegin_flies {m : Move} {e : Ev} (hz : e.st.zonesSound) (hp : pathOk e.st (posOf e.st) m.target = true)
    (hd : distance (posOf e.st) m.target ≠ 0) : tryBegin m e = (e.upd (flyMove m), true) := by
  simp only [tryBegin, readZones_sound e hz, if_pos hp, if_neg hd]

/-- The head of the queue begins where its start check passes (R107, item 5). -/
theorem queuePhase_flies {m : Move} {e : Ev} (r : List Move) (hz : e.st.zonesSound)
    (hp : pathOk e.st (posOf e.st) m.target = true) (hd : distance (posOf e.st) m.target ≠ 0) :
    queuePhase (m :: r) e = e.upd fun s => flyMove m (onGen (fun g => { g with queue := r }) s) := by
  have begins := tryBegin_flies (m := m) (e := e.upd fun s => restIn .idle (onGen (fun g => { g with queue := r }) s))
    hz hp hd
  rw [queuePhase, begins]
  rfl

/-- The waiting priority move begins where its start check passes (R107, item 2). -/
theorem advance_flies {m : Move} {e : Ev} (hm : e.st.gen.waiting = some m) (hz : e.st.zonesSound)
    (hp : pathOk e.st (posOf e.st) m.target = true) (hd : distance (posOf e.st) m.target ≠ 0) :
    advance e = e.upd fun s => flyMove m (onGen (fun g => { g with waiting := none }) s) := by
  have begins := tryBegin_flies (m := m) (e := e.upd (onGen fun g => { g with waiting := none })) hz hp hd
  simp only [advance, hm, begins]
  rfl

/-- A queue that was empty is empty again once the move that joined it flies. -/
theorem begun_of_queued {s : State} (m : Move) (hq : s.gen.queue = []) :
    flyMove m (onGen (fun g => { g with queue := [] }) (s.queued m)) = s.begun m := by
  have cleared : onGen (fun g => { g with queue := [] }) (s.queued m) = countId s := by
    simp only [State.queued, onGen, ← hq]
    rfl
  rw [cleared, State.begun]

/-- No priority move waits once the one that waited flies. -/
theorem begun_of_waiting {s : State} (m : Move) (hw : s.gen.waiting = none) :
    flyMove m (onGen (fun g => { g with waiting := none })
      (onGen (fun g => { g with waiting := some m }) (countId s))) = s.begun m := by
  have cleared : onGen (fun g => { g with waiting := none })
      (onGen (fun g => { g with waiting := some m }) (countId s)) = countId s := by
    simp only [onGen, ← hw]
    rfl
  rw [cleared, State.begun]

section
variable {l : Link} {a : Asked} {e : Ev} (hi : e.st.gen.state = .idle) (hz : e.st.zonesSound)
  (hp : pathOk e.st (posOf e.st) a.target = true) (hd : distance (posOf e.st) a.target ≠ 0)
include hi hz hp hd

/-- A queued move in IDLE joins an empty queue and leaves it at once. -/
theorem admitQueued_begins (ha : e.st.envelope.arming = []) (hq : e.st.gen.queue = []) :
    admitQueued l a e =
      (e.upd (State.begun (admitted a e.st))).ok l (askedClamps e.st a) [le16 (admitted a e.st).id] := by
  let e1 := (e.upd (State.queued (admitted a e.st))).ok l (askedClamps e.st a) [le16 (admitted a e.st).id]
  have starts : e.st.gen.state = .idle ∧ e.st.envelope.arming.isEmpty = true := ⟨hi, by rw [ha]; rfl⟩
  have head : e1.st.gen.queue = [admitted a e.st] := congrArg (· ++ [admitted a e.st]) hq
  calc admitQueued l a e = queuePhase e1.st.gen.queue e1 := if_pos starts
    _ = e1.upd fun s => flyMove (admitted a e.st) (onGen (fun g => { g with queue := [] }) s) := by
      rw [head]
      exact queuePhase_flies [] hz hp hd
    _ = _ := congrArg (fun t => { e1 with st := t }) (begun_of_queued (admitted a e.st) hq)

/-- A priority move in IDLE waits for nothing. -/
theorem admitPriority_begins (hw : e.st.gen.waiting = none) :
    admitPriority l a e =
      (e.upd (State.begun (admitted a e.st))).ok l (askedClamps e.st a) [le16 (admitted a e.st).id] := by
  let e1 := (e.upd fun s => onGen (fun g => { g with waiting := some (admitted a e.st) }) (countId s)).ok l
    (askedClamps e.st a) [le16 (admitted a e.st).id]
  have resting : ¬e.st.gen.state = .moving := by simp [hi]
  calc admitPriority l a e = advance e1 := if_neg resting
    _ = e1.upd fun s => flyMove (admitted a e.st) (onGen (fun g => { g with waiting := none }) s) :=
      advance_flies rfl hz hp hd
    _ = _ := congrArg (fun t => { e1 with st := t }) (begun_of_waiting (admitted a e.st) hw)

end

/-- In IDLE an admitted move, queued or with the priority option, begins at once. -/
theorem admitMove_begins {priority : Bool} {l : Link} {a : Asked} {e : Ev} {sp : Span} {p : Vec3}
    (hsp : e.st.spanSet.span = some sp) (hi : e.st.idleAt p) (hz : e.st.zonesSound)
    (hp : pathOk e.st p a.target = true) (hd : distance p a.target ≠ 0) :
    admitMove priority l a e =
      (e.upd (State.begun (a.move e.st.gen.nextId sp))).reply l (a.answer e.st.gen.nextId sp) := by
  have hroom := roomRefusal_idle hi.state hi.queue priority
  have start : (if priority then posOf e.st else planningPoint e.st) = p := by
    rw [hi.posOf, hi.planningPoint, ite_self]
  rw [admitMove_clear hroom hz (by rw [start]; exact hp)]
  rw [← admitted_answer hsp hi.nextId_free, ← admitted_eq hsp hi.nextId_free]
  rw [← hi.posOf] at hp hd
  cases priority with
  | false => exact admitQueued_begins hi.state hz hp hd hi.arming hi.queue
  | true => exact admitPriority_begins hi.state hz hp hd hi.waiting

/-! The four requests, from the request frame to the state they leave. -/

/-- A request that changes the generator's state outside the ports is answered, and STATE follows the answer (R97). -/
theorem finish_upd_reply_changed (s : State) (l : Link) (t k : Byte) (f : State → State) (a : Answer)
    (hf : f (s.taken l t k) = (f s).taken l t k) (hg : (f s).gen.state ≠ s.gen.state) :
    finish s.gen.state (((Ev.start (s.taken l t k)).upd f).reply l a) =
      raiseFlag .state (f s).gen.state.code 0 ((f s).answered l t k a) := by
  have changed : (((Ev.start (s.taken l t k)).upd f).reply l a).st.gen.state ≠ s.gen.state := by simpa [hf] using hg
  rw [finish_changed _ _ rfl changed (by simp)]
  simp only [reply_out, upd_out, start_out, List.nil_append, List.foldl_cons, List.foldl_nil, putOut, reply_st, upd_st,
    start_st, hf, answer_taken, taken_gen]

section
variable {α : Type} {k : RequestKind} {l : Link} {tag : Byte} {act : α → Ev → Ev} {s : State} {f : α} {a : Asked}
  {sp : Span} (hfree : s.portFree l) (hk : safetyOnly k = false) (hsp : s.spanSet.span = some sp) (hz : s.zonesSound)
include hfree hk hsp hz

/-- An admitted request whose move cannot begin leaves it at the tail. -/
theorem request_joins (hid : s.gen.nextId ∉ heldIds s.gen) (hw : s.gen.state ≠ .idle ∨ s.envelope.arming ≠ [])
    (hroom : s.gen.queue.length < 8) (hp : pathOk s (planningPoint s) a.target = true)
    (ha : act f (Ev.start (s.taken l tag (kindCode k))) = admitMove false l a (Ev.start (s.taken l tag (kindCode k)))) :
    request k ⟨l, tag, .fields f⟩ act s =
      State.answered
        { s with gen := { s.gen with
            queue := s.gen.queue ++ [a.move s.gen.nextId sp], nextId := nextId s.gen.nextId } }
        l tag (kindCode k) (a.answer s.gen.nextId sp) := by
  have joins : admitMove false l a (Ev.start (s.taken l tag (kindCode k))) = _ :=
    (admitMove_clear (roomRefusal_queued hroom) hz hp).trans (admitQueued_waits hsp hid hw)
  rw [request_updates (State.queued (a.move s.gen.nextId sp)) _ hfree hk (ha.trans joins) rfl rfl, State.queued,
    countId_free hid]
  rfl

/-- An admitted request in IDLE leaves its move flying. -/
theorem request_begins {priority : Bool} {p : Vec3} (hi : s.idleAt p) (hp : pathOk s p a.target = true)
    (hd : distance p a.target ≠ 0)
    (ha : act f (Ev.start (s.taken l tag (kindCode k))) =
      admitMove priority l a (Ev.start (s.taken l tag (kindCode k)))) :
    request k ⟨l, tag, .fields f⟩ act s = raiseFlag .state 3 0
      (State.answered
        { s with gen := { s.gen with
            state := .moving, v := 0, purpose := none, nextId := nextId s.gen.nextId
            flight := some ⟨a.move s.gen.nextId sp, p, a.target.sub p, distance p a.target, 0⟩ } }
        l tag (kindCode k) (a.answer s.gen.nextId sp)) := by
  rw [request_passes k ⟨l, tag, .fields f⟩ act s f hfree (by simp [hk]) rfl, ha,
    admitMove_begins hsp (hi.taken l tag (kindCode k)) hz hp hd]
  refine (finish_upd_reply_changed s l tag (kindCode k) (State.begun (a.move s.gen.nextId sp)) _ rfl
    (by rw [hi.state]; nofun)).trans ?_
  rw [State.begun, countId_free hi.nextId_free, ← hi.posOf]
  rfl

end

end Sys2Proof.Machine

section
open Sys2Proof Sys2Proof.Machine

/-- Settles O38: the request is admitted, and the move waits at the tail. -/
theorem queuedMovesJoinTheTail : Obligations.QueuedMovesJoinTheTail := by
  intro s l tag sp speed hfree hsp hu hst hh hb hwait hsus hroom hz hv hid
  have clear : moveRefusal false s = none :=
    moveRefusal_queued ((registered_iff s).2 ⟨hu, hst⟩) (halting_eq_false hh hb) hsus
  refine ⟨fun target ht path => ?toPoint, fun n c hn hc hs hcs hcb path => ?toCue⟩
  case toPoint =>
    have joins := request_joins (k := .goto) (tag := tag) (a := gotoAsked sp ⟨target, speed⟩) hfree rfl hsp hz hid hwait
      hroom path (gotoRequest_admits hsp ht hv clear)
    exact congrArg Host.Outcome.next joins
  case toCue =>
    have joins := request_joins (k := .recall) (tag := tag) (a := askRecall n speed c) hfree rfl hsp hz hid hwait hroom
      path (recallRequest_admits (f := ⟨n, speed⟩) ⟨hn, hc, hs, hcs, hcb⟩ hv clear)
    exact congrArg Host.Outcome.next joins

/-- Settles O39: the request is admitted, and its move takes off from the fine position. -/
theorem movesBeginAtOnceInIdle : Obligations.MovesBeginAtOnceInIdle := by
  intro s l tag sp p speed hfree hsp hstate hpos hqueue hstack hflight hwaiting harming hsus hz hv
  have idle : s.idleAt p := ⟨hstate, hpos, hqueue, hstack, hflight, hwaiting, harming⟩
  have clear := moveRefusal_idle hstate harming hsus
  refine ⟨fun target ht path far => ?toPoint, fun n c hn hc hs hcs hcb path far => ?toCue⟩
  case toPoint =>
    have begins (priority : Bool) :=
      request_begins (k := .goto) (tag := tag) (a := gotoAsked sp ⟨target, speed⟩) hfree rfl hsp hz idle path far
        (gotoRequest_admits hsp ht hv (clear priority))
    exact ⟨congrArg Host.Outcome.next (begins false), congrArg Host.Outcome.next (begins true)⟩
  case toCue =>
    have begins (priority : Bool) :=
      request_begins (k := .recall) (tag := tag) (a := askRecall n speed c) hfree rfl hsp hz idle path far
        (recallRequest_admits (f := ⟨n, speed⟩) ⟨hn, hc, hs, hcs, hcb⟩ hv (clear priority))
    exact ⟨congrArg Host.Outcome.next (begins false), congrArg Host.Outcome.next (begins true)⟩

end
end

