-- ==== Sys2Proof/Proofs/Offers.lean ====
section
/-! SUPPORT. The offer of a step (R98): what the candidate check finds, what an accepted offer delivers and commits, and the end of
a step whose offer was accepted. -/

namespace Sys2Proof.Machine

/-! The candidate check (R55, R78). -/

section
variable {sp : Span} {p : Vec3} {e : Ev}

theorem candidateCheck_outsideW (h : boxHas (boxMicro sp.w) p = false) : candidateCheck sp p e = (e, .fails) := by
  simp [candidateCheck, h]

/-- Inside W, over sound records, the supplied zones decide. -/
theorem candidateCheck_sound (hw : boxHas (boxMicro sp.w) p = true) (hs : e.st.candidateSound sp p) :
    candidateCheck sp p e =
      (e, if (suppliedIds e.st (cellOf sp.w p)).all (outsideZone e.st p) then .passes else .fails) := by
  obtain ⟨cell, records⟩ := hs
  simp only [candidateCheck, hw, if_true, readCell_sound _ e cell, motionRead_sound _ e records]

theorem candidateCheck_passes (h : e.st.candidatePasses sp p) : candidateCheck sp p e = (e, .passes) := by
  obtain ⟨hw, hs, outside⟩ := h
  rw [candidateCheck_sound hw hs, if_pos (List.all_eq_true.2 outside)]

theorem candidateCheck_fails (h : e.st.candidateFails sp p) : candidateCheck sp p e = (e, .fails) := by
  cases hw : boxHas (boxMicro sp.w) p with
  | false => exact candidateCheck_outsideW hw
  | true =>
    obtain ⟨hs, i, hi, inside⟩ := h.resolve_left (by simp [hw])
    have encloses : ¬(suppliedIds e.st (cellOf sp.w p)).all (outsideZone e.st p) = true := fun all => by
      simp [List.all_eq_true.1 all i hi] at inside
    rw [candidateCheck_sound hw hs, if_neg encloses]

end

/-! The flags of an offer (R140, R144). -/

/-- One event flag with each winch that meets a condition as its subject, in winch order. -/
def winchActs (f : EventFlag) (hit : Winch → Bool) : List Out :=
  (Winch.all.filter hit).map fun w => .raise f w.number 0

theorem raiseWinches_eq (f : EventFlag) (hit : Winch → Bool) (e : Ev) :
    raiseWinches f hit e = { e with out := e.out ++ winchActs f hit } := by
  have fold (ws : List Winch) (e : Ev) :
      ws.foldl (fun e w => if hit w then e.raise f w.number 0 else e) e =
        { e with out := e.out ++ (ws.filter hit).map fun w => .raise f w.number 0 } := by
    induction ws generalizing e with
    | nil => simp
    | cons w ws ih =>
      rw [List.foldl_cons, ih]
      cases hw : hit w <;> simp [hw, Ev.raise]
  exact fold Winch.all e

theorem raiseEach_eq (f : EventFlag) (hit : Winch → Bool) (s : State) :
    raiseEach f hit s = (winchActs f hit).foldl putOut s := by
  have fold (ws : List Winch) (s : State) :
      ws.foldl (fun s w => if hit w then raiseFlag f w.number 0 s else s) s =
        ((ws.filter hit).map fun w => Out.raise f w.number 0).foldl putOut s := by
    induction ws generalizing s with
    | nil => rfl
    | cons w ws ih => cases hw : hit w <;> simp [ih, hw, putOut]
  exact fold Winch.all s

/-- What an accepted offer raises: STRETCH_CLAMP and then RATE_SAT, for the winches they concern. -/
def State.offerActs (s : State) (sp : Span) (p : Vec3) (l : PerWinch RopeLength) : List Out :=
  winchActs .stretchClamp (fun w => decide (2000000 < (s.ropeAt sp p w).raw)) ++
    winchActs .rateSat
      (fun w => decide ((sp.winch.get w).rate < ((s.ropeAt sp p w).commanded - (l.get w).prev).natAbs))

/-! A sending in which no channel becomes LOST (R152, R158). -/

theorem send_eq_sent {c : Channel} (k : Sent)
    (h : ¬(c.latest.isSome = true ∧ c.answered = false ∧ 4 ≤ c.misses ∧ c.status = .alive)) :
    c.send k = c.sent k := by
  by_cases missed : c.latest.isSome = true ∧ c.answered = false
  · have kept : ¬(5 ≤ min 255 (c.misses + 1) ∧ c.status = .alive) := by
      rintro ⟨five, alive⟩
      exact h ⟨missed.1, missed.2, by omega, alive⟩
    have counts : c.misses? = true := by simp [Channel.misses?, missed]
    simp only [Channel.send, Channel.settle, Channel.sent, counts, if_true, if_pos missed, if_neg kept]
  · have counts : c.misses? = false := by simpa [Channel.misses?] using missed
    simp only [Channel.send, Channel.settle, Channel.sent, counts, if_neg missed, Bool.false_eq_true, if_false]

theorem sendTo_keeps {k : Winch → Sent} {e : Ev} {w : Winch}
    (h : ¬((e.st.drive.channels.get w).latest.isSome = true ∧ (e.st.drive.channels.get w).answered = false ∧
      4 ≤ (e.st.drive.channels.get w).misses ∧ (e.st.drive.channels.get w).status = .alive)) :
    sendTo k e w = e.upd (onChannel w (Channel.sent (k w))) := by
  have sent := send_eq_sent (k w) h
  have stays : ¬((e.st.drive.channels.get w).status ≠ .lost ∧
      ((e.st.drive.channels.get w).send (k w)).status = .lost ∧ registered e.st = true) := by
    rw [sent]
    rintro ⟨ne, eq, -⟩
    exact ne eq
  refine (if_neg stays).trans ?_
  simp only [Ev.upd, onChannel, onDrive, sent]

theorem sendAll_keeps {k : Winch → Sent} {e : Ev} (h : e.st.noneGetsLost) :
    sendAll k e =
      e.upd (onDrive fun d => { d with channels := PerWinch.of fun w => (d.channels.get w).sent (k w) }) := by
  have one (e' : Ev) (w : Winch) (untouched : e'.st.drive.channels.get w = e.st.drive.channels.get w) :
      sendTo k e' w = e'.upd (onChannel w (Channel.sent (k w))) := sendTo_keeps (by rw [untouched]; exact h w)
  simp only [sendAll, Winch.all, List.foldl_cons, List.foldl_nil]
  rw [one _ .w1, one _ .w2, one _ .w3, one _ .w4]
  all_goals rfl

/-! An accepted offer (R137 to R145). -/

/-- The state once an offer has been delivered, its flags not raised yet, with a generator. -/
def State.delivered (s : State) (sp : Span) (p : Vec3) (l : PerWinch RopeLength) (g : Generator) : State :=
  { s with
    gen := { g with pos := some p }
    lengths := some (PerWinch.of (s.deliveredLength sp p l))
    drive := { s.drive with
      channels := PerWinch.of fun w =>
        { (s.drive.channels.get w).sent (.length (s.deliveredLength sp p l w).prev) with
          lastCommand := some (s.deliveredLength sp p l w).prev }
      setSinceRelease := true, setSinceExpiry := true } }

theorem afterOffer_eq (s : State) (sp : Span) (p : Vec3) (l : PerWinch RopeLength) (g : Generator) :
    s.afterOffer sp p l g = (s.offerActs sp p l).foldl putOut (s.delivered sp p l g) := by
  simp only [State.afterOffer, raiseEach_eq, State.offerActs, List.foldl_append]
  rfl

theorem lengthOffer_accepts {sp : Span} {p : Vec3} {e : Ev} {l : PerWinch RopeLength} (hl : e.st.lengths = some l)
    (hd : ∀ w : Winch, inDrum (sp.winch.get w) (e.st.ropeAt sp p w).commanded = true) :
    lengthOffer sp p e =
      ({ e with out := e.out ++ e.st.offerActs sp p l }, some (PerWinch.of (e.st.deliveredLength sp p l))) := by
  have rope (w : Winch) : (ropeCalcs e.st sp p).get w = e.st.ropeAt sp p w := get_of _ w
  have allInDrum : Winch.all.find? (fun w => !inDrum (sp.winch.get w) (e.st.ropeAt sp p w).commanded) = none := by
    simp [hd]
  have stretch (w : Winch) : ((e.st.ropeAt sp p w).stretch : Int) = min ((e.st.ropeAt sp p w).raw : Int) 2000000 :=
    Nat.cast_min ..
  simp only [lengthOffer, rope, allInDrum, prevOf, hl, raiseWinches_eq, List.append_assoc, stretch]
  rfl

theorem sendSet_keeps {e : Ev} (l : PerWinch RopeLength) (h : e.st.noneGetsLost) :
    sendSet l e =
      e.upd (onDrive fun d =>
        { d with
          channels := PerWinch.of fun w =>
            { (d.channels.get w).sent (.length (l.get w).prev) with lastCommand := some (l.get w).prev }
          setSinceRelease := true, setSinceExpiry := true }) := by
  simp only [sendSet]
  rw [sendAll_keeps (fun w => by rw [upd_st, onDrive_drive, get_of]; exact h w)]
  simp only [Ev.upd, onDrive, get_of]
  rfl

/-- The event of a step after its accepted offer: what was put out before the offer, the offer's own flags, and what follows;
no record has failed. -/
def State.offered (s : State) (before : List Out) (sp : Span) (p : Vec3) (l : PerWinch RopeLength) (g : Generator)
    (after : List Out) : Ev :=
  ⟨s.delivered sp p l g, before ++ s.offerActs sp p l ++ after, []⟩

section
variable {s : State} {sp : Span} {p : Vec3} {l : PerWinch RopeLength} (before : List Out) (hl : s.lengths = some l)
  (hr : registered s = true) (hn : s.noneGetsLost)
include hl hr hn

/-- An offer within the drum ranges is delivered and committed. -/
theorem deliver_passes (hd : ∀ w : Winch, inDrum (sp.winch.get w) (s.ropeAt sp p w).commanded = true) :
    deliver sp p ⟨s, before, []⟩ = (s.offered before sp p l s.gen [], true) := by
  simp only [deliver, lengthOffer_accepts (e := ⟨s, before, []⟩) hl hd,
    sendSet_keeps (e := ⟨s, before ++ s.offerActs sp p l, []⟩) _ hn]
  exact Prod.ext (by simp only [Ev.upd, onDrive, State.offered, State.delivered, get_of, List.append_nil]) hr

theorem offer_passes (h : s.offerPasses sp p) :
    offer sp p ⟨s, before, []⟩ = (s.offered before sp p l s.gen [], true) := by
  obtain ⟨passes, inRange⟩ := h
  simp only [offer, candidateCheck_passes (e := ⟨s, before, []⟩) passes, deliver_passes before hl hr hn inRange]

end

/-! The end of a step whose offer was accepted. -/

theorem offered_raise (s : State) (before : List Out) (sp : Span) (p : Vec3) (l : PerWinch RopeLength) (g : Generator)
    (after : List Out) (f : EventFlag) (a b : Nat) :
    (s.offered before sp p l g after).raise f a b = s.offered before sp p l g (after ++ [.raise f a b]) := by
  simp only [Ev.raise, State.offered, List.append_assoc]

theorem delivered_putOut (before : List Out) (s : State) (sp : Span) (p : Vec3) (l : PerWinch RopeLength) (g : Generator) :
    before.foldl putOut (s.delivered sp p l g) = (before.foldl putOut s).delivered sp p l g :=
  foldl_putOut_comm before (fun s => s.delivered sp p l g) (fun _ => rfl) (fun _ _ => rfl) s

theorem offerActs_putOut (before : List Out) (s : State) (sp : Span) (p : Vec3) (l : PerWinch RopeLength) :
    (before.foldl putOut s).offerActs sp p l = s.offerActs sp p l := by
  rw [foldl_putOut_console]
  rfl

theorem foldl_putOut_offered (s : State) (before : List Out) (sp : Span) (p : Vec3) (l : PerWinch RopeLength)
    (g : Generator) (after : List Out) :
    (s.offered before sp p l g after).out.foldl putOut (s.offered before sp p l g after).st =
      after.foldl putOut ((before.foldl putOut s).afterOffer sp p l g) := by
  rw [afterOffer_eq, offerActs_putOut, ← delivered_putOut, State.offered, List.foldl_append, List.foldl_append]

/-- Every act in a list is a flag raised: none keeps a place for STATE. -/
def raisesOnly (out : List Out) : Prop := ∀ o ∈ out, ∃ f a b, o = .raise f a b

theorem raisesOnly_nil : raisesOnly [] := nofun

theorem raisesOnly_cons {f : EventFlag} {a b : Nat} {out : List Out} (h : raisesOnly out) :
    raisesOnly (.raise f a b :: out) := by
  intro o ho
  rcases List.mem_cons.1 ho with rfl | ho
  · exact ⟨f, a, b, rfl⟩
  · exact h o ho

theorem raisesOnly_offered {s : State} {before after : List Out} {sp : Span} {p : Vec3} {l : PerWinch RopeLength}
    {g : Generator} (hb : raisesOnly before) (ha : raisesOnly after) : raisesOnly (s.offered before sp p l g after).out := by
  have winch (f : EventFlag) (hit : Winch → Bool) : raisesOnly (winchActs f hit) := by
    intro o ho
    obtain ⟨w, -, rfl⟩ := List.mem_map.1 ho
    exact ⟨f, w.number, 0, rfl⟩
  have joined {a b : List Out} (ha : raisesOnly a) (hb : raisesOnly b) : raisesOnly (a ++ b) := fun o ho =>
    (List.mem_append.1 ho).elim (ha o) (hb o)
  exact joined (joined hb (joined (winch _ _) (winch _ _))) ha

section
variable {s : State} {before after : List Out} {sp : Span} {p : Vec3} {l : PerWinch RopeLength} {g : Generator}

/-- A step that leaves the generator in its state. -/
theorem finish_offered_quiet (hg : g.state = s.gen.state) :
    finish s.gen.state (s.offered before sp p l g after) =
      after.foldl putOut ((before.foldl putOut s).afterOffer sp p l g) :=
  (finish_quiet _ (s.offered before sp p l g after) rfl hg).trans (foldl_putOut_offered s before sp p l g after)

/-- A step that changes the generator's state: STATE is raised last (R97). -/
theorem finish_offered_changed (hg : g.state ≠ s.gen.state) (hb : raisesOnly before) (ha : raisesOnly after) :
    finish s.gen.state (s.offered before sp p l g after) =
      raiseFlag .state g.state.code 0 (after.foldl putOut ((before.foldl putOut s).afterOffer sp p l g)) := by
  have noPlace : ∀ o ∈ (s.offered before sp p l g after).out, o ≠ .stateHere := fun o ho => by
    obtain ⟨f, a, b, rfl⟩ := raisesOnly_offered hb ha o ho
    nofun
  rw [finish_changed _ _ rfl hg noPlace, foldl_putOut_offered]
  rfl

end

/-- An expiry of the running step timer under a span is one step (R98). -/
theorem exec_step {s : State} {sp : Span} (hr : s.resetting = false) (ht : s.gen.stepTimer.isSome = true)
    (hsp : s.spanSet.span = some sp) :
    exec .stepTimerExpiry s = .next (finish s.gen.state (pathStep sp (Ev.start s))) := by
  obtain ⟨n, hn⟩ := Option.isSome_iff_exists.1 ht
  refine congrArg Host.Outcome.next ((runEvent_running s stepTimer hr).trans ?_)
  simp only [stepTimer, start_st, hn, hsp]

section
variable {s : State} {before after : List Out} {sp : Span} {p q : Vec3} {l : PerWinch RopeLength} {g : Generator}
  (due : s.stepDue sp p l) (step : pathStep sp (Ev.start s) = s.offered before sp q l g after)
include due step

theorem exec_step_quiet (hg : g.state = s.gen.state) :
    exec .stepTimerExpiry s = .next (after.foldl putOut ((before.foldl putOut s).afterOffer sp q l g)) := by
  obtain ⟨hr, ht, hsp, -, -, -⟩ := due
  rw [exec_step hr ht hsp, step, finish_offered_quiet hg]

theorem exec_step_changed (hg : g.state ≠ s.gen.state) (hb : raisesOnly before) (ha : raisesOnly after) :
    exec .stepTimerExpiry s =
      .next (raiseFlag .state g.state.code 0 (after.foldl putOut ((before.foldl putOut s).afterOffer sp q l g))) := by
  obtain ⟨hr, ht, hsp, -, -, -⟩ := due
  rw [exec_step hr ht hsp, step, finish_offered_changed hg hb ha]

end

/-- A step that raises nothing after its offer and changes the generator's state. -/
theorem exec_step_changes {s : State} {sp : Span} {p q : Vec3} {l : PerWinch RopeLength} {g : Generator}
    (due : s.stepDue sp p l) (step : pathStep sp (Ev.start s) = s.offered [] sp q l g []) (hg : g.state ≠ s.gen.state) :
    exec .stepTimerExpiry s = .next (raiseFlag .state g.state.code 0 (s.afterOffer sp q l g)) :=
  exec_step_changed due step hg raisesOnly_nil raisesOnly_nil

/-- A step that raises one flag after its offer and leaves the generator in its state. -/
theorem exec_step_raises {s : State} {sp : Span} {p q : Vec3} {l : PerWinch RopeLength} {g : Generator} {f : EventFlag}
    {a b : Nat} (due : s.stepDue sp p l)
    (step : pathStep sp (Ev.start s) = s.offered [] sp q l g [.raise f a b]) (hg : g.state = s.gen.state) :
    exec .stepTimerExpiry s = .next (raiseFlag f a b (s.afterOffer sp q l g)) :=
  (exec_step_quiet due step hg).trans (by simp only [List.foldl_cons, List.foldl_nil, putOut])

/-- A step that raises one flag after its offer and changes the generator's state. -/
theorem exec_step_raises_changed {s : State} {sp : Span} {p q : Vec3} {l : PerWinch RopeLength} {g : Generator}
    {f : EventFlag} {a b : Nat} (due : s.stepDue sp p l)
    (step : pathStep sp (Ev.start s) = s.offered [] sp q l g [.raise f a b]) (hg : g.state ≠ s.gen.state) :
    exec .stepTimerExpiry s =
      .next (raiseFlag .state g.state.code 0 (raiseFlag f a b (s.afterOffer sp q l g))) :=
  (exec_step_changed due step hg raisesOnly_nil (raisesOnly_cons raisesOnly_nil)).trans
    (by simp only [List.foldl_cons, List.foldl_nil, putOut])

end Sys2Proof.Machine
end

