-- ==== Sys2Proof/Proofs/StopAndHold.lean ====
section
/-! SUPPORT. What an entry to HALTED or STOPPED puts out (R117), the STOP input (R163), and the requests HOLD and RESUME (R111,
R112). -/

namespace Sys2Proof.Machine

/-! MOVE_DROPPED (section 12.6). -/

/-- What a drop of some moves puts out: MOVE_DROPPED with the first id, where there is one. -/
def dropActs (ids : List Nat) (r : DropReason) : List Out := (ids.head?.map fun i => .raise .moveDropped i r.code).toList

theorem raiseDropped_eq (ids : List Nat) (r : DropReason) (e : Ev) :
    raiseDropped ids r e = { e with out := e.out ++ dropActs ids r } := by
  cases ids with
  | nil => simp [raiseDropped, dropActs]
  | cons i ids => rfl

theorem foldl_dropActs (ids : List Nat) (r : DropReason) (s : State) :
    (dropActs ids r).foldl putOut s = raiseFirst ids r.code s := by
  cases ids with
  | nil => rfl
  | cons i ids => rfl

theorem raisesOnly_dropActs (ids : List Nat) (r : DropReason) : raisesOnly (dropActs ids r) := by
  intro o ho
  obtain ⟨i, -, rfl⟩ : ∃ i, ids.head? = some i ∧ Out.raise .moveDropped i r.code = o := by simpa [dropActs] using ho
  exact ⟨.moveDropped, i, r.code, rfl⟩

theorem allIds_eq (g : Generator) : allIds g = g.droppedIds := by
  unfold allIds waitingIds Generator.droppedIds
  cases g.flight <;> cases g.waiting <;> simp

/-- An entry to HALTED: the state it leaves, and what it puts out (R117). -/
theorem enterHalted_eq (e : Ev) :
    enterHalted e =
      ⟨{ e.st with gen := e.st.gen.haltedFrom, envelope := holdArming e.st.envelope },
        e.out ++ dropActs e.st.gen.droppedIds .halt, e.bad⟩ := by
  rw [enterHalted, raiseDropped_eq, allIds_eq]
  rfl

/-- An entry to STOPPED: the state it leaves, and what it puts out (R117, R164). -/
theorem enterStopped_eq (e : Ev) :
    enterStopped e =
      ⟨{ e.st with
          gen := e.st.gen.stoppedFrom, envelope := holdArming e.st.envelope, drive := { e.st.drive with brake := true } },
        e.out ++ dropActs e.st.gen.droppedIds .stop, e.bad⟩ := by
  rw [enterStopped, raiseDropped_eq, allIds_eq]
  rfl

/-! The STOP input (R163). -/

theorem setStop_running (b : Bool) {s : State} (h : s.resetting = false) :
    setStop b s = { s with drive := { s.drive with stopInput := b, stopLevel := b } } := by
  simp [setStop, h]

/-- The event of an entry to STOPPED, taken to its end: MOVE_DROPPED, and then STATE (R97, R117). -/
theorem finish_enterStopped {s : State} (h : s.gen.state ≠ .stopped) :
    finish s.gen.state (enterStopped (Ev.start s)) =
      raiseFlag .state 8 0 (raiseFirst s.gen.droppedIds 6
        { s with
          gen := s.gen.stoppedFrom, envelope := holdArming s.envelope, drive := { s.drive with brake := true } }) := by
  have noPlace : ∀ o ∈ dropActs s.gen.droppedIds .stop, o ≠ .stateHere := fun o ho => by
    obtain ⟨f, a, b, rfl⟩ := raisesOnly_dropActs _ _ o ho
    nofun
  rw [enterStopped_eq, finish_changed _ _ (by rfl) (Ne.symm h) noPlace]
  exact congrArg (raiseFlag .state 8 0) (foldl_dropActs s.gen.droppedIds .stop _)

theorem exec_stopAsserted {s : State} (h : s.resetting = false) :
    exec .stopAsserted s = .next (finish s.gen.state (trip (Ev.start (setStop true s)))) :=
  congrArg Host.Outcome.next (runEvent_running (setStop true s) trip h)

/-! A request that changes the generator's state (R97). -/

theorem request_changes {α : Type} {k : RequestKind} {l : Link} {tag : Byte} {act : α → Ev → Ev} {s : State} {a : α}
    (u : State → State) (ans : Answer) (h : s.portFree l) (hk : safetyOnly k = false)
    (hact : act a (Ev.start (s.taken l tag (kindCode k))) = ((Ev.start (s.taken l tag (kindCode k))).upd u).reply l ans)
    (hu : u (s.taken l tag (kindCode k)) = (u s).taken l tag (kindCode k)) (hg : (u s).gen.state ≠ s.gen.state) :
    request k ⟨l, tag, .fields a⟩ act s =
      raiseFlag .state (u s).gen.state.code 0 ((u s).answered l tag (kindCode k) ans) := by
  rw [request_passes k ⟨l, tag, .fields a⟩ act s a h (by simp [hk]) rfl, hact]
  exact finish_upd_reply_changed s l tag (kindCode k) u ans hu hg

/-! HOLD (R111). -/

section
variable {l : Link} {e : Ev}

theorem hold_unregistered (h : registered e.st = false) : hold l e = e.refuse l .notRegistered [] := by
  simp [hold, h]

theorem hold_wrongState (h : registered e.st = true) (hs : e.st.gen.state ≠ .moving) :
    hold l e = e.refuse l .wrongState [] := by
  unfold hold
  cases e.st.gen.flight <;> simp [h, hs]

/-- In MOVING the kind of the executing move and the room on the stack decide. -/
theorem hold_moving {f : Flight} (hs : e.st.gen.state = .moving) (hf : e.st.gen.flight = some f) :
    hold l e =
      if f.move.kind = .exit then e.refuse l .wrongState []
      else if 4 ≤ e.st.gen.stack.length then e.refuse l .stackFull []
      else (e.upd (onGen (brakeMove .hold))).ok l false [le16 f.move.id] := by
  simp only [hold, registered, hs, hf, ne_eq, not_true_eq_false, false_or, Bool.not_true, Bool.false_eq_true, if_false]
  rfl

end

/-! RESUME (R112). -/

section
variable {l : Link} {e : Ev}

theorem resume_unregistered (h : registered e.st = false) : resume l e = e.refuse l .notRegistered [] := by
  simp [resume, h]

theorem resume_wrongState (h : registered e.st = true) (hs : e.st.gen.state ≠ .held) :
    resume l e = e.refuse l .wrongState [] := by
  simp [resume, h, hs]

section
variable (hs : e.st.gen.state = .held)
include hs

theorem resume_suspect (h : activeSuspect e.st = true) : resume l e = e.refuse l .zoneSuspect [] := by
  simp [resume, registered, hs, h]

theorem resume_arming (h : activeSuspect e.st = false) (ha : e.st.envelope.arming ≠ []) :
    resume l e = e.refuse l .arming [] := by
  simp [resume, registered, hs, h, ha]

/-- The top context is popped and flown where its start check passes. -/
theorem resume_flies {c : Context} {rest : List Context} (h : activeSuspect e.st = false)
    (ha : e.st.envelope.arming = []) (hc : e.st.gen.stack = c :: rest) (hz : e.st.zonesSound)
    (hp : pathOk e.st (posOf e.st) c.move.target = true) (hd : distance (posOf e.st) c.move.target ≠ 0) :
    resume l e =
      (e.upd fun s => flyMove c.move (onGen (fun g => { g with stack := rest }) s)).ok l false [le16 c.move.id] := by
  have begins := tryBegin_flies (m := c.move)
    (e := (e.ok l false [le16 c.move.id]).upd (onGen fun g => { g with stack := rest })) hz hp hd
  simp only [resume, registered, hs, h, ha, hc, begins, Bool.not_true, Bool.false_eq_true, if_false, ne_eq,
    not_true_eq_false, List.isEmpty_nil, if_true]
  rfl

end
end

theorem not_registered {s : State} (h : s.gen.state = .unregistered ∨ s.gen.state = .stopped) : registered s = false := by
  rcases h with h | h <;> simp [registered, h]

end Sys2Proof.Machine

section
open Sys2Proof Sys2Proof.Machine

/-- Settles O45: the level is recorded, and the event is a trip (R117). -/
theorem stopTripsTheGenerator : Obligations.StopTripsTheGenerator := by
  intro s hr
  refine ⟨congrArg Host.Outcome.next (setStop_running false hr), fun off => ?stays, fun hu hst => ?trips⟩
  all_goals
    rw [exec_stopAsserted hr]
    refine congrArg Host.Outcome.next ?_
  case stays =>
    obtain ⟨-, stays⟩ | ⟨hu, hst, -⟩ := trip_cases (Ev.start (setStop true s))
    · rw [stays]
      exact (finish_quiet _ (Ev.start (setStop true s)) rfl rfl).trans (setStop_running true hr)
    · exact (off.elim hu hst).elim
  case trips =>
    obtain ⟨off, -⟩ | ⟨-, -, trips⟩ := trip_cases (Ev.start (setStop true s))
    · exact (off.elim hu hst).elim
    · rw [trips]
      refine (finish_enterStopped (s := setStop true s) hst).trans ?_
      rw [setStop_running true hr]
      rfl

/-- Settles O41: each refusal in its order, and the acceptance as an update of the generator that is answered. -/
theorem holdAndResume : Obligations.HoldAndResume := by
  refine ⟨fun s l tag hfree => ⟨fun off => ?holdOff, fun hu hst hs => ?holdWrong, fun f hs hf =>
      ⟨fun hk => ?holdExit, fun hk hroom => ?holdFull, fun hk hroom => ?holds⟩⟩,
    fun s l tag hfree => ⟨fun off => ?resumeOff, fun hu hst hs => ?resumeWrong, fun hs hsus => ?resumeSuspect,
      fun hs hsus ha => ?resumeArming, fun c rest p hs hsus ha hc hpos hz hp hd => ?resumes⟩⟩
  case holdOff =>
    exact congrArg Host.Outcome.next
      (request_replies (k := .hold) _ hfree rfl (hold_unregistered (not_registered off)))
  case holdWrong =>
    exact congrArg Host.Outcome.next
      (request_replies (k := .hold) _ hfree rfl (hold_wrongState ((registered_iff s).2 ⟨hu, hst⟩) hs))
  case holdExit =>
    exact congrArg Host.Outcome.next
      (request_replies (k := .hold) _ hfree rfl ((hold_moving hs hf).trans (if_pos hk)))
  case holdFull =>
    exact congrArg Host.Outcome.next
      (request_replies (k := .hold) _ hfree rfl ((hold_moving hs hf).trans ((if_neg hk).trans (if_pos hroom))))
  case holds =>
    have held := (hold_moving (l := l) (e := Ev.start (s.taken l tag 0x0F)) hs hf).trans
      ((if_neg hk).trans (if_neg (Nat.not_le.2 hroom)))
    exact congrArg Host.Outcome.next
      (request_changes (k := .hold) (onGen (brakeMove .hold)) _ hfree rfl held rfl (by rw [hs]; nofun))
  case resumeOff =>
    exact congrArg Host.Outcome.next
      (request_replies (k := .resume) _ hfree rfl (resume_unregistered (not_registered off)))
  case resumeWrong =>
    exact congrArg Host.Outcome.next
      (request_replies (k := .resume) _ hfree rfl (resume_wrongState ((registered_iff s).2 ⟨hu, hst⟩) hs))
  case resumeSuspect =>
    exact congrArg Host.Outcome.next (request_replies (k := .resume) _ hfree rfl (resume_suspect hs hsus))
  case resumeArming =>
    exact congrArg Host.Outcome.next (request_replies (k := .resume) _ hfree rfl (resume_arming hs hsus ha))
  case resumes =>
    have at_ : posOf (s.taken l tag 0x10) = p := by simp [posOf, hpos]
    have flies := resume_flies (l := l) (e := Ev.start (s.taken l tag 0x10)) hs hsus ha hc hz
      (by rw [start_st, at_]; exact hp) (by rw [start_st, at_]; exact hd)
    have pops := request_changes (k := .resume) (fun s => flyMove c.move (onGen (fun g => { g with stack := rest }) s)) _
      hfree rfl flies rfl (by rw [hs]; nofun)
    refine congrArg Host.Outcome.next (pops.trans ?_)
    rw [← show posOf s = p from at_]
    rfl

end
end

