-- ==== Sys2Proof/Proofs/MoveSteps.lean ====
section
/-! SUPPORT. A step in MOVING (R108): its speed, the limits of the SLOW zones ahead (R93), and the zone that its speed is tested
against (R94). -/

namespace Sys2Proof.Machine

/-! The integer root (introduction, section 6.5). -/

/-- The bits decided so far stand for a root from below, within the bits still to come. -/
theorem isqrtBits_eq (b n r : Nat) (low : r * r ≤ n) (high : n < (r + 2 ^ b) * (r + 2 ^ b)) :
    isqrtBits b n r = Nat.sqrt n := by
  induction b generalizing r with
  | zero => exact Nat.eq_sqrt.2 ⟨low, high⟩
  | succ b ih =>
    have halves : r + 2 ^ b + 2 ^ b = r + 2 ^ (b + 1) := by rw [pow_succ]; omega
    unfold isqrtBits
    split
    · next set => exact ih _ set (by rw [halves]; exact high)
    · next clear => exact ih _ low (Nat.lt_of_not_le clear)

theorem isqrt_eq_sqrt (n : Nat) : isqrt n = Nat.sqrt n := by
  refine isqrtBits_eq _ n 0 (Nat.zero_le n) ?_
  calc n < 2 ^ (n.log2 + 1) := Nat.lt_log2_self
    _ ≤ 2 ^ ((n.log2 / 2 + 1) + (n.log2 / 2 + 1)) := Nat.pow_le_pow_right (by decide) (by omega)
    _ = (0 + 2 ^ (n.log2 / 2 + 1)) * (0 + 2 ^ (n.log2 / 2 + 1)) := by rw [pow_add, Nat.zero_add]

/-! The speed of a move step (R108). -/

theorem moveSpeed_eq (f : Flight) (v a : Nat) (slow : List Nat) :
    moveSpeed f v a slow = stepSpeed v a (slow.foldl min (min f.move.cap (Nat.sqrt (2 * a * (f.dist - f.s))))) := by
  simp only [moveSpeed, isqrt_eq_sqrt]
  rfl

/-- The limit is the least of a list of limits. -/
theorem foldl_min_eq {a b lim : Nat} {l : List Nat} (mem : lim ∈ [a, b] ++ l) (least : ∀ x ∈ [a, b] ++ l, lim ≤ x) :
    l.foldl min (min a b) = lim := by
  have least? : ([a, b] ++ l).min? = some lim := List.min?_eq_some_iff.2 ⟨mem, least⟩
  exact Option.some_inj.1 (List.min?_cons'.symm.trans least?)

/-- The limit that a zone puts on the rest of a move (R93): none but an ACTIVE SLOW zone with a cap that it enters puts one. -/
def slowAhead (s : State) (f : Flight) (a i : Nat) : Option Nat :=
  (zoneAt s i).bind fun z =>
    if z.state = .active ∧ z.isSlow = true then
      ((region 0 z.box).bind (entryDistance f)).bind fun e =>
        z.cap.map fun m => if e = f.s then m else Nat.sqrt (m ^ 2 + 2 * a * (e - f.s))
    else none

theorem slowLimits_eq (s : State) (f : Flight) (a : Nat) : slowLimits s f a = zoneIds.filterMap (slowAhead s f a) := by
  rw [slowLimits, slowIds, List.filterMap_filter]
  congr 1
  funext i
  unfold slowAhead
  cases zoneAt s i with
  | none => simp
  | some z => by_cases slow : z.state = .active ∧ z.isSlow = true <;> simp [slow, isqrt_eq_sqrt, pow_two]

/-! The SLOW zone with the lowest cap (R94, R128). -/

/-- The better of the best zone so far and a zone with its cap: a lower cap alone displaces it. -/
def lowerCap (best : Option (Nat × Nat)) (i : Nat) (cap : Option Nat) : Option (Nat × Nat) :=
  match cap, best with
  | none, best => best
  | some c, none => some (i, c)
  | some c, some b => if c < b.2 then some (i, c) else some b

theorem lowerCap_some (i b j c : Nat) :
    lowerCap (some (i, b)) j (some c) = if c < b then some (j, c) else some (i, b) := rfl

theorem slowest_eq (s : State) (test : Box → Bool) :
    slowest s test = zoneIds.foldl (fun best i => lowerCap best i (slowCapWhere s test i)) none := by
  rw [slowest, slowIds, List.foldl_filter]
  congr 1
  funext best i
  unfold slowCapWhere
  cases zoneAt s i with
  | none => rfl
  | some z =>
    by_cases slow : z.state = .active ∧ z.isSlow = true
    · by_cases inside : (region 0 z.box).any test = true
      · cases hc : z.cap <;> cases best <;> simp [slow, inside, hc, lowerCap]
      · simp [slow, inside, lowerCap]
    · have kept : ¬(z.state = .active ∧ z.isSlow = true ∧ (region 0 z.box).any test = true) :=
        fun h => slow ⟨h.1, h.2.1⟩
      simp [slow, kept, lowerCap]

/-- What the search has found among the zones below a number. -/
def LowestBelow (s : State) (test : Box → Bool) (n : Nat) : Option (Nat × Nat) → Prop
  | none => ∀ j < n, slowCapWhere s test j = none
  | some (i, c) =>
    i < n ∧ slowCapWhere s test i = some c ∧ ∀ j < n, ∀ k, slowCapWhere s test j = some k → c < k ∨ c = k ∧ i ≤ j

theorem lowestBelow_succ {s : State} {test : Box → Bool} {n : Nat} {best : Option (Nat × Nat)}
    (h : LowestBelow s test n best) : LowestBelow s test (n + 1) (lowerCap best n (slowCapWhere s test n)) := by
  have itself {c k : Nat} (hc : slowCapWhere s test n = some c) (hk : slowCapWhere s test n = some k) : c = k :=
    Option.some_inj.1 (hc.symm.trans hk)
  cases hc : slowCapWhere s test n with
  | none =>
    match best, h with
    | none, h => exact Nat.forall_lt_succ_right.2 ⟨h, hc⟩
    | some (i, b), ⟨hi, hib, least⟩ =>
      refine ⟨by omega, hib, Nat.forall_lt_succ_right.2 ⟨least, fun k hk => ?_⟩⟩
      rw [hc] at hk
      cases hk
  | some c =>
    match best, h with
    | none, h =>
      refine ⟨by omega, hc, Nat.forall_lt_succ_right.2 ⟨fun j hj k hk => ?_, fun k hk => .inr ⟨itself hc hk, le_rfl⟩⟩⟩
      rw [h j hj] at hk
      cases hk
    | some (i, b), ⟨hi, hib, least⟩ =>
      rw [lowerCap_some]
      split
      · refine ⟨by omega, hc, Nat.forall_lt_succ_right.2 ⟨fun j hj k hk => ?_, fun k hk => .inr ⟨itself hc hk, le_rfl⟩⟩⟩
        have := least j hj k hk
        omega
      · refine ⟨by omega, hib, Nat.forall_lt_succ_right.2 ⟨least, fun k hk => ?_⟩⟩
        have := itself hc hk
        omega

theorem slowest_lowestBelow (s : State) (test : Box → Bool) : LowestBelow s test 64 (slowest s test) := by
  have below (n : Nat) :
      LowestBelow s test n ((List.range n).foldl (fun best i => lowerCap best i (slowCapWhere s test i)) none) := by
    induction n with
    | zero => exact fun j hj => absurd hj (Nat.not_lt_zero j)
    | succ n ih =>
      rw [List.range_succ, List.foldl_append]
      exact lowestBelow_succ ih
  rw [slowest_eq]
  exact below 64

theorem slowCapWhere_lt {s : State} {test : Box → Bool} {i m : Nat} (h : slowCapWhere s test i = some m) : i < 64 := by
  by_contra hi
  simp [slowCapWhere, zoneAt_none_of_ge i s (Nat.le_of_not_lt hi)] at h

theorem slowest_of_lowest {s : State} {test : Box → Bool} {id m : Nat} (h : lowestSlow s test id m) :
    slowest s test = some (id, m) := by
  obtain ⟨cap, least⟩ := h
  have found := slowest_lowestBelow s test
  match slowest s test, found with
  | none, found => rw [found id (slowCapWhere_lt cap)] at cap; cases cap
  | some (i, c), ⟨hi, hic, first⟩ =>
    have below := first id (slowCapWhere_lt cap) m cap
    have above := least i (List.mem_range.2 hi) c hic
    have hid : i = id := by omega
    have hcap : c = m := by omega
    rw [hid, hcap]

theorem slowest_of_none {s : State} {test : Box → Bool} (h : noSlowWhere s test) : slowest s test = none := by
  have found := slowest_lowestBelow s test
  match slowest s test, found with
  | none, _ => rfl
  | some (i, c), ⟨hi, hic, _⟩ => rw [h i (List.mem_range.2 hi)] at hic; cases hic

/-- The zone found is one of those searched. -/
theorem slowest_cap {s : State} {test : Box → Bool} {i c : Nat} (h : slowest s test = some (i, c)) :
    i ∈ zoneIds ∧ slowCapWhere s test i = some c := by
  obtain ⟨hi, hic, -⟩ : LowestBelow s test 64 (some (i, c)) := h ▸ slowest_lowestBelow s test
  exact ⟨List.mem_range.2 hi, hic⟩

theorem slowIds_of_noSlow {s : State} (h : s.noSlow) : slowIds s = [] := by
  refine List.filter_eq_nil_iff.2 fun i hi => ?_
  cases hz : zoneAt s i with
  | none => simp
  | some z =>
    have := h i hi z hz
    cases hs : z.state <;> simp_all

theorem slowLimits_of_noSlow {s : State} (h : s.noSlow) (f : Flight) (a : Nat) : slowLimits s f a = [] := by
  rw [slowLimits, slowIds_of_noSlow h, List.filterMap_nil]

theorem slowest_of_noSlow {s : State} (h : s.noSlow) (test : Box → Bool) : slowest s test = none := by
  rw [slowest, slowIds_of_noSlow h, List.foldl_nil]

/-! The step (R98, R108). -/

/-- The records of the ACTIVE SLOW zones pass their checks (R93). -/
def State.slowSound (s : State) : Prop := ∀ i ∈ slowIds s, zoneFails s i = false

theorem State.zonesSound.slowSound {s : State} (h : s.zonesSound) : s.slowSound := fun i hi =>
  h i (List.mem_filter.1 hi).1

theorem State.noSlow.slowSound {s : State} (h : s.noSlow) : s.slowSound := fun i hi => by
  rw [slowIds_of_noSlow h] at hi
  cases hi

theorem pathStep_moving {s : State} {f : Flight} (sp : Span) (hs : s.gen.state = .moving)
    (hf : s.gen.flight = some f) : pathStep sp (Ev.start s) = moveStep sp f (Ev.start s) := by
  simp only [pathStep, start_st, hs, hf]

section
variable {s : State} {sp : Span} {f : Flight} (hs : s.gen.state = .moving) (hf : s.gen.flight = some f)
  (hz : s.slowSound)
include hs hf hz

/-- A step in MOVING over sound SLOW records ends with an offer that is not accepted. -/
theorem moveStep_of_refused {e : Ev}
    (ho : offer sp (f.offerAt (min (f.s + moveSpeed f s.gen.v sp.accel (slowLimits s f sp.accel)) f.dist)) (Ev.start s) =
      (e, false)) : pathStep sp (Ev.start s) = e := by
  simp only [pathStep_moving sp hs hf, moveStep, start_st, motionRead_sound (slowIds s) (Ev.start s) hz, ho]

/-- An accepted offer is committed, and what follows the commit ends the step. -/
theorem moveStep_of_accepted {e : Ev} {v : Nat} (hv : moveSpeed f s.gen.v sp.accel (slowLimits s f sp.accel) = v)
    (ho : offer sp (f.offerAt (min (f.s + v) f.dist)) (Ev.start s) = (e, true)) :
    pathStep sp (Ev.start s) =
      afterMove { f with s := min (f.s + v) f.dist } v (e.upd (commitMove f (min (f.s + v) f.dist) v)) := by
  simp only [pathStep_moving sp hs hf, moveStep, start_st, motionRead_sound (slowIds s) (Ev.start s) hz, hv, ho]

end

/-- What a step commits to the generator (R108, R110). -/
def Generator.committing (g : Generator) (f : Flight) (d v : Nat) : Generator :=
  { g with flight := some { f with s := d }, v := v }

section
variable {s : State} {sp : Span} {p : Vec3} {l : PerWinch RopeLength} {f : Flight} {d v : Nat}
  (due : s.stepDue sp p l) (hs : s.gen.state = .moving) (hf : s.gen.flight = some f)
include due hs hf

/-- A step in MOVING whose offer is accepted. -/
theorem moveStep_accepted (hz : s.slowSound) (hv : moveSpeed f s.gen.v sp.accel (slowLimits s f sp.accel) = v)
    (hd : min (f.s + v) f.dist = d) (passes : s.offerPasses sp (f.offerAt d)) :
    pathStep sp (Ev.start s) =
      afterMove { f with s := d } v (s.offered [] sp (f.offerAt d) l (s.gen.committing f d v) []) := by
  subst hd
  obtain ⟨-, -, -, -, hl, hn⟩ := due
  have registered : registered s = true := (registered_iff s).2 ⟨by rw [hs]; nofun, by rw [hs]; nofun⟩
  exact moveStep_of_accepted hs hf hz hv (offer_passes [] hl registered hn passes)

end

/-! After the commit (R94, R106, R109). -/

section
variable {f : Flight} {v : Nat} {e : Ev} (hz : e.st.slowSound)
include hz

theorem afterMove_short_quiet (short : f.s ≠ f.dist)
    (h : ∀ i ∈ zoneIds, ∀ m, slowCapWhere e.st (exactPointIn f) i = some m → v ≤ m) : afterMove f v e = e := by
  simp only [afterMove, motionRead_sound _ e hz, if_neg short]
  cases hb : slowest e.st (exactPointIn f) with
  | none => rfl
  | some b =>
    obtain ⟨i, c⟩ := b
    obtain ⟨hi, hc⟩ := slowest_cap hb
    exact if_neg (Nat.not_lt.2 (h i hi c hc))

theorem afterMove_short_overspeed {id m : Nat} (short : f.s ≠ f.dist) (h : lowestSlow e.st (exactPointIn f) id m)
    (hv : m < v) : afterMove f v e = e.raise .slowOverspeed id 0 := by
  simp only [afterMove, motionRead_sound _ e hz, if_neg short, slowest_of_lowest h, if_pos hv]

end

theorem afterMove_arrives {f : Flight} {e : Ev} (v : Nat) (h : e.st.noSlow) (there : f.s = f.dist) :
    afterMove f v e = complete f e := by
  simp only [afterMove, motionRead_sound _ e h.slowSound, slowest_of_noSlow h, if_pos there]

end Sys2Proof.Machine

section
open Sys2Proof Sys2Proof.Machine

/-- Settles O28: the limit is the least of the list, and the zone found after the commit is the one the statement names. -/
theorem slowZonesLimitAMove : Obligations.SlowZonesLimitAMove := by
  intro s sp p lens f due hs hf hz ahead limits lim mem least v' f' t short passes
  have speed : moveSpeed f s.gen.v sp.accel (slowLimits s f sp.accel) = v' := by
    rw [moveSpeed_eq, slowLimits_eq]
    exact congrArg (stepSpeed s.gen.v sp.accel) (foldl_min_eq mem least)
  have step := moveStep_accepted due hs hf hz.slowSound speed (Nat.min_eq_left (Nat.le_of_lt short)) passes
  have underway : f'.s ≠ f'.dist := Nat.ne_of_lt short
  refine ⟨fun below => ?_, fun id m lowest above => ?_⟩
  · exact exec_step_quiet due (step.trans (afterMove_short_quiet (f := f') hz.slowSound underway below)) rfl
  · exact exec_step_quiet due (step.trans ((afterMove_short_overspeed (f := f') hz.slowSound underway lowest above).trans
      (offered_raise ..))) rfl

end
end

