-- ==== Sys2Proof/Proofs/FailedOffers.lean ====
section
/-! SUPPORT. An offer that fails (R79, R142): a candidate that fails its check is a breach, a length outside its drum range a
DRUM_RANGE, and both are a quick stop (R116, R117). -/

namespace Sys2Proof.Machine

theorem reportFault_bad (c : FaultClass) (j : FaultSubject) (e : Ev) : (reportFault c j e).bad = e.bad := by
  unfold reportFault; dsimp only; split <;> rfl

theorem offer_breaches {sp : Span} {p : Vec3} {e : Ev} (h : e.st.candidateFails sp p) :
    offer sp p e = (breach p e, false) := by
  simp only [offer, candidateCheck_fails h]

/-- Some winch is the first that is found outside its drum range (R142); what is put out before the fault is left open. -/
theorem offer_drumRange {sp : Span} {p : Vec3} {e : Ev} (passes : e.st.candidatePasses sp p)
    (h : ∃ w : Winch, inDrum (sp.winch.get w) (e.st.ropeAt sp p w).commanded = false) :
    ∃ (w : Winch) (out : List Out),
      offer sp p e = (quickStop (reportFault .drumRange (.number w.number) ⟨e.st, out, e.bad⟩), false) := by
  have rope (w : Winch) : (ropeCalcs e.st sp p).get w = e.st.ropeAt sp p w := get_of _ w
  obtain ⟨w, outside⟩ := h
  have found : (Winch.all.find? fun w => !inDrum (sp.winch.get w) (e.st.ropeAt sp p w).commanded).isSome = true :=
    List.find?_isSome.2 ⟨w, by cases w <;> decide, by simp [outside]⟩
  obtain ⟨v, hv⟩ := Option.isSome_iff_exists.1 found
  refine ⟨v, e.out ++ winchActs .stretchClamp fun w => decide (stretchMax < (e.st.ropeAt sp p w).raw), ?_⟩
  simp only [offer, candidateCheck_passes passes, deliver, lengthOffer, rope, hv, raiseWinches_eq]

/-- A generator state in which a quick stop acts (R116). -/
def State.stoppable (s : State) : Prop := s.gen.state ∉ [.unregistered, .stopped, .halted]

theorem stoppable_of_standing {s : State} (h : s.gen.state = .idle ∨ s.gen.state = .held) : s.stoppable := by
  rcases h with h | h <;> simp [State.stoppable, h]

theorem stoppable_of_flying {s : State} (h : s.gen.state = .moving ∨ s.gen.state = .braking) : s.stoppable := by
  rcases h with h | h <;> simp [State.stoppable, h]

/-- The state after a fault and a quick stop, up to its console (R116, R117, R193). -/
theorem finish_quickStop {s : State} {c : FaultClass} {j : FaultSubject} {out : List Out} (hs : s.stoppable)
    (g : GenState) :
    finish g (quickStop (reportFault c j ⟨s, out, []⟩)) =
      { s with
        gen := s.gen.haltedFrom, envelope := holdArming s.envelope
        faults := ⟨s.faults.flags.setIfInBounds (c.priority - 1) true, captureFault s c j⟩
        console := (finish g (quickStop (reportFault c j ⟨s, out, []⟩))).console } := by
  have acts : quickStop (reportFault c j ⟨s, out, []⟩) = enterHalted (reportFault c j ⟨s, out, []⟩) := by
    rcases quickStop_cases (reportFault c j ⟨s, out, []⟩) with ⟨off, -⟩ | ⟨-, -, -, acts⟩
    · rw [reportFault_st] at off
      exact absurd off (by simpa [State.stoppable] using hs)
    · exact acts
  refine (finish_console g _).trans ?_
  rw [acts, enterHalted_eq, reportFault_bad, reportFault_st]
  rfl

section
variable {s : State} {sp : Span} {c : FaultClass} {j : FaultSubject} {out : List Out} (hr : s.resetting = false)
  (ht : s.gen.stepTimer.isSome = true) (hsp : s.spanSet.span = some sp) (hs : s.stoppable)
include hr ht hsp hs

/-- A step that ends with a fault and a quick stop delivers nothing, and leaves the generator HALTED. -/
theorem exec_step_faults (step : pathStep sp (Ev.start s) = quickStop (reportFault c j ⟨s, out, []⟩)) :
    ∃ k, exec .stepTimerExpiry s =
      .next { s with
        gen := s.gen.haltedFrom, envelope := holdArming s.envelope
        faults := ⟨s.faults.flags.setIfInBounds (c.priority - 1) true, captureFault s c j⟩, console := k } :=
  ⟨_, by rw [exec_step hr ht hsp, step]; exact congrArg Host.Outcome.next (finish_quickStop hs _)⟩

end

/-! The steps in IDLE, HELD and BRAKING. -/

theorem pathStep_standing {s : State} {p : Vec3} (sp : Span)
    (hs : s.gen.state = .idle ∨ s.gen.state = .held ∨ s.gen.state = .halted) (hp : s.gen.pos = some p) :
    pathStep sp (Ev.start s) = (offer sp p (Ev.start s)).1 := by
  have at_ : posOf s = p := by simp [posOf, hp]
  rcases hs with hs | hs | hs <;> simp only [pathStep, start_st, hs, at_]

theorem pathStep_braking {s : State} {f : Flight} (sp : Span) (hs : s.gen.state = .braking)
    (hf : s.gen.flight = some f) : pathStep sp (Ev.start s) = brakeStep sp f (Ev.start s) := by
  simp only [pathStep, start_st, hs, hf]

/-- Above a_b a step in BRAKING ends with an offer that is not accepted (R110). -/
theorem brakeStep_of_refused {s : State} {sp : Span} {f : Flight} {e : Ev} (fast : sp.brakeAccel < s.gen.v)
    (ho : offer sp (f.offerAt (min (f.s + (s.gen.v - sp.brakeAccel)) f.dist)) (Ev.start s) = (e, false)) :
    brakeStep sp f (Ev.start s) = e := by
  simp only [brakeStep, start_st, if_neg (Nat.not_le.2 fast), ho]

end Sys2Proof.Machine

section
open Sys2Proof Sys2Proof.Machine

/-- Settles O34: every way to fail is a fault and a quick stop that the step ends with. -/
theorem failedOfferHalts : Obligations.FailedOfferHalts := by
  intro s sp p hr ht hsp hpos halts breaches
  have breach_of {c : Vec3} (hs : s.stoppable)
      (step : s.candidateFails sp c → pathStep sp (Ev.start s) = breach c (Ev.start s)) : breaches c := by
    intro fails
    obtain ⟨k, run⟩ := exec_step_faults hr ht hsp hs (step fails)
    have hu : s.gen.state ≠ .unregistered := fun h => hs (by simp [h])
    refine ⟨_, run, ⟨rfl, rfl, rfl, rfl, rfl, rfl, rfl⟩, ?_, fun free => ?_⟩
    · simp [FaultClass.priority]
    · simp [captureFault, free, faultPosition, hu, hpos]
  refine ⟨fun standing => ⟨?standingBreach, fun passes outside => ?drumRange⟩, fun f hf =>
    ⟨fun moving noSlow => ?moving, fun braking fast => ?braking⟩⟩
  case standingBreach =>
    have step := pathStep_standing sp (standing.imp_right .inl) hpos
    exact breach_of (stoppable_of_standing standing) fun fails =>
      step.trans (by rw [offer_breaches (e := Ev.start s) fails])
  case drumRange =>
    have step := pathStep_standing sp (standing.imp_right .inl) hpos
    obtain ⟨w, out, refused⟩ := offer_drumRange (e := Ev.start s) passes outside
    rw [refused] at step
    obtain ⟨k, run⟩ := exec_step_faults hr ht hsp (stoppable_of_standing standing) step
    refine ⟨_, run, ⟨rfl, rfl, rfl, rfl, rfl, rfl, rfl⟩, ?_⟩
    simp [FaultClass.priority]
  case moving =>
    have speed : moveSpeed f s.gen.v sp.accel (slowLimits s f sp.accel) = freeSpeed f s.gen.v sp.accel := by
      rw [slowLimits_of_noSlow noSlow, moveSpeed_eq]
      rfl
    refine breach_of (stoppable_of_flying (.inl moving)) fun fails => ?_
    exact moveStep_of_refused moving hf noSlow.slowSound (by rw [speed]; exact offer_breaches fails)
  case braking =>
    refine breach_of (stoppable_of_flying (.inr braking)) fun fails => ?_
    exact (pathStep_braking sp braking hf).trans (brakeStep_of_refused fast (offer_breaches fails))

end
end

