-- ==== Sys2Proof/Proofs/Succession.lean ====
section
/-! SUPPORT. Arrival, the end of braking and the succession (R106, R107, R110), from an event whose offer was accepted. -/

namespace Sys2Proof.Machine

/-! The succession with an empty arming set (R107). -/

theorem onGen_queue_self {s : State} {q : List Move} (h : s.gen.queue = q) :
    onGen (fun g => { g with queue := q }) s = s := by
  subst h
  rfl

theorem onGen_stack_self {s : State} {c : List Context} (h : s.gen.stack = c) :
    onGen (fun g => { g with stack := c }) s = s := by
  subst h
  rfl

/-- A move whose start check fails is dropped (R77, R105). -/
theorem tryBegin_blocked {m : Move} {e : Ev} (hz : e.st.zonesSound) (hp : pathOk e.st (posOf e.st) m.target = false) :
    tryBegin m e = (e.raise .moveDropped m.id 1, false) := by
  simp only [tryBegin, readZones_sound e hz, hp, Bool.false_eq_true, if_false]
  rfl

theorem succession_disarmed {e : Ev} (ha : e.st.envelope.arming = []) : succession e = advance e := by
  simp [succession, ha]

section
variable {e : Ev} (hw : e.st.gen.waiting = none)
include hw

theorem advance_held {c : Context} {r : List Context} (hc : e.st.gen.stack = c :: r) (hm : c.resume = .manual) :
    advance e = e.upd (restIn .held) := by
  simp only [advance, hw, hc, stackPhase, hm, Ev.upd, onGen_stack_self hc]

/-- An AUTO context on top is popped and flown where its start check passes. -/
theorem advance_auto {c : Context} {r : List Context} (hc : e.st.gen.stack = c :: r) (hm : c.resume = .auto)
    (hz : e.st.zonesSound) (hp : pathOk e.st (posOf e.st) c.move.target = true)
    (hd : distance (posOf e.st) c.move.target ≠ 0) :
    advance e = e.upd fun s => flyMove c.move (onGen (fun g => { g with stack := r }) s) := by
  have begins := tryBegin_flies (m := c.move) (e := e.upd (onGen fun g => { g with stack := r })) hz hp hd
  simp only [advance, hw, hc, stackPhase, hm, begins, if_true]
  rfl

theorem advance_toQueue (hc : e.st.gen.stack = []) : advance e = queuePhase e.st.gen.queue e := by
  simp only [advance, hw, hc, stackPhase, Ev.upd, onGen_stack_self hc]

theorem advance_idle (hc : e.st.gen.stack = []) (hq : e.st.gen.queue = []) : advance e = e.upd (restIn .idle) := by
  simp only [advance_toQueue hw hc, hq, queuePhase, Ev.upd, onGen_queue_self hq]

/-- A lone head whose start check fails is dropped, and nothing is left. -/
theorem advance_blocked {m : Move} (hc : e.st.gen.stack = []) (hq : e.st.gen.queue = [m]) (hz : e.st.zonesSound)
    (hp : pathOk e.st (posOf e.st) m.target = false) :
    advance e =
      (e.upd fun s => restIn .idle (onGen (fun g => { g with queue := [] }) s)).raise .moveDropped m.id 1 := by
  have dropped := tryBegin_blocked (m := m)
    (e := e.upd fun s => restIn .idle (onGen (fun g => { g with queue := [] }) s)) hz hp
  rw [advance_toQueue hw hc, hq, queuePhase]
  simp only [dropped, Bool.false_eq_true, if_false]
  rfl

end

/-! The succession of a step whose offer was accepted. -/

section
variable {s : State} {before after : List Out} {sp : Span} {p : Vec3} {l : PerWinch RopeLength} {g : Generator}
  (ha : s.envelope.arming = [])
include ha

theorem succession_offered_flies {m : Move} (hw : g.waiting = some m) (hz : s.zonesSound)
    (hp : pathOk s p m.target = true) (hd : distance p m.target ≠ 0) :
    succession (s.offered before sp p l g after) =
      s.offered before sp p l
        { g.resting .moving with waiting := none, flight := some (flightFrom m p) } after :=
  (succession_disarmed ha).trans (advance_flies (e := s.offered before sp p l g after) hw hz hp hd)

section
variable (hw : g.waiting = none)
include hw

theorem succession_offered_held {c : Context} {r : List Context} (hc : g.stack = c :: r) (hm : c.resume = .manual) :
    succession (s.offered before sp p l g after) = s.offered before sp p l (g.resting .held) after :=
  (succession_disarmed ha).trans (advance_held (e := s.offered before sp p l g after) hw hc hm)

theorem succession_offered_auto {c : Context} {r : List Context} (hc : g.stack = c :: r) (hm : c.resume = .auto)
    (hz : s.zonesSound) (hp : pathOk s p c.move.target = true) (hd : distance p c.move.target ≠ 0) :
    succession (s.offered before sp p l g after) =
      s.offered before sp p l { g.resting .moving with stack := r, flight := some (flightFrom c.move p) } after :=
  (succession_disarmed ha).trans (advance_auto (e := s.offered before sp p l g after) hw hc hm hz hp hd)

section
variable (hc : g.stack = [])
include hc

theorem succession_offered_idle (hq : g.queue = []) :
    succession (s.offered before sp p l g after) = s.offered before sp p l (g.resting .idle) after :=
  (succession_disarmed ha).trans (advance_idle (e := s.offered before sp p l g after) hw hc hq)

theorem succession_offered_queue {m : Move} {r : List Move} (hq : g.queue = m :: r) (hz : s.zonesSound)
    (hp : pathOk s p m.target = true) (hd : distance p m.target ≠ 0) :
    succession (s.offered before sp p l g after) =
      s.offered before sp p l { g.resting .moving with queue := r, flight := some (flightFrom m p) } after := by
  have toQueue := advance_toQueue (e := s.offered before sp p l g after) hw hc
  have flies := queuePhase_flies (m := m) (e := s.offered before sp p l g after) r hz hp hd
  exact (succession_disarmed ha).trans (toQueue.trans ((congrArg (queuePhase · _) hq).trans flies))

theorem succession_offered_blocked {m : Move} (hq : g.queue = [m]) (hz : s.zonesSound)
    (hp : pathOk s p m.target = false) :
    succession (s.offered before sp p l g after) =
      s.offered before sp p l { g.resting .idle with queue := [] } (after ++ [.raise .moveDropped m.id 1]) :=
  (succession_disarmed ha).trans
    ((advance_blocked (e := s.offered before sp p l g after) hw hc hq hz hp).trans
      (offered_raise s before sp p l { g.resting .idle with queue := [] } after .moveDropped m.id 1))

end
end
end

/-! Arrival and the end of braking (R106, R110). -/

/-- The generator with its executing move cleared. -/
def Generator.cleared (g : Generator) : Generator := { g with flight := none, v := 0, purpose := none }

section
variable {s : State} {before after : List Out} {sp : Span} {p : Vec3} {l : PerWinch RopeLength} {g : Generator} {f : Flight}

theorem arrive_offered :
    arrive f (s.offered before sp p l g after) =
      s.offered before sp p l g.cleared (after ++ [.raise .moveDone f.move.id 0]) :=
  offered_raise s before sp p l g.cleared after .moveDone f.move.id 0

theorem complete_offered (hk : f.move.kind ≠ .exit) :
    complete f (s.offered before sp p l g after) =
      succession (s.offered before sp p l g.cleared (after ++ [.raise .moveDone f.move.id 0])) := by
  rw [complete, if_neg hk, arrive_offered]

theorem dropBraked_offered (r : DropReason) :
    dropBraked f r (s.offered before sp p l g after) =
      succession (s.offered before sp p l g.cleared (after ++ [.raise .moveDropped f.move.id r.code])) :=
  congrArg succession (offered_raise s before sp p l g.cleared after .moveDropped f.move.id r.code)

theorem pushBraked_offered (r : Resume) :
    pushBraked f r (s.offered before sp p l g after) =
      succession (s.offered before sp p l { g.cleared with stack := ⟨f.move, r⟩ :: g.stack } after) := rfl

end

section
variable {s : State} {sp : Span} {p : Vec3} {l : PerWinch RopeLength} {g : Generator} {f : Flight}

theorem endBraking_drops {arrived : Bool} {r : DropReason}
    (h : g.purpose = some .cut ∧ r = .cut ∨ g.purpose = some .flush ∧ r = .flush) :
    endBraking f arrived (s.offered [] sp p l g []) =
      succession (s.offered [] sp p l g.cleared [.raise .moveDropped f.move.id r.code]) := by
  have purpose : (s.offered [] sp p l g []).st.gen.purpose = g.purpose := rfl
  rcases h with ⟨h, rfl⟩ | ⟨h, rfl⟩ <;> simp only [endBraking, purpose, h, dropBraked_offered, List.nil_append]

/-- A move braked to be taken up again has arrived where the braking reaches its target. -/
theorem endBraking_arrives (h : g.purpose = some .hold ∨ g.purpose = some .priority) :
    endBraking f true (s.offered [] sp p l g []) =
      succession (s.offered [] sp p l g.cleared [.raise .moveDone f.move.id 0]) := by
  have purpose : (s.offered [] sp p l g []).st.gen.purpose = g.purpose := rfl
  rcases h with h | h <;> simp only [endBraking, purpose, h, arrive_offered, List.nil_append, if_true]

/-- Short of its target it is pushed. -/
theorem endBraking_pushes {r : Resume}
    (h : g.purpose = some .hold ∧ r = .manual ∨ g.purpose = some .priority ∧ r = .auto) :
    endBraking f false (s.offered [] sp p l g []) =
      succession (s.offered [] sp p l { g.cleared with stack := ⟨f.move, r⟩ :: g.stack } []) := by
  have purpose : (s.offered [] sp p l g []).st.gen.purpose = g.purpose := rfl
  rcases h with ⟨h, rfl⟩ | ⟨h, rfl⟩ <;>
    simp only [endBraking, purpose, h, pushBraked_offered, Bool.false_eq_true, if_false]

theorem endBraking_halts {arrived : Bool} (h : g.purpose = some .halt) :
    endBraking f arrived (s.offered [] sp p l g []) = enterHalted (s.offered [] sp p l g []) := by
  have purpose : (s.offered [] sp p l g []).st.gen.purpose = g.purpose := rfl
  simp only [endBraking, purpose, h]

end

/-! A step in BRAKING (R110). -/

section
variable {s : State} {sp : Span} {p : Vec3} {l : PerWinch RopeLength} {f : Flight} (due : s.stepDue sp p l)
  (hs : s.gen.state = .braking) (hf : s.gen.flight = some f)
include due hs hf

theorem brakeStep_stops (slow : s.gen.v ≤ sp.brakeAccel) (passes : s.offerPasses sp p) :
    pathStep sp (Ev.start s) = endBraking f false (s.offered [] sp p l (s.gen.committing f f.s 0) []) := by
  obtain ⟨-, -, -, hp, hl, hn⟩ := due
  have accepted := offer_passes [] hl ((registered_iff s).2 (by simp [hs])) hn passes
  have at_ : posOf s = p := by simp [posOf, hp]
  rw [pathStep_braking sp hs hf]
  simp only [brakeStep, Ev.start, at_, if_pos slow, accepted]
  rfl

section
variable (fast : sp.brakeAccel < s.gen.v)
include fast

theorem brakeStep_accepted {d : Nat} (hd : min (f.s + (s.gen.v - sp.brakeAccel)) f.dist = d)
    (passes : s.offerPasses sp (f.offerAt d)) :
    pathStep sp (Ev.start s) =
      if d = f.dist then
        endBraking { f with s := d } true
          (s.offered [] sp (f.offerAt d) l (s.gen.committing f d (s.gen.v - sp.brakeAccel)) [])
      else s.offered [] sp (f.offerAt d) l (s.gen.committing f d (s.gen.v - sp.brakeAccel)) [] := by
  subst hd
  obtain ⟨-, -, -, -, hl, hn⟩ := due
  have accepted := offer_passes [] hl ((registered_iff s).2 (by simp [hs])) hn passes
  rw [pathStep_braking sp hs hf]
  simp only [brakeStep, Ev.start, if_neg (Nat.not_le.2 fast), accepted]
  rfl

end
end

/-! An entry to HALTED at the end of a step (R110, R117, R134). -/

section
variable {s : State} {before : List Out} {sp : Span} {p q : Vec3} {l : PerWinch RopeLength} {g : Generator}

/-- The executing move is the first that an entry to HALTED drops. -/
theorem raiseFirst_committing (f : Flight) (d v n : Nat) (t : State) :
    raiseFirst (g.committing f d v).droppedIds n t = raiseFlag .moveDropped f.move.id n t := rfl

theorem finish_offered_halts (hg : s.gen.state ≠ .halted) (hb : raisesOnly before) :
    finish s.gen.state (enterHalted (s.offered before sp q l g [])) =
      raiseFlag .state 7 0 (raiseFirst g.droppedIds 5
        { (before.foldl putOut s).afterOffer sp q l g.haltedFrom with envelope := holdArming s.envelope }) := by
  have noPlace : ∀ o ∈ (s.offered before sp q l g []).out ++ dropActs g.droppedIds .halt, o ≠ .stateHere := fun o ho => by
    obtain ⟨f, a, b, rfl⟩ :=
      (List.mem_append.1 ho).elim (raisesOnly_offered hb raisesOnly_nil o) (raisesOnly_dropActs _ _ o)
    nofun
  have beside := foldl_putOut_comm (s.offered before sp q l g []).out
    (fun t => { t with envelope := holdArming s.envelope }) (fun _ => rfl) (fun _ _ => rfl)
    (s.delivered sp q l g.haltedFrom)
  have offer := foldl_putOut_offered s before sp q l g.haltedFrom []
  rw [enterHalted_eq, finish_changed _ _ (by rfl) (Ne.symm hg) noPlace, List.foldl_append, foldl_dropActs]
  exact congrArg (fun t => raiseFlag .state 7 0 (raiseFirst g.droppedIds 5 t))
    (beside.trans (congrArg (fun t => { t with envelope := holdArming s.envelope }) offer))

/-- A step that ends with an entry to HALTED, with an empty arming set. -/
theorem exec_step_halts (due : s.stepDue sp p l)
    (step : pathStep sp (Ev.start s) = enterHalted (s.offered before sp q l g [])) (ha : s.envelope.arming = [])
    (hs : s.gen.state ≠ .halted) (hb : raisesOnly before) :
    exec .stepTimerExpiry s =
      .next (raiseFlag .state 7 0 (raiseFirst g.droppedIds 5
        { (before.foldl putOut s).afterOffer sp q l g.haltedFrom with envelope := ⟨[], none⟩ })) := by
  have disarmed : holdArming s.envelope = ⟨[], none⟩ := by simp [holdArming, ha]
  obtain ⟨hr, ht, hsp, -, -, -⟩ := due
  rw [exec_step hr ht hsp, step, finish_offered_halts hs hb, disarmed]

end

end Sys2Proof.Machine

section
open Sys2Proof Sys2Proof.Machine

/-- Settles O29: the move completes at its target, and the succession goes on from there. -/
theorem arrivalGoesOnByTheSuccession : Obligations.ArrivalGoesOnByTheSuccession := by
  intro s sp p lens f due hs hf hk noSlow ha hw there at_ done flying passes
  have speed : moveSpeed f s.gen.v sp.accel (slowLimits s f sp.accel) = freeSpeed f s.gen.v sp.accel := by
    rw [slowLimits_of_noSlow noSlow, moveSpeed_eq]
    rfl
  have arrived : pathStep sp (Ev.start s) =
      succession (s.offered [] sp at_ lens s.gen.cleared [.raise .moveDone f.move.id 0]) :=
    ((moveStep_accepted due hs hf noSlow.slowSound speed (Nat.min_eq_right there) passes).trans
      (afterMove_arrives _ noSlow rfl)).trans (complete_offered hk)
  have leaves : s.gen.state ≠ .idle ∧ s.gen.state ≠ .held := by simp [hs]
  refine ⟨fun hc hq => ?idle, fun c rest hc => ⟨fun hm => ?held, fun hm hz hp hd => ?auto⟩, fun m rest hc hq hz =>
    ⟨fun hp hd => ?queue, fun hp hr => ?blocked⟩⟩
  case idle =>
    have step : pathStep sp (Ev.start s) = s.offered [] sp at_ lens (s.gen.resting .idle) [.raise .moveDone f.move.id 0] :=
      arrived.trans (succession_offered_idle (g := s.gen.cleared) ha hw hc hq)
    exact exec_step_raises_changed due step leaves.1.symm
  case held =>
    have step : pathStep sp (Ev.start s) = s.offered [] sp at_ lens (s.gen.resting .held) [.raise .moveDone f.move.id 0] :=
      arrived.trans (succession_offered_held (g := s.gen.cleared) ha hw hc hm)
    exact exec_step_raises_changed due step leaves.2.symm
  case auto =>
    have step : pathStep sp (Ev.start s) = s.offered [] sp at_ lens { flying c.move with stack := rest }
          [.raise .moveDone f.move.id 0] :=
      arrived.trans (succession_offered_auto (g := s.gen.cleared) ha hw hc hm hz hp hd)
    exact exec_step_raises due step hs.symm
  case queue =>
    have step : pathStep sp (Ev.start s) = s.offered [] sp at_ lens { flying m with queue := rest }
          [.raise .moveDone f.move.id 0] :=
      arrived.trans (succession_offered_queue (g := s.gen.cleared) ha hw hc hq hz hp hd)
    exact exec_step_raises due step hs.symm
  case blocked =>
    subst hr
    have step : pathStep sp (Ev.start s) =
        s.offered [] sp at_ lens { s.gen.resting .idle with queue := [] }
          [.raise .moveDone f.move.id 0, .raise .moveDropped m.id 1] :=
      arrived.trans (succession_offered_blocked (g := s.gen.cleared) ha hw hc hq hz hp)
    exact (exec_step_changed due step leaves.1.symm raisesOnly_nil
      (raisesOnly_cons (raisesOnly_cons raisesOnly_nil))).trans rfl

/-- Settles O30: what the step offers, and then the end of braking by its purpose. -/
theorem brakingSlowsStopsAndFollowsItsPurpose : Obligations.BrakingSlowsStopsAndFollowsItsPurpose := by
  intro s sp p lens f due hs hf ha v' alone ends
  have leaves : s.gen.state ≠ .idle ∧ s.gen.state ≠ .held ∧ s.gen.state ≠ .moving ∧ s.gen.state ≠ .halted := by
    simp [hs]
  obtain ⟨notIdle, notHeld, notMoving, notHalted⟩ := leaves
  have ends_of {at_ : Vec3} {arrived : Bool} {d v : Nat}
      (braked : pathStep sp (Ev.start s) =
        endBraking { f with s := d } arrived (s.offered [] sp at_ lens (s.gen.committing f d v) [])) :
      ends at_ arrived := by
    refine ⟨fun hp => ?cut, fun hp => ?flush, fun hp => ?halt, fun ht hp => ?done, fun ht hp m hw hz path far => ?doneFlies,
      fun ht hp hw => ?held, fun ht hp m hw hz path far => ?pushFlies⟩
    case cut =>
      rintro ⟨hw, hc, hq⟩
      have step : pathStep sp (Ev.start s) =
          s.offered [] sp at_ lens (s.gen.resting .idle) [.raise .moveDropped f.move.id 2] :=
        (braked.trans (endBraking_drops (.inl ⟨hp, rfl⟩))).trans
          (succession_offered_idle (g := s.gen.cleared) ha hw hc hq)
      exact exec_step_raises_changed due step notIdle.symm
    case flush =>
      rintro ⟨hw, hc, hq⟩
      have step : pathStep sp (Ev.start s) =
          s.offered [] sp at_ lens (s.gen.resting .idle) [.raise .moveDropped f.move.id 4] :=
        (braked.trans (endBraking_drops (.inr ⟨hp, rfl⟩))).trans
          (succession_offered_idle (g := s.gen.cleared) ha hw hc hq)
      exact exec_step_raises_changed due step notIdle.symm
    case halt =>
      have halts := exec_step_halts due (braked.trans (endBraking_halts hp)) ha notHalted raisesOnly_nil
      rwa [raiseFirst_committing] at halts
    case done =>
      rintro ⟨hw, hc, hq⟩
      subst ht
      have step : pathStep sp (Ev.start s) =
          s.offered [] sp at_ lens (s.gen.resting .idle) [.raise .moveDone f.move.id 0] :=
        (braked.trans (endBraking_arrives hp)).trans (succession_offered_idle (g := s.gen.cleared) ha hw hc hq)
      exact exec_step_raises_changed due step notIdle.symm
    case doneFlies =>
      subst ht
      have step : pathStep sp (Ev.start s) =
          s.offered [] sp at_ lens
            { s.gen.resting .moving with waiting := none, flight := some (flightFrom m at_) }
            [.raise .moveDone f.move.id 0] :=
        (braked.trans (endBraking_arrives (.inr hp))).trans
          (succession_offered_flies (g := s.gen.cleared) ha hw hz path far)
      exact exec_step_raises_changed due step notMoving.symm
    case held =>
      subst ht
      have step : pathStep sp (Ev.start s) =
          s.offered [] sp at_ lens { s.gen.resting .held with stack := ⟨f.move, .manual⟩ :: s.gen.stack } [] :=
        (braked.trans (endBraking_pushes (.inl ⟨hp, rfl⟩))).trans
          (succession_offered_held (g := { s.gen.cleared with stack := ⟨f.move, .manual⟩ :: s.gen.stack }) ha hw rfl rfl)
      exact exec_step_changes due step notHeld.symm
    case pushFlies =>
      subst ht
      have step : pathStep sp (Ev.start s) =
          s.offered [] sp at_ lens
            { s.gen.resting .moving with
              waiting := none, stack := ⟨f.move, .auto⟩ :: s.gen.stack, flight := some (flightFrom m at_) } [] :=
        (braked.trans (endBraking_pushes (.inr ⟨hp, rfl⟩))).trans
          (succession_offered_flies (g := { s.gen.cleared with stack := ⟨f.move, .auto⟩ :: s.gen.stack }) ha hw hz path far)
      exact exec_step_changes due step notMoving.symm
  refine ⟨fun fast short passes => ?goesOn, fun slow passes => ?stops, fun fast there passes => ?reaches⟩
  case goesOn =>
    have step := brakeStep_accepted due hs hf fast (Nat.min_eq_left (Nat.le_of_lt short)) passes
    rw [if_neg (Nat.ne_of_lt short)] at step
    exact exec_step_quiet due step rfl
  case stops => exact ends_of (brakeStep_stops due hs hf slow passes)
  case reaches =>
    have step := brakeStep_accepted due hs hf fast (Nat.min_eq_right there) passes
    rw [if_pos rfl] at step
    exact ends_of step

end
end

