-- ==== Sys2Proof/Proofs/ExitPlans.lean ====
section
/-! SUPPORT. The exit plan (R85): the candidates in ascending distance, equal distances in the face order, and the first of them
that qualifies. -/

namespace Sys2Proof.Machine

/-! The first that qualifies among candidates in ascending distance. -/

/-- The candidates stand in ascending distance. -/
def Ascending (l : List ExitCandidate) : Prop := l.Pairwise fun c d => c.dist ≤ d.dist

theorem mem_insertCandidate (c d : ExitCandidate) (l : List ExitCandidate) :
    d ∈ insertCandidate c l ↔ d = c ∨ d ∈ l := by
  induction l with
  | nil => simp [insertCandidate]
  | cons e l ih =>
    unfold insertCandidate
    split
    · simp
    · simp only [List.mem_cons, ih]
      tauto

theorem insertCandidate_ascending (c : ExitCandidate) {l : List ExitCandidate} (h : Ascending l) :
    Ascending (insertCandidate c l) := by
  induction l with
  | nil => exact List.pairwise_singleton ..
  | cons e l ih =>
    obtain ⟨first, rest⟩ := List.pairwise_cons.1 h
    unfold insertCandidate
    split
    · next nearer =>
      refine List.pairwise_cons.2 ⟨fun d hd => ?_, h⟩
      rcases List.mem_cons.1 hd with rfl | hd
      · omega
      · have := first d hd
        omega
    · next farther =>
      refine List.pairwise_cons.2 ⟨fun d hd => ?_, ih rest⟩
      rcases (mem_insertCandidate c d l).1 hd with rfl | hd
      · omega
      · exact first d hd

/-- A candidate that does not qualify changes nothing where it is inserted. -/
theorem find_insert_unfit {q : ExitCandidate → Bool} {c : ExitCandidate} (hc : q c = false) (l : List ExitCandidate) :
    (insertCandidate c l).find? q = l.find? q := by
  induction l with
  | nil => simp [insertCandidate, hc]
  | cons e l ih =>
    unfold insertCandidate
    split
    · simp [hc]
    · cases he : q e <;> simp [he, ih]

/-- A candidate that qualifies is found where it is nearer than the one found without it. -/
theorem find_insert_fit {q : ExitCandidate → Bool} {c : ExitCandidate} (hc : q c = true) {l : List ExitCandidate}
    (h : Ascending l) :
    (insertCandidate c l).find? q =
      some ((l.find? q).elim c fun d => if c.dist < d.dist then c else d) := by
  induction l with
  | nil => simp [insertCandidate, hc]
  | cons e l ih =>
    obtain ⟨first, rest⟩ := List.pairwise_cons.1 h
    unfold insertCandidate
    split
    · next nearer =>
      cases he : q e with
      | true => simp [hc, he, nearer]
      | false =>
        cases hl : l.find? q with
        | none => simp [hc, he, hl]
        | some d =>
          have := first d (List.mem_of_find?_eq_some hl)
          have nearer' : c.dist < d.dist := by omega
          simp [hc, he, hl, nearer']
    · next farther =>
      cases he : q e with
      | true => simp [he, farther]
      | false => simp [he, ih rest]

/-- A candidate of a list is the nearest that qualifies, and the first of those equally near. -/
def NearestFit (q : ExitCandidate → Bool) (l : List ExitCandidate) (c : ExitCandidate) : Prop :=
  ∃ k, l[k]? = some c ∧ q c = true ∧
    ∀ (j : Nat) d, l[j]? = some d → q d = true → c.dist < d.dist ∨ c.dist = d.dist ∧ k ≤ j

/-- What the search gives for a list. -/
def FindsNearest (q : ExitCandidate → Bool) (l : List ExitCandidate) : Option ExitCandidate → Prop
  | none => ∀ c ∈ l, q c = false
  | some c => NearestFit q l c

theorem getElem?_concat {α : Type} (l : List α) (a b : α) (j : Nat) :
    (l ++ [a])[j]? = some b ↔ l[j]? = some b ∨ j = l.length ∧ a = b := by
  rcases Nat.lt_trichotomy j l.length with h | rfl | h
  · simp [List.getElem?_append_left h, Nat.ne_of_lt h]
  · simp
  · simp [List.getElem?_eq_none (Nat.le_of_lt h), Nat.ne_of_gt h, h]

section
variable {q : ExitCandidate → Bool} {l : List ExitCandidate} {c : ExitCandidate}

theorem findsNearest_concat_unfit {o : Option ExitCandidate} (hc : q c = false) (h : FindsNearest q l o) :
    FindsNearest q (l ++ [c]) o := by
  match o, h with
  | none, h =>
    intro d hd
    rcases List.mem_append.1 hd with hd | hd
    · exact h d hd
    · rw [List.mem_singleton.1 hd, hc]
  | some d, ⟨k, hk, hd, nearest⟩ =>
    refine ⟨k, (getElem?_concat l c d k).2 (.inl hk), hd, fun j d' hj fit => ?_⟩
    rcases (getElem?_concat l c d' j).1 hj with hj | ⟨-, rfl⟩
    · exact nearest j d' hj fit
    · rw [hc] at fit
      cases fit

theorem findsNearest_concat_fit {o : Option ExitCandidate} (hc : q c = true) (h : FindsNearest q l o) :
    FindsNearest q (l ++ [c]) (some (o.elim c fun d => if c.dist < d.dist then c else d)) := by
  have last : (l ++ [c])[l.length]? = some c := (getElem?_concat l c c l.length).2 (.inr ⟨rfl, rfl⟩)
  match o, h with
  | none, h =>
    refine ⟨l.length, last, hc, fun j d hj fit => ?_⟩
    rcases (getElem?_concat l c d j).1 hj with hj | ⟨rfl, rfl⟩
    · rw [h d (List.mem_of_getElem? hj)] at fit
      cases fit
    · exact .inr ⟨rfl, le_rfl⟩
  | some d, ⟨k, hk, hd, nearest⟩ =>
    have before : k < l.length := (List.getElem?_eq_some_iff.1 hk).1
    dsimp only [Option.elim]
    split
    · refine ⟨l.length, last, hc, fun j d' hj fit => ?_⟩
      rcases (getElem?_concat l c d' j).1 hj with hj | ⟨rfl, rfl⟩
      · have := nearest j d' hj fit
        omega
      · exact .inr ⟨rfl, le_rfl⟩
    · refine ⟨k, (getElem?_concat l c d k).2 (.inl hk), hd, fun j d' hj fit => ?_⟩
      rcases (getElem?_concat l c d' j).1 hj with hj | ⟨rfl, rfl⟩
      · exact nearest j d' hj fit
      · omega

end

theorem sortCandidates_concat (l : List ExitCandidate) (c : ExitCandidate) :
    sortCandidates (l ++ [c]) = insertCandidate c (sortCandidates l) := by
  simp [sortCandidates]

theorem sortCandidates_ascending (l : List ExitCandidate) : Ascending (sortCandidates l) := by
  induction l using List.reverseRecOn with
  | nil => exact .nil
  | append_singleton l c ih =>
    rw [sortCandidates_concat]
    exact insertCandidate_ascending c ih

/-- The search through the sorted candidates finds the nearest that qualifies (R85). -/
theorem find_sortCandidates (q : ExitCandidate → Bool) (l : List ExitCandidate) :
    FindsNearest q l ((sortCandidates l).find? q) := by
  induction l using List.reverseRecOn with
  | nil => exact fun c hc => nomatch hc
  | append_singleton l c ih =>
    rw [sortCandidates_concat]
    cases hc : q c with
    | false =>
      rw [find_insert_unfit hc]
      exact findsNearest_concat_unfit hc ih
    | true =>
      rw [find_insert_fit hc (sortCandidates_ascending l)]
      exact findsNearest_concat_fit hc ih

/-! The conditions of an exit (R85). -/

theorem exitQualifies_iff (s : State) (id : Nat) (p c : Vec3) :
    exitQualifies s id p c = true ↔
      inW s c = true ∧ (∀ r ∈ enforced s, boxHas r c = false ∧ segmentMeets p c r = false) ∧
        ∀ a ∈ s.envelope.arming, a.zone ≠ id → ∀ r, zoneRegion s a.zone = some r → boxHas r c = false := by
  have others : ((armingIds s).all fun i => i == id || !(zoneRegion s i).any fun b => boxHas b c) = true ↔
      ∀ a ∈ s.envelope.arming, a.zone ≠ id → ∀ r, zoneRegion s a.zone = some r → boxHas r c = false := by
    simp [armingIds, or_iff_not_imp_left, Option.any_eq_false]
  have clear : ((enforced s).all (fun b => !boxHas b c) && segmentClear s p c) = true ↔
      ∀ r ∈ enforced s, boxHas r c = false ∧ segmentMeets p c r = false := by
    simp [segmentClear, forall_and]
  rw [← clear, ← others]
  simp only [exitQualifies, Bool.and_eq_true]
  tauto

end Sys2Proof.Machine

section
open Sys2Proof Sys2Proof.Machine

/-- Settles O32: the faces are the candidates, and the search finds the nearest of them that qualifies. -/
theorem exitPlanIsTheNearestFace : Obligations.ExitPlanIsTheNearestFace := by
  intro s id b p hp faces qualifies
  have at_ : posOf s = p := by simp [posOf, hp]
  have found := find_sortCandidates (fun c => exitQualifies s id p c.target) (exitCandidates p b)
  have plan : planExit s id (some b) =
      ((sortCandidates (exitCandidates p b)).find? fun c => exitQualifies s id p c.target).map ExitCandidate.target := by
    rw [planExit, at_]
  have face (k : Nat) (c : Vec3 × Int) : faces[k]? = some c ↔ (exitCandidates p b)[k]? = some ⟨c.1, c.2⟩ := by
    have same : faces = (exitCandidates p b).map fun c => (c.target, c.dist) := rfl
    rw [same, List.getElem?_map, Option.map_eq_some_iff]
    exact ⟨fun ⟨d, hd, h⟩ => by rw [hd, ← h], fun h => ⟨_, h, rfl⟩⟩
  rw [plan]
  cases hf : (sortCandidates (exitCandidates p b)).find? fun c => exitQualifies s id p c.target with
  | none =>
    rw [hf] at found
    have unfits : ∀ c ∈ exitCandidates p b, exitQualifies s id p c.target = false := found
    refine ⟨nofun, fun _ c hc fits => ?_⟩
    obtain ⟨k, hk⟩ := List.getElem?_of_mem hc
    have unfit : exitQualifies s id p c.1 = false := unfits ⟨c.1, c.2⟩ (List.mem_of_getElem? ((face k c).1 hk))
    rw [(exitQualifies_iff s id p c.1).2 fits] at unfit
    cases unfit
  | some c =>
    rw [hf] at found
    obtain ⟨k, hk, fits, nearest⟩ := found
    refine ⟨fun t ht => ?_, nofun⟩
    obtain rfl : c.target = t := by simpa using ht
    refine ⟨k, c.dist, (face k _).2 hk, (exitQualifies_iff s id p c.target).1 fits, fun j d hj hd => ?_⟩
    exact nearest j _ ((face j d).1 hj) ((exitQualifies_iff s id p d.1).2 hd)

end
end

