-- ==== Sys2Proof/Proofs/Segments.lean ====
section
/-! SUPPORT. The integer arithmetic of segments and moves against rational points (R75, R94): the ranges of the segment check, the
steps of the entry distance, and the exact point. -/

namespace Sys2Proof.Machine

/-- The point at a parameter of a line lies between two faces on one axis. -/
def axisHolds (lo hi p d : Int) (t : ℚ) : Prop := (lo : ℚ) ≤ (p : ℚ) + (d : ℚ) * t ∧ (p : ℚ) + (d : ℚ) * t ≤ (hi : ℚ)

/-- The point at a parameter of a line lies in a box. -/
def lineHolds (b : Box) (p d : Vec3) (t : ℚ) : Prop :=
  axisHolds b.xlo b.xhi p.x d.x t ∧ axisHolds b.ylo b.yhi p.y d.y t ∧ axisHolds b.zlo b.zhi p.z d.z t

/-! The segment check (R75). -/

/-- The number that a fraction stands for. -/
def Frac.value (a : Frac) : ℚ := (a.num : ℚ) / (a.den : ℚ)

theorem le_iff_value {a b : Frac} (ha : 0 < a.den) (hb : 0 < b.den) : a.le b = true ↔ a.value ≤ b.value := by
  have ha' : (0 : ℚ) < a.den := by exact_mod_cast ha
  have hb' : (0 : ℚ) < b.den := by exact_mod_cast hb
  rw [Frac.le, decide_eq_true_iff, Frac.value, Frac.value, div_le_div_iff₀ ha' hb']
  exact_mod_cast Iff.rfl

/-- The parameters of a segment at which one coordinate lies between two faces are those of its range. -/
theorem axisRange_holds {p q lo hi : Int} {t : ℚ} (h0 : 0 ≤ t) (h1 : t ≤ 1) :
    axisHolds lo hi p (q - p) t ↔ ∃ r, axisRange p q lo hi = some r ∧ r.1.value ≤ t ∧ t ≤ r.2.value := by
  unfold axisRange axisHolds
  rcases lt_trichotomy (q - p) 0 with neg | zero | pos
  · have num : (((q - p).natAbs : ℕ) : ℚ) = -((q - p : Int) : ℚ) := by
      rw [Nat.cast_natAbs, abs_of_neg neg, Int.cast_neg]
    have neg' : (0 : ℚ) < -((q - p : Int) : ℚ) := by exact_mod_cast Int.neg_pos.2 neg
    simp only [if_neg (ne_of_lt neg), if_neg (not_lt_of_gt neg), Option.some.injEq, exists_eq_left', Frac.value, num]
    rw [div_le_iff₀ neg', le_div_iff₀ neg']
    push_cast
    constructor <;> rintro ⟨h, h'⟩ <;> constructor <;> linarith
  · simp only [zero, if_true, Int.cast_zero, zero_mul, add_zero, Int.cast_le]
    by_cases inside : lo ≤ p ∧ p ≤ hi
    · simp [inside, Frac.value, h0, h1]
    · simp [inside]
  · have num : (((q - p).natAbs : ℕ) : ℚ) = ((q - p : Int) : ℚ) := by
      rw [Nat.cast_natAbs, abs_of_pos pos]
    have pos' : (0 : ℚ) < ((q - p : Int) : ℚ) := by exact_mod_cast pos
    simp only [if_neg (ne_of_gt pos), if_pos pos, Option.some.injEq, exists_eq_left', Frac.value, num]
    rw [div_le_iff₀ pos', le_div_iff₀ pos']
    push_cast
    constructor <;> rintro ⟨h, h'⟩ <;> constructor <;> linarith

theorem axisRange_den {p q lo hi : Int} {r : Frac × Frac} (h : axisRange p q lo hi = some r) :
    0 < r.1.den ∧ 0 < r.2.den := by
  unfold axisRange at h
  split at h
  · split at h
    · cases h; decide
    · cases h
  · split at h
    all_goals
      cases h
      constructor <;> exact Int.natAbs_pos.2 ‹_›

/-- Three ranges have a parameter of the segment in common exactly when each lower end, 0 among them, lies below each upper
end, 1 among them. -/
theorem common_parameter {x y z : Frac × Frac} (hx : 0 < x.1.den ∧ 0 < x.2.den) (hy : 0 < y.1.den ∧ 0 < y.2.den)
    (hz : 0 < z.1.den ∧ 0 < z.2.den) :
    ([⟨0, 1⟩, x.1, y.1, z.1].all fun l => [⟨1, 1⟩, x.2, y.2, z.2].all fun h => l.le h) = true ↔
      ∃ t : ℚ, 0 ≤ t ∧ t ≤ 1 ∧ (x.1.value ≤ t ∧ t ≤ x.2.value) ∧ (y.1.value ≤ t ∧ t ≤ y.2.value) ∧
        (z.1.value ≤ t ∧ t ≤ z.2.value) := by
  have zero : (⟨0, 1⟩ : Frac).value = 0 := by simp [Frac.value]
  have one : (⟨1, 1⟩ : Frac).value = 1 := by simp [Frac.value]
  have zeroDen : 0 < (⟨0, 1⟩ : Frac).den := Nat.one_pos
  simp only [List.all_cons, List.all_nil, Bool.and_true, Bool.and_eq_true, le_iff_value, zeroDen, hx, hy, hz, zero, one]
  constructor
  · rintro ⟨⟨h01, h0x, h0y, h0z⟩, ⟨hx1, hxx, hxy, hxz⟩, ⟨hy1, hyx, hyy, hyz⟩, hz1, hzx, hzy, hzz⟩
    refine ⟨max 0 (max x.1.value (max y.1.value z.1.value)), ?_⟩
    simp [*]
  · rintro ⟨t, h0, h1, ⟨hx, hx'⟩, ⟨hy, hy'⟩, hz, hz'⟩
    refine ⟨⟨?_, ?_, ?_, ?_⟩, ⟨?_, ?_, ?_, ?_⟩, ⟨?_, ?_, ?_, ?_⟩, ?_, ?_, ?_, ?_⟩ <;> linarith

theorem segmentMeets_iff (p q : Vec3) (b : Box) :
    segmentMeets p q b = true ↔
      ∃ t : ℚ, 0 ≤ t ∧ t ≤ 1 ∧ lineHolds b p ⟨q.x - p.x, q.y - p.y, q.z - p.z⟩ t := by
  have ranges {t : ℚ} (h0 : 0 ≤ t) (h1 : t ≤ 1) := and_congr (axisRange_holds (p := p.x) (q := q.x) (lo := b.xlo)
    (hi := b.xhi) h0 h1) (and_congr (axisRange_holds (p := p.y) (q := q.y) (lo := b.ylo) (hi := b.yhi) h0 h1)
    (axisRange_holds (p := p.z) (q := q.z) (lo := b.zlo) (hi := b.zhi) h0 h1))
  unfold segmentMeets
  cases hx : axisRange p.x q.x b.xlo b.xhi <;> cases hy : axisRange p.y q.y b.ylo b.yhi <;>
    cases hz : axisRange p.z q.z b.zlo b.zhi
  case some.some.some x y z =>
    rw [hx, hy, hz] at ranges
    refine (common_parameter (axisRange_den hx) (axisRange_den hy) (axisRange_den hz)).trans (exists_congr fun t => ?_)
    refine and_congr_right fun h0 => and_congr_right fun h1 => ?_
    rw [lineHolds, ranges h0 h1]
    simp
  all_goals
    refine ⟨nofun, fun ⟨t, h0, h1, inside⟩ => ?_⟩
    rw [lineHolds, ranges h0 h1] at inside
    simp [hx, hy, hz] at inside

/-! The entry distance (R75). -/

/-- A multiple of the common denominator: the exact point is compared in integers. -/
theorem axisHolds_div {lo hi p d : Int} {k n : Nat} (hn : 0 < n) :
    axisHolds lo hi p d ((k : ℚ) / (n : ℚ)) ↔ lo * n ≤ p * n + d * k ∧ p * n + d * k ≤ hi * n := by
  have hn' : (0 : ℚ) < n := by exact_mod_cast hn
  have point : (p : ℚ) + (d : ℚ) * ((k : ℚ) / (n : ℚ)) = ((p * n + d * k : Int) : ℚ) / (n : ℚ) := by
    push_cast
    field_simp
  rw [axisHolds, point, le_div_iff₀ hn', div_le_iff₀ hn']
  norm_cast

theorem ceilDiv_le {a b k : Int} (hb : 0 < b) : ceilDiv a b ≤ k ↔ a ≤ k * b := by
  have h := Int.le_ediv_iff_mul_le (a := -k) (b := -a) hb
  rw [ceilDiv]
  constructor
  · intro hk
    have := h.1 (by omega)
    linarith
  · intro hk
    have := h.2 (by linarith)
    omega

/-- The steps of a move at which one coordinate lies between two faces are those of its range. -/
theorem axisSteps_holds {p d lo hi : Int} {n k : Nat} (hn : 0 < n) (hk : k ≤ n) :
    axisHolds lo hi p d ((k : ℚ) / (n : ℚ)) ↔ ∃ r, axisSteps p d lo hi n = some r ∧ r.1 ≤ k ∧ k ≤ r.2 := by
  rw [axisHolds_div hn]
  unfold axisSteps
  rcases lt_trichotomy d 0 with neg | rfl | pos
  · have neg' : 0 < -d := Int.neg_pos.2 neg
    simp only [if_neg (ne_of_lt neg), if_neg (not_lt_of_gt neg), Option.some.injEq, exists_eq_left', ceilDiv_le neg',
      Int.le_ediv_iff_mul_le neg']
    constructor <;> rintro ⟨h, h'⟩ <;> constructor <;> linarith
  · have scaled : lo * (n : Int) ≤ p * n + 0 * k ∧ p * n + 0 * (k : Int) ≤ hi * n ↔ lo ≤ p ∧ p ≤ hi := by
      have hn' : (0 : Int) < n := by exact_mod_cast hn
      simp only [zero_mul, add_zero, mul_le_mul_iff_left₀ hn']
    rw [scaled]
    by_cases inside : lo ≤ p ∧ p ≤ hi
    · simp [inside, hk]
    · simp [inside]
  · simp only [if_neg (ne_of_gt pos), if_pos pos, Option.some.injEq, exists_eq_left', ceilDiv_le pos,
      Int.le_ediv_iff_mul_le pos]
    constructor <;> rintro ⟨h, h'⟩ <;> constructor <;> linarith

/-- A step lies in the ranges of all three axes. -/
def stepsHold (f : Flight) (b : Box) (k : Nat) : Prop :=
  (∃ r, axisSteps f.p0.x f.delta.x b.xlo b.xhi f.dist = some r ∧ r.1 ≤ k ∧ k ≤ r.2) ∧
    (∃ r, axisSteps f.p0.y f.delta.y b.ylo b.yhi f.dist = some r ∧ r.1 ≤ k ∧ k ≤ r.2) ∧
      ∃ r, axisSteps f.p0.z f.delta.z b.zlo b.zhi f.dist = some r ∧ r.1 ≤ k ∧ k ≤ r.2

theorem stepsHold_iff {f : Flight} {b : Box} {k : Nat} (hd : 0 < f.dist) (hk : k ≤ f.dist) :
    stepsHold f b k ↔ lineHolds b f.p0 f.delta ((k : ℚ) / (f.dist : ℚ)) :=
  (and_congr (axisSteps_holds hd hk) (and_congr (axisSteps_holds hd hk) (axisSteps_holds hd hk))).symm

/-- The entry distance is the first step of the rest of the move that lies in all three ranges. -/
theorem entryDistance_first (f : Flight) (b : Box) :
    (∀ d, entryDistance f b = some d →
      f.s ≤ d ∧ d ≤ f.dist ∧ stepsHold f b d ∧ ∀ k, f.s ≤ k → k < d → ¬stepsHold f b k) ∧
    (entryDistance f b = none → ∀ k, f.s ≤ k → k ≤ f.dist → ¬stepsHold f b k) := by
  unfold entryDistance stepsHold
  cases axisSteps f.p0.x f.delta.x b.xlo b.xhi f.dist <;> cases axisSteps f.p0.y f.delta.y b.ylo b.yhi f.dist <;>
    cases axisSteps f.p0.z f.delta.z b.zlo b.zhi f.dist
  case some.some.some x y z =>
    simp only [Option.some.injEq, exists_eq_left']
    split
    · refine ⟨fun d hd => ?_, nofun⟩
      obtain rfl := Option.some.inj hd
      refine ⟨?_, ?_, ⟨⟨?_, ?_⟩, ⟨?_, ?_⟩, ?_, ?_⟩, fun k hk hk' => ?_⟩ <;> omega
    · refine ⟨nofun, fun _ k hk hk' => ?_⟩
      omega
  all_goals simp

/-- The exact point is compared at the common denominator (R94). -/
theorem exactPointIn_iff {f : Flight} {b : Box} (hd : 0 < f.dist) :
    exactPointIn f b = true ↔ lineHolds b f.p0 f.delta ((f.s : ℚ) / (f.dist : ℚ)) := by
  rw [lineHolds, axisHolds_div hd, axisHolds_div hd, axisHolds_div hd]
  simp [exactPointIn, boxHas, and_assoc]

end Sys2Proof.Machine

section
open Sys2Proof Sys2Proof.Machine

/-- Settles O58: the ranges of the three axes, each against rational points, have a parameter or a step in common. -/
theorem segmentChecksAreExact : Obligations.SegmentChecksAreExact := by
  refine ⟨segmentMeets_iff, fun f b hd => ⟨?_, exactPointIn_iff hd⟩⟩
  obtain ⟨first, absent⟩ := entryDistance_first f b
  cases he : entryDistance f b with
  | none => exact fun k hk hk' inside => absent he k hk hk' ((stepsHold_iff hd hk').2 inside)
  | some d =>
    obtain ⟨after, within, holds, least⟩ := first d he
    refine ⟨after, within, (stepsHold_iff hd within).1 holds, fun k hk hk' inside => ?_⟩
    exact least k hk hk' ((stepsHold_iff hd (Nat.le_trans (Nat.le_of_lt hk') within)).2 inside)

end
end

