-- ==== Sys2Proof/Proofs/JogSteps.lean ====
section
/-! SUPPORT. A step in JOGGING (R127 to R130, R134): the velocity that is slid, offered and committed, and the end of the
session. -/

namespace Sys2Proof.Machine

/-! The slide (R129). -/

theorem add_zero_vec (p : Vec3) : p.add Vec3.zero = p := by
  simp [Vec3.add, Vec3.zero]

/-- Of the velocities tried, no velocity at all the last of them, the first whose candidate passes is taken. -/
theorem slide_takes {sp : Span} {p v : Vec3} {e : Ev} {tries : List Vec3} {k : Nat}
    (hk : (tries ++ [Vec3.zero])[k]? = some v)
    (fails : ∀ w ∈ (tries ++ [Vec3.zero]).take k, e.st.candidateFails sp (p.add w))
    (passes : e.st.candidatePasses sp (p.add v)) : slide sp p tries e = (e, some v) := by
  induction tries generalizing k with
  | nil =>
    obtain ⟨-, rfl⟩ : k = 0 ∧ Vec3.zero = v := by simpa [List.getElem?_singleton] using hk
    rw [add_zero_vec] at passes
    simp only [slide, candidateCheck_passes passes]
  | cons u r ih =>
    cases k with
    | zero =>
      obtain rfl : u = v := by simpa using hk
      simp only [slide, candidateCheck_passes passes]
    | succ k =>
      simp only [slide, candidateCheck_fails (fails u (by simp))]
      exact ih (by simpa using hk) fun w hw => fails w (by simp [hw])

/-! The offer of a jog step (R130). -/

/-- The generator with the velocity of its jog committed. -/
def Generator.jogging (g : Generator) (v : Vec3) : Generator := { g with jog := { g.jog with velocity := v } }

theorem haltedFrom_jogging (g : Generator) (v : Vec3) : (g.jogging v).haltedFrom = g.haltedFrom := rfl

theorem droppedIds_jogging (g : Generator) (v : Vec3) : (g.jogging v).droppedIds = g.droppedIds := rfl

theorem aboveCap_iff (u : Vec3) (m : Nat) :
    aboveCap u m = true ↔ m < u.x.natAbs ∨ m < u.y.natAbs ∨ m < u.z.natAbs := by
  simp [aboveCap, or_assoc]

section
variable {s : State} {sp : Span} {p : Vec3} {l : PerWinch RopeLength}

theorem jogOffer_accepted {before : List Out} {u v : Vec3} {k : Nat} (due : s.stepDue sp p l)
    (hs : s.gen.state = .jogging) (hk : (slideVariants u ++ [Vec3.zero])[k]? = some v)
    (fails : ∀ w ∈ (slideVariants u ++ [Vec3.zero]).take k, s.candidateFails sp (p.add w))
    (passes : s.offerPasses sp (p.add v)) :
    jogOffer sp u ⟨s, before, []⟩ = afterJog (s.offered before sp (p.add v) l (s.gen.jogging v) []) := by
  obtain ⟨-, -, -, hp, hl, hn⟩ := due
  obtain ⟨candidate, inRange⟩ := passes
  have at_ : posOf s = p := by simp [posOf, hp]
  have taken := slide_takes (e := ⟨s, before, []⟩) hk fails candidate
  have delivered := deliver_passes before hl ((registered_iff s).2 (by simp [hs])) hn inRange
  simp only [jogOffer, at_, taken, delivered]
  rfl

/-! After the commit (R130, R134). -/

section
variable {before : List Out} {q v : Vec3}

theorem afterJog_moves (h : v ≠ Vec3.zero ∨ s.gen.jog.purpose = none ∧ s.gen.jog.request ≠ Vec3.zero) :
    afterJog (s.offered before sp q l (s.gen.jogging v) []) = s.offered before sp q l (s.gen.jogging v) [] := by
  have jog : (s.offered before sp q l (s.gen.jogging v) []).st.gen.jog = { s.gen.jog with velocity := v } := rfl
  rw [afterJog, jog]
  by_cases hv : v = Vec3.zero
  · obtain ⟨hp, hr⟩ := h.resolve_left (fun moves => moves hv)
    simp only [hv, hp, hr, if_true, if_false]
  · exact if_neg hv

theorem afterJog_halts (h : s.gen.jog.purpose = some .halt) :
    afterJog (s.offered before sp q l (s.gen.jogging Vec3.zero) []) =
      enterHalted (s.offered before sp q l (s.gen.jogging Vec3.zero) []) := by
  have purpose : (s.offered before sp q l (s.gen.jogging Vec3.zero) []).st.gen.jog.purpose = s.gen.jog.purpose := rfl
  refine (if_pos rfl).trans ?_
  rw [purpose, h]

/-- The session closes, and the succession follows. -/
theorem afterJog_ends
    (h : s.gen.jog.purpose = none ∧ s.gen.jog.request = Vec3.zero ∨ s.gen.jog.purpose = some .zone ∨
      s.gen.jog.purpose = some .flush) :
    afterJog (s.offered before sp q l (s.gen.jogging Vec3.zero) []) =
      succession (s.offered before sp q l { s.gen with jog := Jog.closed } []) := by
  have purpose : (s.offered before sp q l (s.gen.jogging Vec3.zero) []).st.gen.jog.purpose = s.gen.jog.purpose := rfl
  refine (if_pos rfl).trans ?_
  rw [purpose]
  rcases h with ⟨h, hr⟩ | h | h <;> rw [h]
  · exact if_pos hr
  · rfl
  · rfl

end

/-! The velocity formed (R127, R128, R134). -/

theorem pathStep_jogging (hs : s.gen.state = .jogging) : pathStep sp (Ev.start s) = jogStep sp (Ev.start s) := by
  simp only [pathStep, start_st, hs]

section
variable (hs : s.gen.state = .jogging)
include hs

theorem jogStep_brakes (h : s.gen.jog.purpose ≠ none) :
    pathStep sp (Ev.start s) = jogOffer sp (approachVec sp.brakeAccel s.gen.jog.velocity Vec3.zero) ⟨s, [], []⟩ := by
  obtain ⟨k, hk⟩ := Option.ne_none_iff_exists'.1 h
  simp only [pathStep_jogging hs, jogStep, start_st, hk]
  rfl

section
variable (hz : s.zonesSound) (hp : s.gen.pos = some p) (h : s.gen.jog.purpose = none)
include hz hp h

theorem jogStep_free (slow : noSlowWhere s fun b => boxHas b p) :
    pathStep sp (Ev.start s) =
      jogOffer sp (approachVec sp.accel s.gen.jog.velocity s.gen.jog.request) ⟨s, [], []⟩ := by
  have at_ : posOf s = p := by simp [posOf, hp]
  simp only [pathStep_jogging hs, jogStep, start_st, h, motionRead_sound (slowIds s) (Ev.start s) hz.slowSound, at_,
    slowest_of_none slow]
  rfl

theorem jogStep_capped {id m : Nat} (slow : lowestSlow s (fun b => boxHas b p) id m) :
    pathStep sp (Ev.start s) =
      jogOffer sp (approachVec sp.accel s.gen.jog.velocity (clampVec m s.gen.jog.request))
        (if aboveCap (approachVec sp.accel s.gen.jog.velocity (clampVec m s.gen.jog.request)) m = true then
          ⟨s, [.raise .slowOverspeed id 0], []⟩ else ⟨s, [], []⟩) := by
  have at_ : posOf s = p := by simp [posOf, hp]
  simp only [pathStep_jogging hs, jogStep, start_st, h, motionRead_sound (slowIds s) (Ev.start s) hz.slowSound, at_,
    slowest_of_lowest slow]
  rfl

end
end
end

end Sys2Proof.Machine

section
open Sys2Proof Sys2Proof.Machine

/-- Settles O31: the velocity formed is slid and offered, and after the commit the session goes on, halts or ends. -/
theorem jogStepsSlideAndEnd : Obligations.JogStepsSlideAndEnd := by
  intro s sp p lens due hs ha hz j toward formed here slides
  have slides_of {before : List Out} {u : Vec3} (hb : raisesOnly before)
      (formed : pathStep sp (Ev.start s) = jogOffer sp u ⟨s, before, []⟩) : slides (before.foldl putOut s) u := by
    intro k v hk fails passes after ended
    have committed := formed.trans (jogOffer_accepted due hs hk fails passes)
    refine ⟨fun moves => ?moves, fun still => ⟨fun hp => ?halts, fun ends hw => ?ends⟩⟩
    case moves =>
      exact exec_step_quiet due (committed.trans (afterJog_moves moves)) rfl
    case halts =>
      obtain rfl : v = Vec3.zero := still
      have halts := exec_step_halts due (committed.trans (afterJog_halts hp)) ha (by simp [hs]) hb
      rwa [haltedFrom_jogging, droppedIds_jogging] at halts
    case ends =>
      obtain rfl : v = Vec3.zero := still
      have closed := committed.trans (afterJog_ends ends)
      refine ⟨fun hc hq => ?idle, fun c rest hc hm => ?held⟩
      case idle =>
        have step : pathStep sp (Ev.start s) = s.offered before sp (p.add Vec3.zero) lens (ended .idle) [] :=
          closed.trans (succession_offered_idle (g := { s.gen with jog := Jog.closed }) ha hw hc hq)
        have run := exec_step_changed due step (by rw [hs]; nofun) hb raisesOnly_nil
        exact run
      case held =>
        have step : pathStep sp (Ev.start s) = s.offered before sp (p.add Vec3.zero) lens (ended .held) [] :=
          closed.trans (succession_offered_held (g := { s.gen with jog := Jog.closed }) ha hw hc hm)
        have run := exec_step_changed due step (by rw [hs]; nofun) hb raisesOnly_nil
        exact run
  obtain ⟨-, -, -, hp, -, -⟩ := id due
  refine ⟨fun brakes => ?brakes, fun free slow => ?free, fun id m free slow => ?capped⟩
  case brakes => exact slides_of (before := []) raisesOnly_nil (jogStep_brakes hs brakes)
  case free => exact slides_of (before := []) raisesOnly_nil (jogStep_free hs hz hp free slow)
  case capped =>
    have formed := jogStep_capped (sp := sp) hs hz hp free slow
    have exceeds := aboveCap_iff (approachVec sp.accel s.gen.jog.velocity (clampVec m s.gen.jog.request)) m
    intro limit u
    by_cases above : m < u.x.natAbs ∨ m < u.y.natAbs ∨ m < u.z.natAbs
    · rw [if_pos (exceeds.2 above)] at formed
      have raised := slides_of (before := [.raise .slowOverspeed id 0]) (raisesOnly_cons raisesOnly_nil) formed
      rw [if_pos above]
      exact raised
    · rw [if_neg (mt exceeds.1 above)] at formed
      have quiet := slides_of (before := []) raisesOnly_nil formed
      rw [if_neg above]
      exact quiet

end
end

