-- ==== Sys2Proof/Proofs/GeneratorKept.lean ====
section
/-! SUPPORT. What leaves the Path Generator alone: the reads of records, the Fault Record, the cues, the cell lists and the table
operations change other blocks. -/

namespace Sys2Proof.Machine

/-- A fold of operations that keep the generator keeps it. -/
theorem foldl_gen {α : Type} (f : Ev → α → Ev) (h : ∀ e a, (f e a).st.gen = e.st.gen) (l : List α) (e : Ev) :
    (l.foldl f e).st.gen = e.st.gen := by
  induction l generalizing e with
  | nil => rfl
  | cons a l ih => rw [List.foldl_cons, ih, h]

/-! Reads and faults. -/

@[simp] theorem markZone_gen (i : Nat) (e : Ev) : (markZone i e).st.gen = e.st.gen := by
  unfold markZone; split <;> simp
@[simp] theorem readZone_gen (e : Ev) (i : Nat) : (readZone e i).st.gen = e.st.gen := by
  unfold readZone; split <;> simp
@[simp] theorem foldl_readZone_gen (ids : List Nat) (e : Ev) : (ids.foldl readZone e).st.gen = e.st.gen :=
  foldl_gen _ readZone_gen _ _
@[simp] theorem readZones_gen (e : Ev) : (readZones e).st.gen = e.st.gen := by
  unfold readZones; exact foldl_readZone_gen zoneIds e
@[simp] theorem motionRead_gen (ids : List Nat) (e : Ev) : (motionRead ids e).1.st.gen = e.st.gen := by
  unfold motionRead; split <;> simp
theorem gen_of_motionRead {ids : List Nat} {e e' : Ev} {o : Option Nat} (h : motionRead ids e = (e', o)) :
    e'.st.gen = e.st.gen := by
  simpa [h] using motionRead_gen ids e
@[simp] theorem readCue_gen (e : Ev) (n : Nat) : (readCue e n).st.gen = e.st.gen := by
  unfold readCue
  repeat' split
  all_goals simp
@[simp] theorem reportFault_gen (c : FaultClass) (j : FaultSubject) (e : Ev) : (reportFault c j e).st.gen = e.st.gen := by
  rw [reportFault_st]
@[simp] theorem raiseWinches_gen (f : EventFlag) (h : Winch → Bool) (e : Ev) : (raiseWinches f h e).st.gen = e.st.gen := by
  rw [raiseWinches_eq]

/-! The cell lists and the cues. -/

@[simp] theorem suspectCell_gen (n : Nat) (e : Ev) : (suspectCell n e).st.gen = e.st.gen := by
  unfold suspectCell; split <;> simp
@[simp] theorem rebuildCell_gen (n : Nat) (e : Ev) : (rebuildCell n e).st.gen = e.st.gen := by simp [rebuildCell]
@[simp] theorem changeCell_gen (n : Nat) (f : List Nat → List Nat) (e : Ev) : (changeCell n f e).st.gen = e.st.gen := by
  unfold changeCell; dsimp only
  repeat' split
  all_goals simp
@[simp] theorem computeBlocked_gen (e : Ev) (n : Nat) : (computeBlocked e n).st.gen = e.st.gen := by
  unfold computeBlocked; dsimp only; split <;> simp
@[simp] theorem recomputeOne_gen (e : Ev) (n : Nat) : (recomputeOne e n).st.gen = e.st.gen := by
  unfold recomputeOne; split <;> simp
@[simp] theorem recomputeBlocked_gen (e : Ev) : (recomputeBlocked e).st.gen = e.st.gen := by
  unfold recomputeBlocked; exact foldl_gen _ recomputeOne_gen _ _

/-! Table operations. -/

@[simp] theorem closeOp_gen (op : TableOp) (e : Ev) : (closeOp op e).st.gen = e.st.gen := by
  unfold closeOp; dsimp only
  repeat' split
  all_goals simp
@[simp] theorem beginOp_gen (op : TableOp) (e : Ev) : (beginOp op e).st.gen = e.st.gen := by
  unfold beginOp; split <;> simp
@[simp] theorem beginWork_gen (w : Work) (e : Ev) : (beginWork w e).st.gen = e.st.gen := by
  cases w <;> simp [beginWork, takeExpiry]
@[simp] theorem runWaiting_gen (ws : List Work) (e : Ev) : (runWaiting ws e).st.gen = e.st.gen := by
  induction ws generalizing e with
  | nil => simp [runWaiting]
  | cons w ws ih =>
    unfold runWaiting; dsimp only
    repeat' split
    all_goals simp [ih]
@[simp] theorem runIfIdle_gen (e : Ev) : (runIfIdle e).st.gen = e.st.gen := by unfold runIfIdle; split <;> simp
@[simp] theorem orderWork_gen (ws : List Work) (e : Ev) : (orderWork ws e).st.gen = e.st.gen := by simp [orderWork]
@[simp] theorem endOp_gen (op : TableOp) (e : Ev) : (endOp op e).st.gen = e.st.gen := by simp [endOp]
@[simp] theorem orderRebuild_gen (n : Nat) (e : Ev) : (orderRebuild n e).st.gen = e.st.gen := by
  unfold orderRebuild; split <;> simp
@[simp] theorem readCell_gen (n : Nat) (e : Ev) : (readCell n e).st.gen = e.st.gen := by
  unfold readCell; split <;> simp
@[simp] theorem countCell_gen (i : Option Nat) (n : Nat) (e : Ev) : (countCell i n e).1.st.gen = e.st.gen := by
  unfold countCell; dsimp only; split <;> simp
@[simp] theorem firstFull_gen (i : Option Nat) (ns : List Nat) (e : Ev) : (firstFull i ns e).1.st.gen = e.st.gen := by
  induction ns generalizing e with
  | nil => rfl
  | cons n ns ih => unfold firstFull; dsimp only; split <;> simp [ih]
@[simp] theorem visit_gen (op : TableOp) (e : Ev) : (visit op e).st.gen = e.st.gen := by
  unfold visit; split <;> simp
@[simp] theorem fallDueIfSpent_gen (i : Nat) (e : Ev) : (fallDueIfSpent i e).st.gen = e.st.gen := by
  unfold fallDueIfSpent; split <;> simp
@[simp] theorem settle_gen (i : Nat) (b : Box) (e : Ev) : (settle i b e).st.gen = e.st.gen := by
  unfold settle; split <;> simp
theorem startPhase_gen (op : TableOp) (e : Ev) (f : TableOp → Ev → Ev) (hf : ∀ op e, (f op e).st.gen = e.st.gen) :
    (startPhase op e f).st.gen = e.st.gen := by
  unfold startPhase; split <;> simp [hf]
@[simp] theorem startRemoval_gen (op : TableOp) (b : Bool) (p : VisitPlan) (e : Ev) :
    (startRemoval op b p e).st.gen = e.st.gen := startPhase_gen _ _ _ endOp_gen
@[simp] theorem amendArming_gen (id : Nat) (z : Zone) (p : PendingBox) (c : ArmCond) (e : Ev) :
    (amendArming id z p c e).st.gen = e.st.gen := by simp [amendArming]

/-! Requests and events of other blocks. -/

@[simp] theorem amendInPlace_gen (l : Link) (z : Zone) (f : ZoneAmendFields) (e : Ev) :
    (amendInPlace l z f e).st.gen = e.st.gen := by simp [amendInPlace]
@[simp] theorem zoneQuery_gen (l : Link) (n : Nat) (e : Ev) : (zoneQuery l n e).st.gen = e.st.gen := by
  unfold zoneQuery; split <;> simp
@[simp] theorem zoneList_gen (l : Link) (e : Ev) : (zoneList l e).st.gen = e.st.gen := by simp [zoneList]
@[simp] theorem pointLookup_gen (l : Link) (p : Vec3) (e : Ev) : (pointLookup l p e).st.gen = e.st.gen := by
  unfold pointLookup; dsimp only
  repeat' split
  all_goals simp
@[simp] theorem countDown_gen (e : Ev) (id : Nat) : (countDown e id).st.gen = e.st.gen := by
  unfold countDown; dsimp only
  repeat' split
  all_goals simp
@[simp] theorem oneSecond_gen (e : Ev) : (oneSecond e).st.gen = e.st.gen := by
  unfold oneSecond; split <;> simp [foldl_gen countDown countDown_gen]
@[simp] theorem cueStore_gen (l : Link) (f : CueStoreFields) (e : Ev) : (cueStore l f e).st.gen = e.st.gen := by
  unfold cueStore storeCue
  repeat' split
  all_goals simp
@[simp] theorem cueAmend_gen (l : Link) (f : CueAmendFields) (e : Ev) : (cueAmend l f e).st.gen = e.st.gen := by
  unfold cueAmend amendCue; dsimp only
  repeat' split
  all_goals simp
@[simp] theorem cueRetire_gen (l : Link) (f : RetireFields) (e : Ev) : (cueRetire l f e).st.gen = e.st.gen := by
  unfold cueRetire; dsimp only
  repeat' split
  all_goals simp
@[simp] theorem cueQuery_gen (l : Link) (n : Nat) (e : Ev) : (cueQuery l n e).st.gen = e.st.gen := by
  unfold cueQuery; split <;> simp
@[simp] theorem cueList_gen (l : Link) (e : Ev) : (cueList l e).st.gen = e.st.gen := by
  simp [cueList, foldl_gen readCue readCue_gen]
theorem gen_of_resolveCue {n : Nat} {e e' : Ev} {r : Resolved} (h : resolveCue n e = (e', r)) :
    e'.st.gen = e.st.gen := by
  have kept : (resolveCue n e).1.st.gen = e.st.gen := by
    unfold resolveCue; dsimp only
    repeat' split
    all_goals simp
  simpa [h] using kept
@[simp] theorem wearQuery_gen (l : Link) (n : Nat) (e : Ev) : (wearQuery l n e).st.gen = e.st.gen := by
  unfold wearQuery; split <;> simp
@[simp] theorem rewriteWear_gen (l : Link) (n : Nat) (c : Vector Nat 64) (e : Ev) :
    (rewriteWear l n c e).st.gen = e.st.gen := by
  unfold rewriteWear
  repeat' split
  all_goals simp
@[simp] theorem setLimits_gen (l : Link) (v : Limits) (e : Ev) : (setLimits l v e).st.gen = e.st.gen := by
  unfold setLimits
  repeat' split
  all_goals simp
@[simp] theorem lock_gen (l : Link) (e : Ev) : (lock l e).st.gen = e.st.gen := by unfold lock; split <;> simp
@[simp] theorem clearEvents_gen (l : Link) (m : BitVec 32) (e : Ev) : (clearEvents l m e).st.gen = e.st.gen := by
  unfold clearEvents; split <;> simp
@[simp] theorem setNotices_gen (l : Link) (m : BitVec 32) (e : Ev) : (setNotices l m e).st.gen = e.st.gen := by
  unfold setNotices; split <;> simp
@[simp] theorem scrub_gen (e : Ev) : (scrub e).st.gen = e.st.gen := by
  unfold scrub scrubItem
  repeat' split
  all_goals simp
@[simp] theorem feedIfMoved_gen (w : Winch) (b : Bool) (o : Option Int) (m : Nat) (e : Ev) :
    (feedIfMoved w b o m e).st.gen = e.st.gen := by
  unfold feedIfMoved feedWear; dsimp only
  repeat' split
  all_goals simp

end Sys2Proof.Machine
end

