-- ==== Sys2Proof/Proofs/HeldMoves.lean ====
section
/-! SUPPORT. The moves a generator holds (R99 to R101): how often each id is held, changes that hold nothing new, and the moves that
are taken up, pushed and admitted. -/

namespace Sys2Proof.Machine

/-! How often an id is held. -/

/-- How often a move id is held by the executing move, the waiting priority move, the queue and the stack (R99). -/
def Generator.held (g : Generator) (a : Nat) : Nat :=
  (g.flight.toList.map fun f => f.move.id).count a + (g.waiting.toList.map Move.id).count a +
    (g.queue.map Move.id).count a + (g.stack.map fun c => c.move.id).count a

theorem count_heldIds (g : Generator) (a : Nat) : (heldIds g).count a = g.held a := by
  have reversed : (g.stack.reverse.map fun c => c.move.id).count a = (g.stack.map fun c => c.move.id).count a :=
    ((List.reverse_perm g.stack).map _).count_eq a
  rw [heldIds, allIds_eq, Generator.droppedIds, List.count_append, List.count_append, List.count_append, reversed]
  rfl

theorem mem_heldIds_iff {g : Generator} {a : Nat} : a ∈ heldIds g ↔ 0 < g.held a := by
  rw [← count_heldIds, List.count_pos_iff]

/-- The generator brakes for a push of its executing move (R101, R110). -/
def Generator.pushes (g : Generator) : Prop := g.state = .braking ∧ (g.purpose = some .hold ∨ g.purpose = some .priority)

/-- The law of R99 to R101, with each id counted. -/
theorem collectionsLaw_iff (g : Generator) :
    g.collectionsLaw ↔
      g.queue.length ≤ 8 ∧ g.stack.length ≤ 4 ∧ (g.pushes → g.stack.length ≤ 3) ∧ ∀ a, g.held a ≤ 1 := by
  simp only [Generator.collectionsLaw, Generator.pushes, List.nodup_iff_count_le_one, count_heldIds, and_imp]

/-! Changes that hold nothing new. -/

/-- A generator holds no more than another: no id oftener, no longer queue or stack, and it brakes for a push only where the
other does. -/
structure Generator.Within (g g' : Generator) : Prop where
  ids : ∀ a, g'.held a ≤ g.held a
  queue : g'.queue.length ≤ g.queue.length
  stack : g'.stack.length ≤ g.stack.length
  room : g'.pushes → g.pushes

theorem Generator.Within.refl (g : Generator) : g.Within g := ⟨fun _ => le_rfl, le_rfl, le_rfl, id⟩

theorem Generator.Within.trans {g g' g'' : Generator} (h : g.Within g') (h' : g'.Within g'') : g.Within g'' :=
  ⟨fun a => (h'.ids a).trans (h.ids a), h'.queue.trans h.queue, h'.stack.trans h.stack, fun p => h.room (h'.room p)⟩

theorem Generator.Within.law {g g' : Generator} (h : g.Within g') (hg : g.collectionsLaw) : g'.collectionsLaw := by
  rw [collectionsLaw_iff] at hg ⊢
  obtain ⟨queue, stack, room, ids⟩ := hg
  exact ⟨h.queue.trans queue, h.stack.trans stack, fun p => h.stack.trans (room (h.room p)),
    fun a => (h.ids a).trans (ids a)⟩

/-- What neither the collections nor the push concerns may change. -/
theorem within_of_same {g g' : Generator} (hf : g'.flight = g.flight) (hw : g'.waiting = g.waiting)
    (hq : g'.queue = g.queue) (hs : g'.stack = g.stack) (hp : g'.pushes → g.pushes) : g.Within g' :=
  ⟨fun a => by simp only [Generator.held, hf, hw, hq, hs, le_refl], hq ▸ le_rfl, hs ▸ le_rfl, hp⟩

/-- A generator that holds nothing and does not brake. -/
theorem within_of_empty {g g' : Generator} (hf : g'.flight = none) (hw : g'.waiting = none) (hq : g'.queue = [])
    (hs : g'.stack = []) (hb : g'.state ≠ .braking) : g.Within g' :=
  ⟨fun a => by simp [Generator.held, hf, hw, hq, hs], by simp [hq], by simp [hs], fun p => absurd p.1 hb⟩

/-- A generator that rests in a state has no executing move (R107). -/
theorem within_resting (g : Generator) {st : GenState} (h : st ≠ .braking) : g.Within (g.resting st) :=
  ⟨fun a => by simp [Generator.held, Generator.resting], le_rfl, le_rfl, fun p => absurd p.1 h⟩

/-- A move along its path may brake for anything but a push. -/
theorem within_brakeMove (g : Generator) {p : Purpose} (hh : p ≠ .hold) (hp : p ≠ .priority) : g.Within (brakeMove p g) :=
  within_of_same rfl rfl rfl rfl fun h => (h.2.elim (fun e => hh (Option.some_inj.1 e))
    fun e => hp (Option.some_inj.1 e)).elim

theorem within_brakeJog (g : Generator) (p : JogPurpose) : g.Within (brakeJog p g) :=
  within_of_same rfl rfl rfl rfl id

theorem held_without_le (g : Generator) (b : Box) (a : Nat) : (g.without b).held a ≤ g.held a := by
  have queue : ((g.queue.filter fun m => !boxHas b m.target).map Move.id).count a ≤ (g.queue.map Move.id).count a :=
    (List.filter_sublist.map _).count_le a
  have stack : ((g.stack.filter fun c => !boxHas b c.move.target).map fun c => c.move.id).count a ≤
      (g.stack.map fun c => c.move.id).count a := (List.filter_sublist.map _).count_le a
  simp only [Generator.held, Generator.without]
  omega

/-- An activation drops moves from the queue and the stack (R92). -/
theorem within_without (g : Generator) (b : Box) : g.Within (g.without b) :=
  ⟨held_without_le g b, List.length_filter_le _ _, List.length_filter_le _ _, id⟩

/-! A held move is taken up. -/

/-- The contexts hold the ids of their moves. -/
theorem count_contexts (cs : List Context) (a : Nat) :
    (cs.map fun c => c.move.id).count a = ((cs.map Context.move).map Move.id).count a := by
  rw [List.map_map]; rfl

/-- A move becomes the executing move of a generator (R105). -/
def Generator.flying (g : Generator) (f : Flight) : Generator :=
  { g with state := .moving, v := 0, purpose := none, flight := some f }

theorem flyMove_gen (m : Move) (s : State) : (flyMove m s).gen = s.gen.flying (flightFrom m (posOf s)) := rfl

theorem not_pushes_flying (g : Generator) (f : Flight) : ¬(g.flying f).pushes := fun p => by cases p.1

section
variable (g : Generator) (f : Flight)

/-- The head of the queue flies: its id leaves the queue (R107, item 5). -/
theorem within_queue_flying {m : Move} {r : List Move} (h : g.queue = m :: r) (hf : f.move = m) :
    g.Within ({ g with queue := r }.flying f) where
  ids a := by
    simp only [Generator.held, Generator.flying, h, hf, Option.toList_some, List.map_cons, List.map_nil, List.count_cons,
      List.count_nil]
    omega
  queue := by simp [Generator.flying, h]
  stack := le_rfl
  room p := absurd p (not_pushes_flying _ f)

/-- The top context flies: its id leaves the stack (R107, item 4). -/
theorem within_stack_flying {m : Move} {r : List Context} (h : g.stack.map Context.move = m :: r.map Context.move)
    (hf : f.move = m) : g.Within ({ g with stack := r }.flying f) where
  ids a := by
    simp only [Generator.held, Generator.flying, count_contexts, h, hf, Option.toList_some, List.map_cons, List.map_nil,
      List.count_cons, List.count_nil]
    omega
  queue := le_rfl
  stack := by
    have shorter : r.length + 1 = g.stack.length := by simpa using (congrArg List.length h).symm
    simp only [Generator.flying]
    omega
  room p := absurd p (not_pushes_flying _ f)

/-- The waiting priority move flies (R107, item 2). -/
theorem within_waiting_flying {m : Move} (h : g.waiting = some m) (hf : f.move = m) :
    g.Within ({ g with waiting := none }.flying f) where
  ids a := by
    simp only [Generator.held, Generator.flying, h, hf, Option.toList_some, Option.toList_none, List.map_cons,
      List.map_nil, List.count_nil]
    omega
  queue := le_rfl
  stack := le_rfl
  room p := absurd p (not_pushes_flying _ f)

end

/-- A queue that has lost its head. -/
theorem within_queue_tail {g : Generator} {m : Move} {r : List Move} (h : g.queue = m :: r) :
    g.Within { g with queue := r } :=
  ⟨fun a => by simp only [Generator.held, h, List.map_cons, List.count_cons]; omega, by simp [h], le_rfl, id⟩

/-- A stack of the same moves, or one that has lost its top. -/
theorem within_stack {g : Generator} {r : List Context} (h : (r.map Context.move).Sublist (g.stack.map Context.move)) :
    g.Within { g with stack := r } where
  ids a := by
    have fewer := (h.map Move.id).count_le a
    simp only [Generator.held, count_contexts]
    omega
  queue := le_rfl
  stack := by simpa using h.length_le
  room := id

/-- No priority move waits any more. -/
theorem within_waiting_none (g : Generator) : g.Within { g with waiting := none } :=
  ⟨fun a => by simp [Generator.held], le_rfl, le_rfl, id⟩

/-! A braked move is pushed (R101). -/

/-- The executing move leaves for the top of the stack. -/
def Generator.pushed (g : Generator) (m : Move) (r : Resume) : Generator :=
  { g with stack := ⟨m, r⟩ :: g.stack, flight := none, v := 0, purpose := none }

/-- A generator that brakes for the push has the room for it. -/
theorem pushed_law {g : Generator} {f : Flight} {m : Move} (r : Resume) (h : g.collectionsLaw) (hp : g.pushes)
    (hf : g.flight = some f) (hm : f.move = m) : (g.pushed m r).collectionsLaw := by
  rw [collectionsLaw_iff] at h ⊢
  obtain ⟨queue, -, room, ids⟩ := h
  refine ⟨queue, Nat.succ_le_succ (room hp), fun p => (p.2.elim nofun nofun), fun a => ?_⟩
  have id := ids a
  simp only [Generator.held, Generator.pushed, hf, hm, Option.toList_some, Option.toList_none, List.map_cons,
    List.map_nil, List.count_cons, List.count_nil] at id ⊢
  omega

/-! Ids that are not held (R99). -/

theorem length_heldIds_le {g : Generator} (h : g.collectionsLaw) : (heldIds g).length ≤ 14 := by
  obtain ⟨queue, stack, -, -⟩ := h
  have flight : (g.flight.map fun f => f.move.id).toList.length ≤ 1 := by cases g.flight <;> simp
  have waiting : (g.waiting.map Move.id).toList.length ≤ 1 := by cases g.waiting <;> simp
  simp only [heldIds, allIds, waitingIds, List.length_append, List.length_map, List.length_reverse]
  omega

/-- The first ids from a number on, in the order of R99. -/
def idsFrom : Nat → Nat → List Nat
  | 0, _ => []
  | k + 1, n => n :: idsFrom k (nextId n)

/-- Ids come round again only after 65,535 (R99): fewer of them from 1 on ascend. -/
theorem mem_idsFrom {k n a : Nat} (hk : n + k ≤ 65536) (h : a ∈ idsFrom k n) : n ≤ a ∧ a < n + k := by
  induction k generalizing n with
  | zero => cases h
  | succ k ih =>
    rcases List.mem_cons.1 h with rfl | h
    · omega
    · by_cases hn : 65535 ≤ n
      · obtain rfl : k = 0 := by omega
        cases h
      · rw [nextId, if_neg hn] at h
        have := ih (by omega) h
        omega

/-- Ids that pass 65,535 go on from 1 (R99). -/
theorem mem_idsFrom_wrapping {k n a : Nat} (hk : k ≤ 65535) (h : a ∈ idsFrom k n) :
    n ≤ a ∧ a < n + k ∨ 65536 < n + k ∧ 1 ≤ a ∧ a ≤ k := by
  induction k generalizing n with
  | zero => cases h
  | succ k ih =>
    rcases List.mem_cons.1 h with rfl | h
    · omega
    · by_cases hn : 65535 ≤ n
      · rw [nextId, if_pos hn] at h
        have := mem_idsFrom (by omega) h
        by_cases hk0 : k = 0
        · subst hk0; cases h
        · omega
      · rw [nextId, if_neg hn] at h
        have := ih (by omega) h
        omega

theorem nodup_idsFrom {k n : Nat} (hk : k ≤ 15) : (idsFrom k n).Nodup := by
  induction k generalizing n with
  | zero => exact .nil
  | succ k ih =>
    refine List.nodup_cons.2 ⟨fun h => ?_, ih (by omega)⟩
    by_cases hn : 65535 ≤ n
    · rw [nextId, if_pos hn] at h
      have := mem_idsFrom (by omega) h
      omega
    · rw [nextId, if_neg hn] at h
      have := mem_idsFrom_wrapping (by omega) h
      omega

/-- The search passes over held ids alone. -/
theorem freshFrom_held {held : List Nat} {k n : Nat} (h : freshFrom held k n ∈ held) : ∀ a ∈ idsFrom k n, a ∈ held := by
  induction k generalizing n with
  | zero => exact fun a ha => nomatch ha
  | succ k ih =>
    rw [freshFrom] at h
    split at h
    · next taken =>
      intro a ha
      rcases List.mem_cons.1 ha with rfl | ha
      · simpa using taken
      · exact ih h a ha
    · next free => exact absurd (by simpa using h) free

/-- Of 15 ids one is free where at most 14 are held (R99). -/
theorem takeId_fresh {g : Generator} (h : g.collectionsLaw) : g.held (takeId g).1 = 0 := by
  by_contra taken
  have held : ∀ a ∈ idsFrom 15 g.nextId, a ∈ heldIds g :=
    freshFrom_held (mem_heldIds_iff.2 (Nat.pos_of_ne_zero taken))
  have fits : (idsFrom 15 g.nextId).length ≤ (heldIds g).length :=
    ((nodup_idsFrom le_rfl).subperm held).length_le
  have fewer := length_heldIds_le h
  simp only [idsFrom, List.length_cons, List.length_nil] at fits
  omega

section
variable {g : Generator} (h : g.collectionsLaw) {m : Move} (hm : m.id = (takeId g).1) (n : Nat)
include h hm

/-- A new move joins a queue with room (R103). -/
theorem queued_law (room : g.queue.length < 8) : { g with queue := g.queue ++ [m], nextId := n }.collectionsLaw := by
  have fresh := takeId_fresh h
  rw [collectionsLaw_iff] at h ⊢
  obtain ⟨-, stack, pushes, ids⟩ := h
  refine ⟨by simpa using room, stack, pushes, fun a => ?_⟩
  have id := ids a
  by_cases ha : m.id = a
  · rw [← hm, ha] at fresh
    simp only [Generator.held, List.map_append, List.count_append, List.map_cons, List.map_nil, ha,
      List.count_singleton_self] at fresh ⊢
    omega
  · simpa [Generator.held, List.count_singleton, ha] using id

/-- A new priority move waits, in place of any other (R104). -/
theorem waiting_law : { g with waiting := some m, nextId := n }.collectionsLaw := by
  have fresh := takeId_fresh h
  rw [collectionsLaw_iff] at h ⊢
  obtain ⟨queue, stack, pushes, ids⟩ := h
  refine ⟨queue, stack, pushes, fun a => ?_⟩
  have id := ids a
  simp only [Generator.held, Option.toList_some, List.map_cons, List.map_nil, List.count_singleton, beq_iff_eq] at id fresh ⊢
  split
  · next ha => subst ha; rw [hm]; omega
  · omega

/-- A new move flies at once (R86). -/
theorem flying_law {f : Flight} (hf : f.move = m) : ({ g with nextId := n }.flying f).collectionsLaw := by
  have fresh := takeId_fresh h
  rw [collectionsLaw_iff] at h ⊢
  obtain ⟨queue, stack, -, ids⟩ := h
  refine ⟨queue, stack, fun p => absurd p (not_pushes_flying _ f), fun a => ?_⟩
  have id := ids a
  simp only [Generator.held, Generator.flying, hf, Option.toList_some, List.map_cons, List.map_nil, List.count_singleton,
    beq_iff_eq] at id fresh ⊢
  split
  · next ha => subst ha; rw [hm]; omega
  · omega

end

end Sys2Proof.Machine
end

