-- ==== Sys2Proof/Proofs/GeneratorLaws.lean ====
section
/-! SUPPORT. The law of the move collections (R99 to R101) and the standing of STOPPED, UNREGISTERED and HALTED (R96) through the
operations that the commands share. -/

namespace Sys2Proof.Machine

/-- The generator states that only their own commands leave (R97, R118, R120 to R122). -/
def Generator.off (g : Generator) : Prop := g.state = .unregistered ∨ g.state = .stopped ∨ g.state = .halted

/-- A generator follows another: it keeps the law of the collections, and where the other is UNREGISTERED, STOPPED or HALTED it
stays so, but for a trip from HALTED to STOPPED (R117). -/
structure Generator.Follows (g g' : Generator) : Prop where
  law : g.collectionsLaw → g'.collectionsLaw
  stands : g.off → g'.state = g.state ∨ g.state = .halted ∧ g'.state = .stopped

theorem Generator.Follows.refl (g : Generator) : g.Follows g := ⟨id, fun _ => .inl rfl⟩

theorem Generator.Follows.trans {g g' g'' : Generator} (h : g.Follows g') (h' : g'.Follows g'') : g.Follows g'' := by
  refine ⟨fun l => h'.law (h.law l), fun off => ?_⟩
  obtain same | ⟨halted, stopped⟩ := h.stands off
  · have off' : g'.off := by unfold Generator.off; rw [same]; exact off
    rw [← same]
    exact h'.stands off'
  · obtain same' | ⟨halted', -⟩ := h'.stands (.inr (.inl stopped))
    · exact .inr ⟨halted, same'.trans stopped⟩
    · rw [stopped] at halted'; cases halted'

theorem follows_of_eq {g g' : Generator} (h : g' = g) : g.Follows g' := h ▸ .refl g

/-- A change that holds nothing new and leaves the state. -/
theorem Generator.Within.follows {g g' : Generator} (h : g.Within g') (hs : g'.state = g.state) : g.Follows g' :=
  ⟨h.law, fun _ => .inl hs⟩

/-- A generator in IDLE, HELD or under way need only keep the law. -/
theorem follows_of_on {g g' : Generator} (h : ¬g.off) (law : g.collectionsLaw → g'.collectionsLaw) : g.Follows g' :=
  ⟨law, fun off => absurd off h⟩

theorem not_off {g : Generator} {st : GenState} (h : g.state = st)
    (hs : st = .idle ∨ st = .moving ∨ st = .jogging ∨ st = .braking ∨ st = .held) : ¬g.off := by
  subst h
  unfold Generator.off
  rcases hs with h | h | h | h | h <;> simp [h]

/-- A fold of operations that each follow. -/
theorem foldl_follows {α : Type} (f : Ev → α → Ev) (h : ∀ (e : Ev) (a : α), e.st.gen.Follows (f e a).st.gen) (l : List α) (e : Ev) :
    e.st.gen.Follows (l.foldl f e).st.gen := by
  induction l generalizing e with
  | nil => exact .refl _
  | cons a l ih => exact (h e a).trans (ih (f e a))

/-! Halts and trips (R115 to R117). -/

theorem enterHalted_within (e : Ev) : e.st.gen.Within (enterHalted e).st.gen := by
  rw [enterHalted_st]; exact within_of_empty rfl rfl rfl rfl nofun
theorem enterStopped_within (e : Ev) : e.st.gen.Within (enterStopped e).st.gen := by
  rw [enterStopped_st]; exact within_of_empty rfl rfl rfl rfl nofun
theorem enterStopped_state (e : Ev) : (enterStopped e).st.gen.state = .stopped := by rw [enterStopped_st]; rfl

theorem trip_follows (e : Ev) : e.st.gen.Follows (trip e).st.gen := by
  obtain ⟨-, h⟩ | ⟨unregistered, stopped, h⟩ := trip_cases e
  · rw [h]; exact .refl _
  · rw [h]
    refine ⟨(enterStopped_within e).law, fun off => .inr ⟨?_, enterStopped_state e⟩⟩
    exact (off.resolve_left unregistered).resolve_left stopped

theorem quickStop_follows (e : Ev) : e.st.gen.Follows (quickStop e).st.gen := by
  obtain ⟨-, h⟩ | ⟨unregistered, stopped, halted, h⟩ := quickStop_cases e
  · rw [h]; exact .refl _
  · rw [h]
    exact follows_of_on (fun off => off.elim unregistered fun off => off.elim stopped halted) (enterHalted_within e).law

theorem controlledHalt_follows (e : Ev) : e.st.gen.Follows (controlledHalt e).st.gen := by
  obtain ⟨hs, h⟩ | ⟨hs, h⟩ | ⟨hs, h⟩ | ⟨-, h⟩ := controlledHalt_cases e <;> rw [h]
  · have on : ¬e.st.gen.off := by rcases hs with hs | hs <;> exact not_off hs (by simp)
    exact follows_of_on on (within_brakeMove e.st.gen (p := .halt) nofun nofun).law
  · exact (within_brakeJog _ _).follows rfl
  · have on : ¬e.st.gen.off := by rcases hs with hs | hs <;> exact not_off hs (by simp)
    exact follows_of_on on (enterHalted_within e).law
  · exact .refl _

theorem reportFault_trip_follows (c : FaultClass) (j : FaultSubject) (e : Ev) :
    e.st.gen.Follows (trip (reportFault c j e)).st.gen := by
  simpa using trip_follows (reportFault c j e)
theorem reportFault_quickStop_follows (c : FaultClass) (j : FaultSubject) (e : Ev) :
    e.st.gen.Follows (quickStop (reportFault c j e)).st.gen := by
  simpa using quickStop_follows (reportFault c j e)
theorem reportFault_controlledHalt_follows (c : FaultClass) (j : FaultSubject) (e : Ev) :
    e.st.gen.Follows (controlledHalt (reportFault c j e)).st.gen := by
  simpa using controlledHalt_follows (reportFault c j e)

theorem motionFailure_follows (i : Nat) (e : Ev) : e.st.gen.Follows (motionFailure i e).st.gen :=
  reportFault_quickStop_follows _ _ e

theorem settleReads_follows (e : Ev) : e.st.gen.Follows (settleReads e).st.gen := by
  unfold settleReads
  split
  · exact .refl _
  · exact (foldl_follows _ (fun e i => follows_of_eq (reportFault_gen _ _ e)) _ e).trans (controlledHalt_follows _)

/-- What is put out at an event's end leaves the generator. -/
theorem finish_gen (g : GenState) (e : Ev) : (finish g e).gen = (settleReads e).st.gen := by rw [finish_console]

theorem finish_follows (g : GenState) (e : Ev) : e.st.gen.Follows (finish g e).gen := by
  rw [finish_gen]; exact settleReads_follows e

/-! Activation and withdrawal (R33 to R35, R92). -/

theorem dropInside_gen (b : Box) (e : Ev) : (dropInside b e).st.gen = e.st.gen.without b := by
  simp [dropInside, Generator.without]

/-- An activation holds nothing new and leaves the state: it may drop moves from the queue and the stack. -/
theorem activationEffects_within (i : Nat) (a : Bool) (e : Ev) :
    e.st.gen.Within (activationEffects i a e).st.gen ∧ (activationEffects i a e).st.gen.state = e.st.gen.state := by
  have drops (b : Box) : e.st.gen.Within (dropInside b e).st.gen ∧ (dropInside b e).st.gen.state = e.st.gen.state := by
    rw [dropInside_gen]; exact ⟨within_without _ b, rfl⟩
  have keeps : e.st.gen.Within e.st.gen ∧ e.st.gen.state = e.st.gen.state := ⟨.refl _, rfl⟩
  unfold activationEffects
  split
  · exact keeps
  · dsimp only
    split
    all_goals
      simp only [raise_st, recomputeBlocked_gen]
      repeat' split
      · exact drops _
      · exact keeps
      · exact keeps

theorem activationEffects_follows (i : Nat) (a : Bool) (e : Ev) :
    e.st.gen.Follows (activationEffects i a e).st.gen :=
  (activationEffects_within i a e).1.follows (activationEffects_within i a e).2

/-- An activation follows the generator of the event it is given, however that came about. -/
theorem activationEffects_follows_of {g : Generator} {e : Ev} (h : e.st.gen = g) (i : Nat) (a : Bool) :
    g.Follows (activationEffects i a e).st.gen := h ▸ activationEffects_follows i a e

theorem makeActive_follows (b : Bool) (i : Nat) (e : Ev) : e.st.gen.Follows (makeActive b i e).st.gen := by
  unfold makeActive; dsimp only
  split
  · exact follows_of_eq (by simp)
  · split
    · rw [fallDueIfSpent_gen]
      exact activationEffects_follows_of (by simp) _ _
    · split
      · rw [settle_gen, fallDueIfSpent_gen]
        exact activationEffects_follows_of (by simp) _ _
      · rw [fallDueIfSpent_gen]
        exact activationEffects_follows_of (by simp) _ _

theorem makeActive_foldl_follows (b : Bool) (ids : List Nat) (e : Ev) :
    e.st.gen.Follows (ids.foldl (fun e i => makeActive b i e) e).st.gen :=
  foldl_follows _ (fun e i => makeActive_follows b i e) ids e

theorem withdraw_follows (i : Nat) (e : Ev) : e.st.gen.Follows (withdraw i e).st.gen := by
  unfold withdraw; dsimp only
  split
  · exact follows_of_eq (by simp)
  · split
    · exact follows_of_eq (by simp)
    · rw [raise_st, settle_gen, fallDueIfSpent_gen]
      exact activationEffects_follows_of (by simp) _ _

/-! The resolution of the arming set (R84). -/

theorem activationPass_law (ids : List Nat) (e : Ev) (h : e.st.gen.collectionsLaw) :
    (activationPass ids e).st.gen.collectionsLaw := by
  refine Generator.Follows.law (foldl_follows _ (fun e i => ?_) ids e) h
  split
  · exact .refl _
  · exact makeActive_follows true i e

theorem beginExit_gen (i : Nat) (t : Vec3) (s : State) :
    (beginExit i t s).gen =
      { s.gen with nextId := (takeId s.gen).2 }.flying
        (flightFrom ⟨(takeId s.gen).1, .exit, t, none, topSpeed s⟩ (posOf s)) := rfl

theorem beginExit_law (i : Nat) (t : Vec3) (s : State) (h : s.gen.collectionsLaw) :
    (beginExit i t s).gen.collectionsLaw := by
  rw [beginExit_gen]
  exact flying_law (m := ⟨(takeId s.gen).1, .exit, t, none, topSpeed s⟩) h rfl _ rfl

theorem planningPass_law (ids : List Nat) (e : Ev) (h : e.st.gen.collectionsLaw) :
    (planningPass ids e).st.gen.collectionsLaw := by
  induction ids generalizing e with
  | nil => exact h
  | cons i ids ih =>
    have read : (readZones e).st.gen.collectionsLaw := by rwa [readZones_gen]
    unfold planningPass; dsimp only
    split
    · rw [upd_st, onEnvelope_gen]
      exact beginExit_law i _ _ read
    · exact ih _ ((withdraw_follows i _).law read)

theorem resolveArming_law (e : Ev) (h : e.st.gen.collectionsLaw) : (resolveArming e).st.gen.collectionsLaw := by
  have read : ((armingIds e.st).foldl readZone e).st.gen.collectionsLaw := by rwa [foldl_readZone_gen]
  unfold resolveArming; dsimp only
  exact planningPass_law _ _ (activationPass_law _ _ read)

/-! The beginning of moves and the succession (R105, R107). -/

/-- A move begins and flies, or the generator is left as it was. -/
theorem tryBegin_gen (m : Move) (e : Ev) :
    (tryBegin m e).2 = false ∧ (tryBegin m e).1.st.gen = e.st.gen ∨
      (tryBegin m e).2 = true ∧ ∃ p, (tryBegin m e).1.st.gen = e.st.gen.flying (flightFrom m p) := by
  unfold tryBegin; dsimp only
  repeat' split
  · exact .inl ⟨rfl, by simp⟩
  · exact .inr ⟨rfl, posOf (readZones e).st, by rw [upd_st, flyMove_gen, readZones_gen]⟩
  · exact .inl ⟨rfl, by simp⟩

theorem restIn_gen (st : GenState) (s : State) : (restIn st s).gen = s.gen.resting st := rfl
theorem clearFlight_gen (s : State) : (clearFlight s).gen = { s.gen with flight := none, v := 0, purpose := none } := rfl

theorem within_clearFlight (s : State) : s.gen.Within (clearFlight s).gen :=
  ⟨fun a => by simp [Generator.held, clearFlight_gen], le_rfl, le_rfl, fun p => p.2.elim nofun nofun⟩

/-- The generator rests in IDLE and a queue takes the place of its own (R107, item 5). -/
theorem resting_queue_gen (q : List Move) (s : State) :
    (restIn .idle (onGen (fun g => { g with queue := q }) s)).gen = { s.gen.resting .idle with queue := q } := rfl

theorem queuePhase_within (ms : List Move) (e : Ev) (h : e.st.gen.queue = ms) :
    e.st.gen.Within (queuePhase ms e).st.gen := by
  induction ms generalizing e with
  | nil =>
    rw [queuePhase, upd_st, resting_queue_gen, ← h]
    exact within_resting _ nofun
  | cons m r ih =>
    have rests := within_resting e.st.gen (st := .idle) nofun
    have begins := tryBegin_gen m (e.upd fun s => restIn .idle (onGen (fun g => { g with queue := r }) s))
    rw [upd_st, resting_queue_gen] at begins
    unfold queuePhase; dsimp only
    generalize tryBegin m _ = t at begins ⊢
    obtain ⟨stays, gen⟩ | ⟨flies, p, gen⟩ := begins
    · rw [if_neg (by rw [stays]; nofun)]
      have tail : e.st.gen.Within t.1.st.gen :=
        rests.trans (gen ▸ within_queue_tail (g := e.st.gen.resting .idle) h)
      exact tail.trans (ih _ (by rw [gen]))
    · rw [if_pos flies, gen]
      exact rests.trans (within_queue_flying (e.st.gen.resting .idle) _ h rfl)

/-- The stack is worked off from the contexts given, which hold the moves of the generator's own. -/
theorem stackPhase_within (cs : List Context) (e : Ev)
    (h : e.st.gen.stack.map Context.move = cs.map Context.move) : e.st.gen.Within (stackPhase cs e).st.gen := by
  induction cs generalizing e with
  | nil =>
    have cleared : (onGen (fun g => { g with stack := [] }) e.st).gen = e.st.gen := by
      rw [onGen_gen, ← List.map_eq_nil_iff.1 h]
    have queue := queuePhase_within e.st.gen.queue (e.upd (onGen fun g => { g with stack := [] })) rfl
    rw [upd_st, cleared] at queue
    exact queue
  | cons c r ih =>
    unfold stackPhase
    split
    · rw [upd_st, restIn_gen, onGen_gen]
      have same : e.st.gen.Within { e.st.gen with stack := c :: r } := within_stack (h ▸ List.Sublist.refl _)
      exact same.trans (within_resting _ nofun)
    · have begins := tryBegin_gen c.move (e.upd (onGen fun g => { g with stack := r }))
      rw [upd_st, onGen_gen] at begins
      dsimp only
      generalize tryBegin c.move _ = t at begins ⊢
      obtain ⟨stays, gen⟩ | ⟨flies, p, gen⟩ := begins
      · rw [if_neg (by rw [stays]; nofun)]
        have tail : e.st.gen.Within t.1.st.gen :=
          gen ▸ within_stack (by rw [h, List.map_cons]; exact List.sublist_cons_self _ _)
        exact tail.trans (ih _ (by rw [gen]))
      · rw [if_pos flies, gen]
        exact within_stack_flying e.st.gen _ h rfl

theorem advance_within (e : Ev) : e.st.gen.Within (advance e).st.gen := by
  unfold advance
  split
  · exact stackPhase_within _ e rfl
  · next m hm =>
    have begins := tryBegin_gen m (e.upd (onGen fun g => { g with waiting := none }))
    rw [upd_st, onGen_gen] at begins
    dsimp only
    generalize tryBegin m _ = t at begins ⊢
    obtain ⟨stays, gen⟩ | ⟨flies, p, gen⟩ := begins
    · rw [if_neg (by rw [stays]; nofun)]
      have emptied : e.st.gen.Within t.1.st.gen := gen ▸ within_waiting_none _
      exact emptied.trans (stackPhase_within _ _ rfl)
    · rw [if_pos flies, gen]
      exact within_waiting_flying e.st.gen _ hm rfl

theorem succession_law (e : Ev) (h : e.st.gen.collectionsLaw) : (succession e).st.gen.collectionsLaw := by
  have resolved := resolveArming_law e h
  unfold succession; dsimp only
  repeat' split
  · exact (advance_within e).law h
  · exact (advance_within _).law resolved
  · exact resolved

/-! The ends of moves (R87, R101, R106, R110). -/

theorem arrive_within (f : Flight) (e : Ev) : e.st.gen.Within (arrive f e).st.gen := within_clearFlight e.st

theorem complete_law (f : Flight) (e : Ev) (h : e.st.gen.collectionsLaw) : (complete f e).st.gen.collectionsLaw := by
  have arrived := (arrive_within f e).law h
  have resolved := resolveArming_law ((arrive f e).upd (onEnvelope fun v => { v with exit := none })) arrived
  unfold complete arriveExit; dsimp only
  repeat' split
  · exact (advance_within _).law resolved
  · exact resolved
  · exact succession_law _ arrived

/-- The end of braking, of a generator that brakes for its executing move. -/
theorem endBraking_law {f g : Flight} (atTarget : Bool) {e : Ev} (h : e.st.gen.collectionsLaw)
    (hs : e.st.gen.state = .braking) (hg : e.st.gen.flight = some g) (hm : g.move = f.move) :
    (endBraking f atTarget e).st.gen.collectionsLaw := by
  have drops (r : DropReason) : (dropBraked f r e).st.gen.collectionsLaw :=
    succession_law _ (by rw [raiseDropped_st]; exact (within_clearFlight e.st).law h)
  have arrives : (succession (arrive f e)).st.gen.collectionsLaw := succession_law _ ((arrive_within f e).law h)
  have pushes (r : Resume) (p : e.st.gen.purpose = some .hold ∨ e.st.gen.purpose = some .priority) :
      (pushBraked f r e).st.gen.collectionsLaw := succession_law _ (pushed_law r h ⟨hs, p⟩ hg hm)
  unfold endBraking
  split
  · exact drops .cut
  · exact drops .flush
  · next p =>
    split
    · exact arrives
    · exact pushes .manual (.inl p)
  · next p =>
    split
    · exact arrives
    · exact pushes .auto (.inr p)
  · exact (enterHalted_within e).law h
  · exact h

theorem endJog_law (e : Ev) (h : e.st.gen.collectionsLaw) : (endJog e).st.gen.collectionsLaw := by
  have closed : e.st.gen.Within { e.st.gen with jog := Jog.closed } := within_of_same rfl rfl rfl rfl id
  exact succession_law _ (closed.law h)

/-! The entry to UNREGISTERED (R91, R118) and the lifting of the arming hold (R83). -/

/-- A generator at rest with nothing held meets the law. -/
theorem collectionsLaw_of_empty {g : Generator} (hf : g.flight = none) (hw : g.waiting = none) (hq : g.queue = [])
    (hs : g.stack = []) : g.collectionsLaw := by
  rw [collectionsLaw_iff]
  simp [Generator.held, hf, hw, hq, hs]

theorem enterUnregistered_entered (b : Bool) (e : Ev) :
    (enterUnregistered b e).st.gen.collectionsLaw ∧ (enterUnregistered b e).st.gen.state = .unregistered := by
  have entered := makeActive_foldl_follows b
  unfold enterUnregistered; dsimp only
  refine ⟨(entered _ _).law ?_, ?_⟩
  · rw [raiseDropped_st, upd_st]
    exact collectionsLaw_of_empty rfl rfl rfl rfl
  · refine ((entered _ _).stands (.inl ?_)).elim (fun same => same.trans ?_) fun halted => absurd halted.1 ?_
    all_goals rw [raiseDropped_st, upd_st]
    · rfl
    · rfl
    · nofun

theorem liftHold_follows (e : Ev) : e.st.gen.Follows (liftHold e).st.gen := by
  have advances (on : ¬e.st.gen.off) : e.st.gen.Follows (advance e).st.gen := follows_of_on on (advance_within e).law
  unfold liftHold
  repeat' split
  · next hs => exact advances (not_off hs (by simp))
  · next hs => exact advances (not_off hs (by simp))
  all_goals exact .refl _

end Sys2Proof.Machine
end

