-- ==== Sys2Proof/Proofs/GeneratorSteps.lean ====
section
/-! SUPPORT. The law of the move collections and the standing of the generator's states through the steps, the table operations
and the requests. -/

namespace Sys2Proof.Machine

/-! Sendings and offers (R98, R145, R162). -/

theorem sendTo_gen (k : Winch → Sent) (e : Ev) (w : Winch) :
    (sendTo k e w).st.gen = e.st.gen ∨ (sendTo k e w).st.gen.state = .stopped := by
  unfold sendTo; dsimp only
  split
  · next lost =>
    obtain ⟨-, h⟩ | ⟨-, -, h⟩ :=
      trip_cases (reportFault .driveLost (.number w.number) (e.upd (onChannel w (Channel.send (k w)))))
    · exact .inl (by simp [h])
    · exact .inr (by rw [h]; exact enterStopped_state _)
  · exact .inl rfl

theorem sendTo_follows (k : Winch → Sent) (e : Ev) (w : Winch) : e.st.gen.Follows (sendTo k e w).st.gen := by
  unfold sendTo; dsimp only
  split
  · exact reportFault_trip_follows _ _ (e.upd (onChannel w (Channel.send (k w))))
  · exact .refl _

theorem sendAll_follows (k : Winch → Sent) (e : Ev) : e.st.gen.Follows (sendAll k e).st.gen :=
  foldl_follows _ (sendTo_follows k) _ e

/-- A sending leaves the generator, or trips it to STOPPED (R162). -/
theorem sendAll_gen (k : Winch → Sent) (e : Ev) :
    (sendAll k e).st.gen = e.st.gen ∨ (sendAll k e).st.gen.state = .stopped := by
  have fold (ws : List Winch) (e : Ev) :
      (ws.foldl (sendTo k) e).st.gen = e.st.gen ∨ (ws.foldl (sendTo k) e).st.gen.state = .stopped := by
    induction ws generalizing e with
    | nil => exact .inl rfl
    | cons w ws ih =>
      rw [List.foldl_cons]
      obtain kept | stopped := sendTo_gen k e w
      · rw [← kept]; exact ih _
      · refine .inr (((foldl_follows _ (sendTo_follows k) ws _).stands (.inr (.inl stopped))).elim
          (fun same => same.trans stopped) fun halted => ?_)
        rw [stopped] at halted
        exact nomatch halted.1
  exact fold Winch.all e

/-- So does the delivery of a set of lengths (R153). -/
theorem sendSet_gen (l : PerWinch RopeLength) (e : Ev) :
    e.st.gen.Follows (sendSet l e).st.gen ∧
      ((sendSet l e).st.gen = e.st.gen ∨ (sendSet l e).st.gen.state = .stopped) := by
  unfold sendSet; dsimp only
  rw [upd_st, onDrive_gen]
  generalize hc : e.upd (onDrive _) = e1
  have kept : e1.st.gen = e.st.gen := by rw [← hc, upd_st, onDrive_gen]
  rw [← kept]
  exact ⟨sendAll_follows _ e1, sendAll_gen _ e1⟩

/-- What an offer leaves: a generator that follows, and, where it is accepted, one that has the offered position besides. -/
structure Offered (p : Vec3) (e : Ev) (r : Ev × Bool) : Prop where
  follows : e.st.gen.Follows r.1.st.gen
  accepted : r.2 = true → r.1.st.gen = { e.st.gen with pos := some p }

theorem within_pos (g : Generator) (p : Option Vec3) : g.Within { g with pos := p } :=
  within_of_same rfl rfl rfl rfl id

theorem deliver_offered (sp : Span) (p : Vec3) (e : Ev) : Offered p e (deliver sp p e) := by
  have refused (w : Winch) : e.st.gen.Follows (quickStop (reportFault .drumRange (.number w.number)
      (raiseWinches .stretchClamp (fun w => decide (stretchMax < ((ropeCalcs e.st sp p).get w).raw)) e))).st.gen :=
    (follows_of_eq (raiseWinches_gen ..)).trans (reportFault_quickStop_follows ..)
  unfold deliver lengthOffer; dsimp only
  split
  · next o ho =>
    split at ho
    · cases ho; exact ⟨refused _, nofun⟩
    · cases ho
  · next e1 l ho =>
    have kept : e1.st.gen = e.st.gen := by
      split at ho <;> cases ho
      simp
    obtain ⟨follows, gen⟩ := sendSet_gen l e1
    generalize sendSet l e1 = e2 at follows gen ⊢
    rw [kept] at follows gen
    refine ⟨follows.trans ((within_pos _ (some p)).follows rfl), fun registered => ?_⟩
    obtain gen | stopped := gen
    · rw [upd_st, gen]
    · exact absurd stopped ((registered_iff _).1 registered).2

/-- The candidate check leaves the generator, but for the quick stop of a record that fails (R185). -/
theorem candidateCheck_follows (sp : Span) (p : Vec3) (e : Ev) :
    e.st.gen.Follows (candidateCheck sp p e).1.st.gen ∧
      ((candidateCheck sp p e).2 ≠ .abandoned → (candidateCheck sp p e).1.st.gen = e.st.gen) := by
  unfold candidateCheck; dsimp only
  split
  · split
    · next e2 i hm =>
      have kept : e2.st.gen = e.st.gen := (gen_of_motionRead hm).trans (by simp)
      exact ⟨kept ▸ motionFailure_follows i e2, fun h => absurd rfl h⟩
    · next e2 hm =>
      have kept : e2.st.gen = e.st.gen := (gen_of_motionRead hm).trans (by simp)
      exact ⟨follows_of_eq kept, fun _ => kept⟩
  · exact ⟨.refl _, fun _ => rfl⟩

theorem breach_follows (p : Vec3) (e : Ev) : e.st.gen.Follows (breach p e).st.gen :=
  reportFault_quickStop_follows _ _ e

theorem offer_offered (sp : Span) (p : Vec3) (e : Ev) : Offered p e (offer sp p e) := by
  obtain ⟨follows, kept⟩ := candidateCheck_follows sp p e
  unfold offer
  split
  · next e1 hc =>
    rw [hc] at kept
    have delivered := deliver_offered sp p e1
    have gen : e1.st.gen = e.st.gen := kept nofun
    exact ⟨gen ▸ delivered.follows, gen ▸ delivered.accepted⟩
  · next e1 hc =>
    rw [hc] at follows
    exact ⟨follows.trans (breach_follows p e1), nofun⟩
  · next e1 hc =>
    rw [hc] at follows
    exact ⟨follows, nofun⟩

theorem offer_refused {sp : Span} {p : Vec3} {e e' : Ev} (h : offer sp p e = (e', false)) : e.st.gen.Follows e'.st.gen := by
  simpa [h] using (offer_offered sp p e).follows
theorem offer_accepted {sp : Span} {p : Vec3} {e e' : Ev} (h : offer sp p e = (e', true)) :
    e'.st.gen = { e.st.gen with pos := some p } := by
  simpa [h] using (offer_offered sp p e).accepted

/-! Steps (R108 to R110, R127 to R134). -/

/-- A commit to the executing move keeps its id (R108, R110). -/
theorem commitMove_law {f g : Flight} {s : State} (d v : Nat) (h : s.gen.collectionsLaw) (hg : s.gen.flight = some g)
    (hm : g.move = f.move) : (commitMove f d v s).gen.collectionsLaw := by
  have within : s.gen.Within (s.gen.committing f d v) :=
    ⟨fun a => by simp [Generator.held, Generator.committing, hg, hm], le_rfl, le_rfl, id⟩
  exact within.law h

theorem afterMove_law (f : Flight) (v : Nat) (e : Ev) (h : e.st.gen.collectionsLaw) :
    (afterMove f v e).st.gen.collectionsLaw := by
  unfold afterMove; dsimp only
  split
  · next e1 i hm => exact (motionFailure_follows i e1).law (by rwa [gen_of_motionRead hm])
  · next e1 hm =>
    have read : e1.st.gen.collectionsLaw := by rwa [gen_of_motionRead hm]
    split
    · refine complete_law f _ ?_
      repeat' split
      all_goals exact read
    · repeat' split
      all_goals exact read

theorem moveStep_law (sp : Span) {f : Flight} {e : Ev} (hf : e.st.gen.flight = some f) (h : e.st.gen.collectionsLaw) :
    (moveStep sp f e).st.gen.collectionsLaw := by
  unfold moveStep; dsimp only
  split
  · next e1 i hm => exact (motionFailure_follows i e1).law (by rwa [gen_of_motionRead hm])
  · next e1 hm =>
    have kept := gen_of_motionRead hm
    split
    · next ho => exact (offer_refused ho).law (by rwa [kept])
    · next e2 ho =>
      have gen := (offer_accepted ho).trans (by rw [kept])
      have law : e2.st.gen.collectionsLaw := gen ▸ (within_pos _ _).law h
      exact afterMove_law _ _ _ (commitMove_law _ _ law (by rw [gen]; exact hf) rfl)

theorem brakeStep_law (sp : Span) {f : Flight} {e : Ev} (hs : e.st.gen.state = .braking) (hf : e.st.gen.flight = some f)
    (h : e.st.gen.collectionsLaw) : (brakeStep sp f e).st.gen.collectionsLaw := by
  have committed {p : Vec3} {e1 : Ev} (ho : offer sp p e = (e1, true)) (d v : Nat) :
      (commitMove f d v e1.st).gen.collectionsLaw ∧ (commitMove f d v e1.st).gen.state = .braking := by
    have gen := offer_accepted ho
    have law : e1.st.gen.collectionsLaw := gen ▸ (within_pos _ _).law h
    exact ⟨commitMove_law d v law (by rw [gen]; exact hf) rfl, (congrArg Generator.state gen).trans hs⟩
  unfold brakeStep; dsimp only
  split
  · split
    · next ho => exact (offer_refused ho).law h
    · next e1 ho =>
      obtain ⟨law, braking⟩ := committed ho f.s 0
      exact endBraking_law false (e := e1.upd (commitMove f f.s 0)) law braking rfl rfl
  · split
    · next ho => exact (offer_refused ho).law h
    · next e1 ho =>
      obtain ⟨law, braking⟩ :=
        committed ho (min (f.s + (e.st.gen.v - sp.brakeAccel)) f.dist) (e.st.gen.v - sp.brakeAccel)
      split
      · exact endBraking_law true (e := e1.upd (commitMove f _ _)) law braking rfl rfl
      · exact law

theorem slide_follows (sp : Span) (p : Vec3) (us : List Vec3) (e : Ev) :
    e.st.gen.Follows (slide sp p us e).1.st.gen := by
  induction us generalizing e with
  | nil =>
    have follows := (candidateCheck_follows sp p e).1
    unfold slide
    split <;> next hc => simpa [hc] using follows
  | cons u us ih =>
    have follows := (candidateCheck_follows sp (p.add u) e).1
    unfold slide
    split
    · next hc => simpa [hc] using follows
    · next e1 hc => exact Generator.Follows.trans (by simpa [hc] using follows) (ih e1)
    · next hc => simpa [hc] using follows

theorem afterJog_law (e : Ev) (h : e.st.gen.collectionsLaw) : (afterJog e).st.gen.collectionsLaw := by
  unfold afterJog
  repeat' split
  · exact (enterHalted_within e).law h
  · exact endJog_law e h
  · exact endJog_law e h
  · exact endJog_law e h
  · exact h
  · exact h

theorem within_jog (g : Generator) (j : Jog) : g.Within { g with jog := j } := within_of_same rfl rfl rfl rfl id

theorem jogOffer_law (sp : Span) (u : Vec3) (e : Ev) (h : e.st.gen.collectionsLaw) :
    (jogOffer sp u e).st.gen.collectionsLaw := by
  have slid := (slide_follows sp (posOf e.st) (slideVariants u) e).law h
  unfold jogOffer; dsimp only
  split
  · next hs => simpa [hs] using slid
  · next e1 u' hs =>
    rw [hs] at slid
    have delivered := (deliver_offered sp ((posOf e.st).add u') e1).follows.law slid
    split
    · next hd => simpa [hd] using delivered
    · next e2 hd =>
      rw [hd] at delivered
      exact afterJog_law _ ((within_jog _ _).law delivered)

theorem jogStep_law (sp : Span) (e : Ev) (h : e.st.gen.collectionsLaw) : (jogStep sp e).st.gen.collectionsLaw := by
  unfold jogStep; dsimp only
  split
  · exact jogOffer_law sp _ e h
  · split
    · next e1 i hm => exact (motionFailure_follows i e1).law (by rwa [gen_of_motionRead hm])
    · next e1 hm =>
      have read : e1.st.gen.collectionsLaw := by rwa [gen_of_motionRead hm]
      split
      · exact jogOffer_law sp _ e1 read
      · refine jogOffer_law sp _ _ ?_
        split <;> exact read

theorem pathStep_follows (sp : Span) (e : Ev) : e.st.gen.Follows (pathStep sp e).st.gen := by
  unfold pathStep
  split
  · exact .refl _
  · exact .refl _
  · exact (offer_offered sp (posOf e.st) e).follows
  · exact (offer_offered sp (posOf e.st) e).follows
  · exact (offer_offered sp (posOf e.st) e).follows
  · next hs =>
    split
    · next f hf => exact follows_of_on (not_off hs (by simp)) (moveStep_law sp hf)
    · exact .refl _
  · next hs =>
    split
    · next f hf => exact follows_of_on (not_off hs (by simp)) (brakeStep_law sp hs hf)
    · exact .refl _
  · next hs => exact follows_of_on (not_off hs (by simp)) (jogStep_law sp e)

/-! The decision on a new box (R26, R31, R32, R80 to R82). -/

theorem giveOrder_follows {o : Order} {s : State} (h : o = .cut → s.gen.state = .moving) :
    s.gen.Follows (giveOrder o s).gen := by
  cases o with
  | nothing => exact .refl _
  | cut =>
    exact follows_of_on (not_off (h rfl) (by simp)) (within_brakeMove s.gen (p := .cut) nofun nofun).law
  | brakeJog => exact (within_brakeJog s.gen .zone).follows rfl

/-- The order that goes with a decision. -/
def Decision.order : Decision → Order
  | .active o | .arming _ o => o
  | .planNow => .nothing

theorem decidePath_order (f : Flight) (v ab : Nat) (inside : Bool) (entry : Option Nat) (o : Order) :
    (decidePath f v ab inside entry o).order = .nothing ∨ (decidePath f v ab inside entry o).order = o := by
  unfold decidePath
  split
  · exact .inl rfl
  · split <;> exact .inr rfl

theorem decidePath_ne_planNow (f : Flight) (v ab : Nat) (inside : Bool) (entry : Option Nat) (o : Order) :
    decidePath f v ab inside entry o ≠ .planNow := by
  unfold decidePath
  repeat' split
  all_goals nofun

/-- A cut is ordered in MOVING alone (R80, R81). -/
theorem armingDecision_cut {s : State} {b : Option Box} (h : (armingDecision s b).order = .cut) : s.gen.state = .moving := by
  unfold armingDecision at h; dsimp only at h
  cases hs : s.gen.state <;> rw [hs] at h <;> dsimp only at h
  case braking =>
    split at h
    · cases h
    · next f _ =>
      have order := decidePath_order f s.gen.v ((s.spanSet.span.map Span.brakeAccel).getD 0) (trolleyIn s b)
        (b.bind (entryDistance f)) .nothing
      rw [h] at order
      simp at order
  all_goals
    revert h
    try split
    all_goals nofun

/-- An exit is planned at once in IDLE and HELD alone (R80, R82). -/
theorem armingDecision_planNow {s : State} {b : Option Box} (h : armingDecision s b = .planNow) :
    s.gen.state = .idle ∨ s.gen.state = .held := by
  unfold armingDecision at h; dsimp only at h
  cases hs : s.gen.state <;> rw [hs] at h <;> dsimp only at h
  case idle => exact .inl rfl
  case held => exact .inr rfl
  case moving =>
    repeat' split at h
    · cases h
    · cases h
    · cases h
    · exact (decidePath_ne_planNow _ _ _ _ _ _ h).elim
  case braking =>
    split at h
    · cases h
    · exact (decidePath_ne_planNow _ _ _ _ _ _ h).elim
  all_goals
    revert h
    try split
    all_goals nofun

/-! The operations of the Zone Table (R26, R31, R32, R48). -/

theorem endAdd_follows (op : TableOp) (id : Nat) (e : Ev) : e.st.gen.Follows (endAdd op id e).st.gen := by
  have read : (readZone e id).st.gen = e.st.gen := readZone_gen e id
  unfold endAdd; dsimp only
  generalize readZone e id = e1 at read ⊢
  rw [← read]
  split
  · exact follows_of_eq (by simp)
  · split
    · rw [endOp_gen]
      exact activationEffects_follows_of (by simp) _ _
    · split
      · next o hd =>
        have ordered : e1.st.gen.Follows (giveOrder o e1.st).gen :=
          giveOrder_follows fun cut => armingDecision_cut (by rw [hd]; exact cut)
        rw [endOp_gen]
        exact ordered.trans (activationEffects_follows_of (by simp) _ _)
      · next c o hd =>
        have ordered : e1.st.gen.Follows (giveOrder o e1.st).gen :=
          giveOrder_follows fun cut => armingDecision_cut (by rw [hd]; exact cut)
        exact ordered.trans (follows_of_eq (by simp))
      · next hd =>
        have on : ¬e1.st.gen.off := by
          obtain hs | hs := armingDecision_planNow hd <;> exact not_off hs (by simp)
        split
        · rw [endOp_gen, upd_st]
          exact follows_of_on on fun law => beginExit_law _ _ _ (by simpa using law)
        · exact follows_of_eq (by simp)

theorem amendActive_follows {op : TableOp} {id : Nat} {z : Zone} {p : PendingBox} {o : Order} {e : Ev}
    (h : o = .cut → e.st.gen.state = .moving) : e.st.gen.Follows (amendActive op id z p o e).st.gen := by
  unfold amendActive; dsimp only
  rw [startRemoval_gen]
  exact (giveOrder_follows h).trans (activationEffects_follows_of (by simp) _ _)

theorem endAmend_follows (op : TableOp) (id : Nat) (e : Ev) : e.st.gen.Follows (endAmend op id e).st.gen := by
  have read : (readZone e id).st.gen = e.st.gen := readZone_gen e id
  unfold endAmend; dsimp only
  generalize readZone e id = e1 at read ⊢
  rw [← read]
  split
  · exact follows_of_eq (by simp)
  · split
    · exact follows_of_eq (by simp)
    · split
      · exact amendActive_follows nofun
      · split
        · next o hd => exact amendActive_follows fun cut => armingDecision_cut (by rw [hd]; exact cut)
        · next c o hd =>
          have ordered : e1.st.gen.Follows (giveOrder o e1.st).gen :=
            giveOrder_follows fun cut => armingDecision_cut (by rw [hd]; exact cut)
          exact ordered.trans (follows_of_eq (by simp))
        · next hd =>
          have on : ¬e1.st.gen.off := by
            obtain hs | hs := armingDecision_planNow hd <;> exact not_off hs (by simp)
          split
          · rw [endOp_gen, upd_st]
            exact follows_of_on on fun law => beginExit_law _ _ _ (by simpa using law)
          · exact follows_of_eq (by simp)

theorem endIndexing_follows (op : TableOp) (e : Ev) : e.st.gen.Follows (endIndexing op e).st.gen := by
  unfold endIndexing; dsimp only
  split
  · exact endAdd_follows _ _ e
  · exact endAmend_follows _ _ e
  all_goals exact follows_of_eq (endOp_gen op e)

theorem endPhase_follows (op : TableOp) (e : Ev) : e.st.gen.Follows (endPhase op e).st.gen := by
  unfold endPhase
  split
  · exact endIndexing_follows op e
  all_goals exact follows_of_eq (endOp_gen op e)

theorem startPhase_follows {op : TableOp} {e : Ev} {f : TableOp → Ev → Ev}
    (hf : ∀ (op : TableOp) (e : Ev), e.st.gen.Follows (f op e).st.gen) : e.st.gen.Follows (startPhase op e f).st.gen := by
  unfold startPhase
  split
  · exact .refl _
  · exact hf op (e.upd (onZones fun t => { t with op := some op }))

theorem cellVisitEvent_follows (e : Ev) : e.st.gen.Follows (cellVisitEvent e).st.gen := by
  unfold cellVisitEvent; dsimp only
  split
  · exact .refl _
  · next op _ =>
    split
    · exact follows_of_eq (by simp)
    · have ends := endPhase_follows { op with visited := op.cell :: op.visited } (visit op e)
      rwa [visit_gen] at ends

end Sys2Proof.Machine
end

