-- ==== Sys2Proof/Proofs/MoveCollections.lean ====
section
/-! SUPPORT. The law of the move collections (R99 to R101) and the standing of STOPPED, UNREGISTERED and HALTED (R96, R97) through
every command. -/

namespace Sys2Proof.Machine

/-- An act whose generator follows. -/
def KeepsGenerator (act : Ev → Ev) : Prop := ∀ e : Ev, e.st.gen.Follows (act e).st.gen

theorem keepsGenerator_of_eq {act : Ev → Ev} (h : ∀ e, (act e).st.gen = e.st.gen) : KeepsGenerator act :=
  fun e => follows_of_eq (h e)

theorem KeepsGenerator.of {act : Ev → Ev} (h : KeepsGenerator act) {e : Ev} {g : Generator} (hg : e.st.gen = g) :
    g.Follows (act e).st.gen := hg ▸ h e

/-! The requests of the Zone Table (R23 to R38). -/

theorem startPhase_indexing_follows (op : TableOp) {e : Ev} {g : Generator} (h : e.st.gen = g) :
    g.Follows (startPhase op e endIndexing).st.gen := h ▸ startPhase_follows endIndexing_follows

theorem zoneAdd_follows (l : Link) (f : ZoneAddFields) : KeepsGenerator (zoneAdd l f) := by
  intro e
  unfold zoneAdd; dsimp only
  split
  · exact .refl _
  · next sp _ =>
    have counted := firstFull_gen none (rangeCells (planRange sp (decide (f.kind = 2)) f.box)) e
    repeat' split
    · exact .refl _
    · exact .refl _
    · next hc => exact follows_of_eq (by simpa [hc] using counted)
    · next hc _ => exact follows_of_eq (by simpa [hc] using counted)
    · next hc _ => exact startPhase_indexing_follows _ (by simpa [hc] using counted)

theorem amendBox_follows (l : Link) (z : Zone) (f : ZoneAmendFields) (b : Box) : KeepsGenerator (amendBox l z f b) := by
  intro e
  unfold amendBox
  split
  · exact .refl _
  · next sp _ =>
    have counted := firstFull_gen (some f.id) (rangeCells (planRange sp z.isSlow b)) e
    repeat' split
    · next hc => exact follows_of_eq (by simpa [hc] using counted)
    · next hc _ => exact follows_of_eq (by simpa [hc] using counted)
    · next hc _ => exact startPhase_indexing_follows _ (by simpa [hc] using counted)

theorem zoneAmend_follows (l : Link) (f : ZoneAmendFields) : KeepsGenerator (zoneAmend l f) := by
  intro e
  have amends (z : Zone) (b : Box) : e.st.gen.Follows (amendBox l z f b (readZone e f.id)).st.gen :=
    readZone_gen e f.id ▸ amendBox_follows l z f b (readZone e f.id)
  unfold zoneAmend; dsimp only
  split
  · exact .refl _
  · repeat' split
    case h_2 => exact amends _ _
    all_goals exact follows_of_eq (by simp)

theorem zoneRetire_follows (l : Link) (f : RetireFields) : KeepsGenerator (zoneRetire l f) := by
  intro e
  have lifts {e' : Ev} (h : e'.st.gen = e.st.gen) : e.st.gen.Follows (liftHold e').st.gen := h ▸ liftHold_follows e'
  unfold zoneRetire; dsimp only
  split
  · exact .refl _
  · split
    · exact follows_of_eq (by simp)
    · split
      · exact follows_of_eq (by simp)
      · split
        · exact follows_of_eq (by simp)
        · split
          · exact follows_of_eq (by simp)
          · split
            · exact lifts (by simp [startPhase_gen _ _ _ endOp_gen])
            · exact follows_of_eq (by simp [startPhase_gen _ _ _ endOp_gen])

/-! The motion requests (R102 to R104, R111 to R114, R125, R126, R131). -/

/-- A move request that R102 does not refuse finds the generator in IDLE, HELD or under way. -/
theorem not_off_of_moveRefusal {priority : Bool} {s : State} (h : moveRefusal priority s = none) : ¬s.gen.off := by
  intro off
  unfold moveRefusal at h
  obtain hs | hs | hs := off <;> simp [registered, halting, hs] at h

theorem admitQueued_law (l : Link) (a : Asked) {e : Ev} (h : e.st.gen.collectionsLaw) (room : e.st.gen.queue.length < 8) :
    (admitQueued l a e).st.gen.collectionsLaw := by
  have joined := queued_law (m := admitted a e.st) h rfl (takeId e.st.gen).2 room
  unfold admitQueued; dsimp only
  split
  · exact (queuePhase_within _ _ rfl).law joined
  · exact joined

/-- A generator with room on its stack brakes for a push (R101). -/
theorem brakeMove_law {g : Generator} (p : Purpose) (h : g.collectionsLaw) (room : g.stack.length < 4) :
    (brakeMove p g).collectionsLaw := by
  rw [collectionsLaw_iff] at h ⊢
  obtain ⟨queue, stack, -, ids⟩ := h
  exact ⟨queue, stack, fun _ => Nat.le_of_lt_succ room, ids⟩

theorem admitPriority_law (l : Link) (a : Asked) {e : Ev} (h : e.st.gen.collectionsLaw)
    (room : e.st.gen.state = .moving → e.st.gen.stack.length < 4) : (admitPriority l a e).st.gen.collectionsLaw := by
  have waits := waiting_law (m := admitted a e.st) h rfl (takeId e.st.gen).2
  unfold admitPriority; dsimp only
  split
  · next hs => exact brakeMove_law .priority waits (room hs)
  · exact (advance_within _).law waits

theorem admitMove_law (priority : Bool) (l : Link) (a : Asked) {e : Ev} (h : e.st.gen.collectionsLaw) :
    (admitMove priority l a e).st.gen.collectionsLaw := by
  have kept : (readZones e).st.gen = e.st.gen := readZones_gen e
  have read : (readZones e).st.gen.collectionsLaw := by rwa [kept]
  unfold admitMove; dsimp only
  generalize readZones e = e1 at kept read ⊢
  split
  · exact h
  · next hroom =>
    cases priority with
    | true =>
      simp only [if_true]
      split
      · refine admitPriority_law l a read fun hs => ?_
        rw [kept] at hs ⊢
        simpa [roomRefusal, hs] using hroom
      · exact read
    | false =>
      simp only [Bool.false_eq_true, if_false]
      split
      · refine admitQueued_law l a read ?_
        rw [kept]
        simpa [roomRefusal] using hroom
      · exact read

theorem gotoRequest_follows (priority : Bool) (l : Link) (f : GotoFields) : KeepsGenerator (gotoRequest priority l f) := by
  intro e
  unfold gotoRequest
  repeat' split
  · exact .refl _
  · exact .refl _
  · next hr => exact follows_of_on (not_off_of_moveRefusal hr) (admitMove_law priority l _)

theorem recallRequest_follows (priority : Bool) (l : Link) (f : RecallFields) :
    KeepsGenerator (recallRequest priority l f) := by
  intro e
  unfold recallRequest
  repeat' split
  · exact .refl _
  · exact .refl _
  · next hc => rw [refuse_st]; exact follows_of_eq (gen_of_resolveCue hc)
  · next hr _ e1 c hc =>
    exact follows_of_on (not_off_of_moveRefusal hr) fun law => admitMove_law priority l _ (by rwa [gen_of_resolveCue hc])

theorem hold_follows (l : Link) : KeepsGenerator (hold l) := by
  intro e
  unfold hold
  repeat' split
  · exact .refl _
  · exact .refl _
  · exact .refl _
  · exact .refl _
  · next moving room =>
    have hs : e.st.gen.state = .moving := Decidable.not_not.1 fun h => moving (.inl h)
    exact follows_of_on (not_off hs (by simp)) fun law => brakeMove_law .hold law (Nat.lt_of_not_le room)

theorem resume_follows (l : Link) : KeepsGenerator (resume l) := by
  intro e
  unfold resume; dsimp only
  split
  · exact .refl _
  · split
    · exact .refl _
    · next held =>
      have on : ¬e.st.gen.off := not_off (Decidable.not_not.1 held) (by simp)
      split
      · exact .refl _
      · split
        · exact .refl _
        · split
          · next hc =>
            have goesOn : e.st.gen.Within (stackPhase [] (e.ok l false [le16 0])).st.gen :=
              stackPhase_within [] (e.ok l false [le16 0]) (by simp [hc])
            exact follows_of_on on goesOn.law
          · next c r hc =>
            have pops : e.st.gen.Within (stackPhase (⟨c.move, .auto⟩ :: r) (e.ok l false [le16 c.move.id])).st.gen :=
              stackPhase_within (⟨c.move, .auto⟩ :: r) (e.ok l false [le16 c.move.id]) (by simp [hc])
            simp only [stackPhase] at pops
            exact follows_of_on on pops.law

theorem flushQueue_follows (l : Link) (c : FlushScope) : KeepsGenerator (flushQueue l c) := by
  intro e
  cases c with
  | neither n => exact .refl _
  | queue =>
    have dropped : e.st.gen.Within { e.st.gen with queue := [] } :=
      ⟨fun a => by simp [Generator.held], Nat.zero_le _, le_rfl, id⟩
    simp only [flushQueue, raiseDropped_st, upd_st, onGen_gen, ok_st]
    exact dropped.follows rfl

theorem flushEffect_follows (s : State) : s.gen.Follows (flushEffect s).gen := by
  have brakes : s.gen.Within (brakeMove .flush s.gen) := within_brakeMove s.gen nofun nofun
  unfold flushEffect
  split
  · next hs =>
    split
    · exact .refl _
    · exact follows_of_on (not_off hs (by simp)) brakes.law
  · next hs =>
    split
    · exact follows_of_on (not_off hs (by simp)) brakes.law
    · exact .refl _
  · next hs => exact follows_of_on (not_off hs (by simp)) (within_resting s.gen (st := .idle) nofun).law
  · exact (within_brakeJog s.gen .flush).follows rfl
  all_goals exact .refl _

theorem flushAll_follows (l : Link) : KeepsGenerator (flushAll l) := by
  intro e
  have dropped : e.st.gen.Within { e.st.gen with queue := [], stack := [], waiting := none } :=
    ⟨fun a => by simp [Generator.held, Nat.add_assoc], Nat.zero_le _, Nat.zero_le _, id⟩
  simp only [flushAll, raiseDropped_st, upd_st]
  exact (dropped.follows rfl).trans
    (flushEffect_follows (onGen (fun g => { g with queue := [], stack := [], waiting := none }) e.st))

theorem jog_follows (l : Link) (v : Vec3) : KeepsGenerator (jog l v) := by
  intro e
  have within (r : Vec3) : e.st.gen.Within (takeJog r e.st.gen) := by
    unfold takeJog
    repeat' split
    · exact within_jog _ _
    · exact .refl _
    · exact within_of_same rfl rfl rfl rfl fun p => nomatch p.1
  unfold jog; dsimp only
  repeat' split
  · exact .refl _
  · exact .refl _
  · exact .refl _
  · exact .refl _
  · next reg excluded _ _ =>
    have on : ¬e.st.gen.off := by
      intro off
      obtain hs | hs | hs := off <;> simp [registered, jogExcluded, hs] at reg excluded
    exact follows_of_on on (within _).law

/-! Events of timers and drives. -/

theorem deadman_follows : KeepsGenerator deadman := by
  intro e
  unfold deadman
  split
  · exact .refl _
  · exact (within_jog _ _).follows rfl

theorem stepTimer_follows : KeepsGenerator stepTimer := by
  intro e
  unfold stepTimer
  split
  · exact pathStep_follows _ e
  · exact .refl _

theorem holdTimer_follows : KeepsGenerator holdTimer := by
  intro e
  have frames : e.st.gen.Follows (holdFrames e).st.gen := by
    unfold holdFrames
    split
    · exact .refl _
    · exact sendAll_follows _ e
    · exact sendAll_follows _ e
  unfold holdTimer
  split
  · exact .refl _
  · exact frames

theorem monitorTension_follows (w : Winch) (t : Nat) (e : Ev) : e.st.gen.Follows (monitorTension w t e).st.gen := by
  have effects (st : TensionStatus) : KeepsGenerator (tensionEffects w st) := by
    intro e
    have halts (c : FaultClass) : e.st.gen.Follows (tensionHalt c w e).st.gen := by
      unfold tensionHalt
      split
      · exact reportFault_controlledHalt_follows _ _ e
      · exact .refl _
    cases st with
    | normal => exact .refl _
    | slack => exact halts _
    | overload => exact halts _
    | critical => exact reportFault_trip_follows _ _ e
  unfold monitorTension; dsimp only
  split
  · exact .refl _
  · exact (effects _).of rfl

theorem judgeDrive_follows (w : Winch) (b : Bool) (st : DriveStatus) (e : Ev) :
    e.st.gen.Follows (judgeDrive w b st e).st.gen := by
  unfold judgeDrive
  split
  · exact reportFault_trip_follows _ _ e
  · exact .refl _

theorem followCheck_follows (w : Winch) (o : Option Sent) (m : Nat) (e : Ev) :
    e.st.gen.Follows (followCheck w o m e).st.gen := by
  unfold followCheck
  repeat' split
  · exact reportFault_controlledHalt_follows _ _ e
  all_goals exact .refl _

theorem takeFeedback_follows (w : Winch) (f : FeedbackFields) (st : DriveStatus) :
    KeepsGenerator (takeFeedback w f st) := by
  intro e
  have monitored := monitorTension_follows w f.tension (e.upd (onChannel w fun c => c.store f st))
  unfold takeFeedback; dsimp only
  generalize monitorTension w f.tension _ = e2 at monitored ⊢
  generalize hw : feedIfMoved w _ _ _ e2 = e3
  have fed : e3.st.gen = e2.st.gen := by rw [← hw, feedIfMoved_gen]
  have judged := judgeDrive_follows w (registered e.st) st e3
  rw [fed] at judged
  split
  · exact monitored.trans judged
  · exact (monitored.trans judged).trans (followCheck_follows ..)

theorem feedbackEvent_follows (w : Winch) (b : Body FeedbackFields) : KeepsGenerator (feedbackEvent w b) := by
  intro e
  unfold feedbackEvent receiveFeedback
  repeat' split
  · exact .refl _
  · exact .refl _
  · exact (takeFeedback_follows w _ _).of rfl
  · exact .refl _

end Sys2Proof.Machine
end

