-- ==== Sys2Proof/Proofs/GeneratorCommands.lean ====
section
/-! SUPPORT. REGISTER, RELEASE and SET_SPAN, which leave UNREGISTERED, HALTED and STOPPED (R96, R97), and with them every
command. -/

namespace Sys2Proof.Machine

/-- An act keeps the law of the collections, and the standing of the generator's states but for those that it may leave. -/
structure Leaves (left : GenState → Prop) (act : Ev → Ev) : Prop where
  law : ∀ e : Ev, e.st.gen.collectionsLaw → (act e).st.gen.collectionsLaw
  follows : ∀ e : Ev, ¬left e.st.gen.state → e.st.gen.Follows (act e).st.gen

theorem KeepsGenerator.leaves {act : Ev → Ev} (h : KeepsGenerator act) (left : GenState → Prop) : Leaves left act :=
  ⟨fun e => (h e).law, fun e _ => h e⟩

/-! REGISTER, RELEASE and SET_SPAN (R9 to R11, R119 to R122). -/

/-- An accepted REGISTER leaves UNREGISTERED. -/
theorem acceptRegister_within (sp : Span) (p : Vec3) (s : State) : s.gen.Within (acceptRegister sp p s).gen :=
  ⟨fun a => by simp [Generator.held, acceptRegister, releaseBrake, Nat.add_assoc], le_rfl, le_rfl, fun p => nomatch p.1⟩

theorem register_leaves (l : Link) (p : Vec3) : Leaves (· = .unregistered) (register l p) := by
  refine ⟨fun e h => ?_, fun e h => follows_of_eq ?_⟩
  · have read : (readZones e).st.gen.collectionsLaw := by rwa [readZones_gen]
    unfold register; dsimp only
    generalize readZones e = e1 at read ⊢
    repeat' split
    · exact h
    · exact h
    · exact h
    · exact h
    · exact h
    · exact read
    · exact (acceptRegister_within _ _ _).law read
    · exact read
  · unfold register
    split
    · rfl
    · rw [if_pos (.inl h)]; rfl

theorem releaseHalted_law (l : Link) (e : Ev) (h : e.st.gen.collectionsLaw) :
    (releaseHalted l e).st.gen.collectionsLaw :=
  succession_law _ ((within_resting e.st.gen (st := .idle) nofun).law h)

theorem releaseStopped_law (l : Link) (e : Ev) (h : e.st.gen.collectionsLaw) :
    (releaseStopped l e).st.gen.collectionsLaw := by
  have registers : e.st.gen.Within (acceptRelease e.st).gen := within_of_same rfl rfl rfl rfl fun p => nomatch p.1
  unfold releaseStopped; dsimp only
  split
  · exact succession_law _ (registers.law h)
  · exact (enterUnregistered_entered true _).1

theorem release_leaves (l : Link) : Leaves (fun st => st = .halted ∨ st = .stopped) (release l) := by
  refine ⟨fun e h => ?_, fun e h => follows_of_eq ?_⟩
  · unfold release
    repeat' split
    · exact h
    · exact releaseHalted_law l e h
    · exact h
    · exact releaseStopped_law l e h
    all_goals exact h
  · unfold release
    split
    · next hs => exact absurd (.inl hs) h
    · next hs => exact absurd (.inr hs) h
    all_goals rfl

theorem acceptSpan_entered (l : Link) (sp : Span) (e : Ev) :
    (acceptSpan l sp e).st.gen.collectionsLaw ∧ (acceptSpan l sp e).st.gen.state = .unregistered := by
  rw [acceptSpan, recomputeBlocked_gen]
  exact enterUnregistered_entered false _

theorem setSpan_leaves (l : Link) (sp : Span) : Leaves (· = .halted) (setSpan l sp) := by
  have outcome (e : Ev) : (setSpan l sp e).st.gen = e.st.gen ∨
      excludesSpan e.st = false ∧ (setSpan l sp e).st.gen.collectionsLaw ∧ (setSpan l sp e).st.gen.state = .unregistered := by
    unfold setSpan; dsimp only
    repeat' split
    case h_2 may _ _ _ => exact .inr ⟨by simpa using may, acceptSpan_entered l sp _⟩
    all_goals exact .inl (by simp)
  refine ⟨fun e h => ?_, fun e h => ?_⟩
  · obtain same | ⟨-, law, -⟩ := outcome e
    · rwa [same]
    · exact law
  · obtain same | ⟨may, law, entered⟩ := outcome e
    · exact follows_of_eq same
    · refine ⟨fun _ => law, fun off => ?_⟩
      obtain hs | hs | hs := off
      · exact .inl (entered.trans hs.symm)
      · simp [excludesSpan, hs] at may
      · exact absurd hs h

/-! Request frames and events. -/

theorem refuseBusy_gen (l : Link) (t k : Byte) (s : State) : (refuseBusy l t k s).gen = s.gen := by
  unfold refuseBusy; split <;> simp

/-- A request frame is passed over or refused, or its act follows; a reserved kind is not taken on the operations link (R201). -/
theorem request_leaves {α : Type} {k : RequestKind} {r : Req α} {act : α → Ev → Ev} {left : GenState → Prop} (s : State)
    (h : ∀ a, Leaves left (act a)) :
    (s.gen.collectionsLaw → (request k r act s).gen.collectionsLaw) ∧
      (¬left s.gen.state ∨ (safetyOnly k = true ∧ r.link = .operations) → s.gen.Follows (request k r act s).gen) := by
  have same {u : State} (hu : u.gen = s.gen) :
      (s.gen.collectionsLaw → u.gen.collectionsLaw) ∧
        (¬left s.gen.state ∨ (safetyOnly k = true ∧ r.link = .operations) → s.gen.Follows u.gen) :=
    ⟨(follows_of_eq hu).law, fun _ => follows_of_eq hu⟩
  have ends {e : Ev} (he : e.st.gen = s.gen) : s.gen.Follows (finish s.gen.state e).gen := he ▸ finish_follows _ e
  unfold request; dsimp only
  split
  · exact same rfl
  · split
    · exact same (refuseBusy_gen ..)
    · unfold decideRequest
      split
      · exact ⟨(ends rfl).law, fun _ => ends rfl⟩
      · next passes =>
        split
        · exact ⟨(ends rfl).law, fun _ => ends rfl⟩
        · next a _ =>
          obtain ⟨law, follows⟩ := h a
          generalize he : Ev.start _ = e
          have taken : e.st.gen = s.gen := by rw [← he]; simp
          have finished := finish_follows s.gen.state (act a e)
          rw [← taken]
          rw [← taken] at finished
          exact ⟨fun hl => finished.law (law e hl),
            fun stays => (follows e (stays.resolve_right passes)).trans finished⟩

theorem runEvent_follows {act : Ev → Ev} (s : State) (h : KeepsGenerator act) : s.gen.Follows (runEvent s act).gen := by
  unfold runEvent
  split
  · exact .refl _
  · exact (h (Ev.start s)).trans (finish_follows _ _)

/-! Every command. -/

/-- The states that a command may leave, of STOPPED, UNREGISTERED and HALTED (R96). -/
def mayLeave (i : Instr) (st : GenState) : Prop :=
  (st = .unregistered ∧ ∃ r, i = .register r) ∨
    ((st = .halted ∨ st = .stopped) ∧ ∃ r, i = .release r ∧ r.link = .safety) ∨
    (st = .halted ∧ ∃ r, i = .setSpan r) ∨ (st ≠ .unregistered ∧ beginsReset i = true)

/-- After every command the collections keep their law, and the standing states are left by their own commands alone. -/
theorem exec_generator (i : Instr) (s t : State) (h : exec i s = .next t) :
    (s.gen.collectionsLaw → t.gen.collectionsLaw) ∧ (¬mayLeave i s.gen.state → s.gen.Follows t.gen) := by
  have follows {P : Prop} {u : State} (hu : s.gen.Follows u.gen)
      (h : (Host.Outcome.next u : Host.Outcome State Fault Refusal) = .next t) :
      (s.gen.collectionsLaw → t.gen.collectionsLaw) ∧ (P → s.gen.Follows t.gen) := by
    rw [← next_inj h]; exact ⟨hu.law, fun _ => hu⟩
  have keep {P : Prop} {u : State} (hu : u.gen = s.gen)
      (h : (Host.Outcome.next u : Host.Outcome State Fault Refusal) = .next t) :
      (s.gen.collectionsLaw → t.gen.collectionsLaw) ∧ (P → s.gen.Follows t.gen) := follows (follows_of_eq hu) h
  have leaves {α : Type} {k : RequestKind} {r : Req α} {act : α → Ev → Ev} {left : GenState → Prop} {P : Prop}
      (ha : ∀ a, Leaves left (act a)) (hp : P → ¬left s.gen.state ∨ (safetyOnly k = true ∧ r.link = .operations))
      (h : (Host.Outcome.next (request k r act s) : Host.Outcome State Fault Refusal) = .next t) :
      (s.gen.collectionsLaw → t.gen.collectionsLaw) ∧ (P → s.gen.Follows t.gen) := by
    rw [← next_inj h]
    obtain ⟨law, follows⟩ := request_leaves s (k := k) (r := r) ha
    exact ⟨law, fun p => follows (hp p)⟩
  have req {α : Type} {k : RequestKind} {r : Req α} {act : α → Ev → Ev} {P : Prop} (ha : ∀ a, KeepsGenerator (act a))
      (h : (Host.Outcome.next (request k r act s) : Host.Outcome State Fault Refusal) = .next t) :
      (s.gen.collectionsLaw → t.gen.collectionsLaw) ∧ (P → s.gen.Follows t.gen) :=
    leaves (left := fun _ => False) (fun a => (ha a).leaves _) (fun _ => .inl id) h
  have reqEq {α : Type} {k : RequestKind} {r : Req α} {act : α → Ev → Ev} {P : Prop}
      (ha : ∀ a e, (act a e).st.gen = e.st.gen)
      (h : (Host.Outcome.next (request k r act s) : Host.Outcome State Fault Refusal) = .next t) :
      (s.gen.collectionsLaw → t.gen.collectionsLaw) ∧ (P → s.gen.Follows t.gen) :=
    req (fun a => keepsGenerator_of_eq (ha a)) h
  have ev {act : Ev → Ev} {P : Prop} (ha : KeepsGenerator act)
      (h : (Host.Outcome.next (runEvent s act) : Host.Outcome State Fault Refusal) = .next t) :
      (s.gen.collectionsLaw → t.gen.collectionsLaw) ∧ (P → s.gen.Follows t.gen) := follows (runEvent_follows s ha) h
  have reset {wear : PerWinch WinchWear} {P : Prop} (hp : P → ¬s.gen.state ≠ .unregistered)
      (h : (Host.Outcome.next (s.beginReset wear) : Host.Outcome State Fault Refusal) = .next t) :
      (s.gen.collectionsLaw → t.gen.collectionsLaw) ∧ (P → s.gen.Follows t.gen) := by
    have empty : (s.beginReset wear).gen.collectionsLaw := collectionsLaw_of_empty rfl rfl rfl rfl
    rw [← next_inj h]
    exact ⟨fun _ => empty, fun p => ⟨fun _ => empty, fun _ => .inl (Decidable.not_not.1 (hp p)).symm⟩⟩
  match i, h with
  | .powerUp, h => exact reset (fun stays hs => stays (.inr (.inr (.inr ⟨hs, rfl⟩)))) h
  | .resetLine, h => exact reset (fun stays hs => stays (.inr (.inr (.inr ⟨hs, rfl⟩)))) h
  | .register r, h => exact leaves (register_leaves r.link) (fun stays => .inl fun hs => stays (.inl ⟨hs, r, rfl⟩)) h
  | .setSpan r, h =>
    exact leaves (setSpan_leaves r.link) (fun stays => .inl fun hs => stays (.inr (.inr (.inl ⟨hs, r, rfl⟩)))) h
  | .release r, h =>
    refine leaves (fun _ => release_leaves r.link) (fun stays => ?_) h
    cases hl : r.link with
    | operations => exact .inr ⟨rfl, rfl⟩
    | safety => exact .inl fun left => stays (.inr (.inl ⟨left, r, rfl, hl⟩))
  | .zoneAdd r, h => exact req (zoneAdd_follows r.link) h
  | .zoneAmend r, h => exact req (zoneAmend_follows r.link) h
  | .zoneRetire r, h => exact req (zoneRetire_follows r.link) h
  | .zoneQuery r, h => exact reqEq (zoneQuery_gen r.link) h
  | .zoneList r, h => exact reqEq (fun _ => zoneList_gen r.link) h
  | .pointLookup r, h => exact reqEq (pointLookup_gen r.link) h
  | .cueStore r, h => exact reqEq (cueStore_gen r.link) h
  | .cueAmend r, h => exact reqEq (cueAmend_gen r.link) h
  | .cueRetire r, h => exact reqEq (cueRetire_gen r.link) h
  | .cueQuery r, h => exact reqEq (cueQuery_gen r.link) h
  | .cueList r, h => exact reqEq (fun _ => cueList_gen r.link) h
  | .goto r, h => exact req (gotoRequest_follows false r.link) h
  | .gotoPriority r, h => exact req (gotoRequest_follows true r.link) h
  | .recall r, h => exact req (recallRequest_follows false r.link) h
  | .recallPriority r, h => exact req (recallRequest_follows true r.link) h
  | .jog r, h => exact req (jog_follows r.link) h
  | .hold r, h => exact req (fun _ => hold_follows r.link) h
  | .resume r, h => exact req (fun _ => resume_follows r.link) h
  | .flushQueue r, h => exact req (flushQueue_follows r.link) h
  | .flushAll r, h => exact req (fun _ => flushAll_follows r.link) h
  | .motionQuery r, h => exact reqEq (act := fun _ => motionQuery r.link) (fun _ _ => rfl) h
  | .setLimits r, h => exact reqEq (setLimits_gen r.link) h
  | .lock r, h => exact reqEq (fun _ => lock_gen r.link) h
  | .configQuery r, h => exact reqEq (act := fun _ => configQuery r.link) (fun _ _ => rfl) h
  | .tensionQuery r, h => exact reqEq (act := fun _ => tensionQuery r.link) (fun _ _ => rfl) h
  | .driveQuery r, h => exact reqEq (act := fun _ => driveQuery r.link) (fun _ _ => rfl) h
  | .faultQuery r, h => exact reqEq (act := fun _ => faultQuery r.link) (fun _ _ => rfl) h
  | .clearFault r, h => exact reqEq (act := fun _ => clearFault r.link) (fun _ _ => rfl) h
  | .wearQuery r, h => exact reqEq (wearQuery_gen r.link) h
  | .wearLoad r, h =>
    exact reqEq (act := fun f : WearLoadFields => rewriteWear r.link f.winch f.counters) (fun _ => rewriteWear_gen _ _ _) h
  | .wearReset r, h => exact reqEq (fun n => rewriteWear_gen r.link n _) h
  | .clearEvents r, h => exact reqEq (clearEvents_gen r.link) h
  | .setNotices r, h => exact reqEq (setNotices_gen r.link) h
  | .eventQuery r, h => exact reqEq (act := fun _ => eventQuery r.link) (fun _ _ => rfl) h
  | .unknownRequest l tag kind, h =>
    simp only [exec, execUnknownRequest] at h
    split at h
    · cases h
    · refine keep ?_ h
      unfold takeUnknown; dsimp only
      repeat' split
      all_goals simp [refuseBusy_gen]
  | .consoleFrameDiscard l d, h => refine keep ?_ h; split <;> simp
  | .frameSent l, h => refine keep ?_ h; split <;> simp
  | .stepTimerExpiry, h => exact ev stepTimer_follows h
  | .holdTimerExpiry, h => exact ev holdTimer_follows h
  | .oneSecondTimerExpiry, h => exact ev (keepsGenerator_of_eq oneSecond_gen) h
  | .deadmanExpiry, h => exact ev deadman_follows h
  | .scrubberTimerExpiry, h => exact ev (keepsGenerator_of_eq scrub_gen) h
  | .cellVisit, h => exact ev cellVisitEvent_follows h
  | .feedbackFrame w b, h => exact ev (feedbackEvent_follows w b) h
  | .stopAsserted, h => exact follows (runEvent_follows (setStop true s) trip_follows) h
  | .stopReleased, h => exact keep (u := setStop false s) rfl h
  | .endOfReset, h => refine keep ?_ h; split <;> rfl

end Sys2Proof.Machine

section
open Sys2Proof Sys2Proof.Machine

/-- Settles O54: by the cases of `exec_generator`. -/
theorem moveCollectionsStayBounded : Obligations.MoveCollectionsStayBounded :=
  fun i s t h => (exec_generator i s t h).1

/-- Settles O55: a command that leaves a standing state is one that may leave it. -/
theorem haltsStandUntilReleased : Obligations.HaltsStandUntilReleased := by
  intro i s t h
  have leaves (off : s.gen.off) (other : t.gen.state ≠ s.gen.state)
      (tripped : s.gen.state = .halted → t.gen.state ≠ .stopped) : mayLeave i s.gen.state := by
    by_contra stays
    obtain same | ⟨halted, stopped⟩ := ((exec_generator i s t h).2 stays).stands off
    · exact other same
    · exact tripped halted stopped
  refine ⟨fun hs ht => ?stopped, fun hs ht => ?unregistered, fun hs ht ht' => ?halted⟩
  case stopped =>
    obtain ⟨hu, -⟩ | ⟨-, release⟩ | ⟨hh, -⟩ | ⟨-, reset⟩ := leaves (.inr (.inl hs)) (by rwa [hs]) (by rw [hs]; nofun)
    · rw [hs] at hu; cases hu
    · exact .inl release
    · rw [hs] at hh; cases hh
    · exact .inr reset
  case unregistered =>
    obtain ⟨-, register⟩ | ⟨off, -⟩ | ⟨hh, -⟩ | ⟨hu, -⟩ := leaves (.inl hs) (by rwa [hs]) (by rw [hs]; nofun)
    · exact register
    · rw [hs] at off; exact nomatch off
    · rw [hs] at hh; cases hh
    · exact absurd hs hu
  case halted =>
    obtain ⟨hu, -⟩ | ⟨-, release⟩ | ⟨-, setSpan⟩ | ⟨-, reset⟩ := leaves (.inr (.inr hs)) (by rwa [hs]) fun _ => ht'
    · rw [hs] at hu; cases hu
    · exact .inl release
    · exact .inr (.inl setSpan)
    · exact .inr (.inr reset)

end
end

