-- ==== Sys2Proof/Proofs/RootsAndBraking.lean ====
section
/-! SUPPORT. The nearest integer to a root (R105, R138), and the braking distance as the sum of the speeds of the braking steps (R80,
R110). -/

namespace Sys2Proof.Machine

/-- The nearest integer to a root lies within half of it. -/
theorem nearestRoot_near (n : Nat) :
    4 * n < (2 * nearestRoot n + 1) ^ 2 ∧ (0 < nearestRoot n → (2 * nearestRoot n - 1) ^ 2 < 4 * n) := by
  have low : Nat.sqrt n * Nat.sqrt n ≤ n := Nat.sqrt_le n
  have high : n < (Nat.sqrt n + 1) * (Nat.sqrt n + 1) := Nat.lt_succ_sqrt n
  rw [nearestRoot, isqrt_eq_sqrt]
  generalize Nat.sqrt n = r at low high ⊢
  split
  · next up =>
    have above : r * r + r < n := by omega
    exact ⟨by nlinarith, fun _ => by rw [show 2 * (r + 1) - 1 = 2 * r + 1 by omega]; nlinarith⟩
  · next down =>
    have below : n ≤ r * r + r := by omega
    refine ⟨by nlinarith, fun pos => ?_⟩
    obtain ⟨k, rfl⟩ := Nat.exists_eq_succ_of_ne_zero (Nat.pos_iff_ne_zero.1 pos)
    rw [show 2 * k.succ - 1 = 2 * k + 1 by omega]
    simp only [Nat.succ_eq_add_one] at low
    nlinarith

/-- The sum of the squares of a difference, in either form. -/
theorem normSq_sub (p q : Vec3) :
    normSq (q.sub p) = ((q.x - p.x) ^ 2 + (q.y - p.y) ^ 2 + (q.z - p.z) ^ 2).toNat := by
  have square (a : Int) : ((a.natAbs * a.natAbs : Nat) : Int) = a ^ 2 := by rw [Int.natAbs_mul_self, pow_two]
  have sum : (normSq (q.sub p) : Int) = (q.x - p.x) ^ 2 + (q.y - p.y) ^ 2 + (q.z - p.z) ^ 2 := by
    simp only [normSq, Vec3.sub, Nat.cast_add, square]
  rw [← sum, Int.toNat_natCast]

/-- The speeds of the first braking steps from `v`, `a` slower each, sum to an arithmetic series. -/
theorem sum_brakingSpeeds (v a k : Nat) (h : k * a ≤ v) :
    ((List.range k).map fun i => v - (i + 1) * a).sum + a * (k * (k + 1) / 2) = k * v := by
  induction k with
  | zero => simp
  | succ k ih =>
    have series : (k + 1) * (k + 1 + 1) / 2 = k * (k + 1) / 2 + (k + 1) := by
      rw [show (k + 1) * (k + 1 + 1) = k * (k + 1) + (k + 1) * 2 by ring, Nat.add_mul_div_right _ _ (by decide)]
    have before := ih ((Nat.mul_le_mul_right a (Nat.le_succ k)).trans h)
    have speed : v - (k + 1) * a + a * (k + 1) = v := by rw [Nat.mul_comm a]; exact Nat.sub_add_cancel h
    have last : (k + 1) * v = k * v + v := Nat.succ_mul k v
    rw [List.range_succ, List.map_append, List.sum_append, series, List.map_singleton, List.sum_singleton, Nat.mul_add]
    omega

theorem brakingDistance_eq_sum (v a : Nat) :
    brakingDistance v a = ((List.range (v / a)).map fun k => v - (k + 1) * a).sum := by
  have series := sum_brakingSpeeds v a (v / a) (Nat.div_mul_le_self v a)
  rw [brakingDistance]
  omega

end Sys2Proof.Machine

section
open Sys2Proof Sys2Proof.Machine

/-- Settles O60: the root bit by bit, the nearest root by its two cases, and the braking distance as an arithmetic series. -/
theorem rootsAndBrakingDistances : Obligations.RootsAndBrakingDistances := by
  refine ⟨isqrt_eq_sqrt, fun p q => ?_, fun v a _ => brakingDistance_eq_sum v a⟩
  dsimp only
  rw [← normSq_sub]
  exact nearestRoot_near _

end
end

