-- ==== Sys2Proof/Proofs/AcceptedSteps.lean ====
section
/-! SUPPORT. A move step that no SLOW zone limits (R93, R94, R108). -/

namespace Sys2Proof.Machine

theorem moveSpeed_of_noSlow {s : State} (h : s.noSlow) (f : Flight) (v a : Nat) :
    moveSpeed f v a (slowLimits s f a) = freeSpeed f v a := by
  rw [slowLimits_of_noSlow h, moveSpeed_eq]
  rfl

/-- Without ACTIVE SLOW zones no test finds one. -/
theorem State.noSlow.slowCapWhere {s : State} (h : s.noSlow) (test : Box → Bool) {i : Nat} (hi : i ∈ zoneIds) :
    slowCapWhere s test i = none := by
  cases hz : zoneAt s i with
  | none => simp [Machine.slowCapWhere, hz]
  | some z =>
    have none_of_active := h i hi z hz
    simp only [Machine.slowCapWhere, hz, Option.bind_some]
    exact if_neg fun c => by simp [none_of_active c.1] at c

/-- A standing trolley offers its position unchanged (R98). -/
theorem standing_accepted {s : State} {sp : Span} {p : Vec3} {l : PerWinch RopeLength} (due : s.stepDue sp p l)
    (hs : s.gen.state = .idle ∨ s.gen.state = .held ∨ s.gen.state = .halted) (passes : s.offerPasses sp p) :
    pathStep sp (Ev.start s) = s.offered [] sp p l s.gen [] := by
  obtain ⟨-, -, -, hp, hl, hn⟩ := due
  have registered : registered s = true := (registered_iff s).2 (by rcases hs with hs | hs | hs <;> simp [hs])
  exact (pathStep_standing sp hs hp).trans (congrArg Prod.fst (offer_passes [] hl registered hn passes))

end Sys2Proof.Machine

section
open Sys2Proof Sys2Proof.Machine

/-- Settles O27: the offer of a standing trolley is its position, and that of a move is where the move profile puts it. -/
theorem acceptedStepCommits : Obligations.AcceptedStepCommits := by
  intro s sp p lens due
  refine ⟨fun standing passes => exec_step_quiet due (standing_accepted due standing passes) rfl, ?_⟩
  intro f moving hf noSlow lim v1 v' p' short passes
  have speed : moveSpeed f s.gen.v sp.accel (slowLimits s f sp.accel) = v' := moveSpeed_of_noSlow noSlow f _ _
  have committed := moveStep_accepted due moving hf noSlow.slowSound speed (Nat.min_eq_left (Nat.le_of_lt short)) passes
  have notThere : { f with s := f.s + v' }.s ≠ { f with s := f.s + v' }.dist := Nat.ne_of_lt short
  have quiet := afterMove_short_quiet (v := v')
    (e := s.offered [] sp p' lens (s.gen.committing f (f.s + v') v') []) noSlow.slowSound notThere
    fun i hi m found => by cases (noSlow.slowCapWhere _ hi).symm.trans found
  exact exec_step_quiet due (committed.trans quiet) rfl

end
end

