-- ==== Sys2Proof/Proofs/DamagedReads.lean ====
section
/-! SUPPORT. An answer that a damaged read follows (R182, R186, R202): what is raised after an answer leaves its frames in
the transmit list. -/

namespace Sys2Proof.Machine

/-! What is raised after a fault and a halt. -/

/-- An event has raised more flags than another, and answered nothing more. -/
def Ev.Raises (e e' : Ev) : Prop := ∃ more, raisesOnly more ∧ e'.out = e.out ++ more

theorem Ev.Raises.refl (e : Ev) : e.Raises e := ⟨[], raisesOnly_nil, (List.append_nil _).symm⟩

theorem Ev.Raises.trans {e e' e'' : Ev} (h : e.Raises e') (h' : e'.Raises e'') : e.Raises e'' := by
  obtain ⟨m, hm, he⟩ := h
  obtain ⟨m', hm', he'⟩ := h'
  exact ⟨m ++ m', fun o ho => (List.mem_append.1 ho).elim (hm o) (hm' o), by rw [he', he, List.append_assoc]⟩

theorem raises_raise (e : Ev) (f : EventFlag) (a b : Nat) : e.Raises (e.raise f a b) :=
  ⟨[.raise f a b], raisesOnly_cons raisesOnly_nil, rfl⟩

theorem reportFault_raises (c : FaultClass) (j : FaultSubject) (e : Ev) : e.Raises (reportFault c j e) := by
  unfold reportFault
  dsimp only
  split
  · exact .refl e
  · exact raises_raise e _ _ _

theorem controlledHalt_raises (e : Ev) : e.Raises (controlledHalt e) := by
  rcases controlledHalt_cases e with ⟨-, h⟩ | ⟨-, h⟩ | ⟨-, h⟩ | ⟨-, h⟩ <;> rw [h]
  case inr.inr.inl => exact ⟨_, raisesOnly_dropActs _ _, by rw [enterHalted_eq]⟩
  all_goals exact .refl e

theorem settleReads_raises (e : Ev) : e.Raises (settleReads e) := by
  have faults (ids : List Nat) (e : Ev) : e.Raises (ids.foldl (fun e i => reportFault .recordCheck (.number i) e) e) := by
    induction ids generalizing e with
    | nil => exact .refl e
    | cons i ids ih => exact (reportFault_raises _ _ e).trans (ih _)
  unfold settleReads
  split
  · exact .refl e
  · exact (faults _ e).trans (controlledHalt_raises _)

theorem withState_raises {out : List Out} (g g' : GenState) (h : ∀ o ∈ out, o ≠ .stateHere) :
    ∃ more, raisesOnly more ∧ withState g g' out = out ++ more := by
  have noPlace : (out.any fun o => o == .stateHere) = false := by simpa using h
  unfold withState
  split
  · exact ⟨[], raisesOnly_nil, (List.append_nil _).symm⟩
  · exact ⟨[.raise .state g'.code 0], raisesOnly_cons raisesOnly_nil, by simp [noPlace]⟩

/-! The frames of an answer in the transmit list (R198, R202). -/

theorem mem_frames_enqueue (f g : Frame) (p : Port) : g ∈ (p.enqueue f).frames ↔ g = f ∨ g ∈ p.frames := by
  unfold Port.enqueue Port.frames
  split
  · next h => simp [h]
  · next h => simp [h, or_comm, or_left_comm]

theorem mem_frames_foldl_enqueue (fs : List Frame) (g : Frame) (p : Port) :
    g ∈ (fs.foldl (fun p f => p.enqueue f) p).frames ↔ g ∈ fs ∨ g ∈ p.frames := by
  induction fs generalizing p with
  | nil => simp
  | cons f fs ih => rw [List.foldl_cons, ih, mem_frames_enqueue, List.mem_cons, or_left_comm, or_assoc]

/-- A notice takes the place of no answer. -/
theorem mem_frames_notifyEnabled {g : Frame} {p : Port} (n a b : Nat) (h : g ∈ p.frames) (hg : g.role = .answer) :
    g ∈ (p.notifyEnabled n a b).frames := by
  have kept : g ∈ p.waiting →
      g ∈ p.waiting.map fun f => if f.role == .notice n then noticeFrame n a b else f := fun hw =>
    List.mem_map.2 ⟨g, hw, if_neg (by simp [hg])⟩
  unfold Port.notifyEnabled Port.notify
  split
  · split
    · exact List.mem_append.2 ((List.mem_append.1 h).imp_right kept)
    · exact (mem_frames_enqueue _ g p).2 (.inr h)
  · exact h

theorem answerFrames_role (r : FrameRole) (t k : Byte) (a : Answer) : ∀ g ∈ answerFrames r t k a, g.role = r := by
  unfold answerFrames
  generalize splitDetails a.details [] = parts
  fun_induction partFrames with
  | case1 => nofun
  | case2 => simp
  | case3 d parts more ih => simpa using ih

/-- A port has no request in progress, and frames of its answers in its transmit list. -/
def Port.hasAnswered (p : Port) (fs : List Frame) : Prop :=
  p.inProgress = none ∧ ∀ g ∈ fs, g ∈ p.frames ∧ g.role = .answer

theorem answer_hasAnswered {p : Port} {q : InProgress} (h : p.inProgress = some q) (a : Answer) :
    (p.answer a).hasAnswered (answerFrames .answer q.tag (answerKind q.kind) a) := by
  simp only [Port.answer, h]
  exact ⟨rfl, fun g hg => ⟨(mem_frames_foldl_enqueue _ g p).2 (.inl hg), answerFrames_role _ _ _ _ g hg⟩⟩

theorem raiseFlag_hasAnswered {s : State} {l : Link} {fs : List Frame} (f : EventFlag) (a b : Nat)
    (h : (s.console.port l).hasAnswered fs) : ((raiseFlag f a b s).console.port l).hasAnswered fs := by
  obtain ⟨free, frames⟩ := h
  refine ⟨by simp [free], fun g hg => ?_⟩
  obtain ⟨mem, role⟩ := frames g hg
  refine ⟨?_, role⟩
  unfold raiseFlag
  split
  · cases l <;> exact mem_frames_notifyEnabled _ _ _ mem role
  · exact mem

/-- What is raised after an answer leaves it where it is. -/
theorem foldl_putOut_hasAnswered {l : Link} {fs : List Frame} {out : List Out} (ho : raisesOnly out) {s : State}
    (h : (s.console.port l).hasAnswered fs) : ((out.foldl putOut s).console.port l).hasAnswered fs := by
  induction out generalizing s with
  | nil => exact h
  | cons o out ih =>
    obtain ⟨f, a, b, rfl⟩ := ho o List.mem_cons_self
    exact ih (fun o ho' => ho o (List.mem_cons_of_mem _ ho')) (raiseFlag_hasAnswered f a b h)

/-- What is put out depends on the console alone. -/
theorem foldl_putOut_console_congr (out : List Out) {s t : State} (h : s.console = t.console) :
    (out.foldl putOut s).console = (out.foldl putOut t).console := by
  have beside := foldl_putOut_comm out (fun x => { t with console := x.console }) (fun _ => rfl) (fun _ _ => rfl) s
  simp only [h] at beside
  rw [beside]

/-- What an event puts out is what it has raised and answered, and then more flags. -/
theorem finish_puts {e : Ev} (g : GenState) (ho : ∀ o ∈ e.out, o ≠ .stateHere) :
    ∃ more, raisesOnly more ∧ (finish g e).console = (more.foldl putOut (e.out.foldl putOut e.st)).console := by
  obtain ⟨more, raises, out⟩ := settleReads_raises e
  have noPlace : ∀ o ∈ (settleReads e).out, o ≠ .stateHere := fun o mem => by
    rcases List.mem_append.1 (out ▸ mem) with mem | mem
    · exact ho o mem
    · obtain ⟨f, a, b, rfl⟩ := raises o mem
      nofun
  obtain ⟨last, lastRaises, told⟩ := withState_raises g (settleReads e).st.gen.state noPlace
  obtain ⟨-, -, console, -, -, -, -, -⟩ := base_eq (settleReads_base e)
  refine ⟨more ++ last, fun o mem => (List.mem_append.1 mem).elim (raises o) (lastRaises o), ?_⟩
  rw [finish, told, out, List.append_assoc, List.foldl_append]
  exact foldl_putOut_console_congr _ (foldl_putOut_console_congr _ console)

/-- A raised flag is set, with the cause raised where it was clear (R204). -/
theorem raiseFlag_flag (f : EventFlag) (a b : Nat) (s : State) :
    ∃ r, (raiseFlag f a b s).console.flags[f.number]? = some (some r) ∧
      (s.console.flags[f.number]? = some none → r = ⟨a, b⟩) := by
  cases h : s.console.flags[f.number]? with
  | none => simp [f.number_lt] at h
  | some o =>
    cases o with
    | none => exact ⟨⟨a, b⟩, by simp [raiseFlag_clear f a b s h, f.number_lt], fun _ => rfl⟩
    | some r => exact ⟨r, raiseFlag_keeps f a b s _ r h, nofun⟩

/-- The flag that an event raises before anything else. -/
theorem finish_flag {e : Ev} {f : EventFlag} {a b : Nat} {out : List Out} (g : GenState) (ho : e.out = .raise f a b :: out)
    (hn : ∀ o ∈ out, o ≠ .stateHere) :
    ∃ r, (finish g e).console.flags[f.number]? = some (some r) ∧
      (e.st.console.flags[f.number]? = some none → r = ⟨a, b⟩) := by
  obtain ⟨more, -, console⟩ := finish_puts (e := e) g (by rw [ho]; exact List.forall_mem_cons.2 ⟨nofun, hn⟩)
  obtain ⟨r, set, cause⟩ := raiseFlag_flag f a b e.st
  refine ⟨r, ?_, cause⟩
  rw [console, ho]
  exact foldl_putOut_keeps _ _ _ _ (foldl_putOut_keeps out _ _ _ set)

/-- An answer that a flag precedes. -/
theorem finish_hasAnswered {e : Ev} {f : EventFlag} {a b : Nat} {l : Link} {q : InProgress} {ans : Answer} (g : GenState)
    (ho : e.out = [.raise f a b, .answer l ans]) (hq : (e.st.console.port l).inProgress = some q) :
    ((finish g e).console.port l).hasAnswered (answerFrames .answer q.tag (answerKind q.kind) ans) := by
  obtain ⟨more, raises, console⟩ := finish_puts (e := e) g (by rw [ho]; simp)
  rw [console, ho]
  have inProgress : ((raiseFlag f a b e.st).console.port l).inProgress = some q := by rw [raiseFlag_inProgress, hq]
  exact foldl_putOut_hasAnswered raises (by simpa [putOut] using answer_hasAnswered inProgress ans)

/-! ZONE_QUERY of a damaged record (R43, R186). -/

/-- The event of a ZONE_QUERY that has read a damaged record and answered. -/
def zoneAnswered (l : Link) (id : Nat) (z : Zone) (s : State) : Ev :=
  ⟨putZone id (some { z with suspect := true }) s,
    [.raise .suspect id 1, .answer l ⟨.ok, false, zoneReport id (some { z with suspect := true })⟩], [id]⟩

theorem zoneQuery_failed {s : State} {id : Nat} {z : Zone} (l : Link) (h : zoneFails s id = true)
    (hz : zoneAt s id = some z) (hid : id < 64) : zoneQuery l id (Ev.start s) = zoneAnswered l id z s := by
  rw [zoneQuery, if_neg (by omega), readZone_failed (e := Ev.start s) h hz]
  simp only [zoneAt_putZone_same _ _ _ hid]
  rfl

theorem exec_zoneQuery_failed {s : State} {l : Link} {tag : Byte} {id : Nat} {z : Zone} (hfree : s.portFree l)
    (h : zoneFails s id = true) (hz : zoneAt s id = some z) (hid : id < 64) :
    exec (.zoneQuery ⟨l, tag, .fields id⟩) s =
      .next (finish s.gen.state (zoneAnswered l id z (s.taken l tag 0x04))) := by
  have answered := zoneQuery_failed (s := s.taken l tag 0x04) l h hz hid
  have passes := request_passes .zoneQuery ⟨l, tag, .fields id⟩ (zoneQuery l) s id hfree nofun rfl
  exact congrArg Host.Outcome.next (passes.trans (congrArg (finish s.gen.state) answered))

end Sys2Proof.Machine

section
open Sys2Proof Sys2Proof.Machine

/-- Settles O14: the query answers from the marked record, and its failure is settled after the answer. -/
theorem damagedZoneReadHalts : Obligations.DamagedZoneReadHalts := by
  intro s l tag id z hfree hz hf
  have hid : id < 64 := by
    by_contra h
    simp [zoneAt_none_of_ge id s (Nat.le_of_not_lt h)] at hz
  let e := zoneAnswered l id z (s.taken l tag 0x04)
  obtain ⟨v, end_⟩ := finish_oneFailure s.gen.state (e := e) (i := id) rfl
  obtain ⟨r, raised, cause⟩ := finish_flag s.gen.state (e := e) rfl (by simp)
  obtain ⟨answered, frames⟩ := finish_hasAnswered s.gen.state (e := e) (q := ⟨tag, 0x04⟩) rfl
    (by simp [e, zoneAnswered, State.taken])
  refine ⟨_, exec_zoneQuery_failed hfree hf hz hid, ?_⟩
  generalize finish s.gen.state e = t at end_ raised answered frames
  have set : t.console.flags[17]? = some (some r) := raised
  have cause : s.console.flags[17]? = some none → r = ⟨id, 1⟩ := fun h =>
    cause (by rw [show e.st.console.flags = s.console.flags from setPort_flags _ _ _]; exact h)
  have zones : t.zones = (putZone id (some { z with suspect := true }) s).zones := by rw [end_]; rfl
  have gen : t.gen = s.gen.haltingFrom := by rw [end_]; rfl
  have zone (j : Nat) : zoneAt t j = zoneAt (putZone id (some { z with suspect := true }) s) j := by
    simp only [zoneAt, zones]
  have fails (j : Nat) : zoneFails t j = zoneFails (putZone id (some { z with suspect := true }) s) j := by
    simp only [zoneFails, zones]
  refine ⟨by rw [zone, zoneAt_putZone_same _ _ _ hid], by rw [fails, zoneFails_putZone_same _ _ _ hid],
    fun j hj => ⟨by rw [zone, zoneAt_putZone_other _ _ _ _ hj.symm],
      by rw [fails, zoneFails_putZone_other _ _ _ _ hj.symm]⟩,
    ⟨r, by simpa using set⟩, fun clear => ?_, by rw [end_]; simp, fun free => ?_, answered,
    fun g hg => (frames g hg).1, fun h => ?_, fun h => ?_, fun h => ?_, fun h => ?_, by rw [end_]; rfl, by rw [end_]; rfl,
    by rw [end_]; rfl, by rw [end_]; rfl, by rw [end_]; rfl, by rw [end_]; rfl, by rw [end_]; rfl, by rw [end_]; rfl⟩
  · have r_eq : r = ⟨id, 1⟩ := cause (by simpa using clear)
    simpa [r_eq] using set
  · rw [end_]
    simp [captureFault, faultPosition, e, zoneAnswered, free]
  · rcases h with h | h <;> simp [gen, Generator.haltingFrom, h, Generator.haltedFrom]
  · rcases h with h | h <;> simp [gen, Generator.haltingFrom, h]
  · simp [gen, Generator.haltingFrom, h]
  · rcases h with h | h | h <;> simp [gen, Generator.haltingFrom, h]

end
end

