-- ==== Sys2Proof/Proofs/PriorityMoves.lean ====
section
/-! SUPPORT. A priority move that interrupts the executing one (R102, R104). -/

namespace Sys2Proof.Machine

/-- The refusals of R102 up to item 6 for a priority move in MOVING, with no ACTIVE zone suspect. -/
theorem moveRefusal_moving {s : State} {f : Flight} (hs : s.gen.state = .moving) (hf : s.gen.flight = some f)
    (hz : activeSuspect s = false) :
    moveRefusal true s =
      if f.move.kind = .exit then some .wrongState else if s.envelope.arming ≠ [] then some .arming else none := by
  by_cases exit : f.move.kind = .exit <;> simp [moveRefusal, registered, halting, exitFlying, hs, hf, hz, exit]

theorem roomRefusal_moving {s : State} (hs : s.gen.state = .moving) :
    roomRefusal true s = if 4 ≤ s.gen.stack.length then some .stackFull else none := by
  simp [roomRefusal, hs]

/-- A move has taken its id and waits, and the executing move brakes for it. -/
def State.interrupted (m : Move) (s : State) : State :=
  onGen (brakeMove .priority) (onGen (fun g => { g with waiting := some m }) (countId s))

/-- In MOVING an admitted priority move waits (R104). -/
theorem admitPriority_interrupts {l : Link} {a : Asked} {e : Ev} {sp : Span} (hsp : e.st.spanSet.span = some sp)
    (hid : e.st.gen.nextId ∉ heldIds e.st.gen) (hs : e.st.gen.state = .moving) :
    admitPriority l a e =
      (e.upd (State.interrupted (a.move e.st.gen.nextId sp))).reply l (a.answer e.st.gen.nextId sp) := by
  rw [← admitted_answer hsp hid, ← admitted_eq hsp hid]
  exact if_pos hs

section
variable {l : Link} {f : GotoFields} {e : Ev} {c : Code} {priority : Bool}

theorem gotoRequest_refused (ht : pointOk f.target = true) (hv : f.speed ≠ some 0)
    (hr : moveRefusal priority e.st = some c) : gotoRequest priority l f e = e.refuse l c [] := by
  have sound : moveBad (some f.target) f.speed = none := moveBad_none (by simpa using ht) hv
  simp only [gotoRequest, sound, hr]

theorem admitMove_noRoom {a : Asked} (h : roomRefusal priority e.st = some c) :
    admitMove priority l a e = e.refuse l c [] := by
  simp only [admitMove, h]

end

end Sys2Proof.Machine

section
open Sys2Proof Sys2Proof.Machine

/-- Settles O40: by the kind of the executing move, the arming set and the room on the stack, in the order of R102. -/
theorem priorityMoveBrakesTheExecutingMove : Obligations.PriorityMoveBrakesTheExecutingMove := by
  intro s l tag sp p f target speed hfree hsp hs hp hf hsus hv ht
  have refusal := moveRefusal_moving hs hf hsus
  have room := roomRefusal_moving hs
  have refused {c : Code}
      (h : gotoRequest true l ⟨target, speed⟩ (Ev.start (s.taken l tag 0x0C)) =
        (Ev.start (s.taken l tag 0x0C)).refuse l c []) :
      exec (.gotoPriority ⟨l, tag, .fields ⟨target, speed⟩⟩) s = .next (s.answered l tag 0x0C ⟨c, false, []⟩) :=
    congrArg Host.Outcome.next (request_replies (k := .goto) _ hfree rfl h)
  refine ⟨fun exit => ?exit, fun plain arming => ?arming, fun plain clear full => ?full,
    fun plain clear free hz hid path => ?interrupts⟩
  case exit => exact refused (gotoRequest_refused ht hv (refusal.trans (if_pos exit)))
  case arming => exact refused (gotoRequest_refused ht hv (refusal.trans ((if_neg plain).trans (if_pos arming))))
  all_goals
    have admits := gotoRequest_admits (priority := true) (l := l) (e := Ev.start (s.taken l tag 0x0C))
      (f := ⟨target, speed⟩) hsp ht hv (refusal.trans ((if_neg plain).trans (if_neg (not_not.2 clear))))
  case full => exact refused (admits.trans (admitMove_noRoom (room.trans (if_pos full))))
  case interrupts =>
    have start : pathOk s (posOf s) (gotoAsked sp ⟨target, speed⟩).target = true := by
      rw [show posOf s = p by simp [posOf, hp]]
      exact path
    have interrupts := (admits.trans (admitMove_clear (room.trans (if_neg (Nat.not_le.2 free))) hz start)).trans
      (admitPriority_interrupts hsp hid hs)
    have run := request_changes (k := .goto) (tag := tag) _ _ hfree rfl interrupts rfl (by rw [hs]; nofun)
    exact congrArg Host.Outcome.next (run.trans (by rw [State.interrupted, countId_free hid]; rfl))

end
end

