-- ==== Sys2Proof/Proofs/Flushes.lean ====
section
/-! SUPPORT. FLUSH (R113, R114): a request that is answered, and then tells what it dropped. -/

namespace Sys2Proof.Machine

section
variable {α : Type} {k : RequestKind} {l : Link} {tag : Byte} {act : α → Ev → Ev} {s : State} {a : α} {ids : List Nat}
  {r : DropReason} (u : State → State) (ans : Answer) (h : s.portFree l) (hk : safetyOnly k = false)
  (hact : act a (Ev.start (s.taken l tag (kindCode k))) =
    raiseDropped ids r (((Ev.start (s.taken l tag (kindCode k))).upd u).reply l ans))
  (hu : u (s.taken l tag (kindCode k)) = (u s).taken l tag (kindCode k))
include hact hu

/-- What an answered request has put out once MOVE_DROPPED has followed its answer. -/
theorem foldl_putOut_drops :
    (act a (Ev.start (s.taken l tag (kindCode k)))).out.foldl putOut (act a (Ev.start (s.taken l tag (kindCode k)))).st =
      raiseFirst ids r.code ((u s).answered l tag (kindCode k) ans) := by
  rw [hact, raiseDropped_eq]
  simp only [reply_out, upd_out, start_out, reply_st, upd_st, start_st, List.nil_append, List.singleton_append,
    List.foldl_cons, putOut, hu, answer_taken, foldl_dropActs]

include h hk

/-- A request that drops moves and leaves the generator in its state. -/
theorem request_drops (hg : (u s).gen.state = s.gen.state) :
    request k ⟨l, tag, .fields a⟩ act s = raiseFirst ids r.code ((u s).answered l tag (kindCode k) ans) := by
  rw [request_passes k ⟨l, tag, .fields a⟩ act s a h (by simp [hk]) rfl, ← foldl_putOut_drops u ans hact hu]
  exact finish_quiet _ _ (by simp [hact]) (by simp [hact, hu, hg])

/-- A request that drops moves and changes the generator's state: STATE follows (R97). -/
theorem request_drops_changed (hg : (u s).gen.state ≠ s.gen.state) :
    request k ⟨l, tag, .fields a⟩ act s =
      raiseFlag .state (u s).gen.state.code 0 (raiseFirst ids r.code ((u s).answered l tag (kindCode k) ans)) := by
  have state : (act a (Ev.start (s.taken l tag (kindCode k)))).st.gen.state = (u s).gen.state := by simp [hact, hu]
  have noPlace : ∀ o ∈ (act a (Ev.start (s.taken l tag (kindCode k)))).out, o ≠ .stateHere := fun o ho => by
    rw [hact, raiseDropped_eq] at ho
    rcases List.mem_append.1 ho with ho | ho
    · rw [List.mem_singleton.1 ho]; nofun
    · obtain ⟨f, a, b, rfl⟩ := raisesOnly_dropActs _ _ o ho
      nofun
  rw [request_passes k ⟨l, tag, .fields a⟩ act s a h (by simp [hk]) rfl, ← foldl_putOut_drops u ans hact hu, ← state]
  exact finish_changed _ _ (by simp [hact]) (by rw [state]; exact hg) noPlace

end

/-! The effect of FLUSH ALL by the generator's state (the table of R114). -/

section
variable {s : State}

theorem flushEffect_still
    (h : s.gen.state = .idle ∨ s.gen.state = .halted ∨ s.gen.state = .stopped ∨ s.gen.state = .unregistered) :
    flushEffect s = s := by
  rcases h with h | h | h | h <;> simp only [flushEffect, h]

theorem flushEffect_held (h : s.gen.state = .held) : flushEffect s = restIn .idle s := by
  simp only [flushEffect, h]

theorem flushEffect_jogging (h : s.gen.state = .jogging) : flushEffect s = onGen (brakeJog .flush) s := by
  simp only [flushEffect, h]

theorem flushEffect_moving {f : Flight} (h : s.gen.state = .moving) (hf : s.gen.flight = some f) :
    flushEffect s = if f.move.kind = .exit then s else onGen (brakeMove .flush) s := by
  simp only [flushEffect, exitFlying, h, hf, Option.any_some, beq_self_eq_true, Bool.true_and, beq_iff_eq]

theorem flushEffect_braking (h : s.gen.state = .braking) :
    flushEffect s =
      if s.gen.purpose = some .hold ∨ s.gen.purpose = some .priority then onGen (brakeMove .flush) s else s := by
  simp only [flushEffect, h]

end

/-- The generator without its queue, its stack and its waiting priority move (R114). -/
def Generator.flushed (g : Generator) : Generator := { g with queue := [], stack := [], waiting := none }

/-- FLUSH ALL, where its effect on the generator is known. -/
theorem flushAll_effect {l : Link} {e : Ev} {g : Generator}
    (h : flushEffect { e.st with gen := e.st.gen.flushed } = { e.st with gen := g }) :
    flushAll l e =
      raiseDropped (flushIds e.st.gen) .flush
        ((e.upd fun t => { t with gen := g }).reply l ⟨.ok, false, [[byte (flushIds e.st.gen).length]]⟩) := by
  have effect : flushEffect (onGen (fun g => { g with queue := [], stack := [], waiting := none }) e.st) =
      { e.st with gen := g } := h
  simp only [flushAll, Ev.ok, Ev.upd, Ev.reply, effect]

theorem flushIds_eq (g : Generator) :
    flushIds g = g.queue.map Move.id ++ (g.stack.reverse.map fun c => c.move.id) ++
      (match g.waiting with | none => [] | some m => [m.id]) := by
  unfold flushIds waitingIds
  cases g.waiting <;> rfl

end Sys2Proof.Machine

section
open Sys2Proof Sys2Proof.Machine

/-- Settles O42: by the generator's state, which decides what is left of the move or the jog. -/
theorem flushDropsWhatWaits : Obligations.FlushDropsWhatWaits := by
  intro s l tag hfree ids flushed dropped
  have ids_eq : flushIds s.gen = ids := flushIds_eq s.gen
  let emptied : State := { s.taken l tag 0x11 with gen := flushed }
  let effect (g : Generator) : Prop := flushEffect emptied = { s.taken l tag 0x11 with gen := g }
  have quiet (g : Generator) (hg : g.state = s.gen.state) (h : effect g) :
      exec (.flushAll ⟨l, tag, .fields ()⟩) s = .next (dropped g) := by
    have run := request_drops (k := .flush) (a := ()) (act := fun _ => flushAll l) (fun t => { t with gen := g }) _ hfree rfl
      (flushAll_effect h) rfl hg
    rw [start_st, taken_gen, ids_eq] at run
    exact congrArg Host.Outcome.next run
  have changed (g : Generator) (hg : g.state ≠ s.gen.state) (h : effect g) :
      exec (.flushAll ⟨l, tag, .fields ()⟩) s = .next (raiseFlag .state g.state.code 0 (dropped g)) := by
    have run := request_drops_changed (k := .flush) (a := ()) (act := fun _ => flushAll l) (fun t => { t with gen := g }) _
      hfree rfl (flushAll_effect h) rfl hg
    rw [start_st, taken_gen, ids_eq] at run
    exact congrArg Host.Outcome.next run
  refine ⟨?queue, fun n => ?neither, fun still => ?still, fun held => ?held,
    fun f moving hf => ⟨fun plain => ?moving, fun exit => ?exit⟩,
    fun braking => ⟨fun taken => ?retaken, fun hh hp => ?braking⟩, fun jogging => ?jogging⟩
  case queue =>
    have run := request_drops (k := .flush) (a := .queue) (act := flushQueue l) (tag := tag) (s := s)
      (fun t => { t with gen := { t.gen with queue := [] } })
      ⟨.ok, false, [[byte (s.gen.queue.map Move.id).length]]⟩ hfree rfl rfl rfl rfl
    rw [List.length_map] at run
    exact congrArg Host.Outcome.next run
  case neither =>
    exact congrArg Host.Outcome.next (request_replies (k := .flush) (a := .neither n) (act := flushQueue l) _ hfree rfl rfl)
  case still => exact quiet flushed rfl (flushEffect_still still)
  case held => exact changed (flushed.resting .idle) (by rw [held]; nofun) (flushEffect_held held)
  case moving =>
    exact changed _ (by rw [moving]; nofun) ((flushEffect_moving (s := emptied) moving hf).trans (if_neg plain))
  case exit => exact quiet flushed rfl ((flushEffect_moving (s := emptied) moving hf).trans (if_pos exit))
  case retaken =>
    have brakes := (flushEffect_braking (s := emptied) braking).trans (if_pos taken)
    exact quiet { flushed with purpose := some .flush } rfl
      (brakes.trans (by simp [emptied, onGen, brakeMove, flushed, braking]))
  case braking =>
    exact quiet flushed rfl ((flushEffect_braking (s := emptied) braking).trans (if_neg (not_or.2 ⟨hh, hp⟩)))
  case jogging =>
    refine quiet _ rfl ((flushEffect_jogging (s := emptied) jogging).trans ?_)
    cases h : s.gen.jog.purpose <;> simp [emptied, onGen, brakeJog, flushed, h, Vec3.zero]

end
end

