-- ==== Sys2Proof/Proofs/Registering.lean ====
section
/-! SUPPORT. REGISTER (R119, R120, R147): what each of its tests finds, and the state an accepted one leaves. -/

namespace Sys2Proof.Machine

theorem forall_winch {p : Winch → Prop} : (∀ w, p w) ↔ p .w1 ∧ p .w2 ∧ p .w3 ∧ p .w4 :=
  ⟨fun h => ⟨h _, h _, h _, h _⟩, fun ⟨h1, h2, h3, h4⟩ w => by cases w <;> assumption⟩

/-- The first winch that meets a condition. -/
theorem find_winch {p : Winch → Bool} {w : Winch} (h : p w = true)
    (before : ∀ v : Winch, v.number < w.number → p v = false) : Winch.all.find? p = some w := by
  cases w with
  | w1 => simp [Winch.all, h]
  | w2 => simp [Winch.all, h, before .w1 (by decide)]
  | w3 => simp [Winch.all, h, before .w1 (by decide), before .w2 (by decide)]
  | w4 => simp [Winch.all, h, before .w1 (by decide), before .w2 (by decide), before .w3 (by decide)]

/-- A channel that is not ALIVE, or reports FAULT (R119, item 4; R122, item 3). -/
def State.unwell (s : State) (w : Winch) : Prop :=
  (s.drive.channels.get w).status ≠ .alive ∨ (s.drive.channels.get w).drive = some .fault

theorem unwellWinch_some {s : State} {w : Winch} (h : s.unwell w)
    (before : ∀ v : Winch, v.number < w.number → ¬s.unwell v) : unwellWinch s = some w :=
  find_winch (by simpa [State.unwell] using h) fun v hv => by simpa [State.unwell] using before v hv

theorem unwellWinch_none {s : State} : unwellWinch s = none ↔ ∀ w, ¬s.unwell w := by
  have unwell (w : Winch) : s.unwell w ↔
      ((s.drive.channels.get w).status != .alive || (s.drive.channels.get w).drive == some .fault) = true := by
    simp [State.unwell]
  simp only [unwellWinch, unwell, List.find?_eq_none]
  exact ⟨fun h w => h w (by cases w <;> decide), fun h w _ => h w⟩

/-! The ACTIVE KEEP_OUT zones (R119, item 6). -/

/-- An ACTIVE KEEP_OUT zone whose inflated box contains a position. -/
def State.holdsOff (s : State) (c : Nat) (p : Vec3) (i : Nat) : Prop :=
  ∃ z, zoneAt s i = some z ∧ z.state = .active ∧ z.isKeepOut = true ∧
    ∃ b, region c z.box = some b ∧ boxHas b p = true

section
variable {s : State} {sp : Span} {p : Vec3} (hsp : s.spanSet.span = some sp)
include hsp

theorem holdsOff_iff (i : Nat) :
    ((zoneAt s i).any fun z =>
      z.state == .active && z.isKeepOut && (region (clearanceOf s) z.box).any fun b => boxHas b p) = true ↔
      s.holdsOff sp.clearance p i := by
  simp [State.holdsOff, clearanceOf, hsp, Option.any_eq_true, and_assoc]

theorem zoneHolding_some {i : Nat} (hi : i ∈ zoneIds) (h : s.holdsOff sp.clearance p i)
    (before : ∀ j ∈ zoneIds, j < i → ¬s.holdsOff sp.clearance p j) : zoneHolding s p = some i := by
  refine List.find?_range_eq_some.2 ⟨(holdsOff_iff hsp i).2 h, hi, fun j hj => ?_⟩
  have inRange : j ∈ zoneIds := List.mem_range.2 (hj.trans (List.mem_range.1 hi))
  rw [Bool.not_eq_true', ← Bool.not_eq_true, holdsOff_iff hsp]
  exact before j inRange hj

theorem zoneHolding_none (h : ∀ j ∈ zoneIds, ¬s.holdsOff sp.clearance p j) : zoneHolding s p = none :=
  List.find?_eq_none.2 fun j hj => (holdsOff_iff hsp j).not.2 (h j hj)

end

/-! The length tests (R119, R147). -/

section
variable {s : State} {sp : Span} {p : Vec3} {m : PerWinch Int}

/-- The three conditions that a winch's length test sets. -/
def State.registers (s : State) (sp : Span) (p : Vec3) (m : PerWinch Int) (w : Winch) : Prop :=
  inDrum (sp.winch.get w) (s.ropeAt sp p w).commanded = true ∧ inDrum (sp.winch.get w) (m.get w) = true ∧
    ((s.ropeAt sp p w).commanded - m.get w).natAbs ≤ s.limits.tolerance * 1000

variable (hm : ∀ w, (s.drive.channels.get w).measured = some (m.get w))
include hm

theorem registerTests_get (w : Winch) :
    (registerTests s sp p).get w =
      ⟨(s.ropeAt sp p w).commanded - m.get w, !inDrum (sp.winch.get w) (s.ropeAt sp p w).commanded,
        !inDrum (sp.winch.get w) (m.get w),
        decide (s.limits.tolerance * 1000 < ((s.ropeAt sp p w).commanded - m.get w).natAbs)⟩ := by
  have rope : (ropeCalcs s sp p).get w = s.ropeAt sp p w := get_of _ w
  simp only [registerTests, get_of, rope, hm, lengthTest]

theorem registerTests_pass :
    (registerTests s sp p).toList.all LengthTest.passes = true ↔ ∀ w, s.registers sp p m w := by
  have one (w : Winch) : ((registerTests s sp p).get w).passes = true ↔ s.registers sp p m w := by
    simp [registerTests_get hm, LengthTest.passes, State.registers, and_assoc]
  rw [forall_winch, ← one, ← one, ← one, ← one]
  simp [PerWinch.toList, PerWinch.get]

end

/-- A winch's part of the REG_MISMATCH answer, a byte 1 for each condition that fails. -/
theorem report_eq (d : Int) (c m : Bool) (tol : Nat) :
    LengthTest.report ⟨d, !c, !m, decide (tol < d.natAbs)⟩ =
      leInt32 d ++ [if c then 0 else 1, if m then 0 else 1, if d.natAbs ≤ tol then 0 else 1] := by
  cases c <;> cases m <;> by_cases h : d.natAbs ≤ tol <;> simp [LengthTest.report, boolByte, h]

/-! REGISTER by its tests, in their order (R119). -/

section
variable {l : Link} {at_ : Vec3} {e : Ev}

theorem pointOk_iff (p : Vec3) :
    pointOk p = true ↔ ¬(262143 < p.x.natAbs ∨ 262143 < p.y.natAbs ∨ 262143 < p.z.natAbs) := by
  simp only [pointOk, coordOk, Bool.and_eq_true, decide_eq_true_eq]
  omega

theorem register_far (h : pointOk at_ = false) : register l at_ e = e.badField l 1 := by
  simp [register, h]

section
variable (hp : pointOk at_ = true)
include hp

theorem register_wrongState (h : e.st.gen.state ≠ .unregistered ∨ e.st.drive.stopLevel = true) :
    register l at_ e = e.refuse l .wrongState [] := by
  simp only [register, hp, Bool.not_true, Bool.false_eq_true, if_false, if_pos h]

section
variable (hu : e.st.gen.state = .unregistered) (hs : e.st.drive.stopLevel = false)
include hu hs

theorem register_notConfigured (h : e.st.spanSet.span = none) : register l at_ e = e.refuse l .notConfigured [] := by
  simp [register, hp, hu, hs, h]

section
variable {sp : Span} (hsp : e.st.spanSet.span = some sp)
include hsp

theorem register_noFeedback {w : Winch} (h : unwellWinch e.st = some w) :
    register l at_ e = e.refuse l .noFeedback [[byte w.number]] := by
  simp [register, hp, hu, hs, hsp, h]

section
variable (hw : unwellWinch e.st = none)
include hw

theorem register_outOfVolume (h : boxHas (boxMicro sp.w) (toMicro at_) = false) :
    register l at_ e = e.refuse l .outOfVolume [] := by
  simp [register, inW, hp, hu, hs, hsp, hw, h]

section
variable (hin : boxHas (boxMicro sp.w) (toMicro at_) = true) (hz : e.st.zonesSound)
include hin hz

theorem register_inZone {i : Nat} (h : zoneHolding e.st (toMicro at_) = some i) :
    register l at_ e = e.refuse l .inZone [[byte i]] := by
  simp [register, inW, hp, hu, hs, hsp, hw, hin, readZones_sound e hz, h]

/-- Outside every zone that holds positions off, the length tests decide. -/
theorem register_tests (h : zoneHolding e.st (toMicro at_) = none) :
    register l at_ e =
      if (registerTests e.st sp (toMicro at_)).toList.all LengthTest.passes then
        (e.upd (acceptRegister sp (toMicro at_))).reply l
          ⟨.ok, false, (registerTests e.st sp (toMicro at_)).toList.map fun t => leInt32 t.diff⟩
      else e.refuse l .regMismatch ((registerTests e.st sp (toMicro at_)).toList.map LengthTest.report) := by
  simp only [register, inW, hp, hu, hs, hsp, hw, hin, readZones_sound e hz, h, Bool.not_true, Bool.false_eq_true, if_false,
    ne_eq, not_true_eq_false, or_self, Option.any_some]
  rfl

end
end
end
end
end
end

/-- The state an accepted REGISTER leaves (R120, R147). -/
theorem acceptRegister_eq {s : State} {m : PerWinch Int} (sp : Span) (p : Vec3)
    (hm : ∀ w, (s.drive.channels.get w).measured = some (m.get w)) :
    acceptRegister sp p s =
      { s with
        gen := { s.gen with state := .idle, pos := some p, v := 0, flight := none, stepTimer := some 2 }
        lengths := some (PerWinch.of fun w => ⟨m.get w, (s.ropeAt sp p w).stretch⟩)
        drive := { s.drive with brake := false, setSinceRelease := false, holdTimer := some 3 } } := by
  have rope (w : Winch) : (ropeCalcs s sp p).get w = s.ropeAt sp p w := get_of _ w
  simp only [acceptRegister, releaseBrake, measuredOf, hm, rope, Option.getD_some]

theorem acceptRegister_taken (sp : Span) (p : Vec3) (s : State) (l : Link) (t k : Byte) :
    acceptRegister sp p (s.taken l t k) = (acceptRegister sp p s).taken l t k := rfl

end Sys2Proof.Machine

section
open Sys2Proof Sys2Proof.Machine

/-- Settles O43: by the tests of R119 in their order. -/
theorem registerTakesThePosition : Obligations.RegisterTakesThePosition := by
  intro s l tag at_ hfree refused far unwell
  have refuses {c : Code} {d : List (List Byte)}
      (h : register l at_ (Ev.start (s.taken l tag 0x12)) = (Ev.start (s.taken l tag 0x12)).refuse l c d) : refused c d :=
    congrArg Host.Outcome.next (request_replies (k := .register) _ hfree rfl h)
  refine ⟨fun h => refuses (register_far (by simpa [far] using (pointOk_iff at_).not.2 (not_not.2 h))), fun near => ?_⟩
  have hp : pointOk at_ = true := (pointOk_iff at_).2 near
  refine ⟨fun h => refuses (register_wrongState hp h), fun hu hs =>
    ⟨fun h => refuses (register_notConfigured hp hu hs h), ?_⟩⟩
  intro sp hsp holds
  refine ⟨fun w h before => refuses (register_noFeedback hp hu hs hsp (unwellWinch_some h before)), fun well => ?_⟩
  have hw : unwellWinch s = none := unwellWinch_none.2 well
  refine ⟨fun h => refuses (register_outOfVolume hp hu hs hsp hw h), fun hin hz => ?_⟩
  refine ⟨fun i hi h before => ?_, fun m clear hm => ?_⟩
  · exact refuses (register_inZone hp hu hs hsp hw hin hz (zoneHolding_some hsp hi h before))
  intro rc diff passes
  have decides := registerTests_pass (s := s) (sp := sp) (p := toMicro at_) hm
  have test := registerTests_get (s := s) (sp := sp) (p := toMicro at_) hm
  have outcome := register_tests (l := l) (e := Ev.start (s.taken l tag 0x12)) hp hu hs hsp hw hin hz
    (zoneHolding_none hsp clear)
  refine ⟨fun h => ?accepted, fun h => ?mismatch⟩
  case accepted =>
    have diffs : (registerTests s sp (toMicro at_)).toList.map (fun t => leInt32 t.diff) =
        [Winch.w1, .w2, .w3, .w4].map fun w => leInt32 (diff w) :=
      List.map_congr_left (l := [Winch.w1, .w2, .w3, .w4]) fun w _ => congrArg (fun t => leInt32 t.diff) (test w)
    have run := request_changes (k := .register) (tag := tag) _ _ hfree rfl (outcome.trans (if_pos (decides.2 h)))
      (acceptRegister_taken sp _ s l tag _) (by rw [hu, acceptRegister_eq sp _ hm]; nofun)
    rw [acceptRegister_eq sp _ hm] at run
    exact congrArg Host.Outcome.next (run.trans
      (congrArg (fun d => raiseFlag .state 2 0 (State.answered _ l tag 0x12 ⟨.ok, false, d⟩)) diffs))
  case mismatch =>
    have reports : (registerTests s sp (toMicro at_)).toList.map LengthTest.report = _ :=
      List.map_congr_left (l := [Winch.w1, .w2, .w3, .w4]) fun w _ =>
        (congrArg LengthTest.report (test w)).trans (report_eq (diff w) _ _ _)
    have fails : ¬(registerTests s sp (toMicro at_)).toList.all LengthTest.passes = true :=
      decides.not.2 (not_forall.2 h)
    have run := request_replies (k := .register) (tag := tag) _ hfree rfl (outcome.trans (if_neg fails))
    exact congrArg Host.Outcome.next (run.trans
      (congrArg (fun d => State.answered s l tag 0x12 ⟨.regMismatch, false, d⟩) reports))

end
end

