-- ==== Sys2Proof/Proofs/Releasing.lean ====
section
/-! SUPPORT. RELEASE (R121, R122, R148): the first condition that fails, and what an accepted one leaves. -/

namespace Sys2Proof.Machine

/-! The conditions (R121, R122). -/

section
variable (s : State)

theorem allReady_iff :
    allReady s = true ↔
      ∀ w, (s.drive.channels.get w).status = .alive ∧ (s.drive.channels.get w).drive = some .ready := by
  simp [allReady, Winch.all, forall_winch]

theorem any_toList {α : Type} (p : PerWinch α) (f : α → Bool) :
    p.toList.any f = false ↔ ∀ w, f (p.get w) = false := by
  simp [PerWinch.toList, forall_winch, PerWinch.get]

theorem anyAbnormal_iff : (s.tension.toList.any fun t => t != .normal) = false ↔ ∀ w, s.tension.get w = .normal := by
  rw [any_toList]
  simp

theorem anyCritical_iff :
    (s.tension.toList.any fun t => t == .critical) = false ↔ ∀ w, s.tension.get w ≠ .critical := by
  rw [any_toList]
  simp

theorem unwellWinch_isSome_iff :
    (unwellWinch s).isSome = false ↔
      ∀ w, (s.drive.channels.get w).status = .alive ∧ (s.drive.channels.get w).drive ≠ some .fault := by
  simp [Option.isSome_eq_false_iff, unwellWinch_none, State.unwell]

end

/-! RELEASE by the generator's state. -/

/-- The generator holds no move beside the executing one, and no zone is arming. -/
structure State.nothingWaits (s : State) : Prop where
  arming : s.envelope.arming = []
  waiting : s.gen.waiting = none
  stack : s.gen.stack = []
  queue : s.gen.queue = []

/-- With nothing to go on with, the succession rests in IDLE (R107, item 6). -/
theorem succession_idle {e : Ev} (h : e.st.nothingWaits) : succession e = e.upd (restIn .idle) :=
  (succession_disarmed h.arming).trans (advance_idle h.waiting h.stack h.queue)

section
variable {l : Link} {e : Ev}

theorem release_wrongState (hh : e.st.gen.state ≠ .halted) (hs : e.st.gen.state ≠ .stopped) :
    release l e = e.refuse l .wrongState [] := by
  cases h : e.st.gen.state <;> simp_all [release]

section
variable (hs : e.st.gen.state = .halted)
include hs

theorem release_halted_refused {n : Nat} (h : haltedUnreleasable e.st = some n) :
    release l e = e.refuse l .notReleasable [[byte n]] := by
  simp only [release, hs, h]

/-- From HALTED with nothing waiting or arming the generator rests in IDLE (R107, R121). -/
theorem release_halted (h : haltedUnreleasable e.st = none) (rest : e.st.nothingWaits) :
    release l e = (e.upd (restIn .idle)).reply l ⟨.ok, false, [[byte GenState.idle.code]]⟩ := by
  simp only [release, hs, h, releaseHalted]
  exact succession_idle ⟨rest.arming, rest.waiting, rest.stack, rest.queue⟩

end

section
variable (hs : e.st.gen.state = .stopped)
include hs

theorem release_stopped_refused {n : Nat} (h : stoppedUnreleasable e.st = some n) :
    release l e = e.refuse l .notReleasable [[byte n]] := by
  simp only [release, hs, h]

section
variable (h : stoppedUnreleasable e.st = none)
include h

/-- From STOPPED a re-registration rests in IDLE, with nothing waiting or arming (R107, R122). -/
theorem release_reregisters (pass : reregisters e.st = true) (rest : e.st.nothingWaits) :
    release l e =
      (e.upd fun s => restIn .idle (acceptRelease s)).reply l
        ⟨.ok, false, [byte GenState.idle.code] :: Winch.all.map fun w => leInt32 (releaseDiff e.st w)⟩ := by
  simp only [release, hs, h, releaseStopped, pass, if_true]
  exact succession_idle ⟨rest.arming, rest.waiting, rest.stack, rest.queue⟩

theorem release_unregisters (fail : reregisters e.st = false) :
    release l e =
      enterUnregistered true (e.reply l
        ⟨.ok, false, [byte GenState.unregistered.code] :: Winch.all.map fun w => leInt32 (releaseDiff e.st w)⟩) := by
  simp only [release, hs, h, releaseStopped, fail, Bool.false_eq_true, if_false]
  rfl

end
end
end

/-- The entry to UNREGISTERED with no zone arming: the state it leaves, and what it puts out (R118). -/
theorem enterUnregistered_disarmed (b : Bool) {e : Ev} (ha : e.st.envelope.arming = []) :
    enterUnregistered b e =
      ⟨{ e.st with
          gen := { e.st.gen.emptied .unregistered with pos := none, stepTimer := none }, lengths := none
          drive := { e.st.drive with brake := true } },
        e.out ++ dropActs (allIds e.st.gen) .span, e.bad⟩ := by
  simp only [enterUnregistered, raiseDropped_eq]
  have none_arming : armingIds (e.upd fun s =>
    { s with gen := { s.gen.emptied .unregistered with pos := none, stepTimer := none }
             lengths := none
             drive := { s.drive with brake := true } }).st = [] := by simp [armingIds, ha]
  rw [none_arming]
  rfl

/-- A request that is answered before anything else is raised has been answered at the event's end. -/
theorem finish_answered {e : Ev} {l : Link} {q : InProgress} {ans : Answer} {out : List Out} (g : GenState)
    (ho : e.out = .answer l ans :: out) (raises : raisesOnly out) (hq : (e.st.console.port l).inProgress = some q) :
    ((finish g e).console.port l).inProgress = none := by
  have noPlace : ∀ o ∈ e.out, o ≠ .stateHere := by
    rw [ho]
    refine List.forall_mem_cons.2 ⟨nofun, fun o mem => ?_⟩
    obtain ⟨f, a, b, rfl⟩ := raises o mem
    nofun
  obtain ⟨more, moreRaises, console⟩ := finish_puts (e := e) g noPlace
  have answered : ((onPort l (Port.answer ans) e.st).console.port l).hasAnswered
      (answerFrames .answer q.tag (answerKind q.kind) ans) := by
    simpa using answer_hasAnswered hq ans
  have done := foldl_putOut_hasAnswered moreRaises (foldl_putOut_hasAnswered raises answered)
  rw [console, ho]
  exact done.1

/-! The re-registration (R122, R148). -/

section
variable {s : State} {sp : Span} {lens : PerWinch RopeLength} {m : PerWinch Int} (hl : s.lengths = some lens)
  (hm : ∀ w, (s.drive.channels.get w).measured = some (m.get w))
include hl hm

theorem releaseDiff_eq (w : Winch) : releaseDiff s w = (lens.get w).prev - m.get w := by
  simp only [releaseDiff, hl, hm]

theorem reregisters_iff (hsp : s.spanSet.span = some sp) :
    reregisters s = true ↔
      ∀ w, inDrum (sp.winch.get w) (m.get w) = true ∧
        ((lens.get w).prev - m.get w).natAbs ≤ s.limits.tolerance * 1000 := by
  simp [reregisters, hsp, Winch.all, releasePasses, hl, hm, forall_winch]

theorem acceptRelease_rests :
    restIn .idle (acceptRelease s) =
      { s with
        gen := { s.gen with state := .idle, v := 0, flight := none, purpose := none, stepTimer := some 2 }
        lengths := some (PerWinch.of fun w => ⟨m.get w, (lens.get w).stretch⟩)
        drive := { s.drive with brake := false, setSinceRelease := false, holdTimer := some 3 } } := by
  simp only [acceptRelease, releaseBrake, hl, measuredOf, hm, Option.getD_some, Option.map_some]
  rfl

end

/-- The safety link's RELEASE goes to the generator. -/
theorem exec_release {s : State} {tag : Byte} (h : s.portFree .safety) :
    exec (.release ⟨.safety, tag, .fields ()⟩) s =
      .next (finish s.gen.state (release .safety (Ev.start (s.taken .safety tag 0x13)))) :=
  congrArg Host.Outcome.next
    (request_passes .release ⟨.safety, tag, .fields ()⟩ (fun _ => release .safety) s () h nofun rfl)

section
variable {s : State} {tag : Byte} (hfree : s.portFree .safety)
include hfree

theorem exec_release_refused {c : Code} {d : List (List Byte)}
    (h : release .safety (Ev.start (s.taken .safety tag 0x13)) =
      (Ev.start (s.taken .safety tag 0x13)).refuse .safety c d) :
    exec (.release ⟨.safety, tag, .fields ()⟩) s = .next (s.answered .safety tag 0x13 ⟨c, false, d⟩) :=
  (exec_release hfree).trans (congrArg Host.Outcome.next ((congrArg _ h).trans (finish_reply ..)))

/-- An accepted RELEASE that changes the generator's state is answered, and STATE follows (R97). -/
theorem exec_release_changes {u : State → State} {ans : Answer}
    (h : release .safety (Ev.start (s.taken .safety tag 0x13)) =
      ((Ev.start (s.taken .safety tag 0x13)).upd u).reply .safety ans)
    (hu : u (s.taken .safety tag 0x13) = (u s).taken .safety tag 0x13) (hg : (u s).gen.state ≠ s.gen.state) :
    exec (.release ⟨.safety, tag, .fields ()⟩) s =
      .next (raiseFlag .state (u s).gen.state.code 0 ((u s).answered .safety tag 0x13 ans)) :=
  (exec_release hfree).trans
    (congrArg Host.Outcome.next ((congrArg _ h).trans (finish_upd_reply_changed s .safety tag 0x13 u ans hu hg)))

/-- A RELEASE whose re-registration fails leaves the generator UNREGISTERED (R118, R122). -/
theorem exec_release_unregisters (hs : s.gen.state = .stopped) (h : stoppedUnreleasable s = none)
    (fail : reregisters s = false) (ha : s.envelope.arming = []) :
    ∃ t, exec (.release ⟨.safety, tag, .fields ()⟩) s = .next t ∧ t.gen.state = .unregistered ∧
      t.gen.pos = none ∧ t.gen.v = 0 ∧ t.gen.stepTimer = none ∧ t.gen.nextId = s.gen.nextId ∧
      t.lengths = none ∧ t.drive = { s.drive with brake := true } ∧ (t.console.port .safety).inProgress = none := by
  have entered := (release_unregisters (l := .safety) (e := Ev.start (s.taken .safety tag 0x13)) hs h fail).trans
    (enterUnregistered_disarmed true ha)
  have taken : ((s.taken .safety tag 0x13).console.port .safety).inProgress = some ⟨tag, 0x13⟩ := by simp [State.taken]
  have answered := finish_answered (q := ⟨tag, 0x13⟩) s.gen.state (congrArg Ev.out entered) (raisesOnly_dropActs _ _)
    (by rw [entered]; exact taken)
  refine ⟨_, exec_release hfree, ?_⟩
  rw [finish_sound _ _ (by rw [entered]; rfl), entered] at answered ⊢
  exact ⟨rfl, rfl, rfl, rfl, rfl, rfl, rfl, answered⟩

/-- The refusals from HALTED, by the first condition that fails (R121). -/
theorem exec_release_fromHalted (hs : s.gen.state = .halted) {n : Nat} (h : haltedUnreleasable s = some n) :
    exec (.release ⟨.safety, tag, .fields ()⟩) s =
      .next (s.answered .safety tag 0x13 ⟨.notReleasable, false, [[byte n]]⟩) :=
  exec_release_refused hfree (release_halted_refused hs h)

/-- The refusals from STOPPED, by the first condition that fails (R122). -/
theorem exec_release_fromStopped (hs : s.gen.state = .stopped) {n : Nat} (h : stoppedUnreleasable s = some n) :
    exec (.release ⟨.safety, tag, .fields ()⟩) s =
      .next (s.answered .safety tag 0x13 ⟨.notReleasable, false, [[byte n]]⟩) :=
  exec_release_refused hfree (release_stopped_refused hs h)

end

end Sys2Proof.Machine

section
open Sys2Proof Sys2Proof.Machine

/-- Settles O44: by the generator's state and the first condition of its row that fails. -/
theorem releaseLeavesHaltedAndStopped : Obligations.ReleaseLeavesHaltedAndStopped := by
  intro s tag hfree
  refine ⟨fun hh hs => exec_release_refused hfree (release_wrongState hh hs), ?refusals, fun hsus hw hc hq ha =>
    ⟨fun hs sound => ?fromHalted, fun sp lens m hs hstop hsp hl sound => ?fromStopped⟩⟩
  case refusals =>
    intro refused ready normal calm well
    have halted {n : Nat} (hs : s.gen.state = .halted) (h : haltedUnreleasable s = some n) : refused (byte n) :=
      exec_release_fromHalted hfree hs h
    have stopped {n : Nat} (hs : s.gen.state = .stopped) (h : stoppedUnreleasable s = some n) : refused (byte n) :=
      exec_release_fromStopped hfree hs h
    have ready_iff : allReady s = true ↔ ready := allReady_iff s
    have normal_iff : (s.tension.toList.any fun t => t != .normal) = false ↔ normal := anyAbnormal_iff s
    have calm_iff : (s.tension.toList.any fun t => t == .critical) = false ↔ calm := anyCritical_iff s
    have well_iff : (unwellWinch s).isSome = false ↔ well := unwellWinch_isSome_iff s
    simp only [← ready_iff, ← normal_iff, ← calm_iff, ← well_iff, Bool.not_eq_true, Bool.not_eq_false]
    refine ⟨fun hs => ⟨fun h1 => halted hs (n := 1) ?_, fun h1 h2 => halted hs (n := 2) ?_,
        fun h1 h2 h3 => halted hs (n := 3) ?_⟩,
      fun hs => ⟨fun h1 => stopped hs (n := 1) ?_, fun h1 => ⟨fun h2 => stopped hs (n := 2) ?_,
        fun h2 h3 => stopped hs (n := 3) ?_, fun h2 h3 h4 => stopped hs (n := 4) ?_⟩⟩⟩
    · simp only [haltedUnreleasable, firstFailing, List.findIdx?_cons, h1]; rfl
    · simp only [haltedUnreleasable, firstFailing, List.findIdx?_cons, h1, h2]; rfl
    · simp only [haltedUnreleasable, firstFailing, List.findIdx?_cons, h1, h2, h3]; rfl
    · simp only [stoppedUnreleasable, firstFailing, List.findIdx?_cons, h1]; rfl
    · simp only [stoppedUnreleasable, firstFailing, List.findIdx?_cons, h1, h2]; rfl
    · simp only [stoppedUnreleasable, firstFailing, List.findIdx?_cons, h1, h2, h3]; rfl
    · simp only [stoppedUnreleasable, firstFailing, List.findIdx?_cons, h1, h2, h3, h4]; rfl
  case fromHalted =>
    have ready : allReady s = true := (allReady_iff s).2 fun w => ⟨(sound w).1, (sound w).2.1⟩
    have normal := (anyAbnormal_iff s).2 fun w => (sound w).2.2
    have releasable : haltedUnreleasable s = none := by
      simp [haltedUnreleasable, firstFailing_none, ready, normal, hsus]
    exact exec_release_changes hfree (release_halted hs releasable ⟨ha, hw, hc, hq⟩) rfl (by rw [hs]; nofun)
  case fromStopped =>
    have calm := (anyCritical_iff s).2 fun w => (sound w).2.2.1
    have well := (unwellWinch_isSome_iff s).2 fun w => ⟨(sound w).1, (sound w).2.1⟩
    have hm (w : Winch) := (sound w).2.2.2
    have releasable : stoppedUnreleasable s = none := by
      simp [stoppedUnreleasable, firstFailing_none, hstop, calm, well, hsus]
    intro diffs passes
    have diffs_eq : Winch.all.map (fun w => leInt32 (releaseDiff s w)) = diffs :=
      List.map_congr_left fun w _ => congrArg leInt32 (releaseDiff_eq hl hm w)
    have pass_iff := reregisters_iff hl hm hsp
    refine ⟨fun h => ?reregisters, fun h => ?unregisters⟩
    case reregisters =>
      have accepted := release_reregisters (l := .safety) (e := Ev.start (s.taken .safety tag 0x13)) hs releasable
        (pass_iff.2 h) ⟨ha, hw, hc, hq⟩
      have run := exec_release_changes (tag := tag) hfree accepted rfl (by rw [acceptRelease_rests hl hm, hs]; nofun)
      rw [acceptRelease_rests hl hm] at run
      rw [← diffs_eq]
      exact run
    case unregisters =>
      exact exec_release_unregisters hfree hs releasable (Bool.eq_false_iff.2 (pass_iff.not.2 (not_forall.2 h))) ha

end
end

