-- ==== Sys2Proof/Proofs/FeedbackReactions.lean ====
section
/-! SUPPORT. What a matched feedback brings about (R157 to R161, R166 to R170, R175): the values stored, and the reactions
of the Tension Monitor, the Rope Wear Table, the drive status and the following check. -/

namespace Sys2Proof.Machine

@[simp] theorem set_get {α : Type} (p : PerWinch α) (w : Winch) : p.set w (p.get w) = p := by cases w <;> rfl
@[simp] theorem set_set {α : Type} (p : PerWinch α) (w : Winch) (a b : α) : (p.set w a).set w b = p.set w b := by
  cases w <;> rfl

/-! A reaction to a feedback. -/

/-- A state with the parts taken from another that a feedback of a winch may change once its values are stored. -/
def State.reacting (s : State) (w : Winch) (t : State) : State :=
  { s with
    gen := t.gen, envelope := t.envelope, faults := t.faults, drive := { s.drive with brake := t.drive.brake }
    tension := s.tension.set w (t.tension.get w), wear := s.wear.set w (t.wear.get w) }

theorem reacting_reacting (s t u : State) (w : Winch) : (s.reacting w t).reacting w u = s.reacting w u := by
  simp only [State.reacting, set_set]

/-- An event goes on from another by reactions to a feedback of a winch: flags are raised, and no record has failed. -/
structure Ev.Reacts (w : Winch) (e e' : Ev) : Prop where
  state : e'.st = e.st.reacting w e'.st
  raises : e.Raises e'
  bad : e'.bad = e.bad

theorem Ev.Reacts.refl (w : Winch) (e : Ev) : e.Reacts w e := ⟨by simp [State.reacting], .refl e, rfl⟩

theorem Ev.Reacts.trans {w : Winch} {e e' e'' : Ev} (h : e.Reacts w e') (h' : e'.Reacts w e'') : e.Reacts w e'' where
  state := by
    have last := h'.state
    rw [h.state, reacting_reacting] at last
    exact last
  raises := h.raises.trans h'.raises
  bad := h'.bad.trans h.bad

section
variable (w : Winch) (e : Ev)

theorem reportFault_reacts (c : FaultClass) (j : FaultSubject) : e.Reacts w (reportFault c j e) :=
  ⟨by rw [reportFault_st]; simp [State.reacting], reportFault_raises c j e, reportFault_bad c j e⟩

theorem controlledHalt_reacts : e.Reacts w (controlledHalt e) := by
  obtain ⟨v, st⟩ := controlledHalt_st e
  refine ⟨by rw [st]; simp [State.reacting], controlledHalt_raises e, ?_⟩
  rcases controlledHalt_cases e with ⟨-, h⟩ | ⟨-, h⟩ | ⟨-, h⟩ | ⟨-, h⟩ <;> rw [h]
  case inr.inr.inl => rw [enterHalted_eq]
  all_goals rfl

theorem trip_reacts : e.Reacts w (trip e) := by
  rcases trip_cases e with ⟨-, h⟩ | ⟨-, -, h⟩ <;> rw [h]
  · exact .refl w e
  · rw [enterStopped_eq]
    exact ⟨by simp [State.reacting], ⟨_, raisesOnly_dropActs _ _, rfl⟩, rfl⟩

theorem tensionEffects_reacts (st : TensionStatus) : e.Reacts w (tensionEffects w st e) := by
  have halts (c : FaultClass) : e.Reacts w (tensionHalt c w e) := by
    unfold tensionHalt
    split
    · exact (reportFault_reacts w e c _).trans (controlledHalt_reacts w _)
    · exact .refl w e
  cases st with
  | normal => exact .refl w e
  | slack => exact halts _
  | overload => exact halts _
  | critical => exact (reportFault_reacts w e _ _).trans (trip_reacts w _)

theorem monitorTension_reacts (t : Nat) : e.Reacts w (monitorTension w t e) := by
  unfold monitorTension
  dsimp only
  split
  · exact .refl w e
  · refine Ev.Reacts.trans ?_ (tensionEffects_reacts w _ _)
    exact ⟨by simp [State.reacting, Ev.raise, Ev.upd], ⟨_, raisesOnly_cons raisesOnly_nil, rfl⟩, rfl⟩

/-- The wear feed changes the wear of its winch, and raises at most its flag (R176, R177). -/
theorem feedWear_feeds (m travel : Nat) :
    (∃ x, (feedWear w m travel e).st = { e.st with wear := e.st.wear.set w x }) ∧ e.Raises (feedWear w m travel e) ∧
      (feedWear w m travel e).bad = e.bad := by
  unfold feedWear
  dsimp only
  split
  · exact ⟨⟨_, rfl⟩, ⟨_, raisesOnly_cons raisesOnly_nil, rfl⟩, rfl⟩
  · exact ⟨⟨_, rfl⟩, .refl e, rfl⟩

theorem feedIfMoved_feeds (b : Bool) (o : Option Int) (m : Nat) :
    (∃ x, (feedIfMoved w b o m e).st = { e.st with wear := e.st.wear.set w x }) ∧ e.Raises (feedIfMoved w b o m e) ∧
      (feedIfMoved w b o m e).bad = e.bad := by
  have same : (∃ x, e.st = { e.st with wear := e.st.wear.set w x }) ∧ e.Raises e ∧ e.bad = e.bad :=
    ⟨⟨e.st.wear.get w, by simp⟩, .refl e, rfl⟩
  unfold feedIfMoved
  split
  · split
    · exact same
    · exact feedWear_feeds w e _ _
  · exact same

theorem feedIfMoved_reacts (b : Bool) (o : Option Int) (m : Nat) : e.Reacts w (feedIfMoved w b o m e) := by
  obtain ⟨⟨x, st⟩, raises, bad⟩ := feedIfMoved_feeds w e b o m
  exact ⟨by rw [st]; simp [State.reacting], raises, bad⟩

theorem judgeDrive_reacts (b : Bool) (st : DriveStatus) : e.Reacts w (judgeDrive w b st e) := by
  unfold judgeDrive
  split
  · exact (reportFault_reacts w e _ _).trans (trip_reacts w _)
  · exact .refl w e

theorem followCheck_reacts (o : Option Sent) (m : Nat) : e.Reacts w (followCheck w o m e) := by
  unfold followCheck
  repeat' split
  · exact (reportFault_reacts w e _ _).trans (controlledHalt_reacts w _)
  all_goals exact .refl w e

end

/-! A matched frame, taken to its end. -/

/-- The state once a matched feedback's values are stored (R157, R159 item 1). -/
def State.stored (s : State) (w : Winch) (f : FeedbackFields) (st : DriveStatus) : State :=
  { s with drive := s.storedFrame w f st }

section
variable (s : State) (w : Winch) (f : FeedbackFields) (st : DriveStatus)

/-- The Tension Monitor and the Rope Wear Table have taken the stored values. -/
def State.monitored : Ev :=
  feedIfMoved w s.drive.brake (s.drive.channels.get w).measured f.measured
    (monitorTension w f.tension (Ev.start (s.stored w f st)))

/-- The drive status has been judged (R161). -/
def State.judged : Ev := judgeDrive w (registered s) st (s.monitored w f st)

/-- The event of a matched feedback (R159). -/
def State.fedBack : Ev :=
  if s.drive.brake then s.judged w f st
  else followCheck w (s.drive.channels.get w).latest f.measured (s.judged w f st)

theorem monitored_reacts : (Ev.start (s.stored w f st)).Reacts w (s.monitored w f st) :=
  (monitorTension_reacts w _ _).trans (feedIfMoved_reacts w _ _ _ _)

theorem judged_reacts : (Ev.start (s.stored w f st)).Reacts w (s.judged w f st) :=
  (monitored_reacts s w f st).trans (judgeDrive_reacts w _ _ _)

theorem fedBack_reacts : (Ev.start (s.stored w f st)).Reacts w (s.fedBack w f st) := by
  unfold State.fedBack
  split
  · exact judged_reacts s w f st
  · exact (judged_reacts s w f st).trans (followCheck_reacts w _ _ _)

end

section
variable {s : State} {w : Winch} {f : FeedbackFields} {st : DriveStatus}

theorem takeFeedback_fedBack :
    takeFeedback w f st (Ev.start { s with drive := { s.drive with receivers := s.drive.receivers.set w .hunting } }) =
      s.fedBack w f st := rfl

/-- A matched feedback is taken, and leaves the console apart what its reactions leave. -/
theorem exec_feedback (hr : s.resetting = false) (hm : s.matchedFrame w f) (hst : driveStatusOf f.status = some st) :
    ∃ k, exec (.feedbackFrame w (.fields f)) s = .next { (s.fedBack w f st).st with console := k } ∧
      k = (finish s.gen.state (s.fedBack w f st)).console := by
  obtain ⟨winch, range, latest, echo, unanswered⟩ := hm
  have wellFormed : wellFormedStatus w f = some st := by rw [wellFormedStatus, if_pos ⟨winch, range⟩, hst]
  have isMatched : (s.drive.channels.get w).matches? f.echo = true := by
    simp [Channel.matches?, latest, echo, unanswered]
  have event : feedbackEvent w (.fields f) (Ev.start s) = s.fedBack w f st := by
    rw [← takeFeedback_fedBack]
    unfold feedbackEvent receiveFeedback
    simp only [wellFormed]
    exact if_pos isMatched
  refine ⟨_, congrArg Host.Outcome.next ((runEvent_running s _ hr).trans ?_), rfl⟩
  rw [event]
  exact finish_sound _ _ (fedBack_reacts s w f st).bad

end

/-! What the reactions do to the generator, BRAKE and the Fault Record. -/

section
variable {e : Ev}

theorem controlledHalt_halts (e : Ev) :
    (controlledHalt e).st.gen = e.st.gen.haltingFrom ∧ (controlledHalt e).st.faults = e.st.faults ∧
      (controlledHalt e).st.drive = e.st.drive := by
  obtain ⟨v, st⟩ := controlledHalt_st e
  rw [st]
  exact ⟨rfl, rfl, rfl⟩

/-- A trip of a registered generator (R117). -/
theorem trip_stops (h : registered e.st = true) :
    (trip e).st.gen = e.st.gen.stoppedFrom ∧ (trip e).st.faults = e.st.faults ∧ (trip e).st.drive.brake = true := by
  obtain ⟨hu, hs⟩ := (registered_iff e.st).1 h
  rcases trip_cases e with ⟨off, -⟩ | ⟨-, -, acts⟩
  · exact absurd off (not_or.2 ⟨hu, hs⟩)
  · rw [acts, enterStopped_eq]
    exact ⟨rfl, rfl, rfl⟩

theorem trip_off (h : e.st.gen.state = .unregistered ∨ e.st.gen.state = .stopped) : trip e = e := by
  rcases h with h | h <;> simp only [trip, h]

/-- The flag of a reported class is set, and no other is cleared (R193). -/
theorem reportFault_flags (c : FaultClass) (j : FaultSubject) (e : Ev) (i : Nat) :
    (reportFault c j e).st.faults.flags[i]? =
      if c.priority - 1 = i ∧ i < 9 then some true else e.st.faults.flags[i]? := by
  rw [reportFault_st]
  simp [Vector.getElem?_setIfInBounds]
  split <;> simp_all

theorem reportFault_keepsFlag {i : Nat} (c : FaultClass) (j : FaultSubject) (h : e.st.faults.flags[i]? = some true) :
    (reportFault c j e).st.faults.flags[i]? = some true := by
  rw [reportFault_flags]
  split
  · rfl
  · exact h

end

/-! The generator after halts and trips in turn. -/

theorem haltingFrom_still {g : Generator} (h : g.state = .halted ∨ g.state = .stopped ∨ g.state = .unregistered) :
    g.haltingFrom = g := by
  rcases h with h | h | h <;> simp only [Generator.haltingFrom, h]

/-- A trip after a controlled halt leaves what it would have left without it (R115, R117). -/
theorem stoppedFrom_haltingFrom (g : Generator) : g.haltingFrom.stoppedFrom = g.stoppedFrom := by
  unfold Generator.haltingFrom
  split <;> rfl

theorem haltingFrom_registered {s : State} (h : registered s = true) {t : State} (ht : t.gen = s.gen.haltingFrom) :
    registered t = true := by
  rw [registered_iff] at h ⊢
  obtain ⟨hu, hs⟩ := h
  rw [ht]
  unfold Generator.haltingFrom
  split <;> simp_all [Generator.haltedFrom]

/-! The Tension Monitor (R167 to R170). -/

section
variable {w : Winch} {e : Ev}

theorem monitorTension_same {t : Nat} (h : tensionNext e.st.limits (e.st.tension.get w) t = e.st.tension.get w) :
    monitorTension w t e = e := if_pos h

/-- The status of a winch has changed, and its flag is raised (R168). -/
def Ev.entering (e : Ev) (w : Winch) (new : TensionStatus) : Ev :=
  (e.upd fun s => { s with tension := s.tension.set w new }).raise (.tension w) new.code 0

theorem monitorTension_enters {t : Nat} (h : tensionNext e.st.limits (e.st.tension.get w) t ≠ e.st.tension.get w) :
    monitorTension w t e =
      tensionEffects w (tensionNext e.st.limits (e.st.tension.get w) t)
        (e.entering w (tensionNext e.st.limits (e.st.tension.get w) t)) := if_neg h

theorem tensionEffects_base (new : TensionStatus) : (tensionEffects w new e).st.base = e.st.base := by
  have halts (c : FaultClass) : (tensionHalt c w e).st.base = e.st.base := by
    unfold tensionHalt
    split
    · simp
    · rfl
  cases new with
  | normal => rfl
  | slack => exact halts _
  | overload => exact halts _
  | critical => simp [tensionEffects]

theorem monitorTension_tension (t : Nat) :
    (monitorTension w t e).st.tension = e.st.tension.set w (tensionNext e.st.limits (e.st.tension.get w) t) := by
  by_cases h : tensionNext e.st.limits (e.st.tension.get w) t = e.st.tension.get w
  · rw [monitorTension_same h, h, set_get]
  · obtain ⟨-, -, -, -, -, -, tension, -⟩ := base_eq (tensionEffects_base (w := w)
      (e := e.entering w (tensionNext e.st.limits (e.st.tension.get w) t)) (tensionNext e.st.limits (e.st.tension.get w) t))
    rw [monitorTension_enters h, tension]
    rfl

theorem inFlight_eq_false {s : State}
    (h : s.gen.state = .halted ∨ s.gen.state = .stopped ∨ s.gen.state = .unregistered) :
    inFlight s = false := by
  rcases h with h | h | h <;> simp only [inFlight, h]

theorem inFlight_eq_true {s : State}
    (h : ¬(s.gen.state = .halted ∨ s.gen.state = .stopped ∨ s.gen.state = .unregistered)) : inFlight s = true := by
  cases hs : s.gen.state <;> simp_all [inFlight]

theorem tensionHalt_rest {c : FaultClass} (h : inFlight e.st = false) : tensionHalt c w e = e := by
  simp [tensionHalt, h]

theorem tensionHalt_flight {c : FaultClass} (h : inFlight e.st = true) :
    tensionHalt c w e = controlledHalt (reportFault c (.number w.number) e) := if_pos h

end

/-! The stages of a matched feedback. -/

section
variable {s : State} {w : Winch} {f : FeedbackFields} {st : DriveStatus}

/-- The wear feed leaves alone what the Tension Monitor did to the generator, the Fault Record and the Drive Port. -/
theorem monitored_eq :
    (s.monitored w f st).st.gen = (monitorTension w f.tension (Ev.start (s.stored w f st))).st.gen ∧
      (s.monitored w f st).st.faults = (monitorTension w f.tension (Ev.start (s.stored w f st))).st.faults ∧
      (s.monitored w f st).st.drive = (monitorTension w f.tension (Ev.start (s.stored w f st))).st.drive := by
  obtain ⟨⟨x, fed⟩, -⟩ := feedIfMoved_feeds w (monitorTension w f.tension (Ev.start (s.stored w f st))) s.drive.brake
    (s.drive.channels.get w).measured f.measured
  rw [State.monitored, fed]
  exact ⟨rfl, rfl, rfl⟩

theorem fedBack_tension :
    (s.fedBack w f st).st.tension = s.tension.set w (tensionNext s.limits (s.tension.get w) f.tension) := by
  obtain ⟨⟨x, fed⟩, -⟩ := feedIfMoved_feeds w (monitorTension w f.tension (Ev.start (s.stored w f st))) s.drive.brake
    (s.drive.channels.get w).measured f.measured
  have monitored : (s.monitored w f st).st.tension =
      s.tension.set w (tensionNext s.limits (s.tension.get w) f.tension) := by
    rw [State.monitored, fed]
    exact monitorTension_tension f.tension
  obtain ⟨-, -, -, -, -, -, judged, -⟩ := base_eq (judgeDrive_base w (registered s) st (s.monitored w f st))
  obtain ⟨-, -, -, -, -, -, followed, -⟩ :=
    base_eq (followCheck_base w (s.drive.channels.get w).latest f.measured (s.judged w f st))
  unfold State.fedBack
  split
  · exact judged.trans monitored
  · exact followed.trans (judged.trans monitored)

theorem judged_of_sound (h : st ≠ .fault) : s.judged w f st = s.monitored w f st := by
  simp [State.judged, judgeDrive, h]

theorem judged_limits : (s.judged w f st).st.limits = s.limits := by
  rw [(judged_reacts s w f st).state]
  rfl

theorem fedBack_of_follows (h : s.frameFollows w f) : s.fedBack w f st = s.judged w f st := by
  unfold State.fedBack
  split
  · rfl
  · next released =>
    rcases h with asserted | hold | ⟨cmd, sent, near⟩
    · exact absurd asserted released
    · simp only [hold, followCheck]
    · simp only [sent, followCheck, judged_limits, if_neg (Nat.not_lt.2 near)]

theorem fedBack_of_strays {cmd : Int} (hb : s.drive.brake = false)
    (sent : (s.drive.channels.get w).latest = some (.length cmd))
    (far : s.limits.following * 1000 < (cmd - (f.measured : Int)).natAbs) :
    s.fedBack w f st = controlledHalt (reportFault .following (.number w.number) (s.judged w f st)) := by
  simp only [State.fedBack, hb, Bool.false_eq_true, if_false, sent, followCheck, judged_limits, if_pos far]

/-- The generator, the Drive Port and the fault flags after the following check of a generator that stands (R115, R160). -/
theorem followCheck_still {e : Ev} (o : Option Sent) (m : Nat)
    (h : e.st.gen.state = .halted ∨ e.st.gen.state = .stopped ∨ e.st.gen.state = .unregistered) :
    (followCheck w o m e).st.gen = e.st.gen ∧ (followCheck w o m e).st.drive = e.st.drive ∧
      ∀ i : Nat, e.st.faults.flags[i]? = some true → (followCheck w o m e).st.faults.flags[i]? = some true := by
  have same : e.st.gen = e.st.gen ∧ e.st.drive = e.st.drive ∧
      ∀ i : Nat, e.st.faults.flags[i]? = some true → e.st.faults.flags[i]? = some true := ⟨rfl, rfl, fun _ => id⟩
  unfold followCheck
  split
  · split
    · obtain ⟨gen, faults, drive⟩ := controlledHalt_halts (reportFault .following (.number w.number) e)
      rw [gen, faults, drive, reportFault_gen, haltingFrom_still h]
      exact ⟨rfl, by rw [reportFault_st], fun i => reportFault_keepsFlag _ _⟩
    · exact same
  · exact same
  · exact same

theorem fedBack_still
    (h : (s.judged w f st).st.gen.state = .halted ∨ (s.judged w f st).st.gen.state = .stopped ∨
      (s.judged w f st).st.gen.state = .unregistered) :
    (s.fedBack w f st).st.gen = (s.judged w f st).st.gen ∧
      (s.fedBack w f st).st.drive = (s.judged w f st).st.drive ∧
      ∀ i : Nat,
        (s.judged w f st).st.faults.flags[i]? = some true → (s.fedBack w f st).st.faults.flags[i]? = some true := by
  unfold State.fedBack
  split
  · exact ⟨rfl, rfl, fun _ => id⟩
  · exact followCheck_still _ _ h

end

end Sys2Proof.Machine
end

