-- ==== Sys2Proof/Proofs/FeedbackFaults.lean ====
section
/-! SUPPORT. The faults a matched feedback reports (R160, R161, R169, R170). -/

namespace Sys2Proof.Machine

theorem registered_of_gen {s t : State} (h : t.gen = s.gen) : registered t = registered s := by
  simp only [registered, h]

/-- A registered generator that has taken an entry into a status is STOPPED, or a trip leaves it as it would have before. -/
theorem tensionEffects_trips {w : Winch} {e : Ev} (new : TensionStatus) (h : registered e.st = true) :
    ((tensionEffects w new e).st.gen = e.st.gen.stoppedFrom ∧ (tensionEffects w new e).st.drive.brake = true) ∨
      registered (tensionEffects w new e).st = true ∧
        (tensionEffects w new e).st.gen.stoppedFrom = e.st.gen.stoppedFrom := by
  have halts (c : FaultClass) : registered (tensionHalt c w e).st = true ∧
      (tensionHalt c w e).st.gen.stoppedFrom = e.st.gen.stoppedFrom := by
    unfold tensionHalt
    split
    · obtain ⟨gen, -, -⟩ := controlledHalt_halts (reportFault c (.number w.number) e)
      rw [reportFault_gen] at gen
      exact ⟨haltingFrom_registered h gen, by rw [gen, stoppedFrom_haltingFrom]⟩
    · exact ⟨h, rfl⟩
  cases new with
  | normal => exact .inr ⟨h, rfl⟩
  | slack => exact .inr (halts _)
  | overload => exact .inr (halts _)
  | critical =>
    obtain ⟨gen, -, brake⟩ := trip_stops (e := reportFault .tensionCritical (.number w.number) e)
      ((registered_of_gen (reportFault_gen ..)).trans h)
    exact .inl ⟨gen.trans (by rw [reportFault_gen]), brake⟩

section
variable {s : State} {w : Winch} {f : FeedbackFields} {st : DriveStatus}

theorem monitored_trips (h : registered s = true) :
    ((s.monitored w f st).st.gen = s.gen.stoppedFrom ∧ (s.monitored w f st).st.drive.brake = true) ∨
      registered (s.monitored w f st).st = true ∧ (s.monitored w f st).st.gen.stoppedFrom = s.gen.stoppedFrom := by
  obtain ⟨gen, -, drive⟩ := monitored_eq (s := s) (w := w) (f := f) (st := st)
  rw [registered_of_gen gen, gen, drive]
  unfold monitorTension
  dsimp only
  split
  · exact .inr ⟨h, rfl⟩
  · exact tensionEffects_trips _ h

/-- A drive FAULT trips a registered generator, whatever the frame has brought before (R161). -/
theorem judged_faults (h : registered s = true) :
    (s.judged w f .fault).st.gen = s.gen.stoppedFrom ∧ (s.judged w f .fault).st.drive.brake = true ∧
      (s.judged w f .fault).st.faults.flags[2]? = some true := by
  have judged : s.judged w f .fault =
      trip (reportFault .driveFault (.number w.number) (s.monitored w f .fault)) := if_pos ⟨rfl, h⟩
  have flag : (reportFault .driveFault (.number w.number) (s.monitored w f .fault)).st.faults.flags[2]? = some true := by
    rw [reportFault_flags]
    rfl
  rw [judged]
  rcases monitored_trips (w := w) (f := f) (st := .fault) h with ⟨gen, brake⟩ | ⟨on, gen⟩
  · rw [trip_off (.inr (by rw [reportFault_gen, gen]; rfl))]
    exact ⟨by rw [reportFault_gen, gen], by rw [reportFault_st]; exact brake, flag⟩
  · obtain ⟨stopped, faults, brake⟩ := trip_stops
      (e := reportFault .driveFault (.number w.number) (s.monitored w f .fault)) ((registered_of_gen (reportFault_gen ..)).trans on)
    exact ⟨by rw [stopped, reportFault_gen, gen], brake, by rw [faults, flag]⟩

/-- What a quiet frame has changed before the following check. -/
theorem monitored_quiet (h : tensionNext s.limits (s.tension.get w) f.tension = s.tension.get w) :
    (s.monitored w f st).st.gen = s.gen ∧ (s.monitored w f st).st.faults = s.faults ∧
      (s.monitored w f st).st.drive = s.storedFrame w f st := by
  obtain ⟨gen, faults, drive⟩ := monitored_eq (s := s) (w := w) (f := f) (st := st)
  rw [monitorTension_same (e := Ev.start (s.stored w f st)) h] at gen faults drive
  exact ⟨gen, faults, drive⟩

/-- What a feedback of a winch keeps. -/
theorem fedBack_keeps :
    (s.fedBack w f st).st.zones = s.zones ∧ (s.fedBack w f st).st.cells = s.cells ∧
      (s.fedBack w f st).st.cues = s.cues ∧ (s.fedBack w f st).st.spanSet = s.spanSet ∧
      (s.fedBack w f st).st.limits = s.limits ∧ (s.fedBack w f st).st.lengths = s.lengths ∧
      (s.fedBack w f st).st.scrubber = s.scrubber ∧
      ∀ v, v ≠ w → (s.fedBack w f st).st.tension.get v = s.tension.get v ∧
        (s.fedBack w f st).st.wear.get v = s.wear.get v := by
  rw [(fedBack_reacts s w f st).state]
  exact ⟨rfl, rfl, rfl, rfl, rfl, rfl, rfl, fun v hv =>
    ⟨get_set_other _ _ _ _ hv.symm, get_set_other _ _ _ _ hv.symm⟩⟩

/-- The Drive Port holds the stored values; BRAKE may have been asserted. -/
theorem fedBack_drive :
    (s.fedBack w f st).st.drive = { s.storedFrame w f st with brake := (s.fedBack w f st).st.drive.brake } :=
  congrArg State.drive (fedBack_reacts s w f st).state

theorem driveStatusOf_sound {n : Nat} (h : (n = 1 ∧ st = .ready) ∨ (n = 2 ∧ st = .braked)) :
    driveStatusOf n = some st ∧ st ≠ .fault := by
  rcases h with ⟨rfl, rfl⟩ | ⟨rfl, rfl⟩ <;> exact ⟨rfl, nofun⟩

end

end Sys2Proof.Machine

section
open Sys2Proof Sys2Proof.Machine

/-- Settles O47: the following check of a quiet frame, and the trip that nothing before it or after it undoes. -/
theorem followingErrorsHaltAndDriveFaultsTrip : Obligations.FollowingErrorsHaltAndDriveFaultsTrip := by
  intro s w f hr hm kept
  refine ⟨fun st cmd status released sent far quiet => ?following, fun status hu hs => ?driveFault⟩
  case following =>
    obtain ⟨known, sound⟩ := driveStatusOf_sound status
    obtain ⟨k, run, -⟩ := exec_feedback hr hm known
    obtain ⟨gen, faults, drive⟩ := monitored_quiet (st := st) quiet
    have follow := fedBack_of_strays (st := st) released sent far
    obtain ⟨halts, halted, braked⟩ := controlledHalt_halts (reportFault .following (.number w.number) (s.judged w f st))
    rw [← follow] at halts halted braked
    rw [reportFault_gen, judged_of_sound sound, gen] at halts
    rw [reportFault_st, judged_of_sound sound] at braked
    have flag : (s.fedBack w f st).st.faults.flags[3]? = some true := by
      rw [halted, reportFault_flags]
      rfl
    refine ⟨_, run, fedBack_keeps, braked.trans drive, by simpa using flag, halts, ?_⟩
    exact fedBack_tension.trans (by rw [quiet, set_get])
  case driveFault =>
    obtain ⟨k, run, -⟩ := exec_feedback (st := .fault) hr hm (by rw [status]; rfl)
    obtain ⟨gen, brake, flag⟩ := judged_faults (w := w) (f := f) ((registered_iff s).2 ⟨hu, hs⟩)
    obtain ⟨stays, drive, flags⟩ := fedBack_still (s := s) (w := w) (f := f) (st := .fault)
      (.inr (.inl (by rw [gen]; rfl)))
    refine ⟨_, run, fedBack_keeps, ?_, by simpa using flags 2 flag, stays.trans gen⟩
    exact fedBack_drive.trans (by rw [drive, brake])

end
end

