-- ==== Sys2Proof/Proofs/TensionEntries.lean ====
section
/-! SUPPORT. A winch enters a tension status (R167 to R170): the table, the flag raised with the winch, and what an entry to
OVER or SLACK brings. -/

namespace Sys2Proof.Machine

/-- The hysteresis of a limit, in either form (R167). -/
theorem below_iff {h l t : Nat} (hl : h ≤ l) : l < t + h ↔ l - h < t := by omega

section
variable {s : State} {w : Winch} {f : FeedbackFields} {st : DriveStatus}

/-- The stored frame's winch has entered a status, and its flag is raised (R168). -/
def State.entered (s : State) (w : Winch) (f : FeedbackFields) (st : DriveStatus) (new : TensionStatus) : Ev :=
  (Ev.start (s.stored w f st)).entering w new

theorem monitorTension_entered {new : TensionStatus} (hnew : tensionNext s.limits (s.tension.get w) f.tension = new)
    (enters : new ≠ s.tension.get w) :
    monitorTension w f.tension (Ev.start (s.stored w f st)) = tensionEffects w new (s.entered w f st new) := by
  subst hnew
  exact monitorTension_enters (e := Ev.start (s.stored w f st)) enters

/-- What follows the entry to a status has the generator and the Fault Record of the frame's end, where the frame follows its
command and reports no FAULT. -/
theorem fedBack_enters (hf : s.frameFollows w f) (sound : st ≠ .fault) {new : TensionStatus}
    (hnew : tensionNext s.limits (s.tension.get w) f.tension = new) (enters : new ≠ s.tension.get w) :
    (s.fedBack w f st).st.gen = (tensionEffects w new (s.entered w f st new)).st.gen ∧
      (s.fedBack w f st).st.faults = (tensionEffects w new (s.entered w f st new)).st.faults ∧
      (s.fedBack w f st).st.drive = (tensionEffects w new (s.entered w f st new)).st.drive := by
  rw [fedBack_of_follows hf, judged_of_sound sound, ← monitorTension_entered hnew enters]
  exact monitored_eq

/-- The flag of a winch's tension is raised before anything else is. -/
theorem fedBack_raises {new : TensionStatus} (hnew : tensionNext s.limits (s.tension.get w) f.tension = new)
    (enters : new ≠ s.tension.get w) : (s.entered w f st new).Raises (s.fedBack w f st) := by
  have monitored : (s.entered w f st new).Raises (s.monitored w f st) := by
    unfold State.monitored
    rw [monitorTension_entered hnew enters]
    exact (tensionEffects_reacts w _ _).raises.trans (feedIfMoved_reacts w _ _ _ _).raises
  have judged := monitored.trans (judgeDrive_reacts w _ (registered s) st).raises
  unfold State.fedBack
  split
  · exact judged
  · exact judged.trans (followCheck_reacts w _ _ _).raises

/-- The entry's flag at the end of the event, where it was clear. -/
theorem fedBack_flag {new : TensionStatus} (hnew : tensionNext s.limits (s.tension.get w) f.tension = new)
    (enters : new ≠ s.tension.get w) (clear : s.console.flags[5 + w.number]? = some none) :
    (finish s.gen.state (s.fedBack w f st)).console.flags[5 + w.number]? = some (some ⟨new.code, 0⟩) := by
  obtain ⟨out, raises, eq⟩ := fedBack_raises (st := st) hnew enters
  have starts : (s.fedBack w f st).out = .raise (.tension w) new.code 0 :: out := eq
  have console : (s.fedBack w f st).st.console = s.console := by rw [(fedBack_reacts s w f st).state]; rfl
  obtain ⟨r, set, cause⟩ := finish_flag s.gen.state starts fun o ho => by
    obtain ⟨f, a, b, rfl⟩ := raises o ho
    nofun
  rw [cause (by rw [console]; exact clear)] at set
  exact set

end

/-- The entry to OVER or SLACK of a trolley that stands or moves (R115, R170, R193). -/
theorem tensionHalt_halts {c : FaultClass} {w : Winch} {e : Ev}
    (h : ¬(e.st.gen.state = .halted ∨ e.st.gen.state = .stopped ∨ e.st.gen.state = .unregistered)) :
    (tensionHalt c w e).st.gen = e.st.gen.haltingFrom ∧
      (tensionHalt c w e).st.faults =
        ⟨e.st.faults.flags.setIfInBounds (c.priority - 1) true, captureFault e.st c (.number w.number)⟩ ∧
      (tensionHalt c w e).st.drive = e.st.drive := by
  obtain ⟨gen, faults, drive⟩ := controlledHalt_halts (reportFault c (.number w.number) e)
  rw [tensionHalt_flight (inFlight_eq_true h), gen, faults, drive, reportFault_st]
  exact ⟨rfl, rfl, rfl⟩

/-- The class that an entry to OVER or SLACK reports (R170). -/
def TensionStatus.fault (new : TensionStatus) : FaultClass := if new = .overload then .tensionOver else .tensionSlack

section
variable {w : Winch} {e : Ev} {new : TensionStatus} (hc : new ≠ .critical)
include hc

theorem tensionEffects_calm
    (h : new = .normal ∨ e.st.gen.state = .halted ∨ e.st.gen.state = .stopped ∨ e.st.gen.state = .unregistered) :
    tensionEffects w new e = e := by
  rcases h with rfl | rest
  · rfl
  · cases new with
    | normal => rfl
    | critical => exact absurd rfl hc
    | slack => exact tensionHalt_rest (inFlight_eq_false rest)
    | overload => exact tensionHalt_rest (inFlight_eq_false rest)

theorem tensionEffects_faults (hn : new ≠ .normal) : tensionEffects w new e = tensionHalt new.fault w e := by
  cases new with
  | normal => exact absurd rfl hn
  | critical => exact absurd rfl hc
  | slack => rfl
  | overload => rfl

/-- No entry but the one to CRITICAL touches the Drive Port. -/
theorem tensionEffects_drive : (tensionEffects w new e).st.drive = e.st.drive := by
  by_cases h : new = .normal ∨ e.st.gen.state = .halted ∨ e.st.gen.state = .stopped ∨ e.st.gen.state = .unregistered
  · rw [tensionEffects_calm hc h]
  · obtain ⟨hn, flies⟩ := not_or.1 h
    rw [tensionEffects_faults hc hn]
    exact (tensionHalt_halts flies).2.2

end

end Sys2Proof.Machine

section
open Sys2Proof Sys2Proof.Machine

/-- Settles O48: the table with its limits less the hysteresis, and the effects of an entry by the status entered. -/
theorem tensionEntriesFollowTheTable : Obligations.TensionEntriesFollowTheTable := by
  refine ⟨fun l present t overLimit criticalLimit => ?_, fun s w f st hr hm hf status => ?_⟩
  · simp only [tensionNext, below_iff overLimit, below_iff criticalLimit]
  intro new atRest enters notCritical
  obtain ⟨known, sound⟩ := driveStatusOf_sound status
  obtain ⟨k, run, hk⟩ := exec_feedback hr hm known
  obtain ⟨gen, faults, drive⟩ := fedBack_enters (st := st) hf sound (new := new) rfl enters
  refine ⟨_, run, fedBack_tension, ?drive, fun n hn clear => ?flag, fun calm => ?calm, fun notNormal flies => ?halts⟩
  case drive => exact drive.trans (tensionEffects_drive notCritical)
  case flag =>
    have set := fedBack_flag (st := st) (new := new) rfl enters (by rw [← hn]; simpa using clear)
    rw [← hk, ← hn] at set
    have told : k.flags[n] = some ⟨new.code, 0⟩ := by simpa using set
    exact told
  case calm =>
    rw [tensionEffects_calm notCritical calm] at gen faults
    exact ⟨gen, faults⟩
  case halts =>
    obtain ⟨halts, reports, -⟩ := tensionHalt_halts (c := new.fault) (w := w) (e := s.entered w f st new) flies
    rw [tensionEffects_faults notCritical notNormal] at gen faults
    have record := faults.trans reports
    have set : (s.fedBack w f st).st.faults.flags[new.fault.priority - 1]? = some true := by
      have inRange : new.fault.priority - 1 < 9 := by cases new.fault <;> decide
      rw [record]
      simp [inRange]
    have registered : (s.entered w f st new).st.gen.state ≠ .unregistered := fun h => flies (.inr (.inr h))
    refine ⟨gen.trans halts, fun h => ?_, fun h => ?_, fun free => ?_⟩
    · rw [show new.fault.priority - 1 = 6 by rw [h]; rfl] at set
      simpa using set
    · rw [show new.fault.priority - 1 = 7 by rw [h]; rfl] at set
      simpa using set
    · have captured := congrArg FaultRecord.captured record
      have none_held : (s.entered w f st new).st.faults.captured = none := free
      simp only [captureFault, faultPosition, if_neg registered, none_held] at captured
      exact captured

end
end

