-- ==== Sys2Proof/Proofs/LostDrives.lean ====
section
/-! SUPPORT. A sending in which a channel becomes LOST (R158, R162): the generator trips once, and the sending is completed.
-/

namespace Sys2Proof.Machine

/-! One channel (R152, R158). -/

/-- The frame a channel has not answered is its fifth miss, and it is ALIVE. -/
structure Channel.gettingLost (c : Channel) : Prop where
  sent : c.latest.isSome = true
  unanswered : c.answered = false
  missed : c.misses = 4
  alive : c.status = .alive

theorem send_gettingLost {c : Channel} (h : c.gettingLost) (k : Sent) :
    (c.send k).status = .lost ∧ (c.send k).misses = 5 := by
  simp [Channel.send, Channel.settle, Channel.misses?, h.sent, h.unanswered, h.missed, h.alive]

theorem send_frame (c : Channel) (k : Sent) :
    (c.send k).sequence = c.sequence + 1 ∧ (c.send k).latest = some k ∧ (c.send k).answered = false ∧
      (c.send k).lastCommand = c.lastCommand := by
  unfold Channel.send Channel.settle
  split <;> exact ⟨rfl, rfl, rfl, rfl⟩

/-! A sending (R152, R162). -/

/-- A sending has changed nothing but the channels. -/
def State.sendsFrom (s t : State) : Prop := ∃ c, t = { s with drive := { s.drive with channels := c } }

/-- A sending has tripped the generator, with DRIVE_LOST reported (R117, R162). -/
def State.tripsFrom (s t : State) : Prop :=
  ∃ (c : PerWinch Channel) (r : FaultRecord), r.flags[1]? = some true ∧
    t = { s with
      gen := s.gen.stoppedFrom, envelope := holdArming s.envelope, faults := r
      drive := { s.drive with channels := c, brake := true } }

theorem State.tripsFrom.off {s t : State} (h : s.tripsFrom t) : registered t = false := by
  obtain ⟨c, r, -, rfl⟩ := h
  rfl

section
variable (k : Winch → Sent) (e : Ev) (w : Winch)

theorem sendTo_quiet
    (h : ¬((e.st.drive.channels.get w).status ≠ .lost ∧ ((e.st.drive.channels.get w).send (k w)).status = .lost ∧
      registered e.st = true)) :
    sendTo k e w = e.upd (onChannel w (Channel.send (k w))) := if_neg h

theorem sendTo_trips
    (h : (e.st.drive.channels.get w).status ≠ .lost ∧ ((e.st.drive.channels.get w).send (k w)).status = .lost ∧
      registered e.st = true) :
    sendTo k e w =
      enterStopped (reportFault .driveLost (.number w.number) (e.upd (onChannel w (Channel.send (k w))))) := by
  obtain ⟨hu, hs⟩ := (registered_iff e.st).1 h.2.2
  refine (if_pos h).trans ?_
  rcases trip_cases (reportFault .driveLost (.number w.number) (e.upd (onChannel w (Channel.send (k w)))))
    with ⟨off, -⟩ | ⟨-, -, acts⟩
  · rw [reportFault_gen] at off
    exact absurd off (not_or.2 ⟨hu, hs⟩)
  · exact acts

/-- The channels once a frame has been sent to one of them (R152). -/
def sentTo : PerWinch Channel := e.st.drive.channels.set w ((e.st.drive.channels.get w).send (k w))

theorem sendTo_channels : (sendTo k e w).st.drive.channels = sentTo k e w ∧ (sendTo k e w).bad = e.bad := by
  by_cases h : (e.st.drive.channels.get w).status ≠ .lost ∧ ((e.st.drive.channels.get w).send (k w)).status = .lost ∧
      registered e.st = true
  · rw [sendTo_trips k e w h, enterStopped_eq, reportFault_st, reportFault_bad]
    exact ⟨rfl, rfl⟩
  · rw [sendTo_quiet k e w h]
    exact ⟨rfl, rfl⟩

end

section
variable {k : Winch → Sent} {s : State} {e : Ev} (w : Winch)

theorem tripsFrom_of_lost (h : s.sendsFrom e.st)
    (lost : (e.st.drive.channels.get w).status ≠ .lost ∧ ((e.st.drive.channels.get w).send (k w)).status = .lost ∧
      registered e.st = true) : s.tripsFrom (sendTo k e w).st := by
  have flag : (reportFault .driveLost (.number w.number)
      (e.upd (onChannel w (Channel.send (k w))))).st.faults.flags[1]? = some true := by
    rw [reportFault_flags]
    rfl
  obtain ⟨c, eq⟩ := h
  refine ⟨sentTo k e w, _, flag, ?_⟩
  rw [sendTo_trips k e w lost, enterStopped_eq, reportFault_st, upd_st, sentTo, eq]
  rfl

/-- One sending changes its channel, or trips the generator; and once tripped it stays as it is. -/
theorem sendTo_sends (h : s.sendsFrom e.st ∨ s.tripsFrom e.st) :
    s.sendsFrom (sendTo k e w).st ∨ s.tripsFrom (sendTo k e w).st := by
  by_cases lost : (e.st.drive.channels.get w).status ≠ .lost ∧
      ((e.st.drive.channels.get w).send (k w)).status = .lost ∧ registered e.st = true
  · refine .inr (h.elim (fun h => tripsFrom_of_lost w h lost) fun h => ?_)
    exact absurd lost.2.2 (by simp [h.off])
  · rw [sendTo_quiet k e w lost]
    refine h.imp (fun ⟨c, eq⟩ => ⟨sentTo k e w, ?_⟩) fun ⟨c, r, flag, eq⟩ => ⟨sentTo k e w, r, flag, ?_⟩
    all_goals
      rw [upd_st, sentTo, eq]
      rfl

theorem sendTo_tripped (h : s.tripsFrom e.st) : s.tripsFrom (sendTo k e w).st := by
  obtain ⟨c, r, flag, eq⟩ := h
  have off : registered e.st = false := State.tripsFrom.off ⟨c, r, flag, eq⟩
  refine ⟨sentTo k e w, r, flag, ?_⟩
  rw [sendTo_quiet k e w (by simp [off]), upd_st, sentTo, eq]
  rfl

/-- The sending to a channel that becomes LOST has tripped a registered generator. -/
theorem sendTo_loses (hr : registered s = true) (h : s.sendsFrom e.st ∨ s.tripsFrom e.st)
    (lost : (e.st.drive.channels.get w).gettingLost) : s.tripsFrom (sendTo k e w).st := by
  refine h.elim (fun h => ?_) (sendTo_tripped w)
  refine tripsFrom_of_lost w h ⟨by simp [lost.alive], (send_gettingLost lost _).1, ?_⟩
  obtain ⟨c, eq⟩ := h
  rw [eq]
  exact hr

end

/-! All four channels. -/

/-- A winch in the order of the sending. -/
theorem winch_split (w : Winch) : ∃ pre post, Winch.all = pre ++ w :: post ∧ w ∉ pre := by
  cases w with
  | w1 => exact ⟨[], [.w2, .w3, .w4], rfl, by decide⟩
  | w2 => exact ⟨[.w1], [.w3, .w4], rfl, by decide⟩
  | w3 => exact ⟨[.w1, .w2], [.w4], rfl, by decide⟩
  | w4 => exact ⟨[.w1, .w2, .w3], [], rfl, by decide⟩

theorem foldl_sendTo_untouched (k : Winch → Sent) {w : Winch} {ws : List Winch} (h : w ∉ ws) (e : Ev) :
    (ws.foldl (sendTo k) e).st.drive.channels.get w = e.st.drive.channels.get w := by
  induction ws generalizing e with
  | nil => rfl
  | cons v ws ih =>
    have other : w ≠ v := List.ne_of_not_mem_cons h
    rw [List.foldl_cons, ih (List.not_mem_of_not_mem_cons h), (sendTo_channels k e v).1, sentTo,
      get_set_other _ _ _ _ (Ne.symm other)]

theorem foldl_sendTo_sends {k : Winch → Sent} {s : State} (ws : List Winch) {e : Ev}
    (h : s.sendsFrom e.st ∨ s.tripsFrom e.st) :
    s.sendsFrom (ws.foldl (sendTo k) e).st ∨ s.tripsFrom (ws.foldl (sendTo k) e).st := by
  induction ws generalizing e with
  | nil => exact h
  | cons v ws ih => exact ih (sendTo_sends v h)

theorem foldl_sendTo_tripped {k : Winch → Sent} {s : State} (ws : List Winch) {e : Ev} (h : s.tripsFrom e.st) :
    s.tripsFrom (ws.foldl (sendTo k) e).st := by
  induction ws generalizing e with
  | nil => exact h
  | cons v ws ih => exact ih (sendTo_tripped v h)

section
variable (k : Winch → Sent) (e : Ev)

/-- Every channel is sent its frame, whatever becomes of the generator. -/
theorem sendAll_channels (v : Winch) :
    (sendAll k e).st.drive.channels.get v = (e.st.drive.channels.get v).send (k v) := by
  simp only [sendAll, Winch.all, List.foldl_cons, List.foldl_nil, (sendTo_channels k _ _).1, sentTo]
  cases v <;> rfl

theorem sendAll_bad : (sendAll k e).bad = e.bad := by
  simp only [sendAll, Winch.all, List.foldl_cons, List.foldl_nil, (sendTo_channels k _ _).2]

/-- The sending in which a channel becomes LOST trips the generator (R158, R162). -/
theorem sendAll_trips {w : Winch} (hr : registered e.st = true) (lost : (e.st.drive.channels.get w).gettingLost) :
    e.st.tripsFrom (sendAll k e).st := by
  obtain ⟨pre, post, all, fresh⟩ := winch_split w
  have before : e.st.sendsFrom (pre.foldl (sendTo k) e).st ∨ e.st.tripsFrom (pre.foldl (sendTo k) e).st :=
    foldl_sendTo_sends pre (.inl ⟨_, rfl⟩)
  rw [sendAll, all, List.foldl_append, List.foldl_cons]
  exact foldl_sendTo_tripped post (sendTo_loses w hr before (by rw [foldl_sendTo_untouched k fresh]; exact lost))

end

/-! The state that a tripped sending leaves. -/

/-- A sending of a frame to each channel has tripped the generator, as it was asked to keep. -/
def State.tripsSending (s : State) (w : Winch) (k : Winch → Sent) (t : State) : Prop :=
  (t.drive.channels.get w).status = .lost ∧ (t.drive.channels.get w).misses = 5 ∧
    (∀ v, (t.drive.channels.get v).sequence = (s.drive.channels.get v).sequence + 1 ∧
      (t.drive.channels.get v).latest = some (k v) ∧ (t.drive.channels.get v).answered = false) ∧
    t.drive.brake = true ∧ t.faults.flags[1] = true ∧ (∀ a ∈ t.envelope.arming, a.cond = .release) ∧
    t.envelope.arming.map ArmEntry.zone = s.envelope.arming.map ArmEntry.zone ∧ t.envelope.exit = none ∧
    t.zones = s.zones ∧ t.cells = s.cells ∧ t.cues = s.cues ∧ t.wear = s.wear ∧ t.tension = s.tension

/-- From the channels that were sent their frames, and from what the trip left of the rest. -/
theorem tripsSending_of {s t : State} {w : Winch} {k : Winch → Sent} {c : Winch → Channel}
    (channels : ∀ v, t.drive.channels.get v = (c v).send (k v))
    (numbers : ∀ v, (c v).sequence = (s.drive.channels.get v).sequence) (lost : (c w).gettingLost)
    (brake : t.drive.brake = true) (flag : t.faults.flags[1]? = some true) (envelope : t.envelope = holdArming s.envelope)
    (rest : t = { s with gen := t.gen, lengths := t.lengths, envelope := t.envelope, faults := t.faults, drive := t.drive,
                         console := t.console }) : s.tripsSending w k t := by
  obtain ⟨status, misses⟩ := send_gettingLost lost (k w)
  refine ⟨by rw [channels, status], by rw [channels, misses], fun v => ?_, brake, by simpa using flag, ?_, ?_, ?_,
    by rw [rest], by rw [rest], by rw [rest], by rw [rest], by rw [rest]⟩
  · obtain ⟨sequence, latest, answered, -⟩ := send_frame (c v) (k v)
    rw [channels, sequence, latest, answered, numbers]
    exact ⟨rfl, rfl, rfl⟩
  · simp [envelope, holdArming]
  · simp [envelope, holdArming]
  · rw [envelope, holdArming]

section
variable {s : State} {w : Winch} (hreg : registered s = true) (lost : (s.drive.channels.get w).gettingLost)
include hreg lost

/-! The hold timer (R154). -/

/-- An expiry of the running hold timer that sends a frame to each channel. -/
theorem exec_holdTimer_trips {k : Winch → Sent} (hr : s.resetting = false) (ht : s.drive.holdTimer.isSome = true)
    (frames : holdFrames (Ev.start s) = sendAll k (Ev.start s)) :
    ∃ t, exec .holdTimerExpiry s = .next t ∧ s.tripsSending w k t ∧ t.gen = s.gen.stoppedFrom ∧
      t.lengths = s.lengths := by
  obtain ⟨n, hn⟩ := Option.isSome_iff_exists.1 ht
  have event : holdTimer (Ev.start s) =
      (sendAll k (Ev.start s)).upd (onDrive fun d => { d with setSinceExpiry := false, holdTimer := some 2 }) := by
    simp only [holdTimer, start_st, hn, frames]
  obtain ⟨c, r, flag, trips⟩ := sendAll_trips k (Ev.start s) hreg lost
  have channels (v : Winch) := sendAll_channels k (Ev.start s) v
  obtain ⟨t, run, same⟩ : ∃ t, exec .holdTimerExpiry s = .next t ∧
      t = { (holdTimer (Ev.start s)).st with console := t.console } :=
    ⟨_, congrArg Host.Outcome.next (runEvent_running s holdTimer hr),
      finish_sound _ _ (by rw [event, upd_bad, sendAll_bad, start_bad])⟩
  refine ⟨t, run, ?_⟩
  rw [event, upd_st] at same
  generalize (sendAll k (Ev.start s)).st = u at trips channels same
  subst trips
  have drive := congrArg State.drive same
  refine ⟨tripsSending_of (c := fun v => s.drive.channels.get v) (fun v => ?_) (fun _ => rfl) lost ?_ ?_ ?_ ?_, ?_, ?_⟩
  · rw [drive]; exact channels v
  · rw [drive]; rfl
  · rw [same]; exact flag
  · rw [same]; rfl
  · rw [same]; rfl
  · rw [same]; rfl
  · rw [same]; rfl

end

end Sys2Proof.Machine
end

