-- ==== Sys2Proof/Proofs/TrippedSteps.lean ====
section
/-! SUPPORT. A step whose sending trips the generator (R98, R145, R162), and the entry to CRITICAL (R169). -/

namespace Sys2Proof.Machine

/-! A set of lengths of which a channel becomes LOST (R153, R158). -/

/-- A channel that holds its new command, before the frame is sent. -/
def Channel.commanded (x : Int) (c : Channel) : Channel := { c with lastCommand := some x }

/-- The channels hold the commands of a set of lengths. -/
def State.commanded (s : State) (l : PerWinch RopeLength) : State :=
  onDrive (fun d => { d with channels := PerWinch.of fun v => (d.channels.get v).commanded (l.get v).prev }) s

section
variable (l : PerWinch RopeLength) (e : Ev)

theorem sendSet_eq :
    sendSet l e =
      (sendAll (fun v => .length (l.get v).prev) (e.upd fun s => s.commanded l)).upd
        (onDrive fun d => { d with setSinceRelease := true, setSinceExpiry := true }) := rfl

theorem sendSet_bad : (sendSet l e).bad = e.bad := by simp only [sendSet_eq, upd_bad, sendAll_bad]

theorem commanded_get (s : State) (v : Winch) :
    (s.commanded l).drive.channels.get v = (s.drive.channels.get v).commanded (l.get v).prev := get_of _ v

theorem sendSet_trips {w : Winch} (hr : registered e.st = true) (lost : (e.st.drive.channels.get w).gettingLost) :
    ∃ (c : PerWinch Channel) (r : FaultRecord), r.flags[1]? = some true ∧
      (∀ v, c.get v = ((e.st.drive.channels.get v).commanded (l.get v).prev).send (.length (l.get v).prev)) ∧
      (sendSet l e).st = { e.st with
        gen := e.st.gen.stoppedFrom, envelope := holdArming e.st.envelope, faults := r
        drive := { e.st.drive with channels := c, brake := true, setSinceRelease := true, setSinceExpiry := true } } := by
  have still : ((e.st.commanded l).drive.channels.get w).gettingLost := by
    rw [commanded_get]
    exact ⟨lost.sent, lost.unanswered, lost.missed, lost.alive⟩
  have channels := sendAll_channels (fun v => .length (l.get v).prev) (e.upd fun s => s.commanded l)
  obtain ⟨c, r, flag, trips⟩ :=
    sendAll_trips (fun v => .length (l.get v).prev) (e.upd fun s => s.commanded l) hr still
  rw [sendSet_eq, upd_st]
  generalize (sendAll (fun v => .length (l.get v).prev) (e.upd fun s => s.commanded l)).st = t at channels trips ⊢
  subst trips
  refine ⟨c, r, flag, fun v => ?_, rfl⟩
  rw [← commanded_get]
  exact channels v

end

/-! The step (R98, R145). -/

/-- The event of an offer that passed, once its sending has tripped the generator: the lengths and the position are taken. -/
def State.sentOff (s : State) (sp : Span) (p : Vec3) (l : PerWinch RopeLength) : Ev :=
  (sendSet (PerWinch.of (s.deliveredLength sp p l)) ⟨s, s.offerActs sp p l, []⟩).upd fun t =>
    { t with lengths := some (PerWinch.of (s.deliveredLength sp p l)), gen := { t.gen with pos := some p } }

section
variable {s : State} {sp : Span} {p : Vec3} {l : PerWinch RopeLength} {w : Winch} 
  (hreg : registered s = true) (lost : (s.drive.channels.get w).gettingLost)
include hreg lost

theorem sentOff_off : registered (s.sentOff sp p l).st = false := by
  obtain ⟨c, r, -, -, st⟩ :=
    sendSet_trips (PerWinch.of (s.deliveredLength sp p l)) ⟨s, s.offerActs sp p l, []⟩ hreg lost
  rw [State.sentOff, upd_st, st]
  rfl

/-- The offer does not commit (R98). -/
theorem offer_trips (hl : s.lengths = some l) (h : s.offerPasses sp p) :
    offer sp p (Ev.start s) = (s.sentOff sp p l, false) := by
  obtain ⟨passes, inRange⟩ := h
  have off := sentOff_off (sp := sp) (p := p) (l := l) hreg lost
  simp only [offer, candidateCheck_passes (e := Ev.start s) passes, deliver,
    lengthOffer_accepts (e := Ev.start s) hl inRange, start_st, start_out, start_bad, List.nil_append]
  exact congrArg (Prod.mk (s.sentOff sp p l)) off

/-- A step that ends with such an offer. -/
theorem exec_step_trips (hr : s.resetting = false) (ht : s.gen.stepTimer.isSome = true) (hsp : s.spanSet.span = some sp)
    (step : pathStep sp (Ev.start s) = s.sentOff sp p l) :
    ∃ t, exec .stepTimerExpiry s = .next t ∧
      s.tripsSending w (fun v => .length (s.deliveredLength sp p l v).prev) t ∧
      (∀ v, (t.drive.channels.get v).lastCommand = some (s.deliveredLength sp p l v).prev) ∧
      t.gen = { s.gen.stoppedFrom with pos := some p } ∧ t.lengths = some (PerWinch.of (s.deliveredLength sp p l)) := by
  have bad : (s.sentOff sp p l).bad = [] := by rw [State.sentOff, upd_bad, sendSet_bad]
  obtain ⟨t, run, same⟩ : ∃ t, exec .stepTimerExpiry s = .next t ∧
      t = { (s.sentOff sp p l).st with console := t.console } :=
    ⟨_, by rw [exec_step hr ht hsp, step], finish_sound _ _ bad⟩
  obtain ⟨c, r, flag, channels, st⟩ :=
    sendSet_trips (PerWinch.of (s.deliveredLength sp p l)) ⟨s, s.offerActs sp p l, []⟩ hreg lost
  simp only [get_of] at channels
  rw [State.sentOff, upd_st, st] at same
  have drive := congrArg State.drive same
  refine ⟨t, run,
    tripsSending_of (c := fun v => (s.drive.channels.get v).commanded (s.deliveredLength sp p l v).prev) (fun v => ?_)
      (fun _ => rfl) ⟨lost.sent, lost.unanswered, lost.missed, lost.alive⟩ ?_ ?_ ?_ ?_,
    fun v => ?_, ?_, ?_⟩
  · rw [drive]; exact channels v
  · rw [drive]
  · rw [same]; exact flag
  · rw [same]
  · rw [same]
  · rw [drive]
    exact (congrArg Channel.lastCommand (channels v)).trans (send_frame _ _).2.2.2
  · rw [same]
  · rw [same]

end

/-! The entry to CRITICAL (R167, R169). -/

section
variable {s : State} {w : Winch} {f : FeedbackFields} {st : DriveStatus}

/-- The trip of an entry to CRITICAL acts in a registered generator alone. -/
theorem tensionEffects_critical (e : Ev) :
    (tensionEffects w .critical e).st.faults.flags[0]? = some true ∧
      (e.st.gen.state = .unregistered ∨ e.st.gen.state = .stopped →
        (tensionEffects w .critical e).st.gen = e.st.gen) ∧
      (registered e.st = true →
        (tensionEffects w .critical e).st.gen = e.st.gen.stoppedFrom ∧
          (tensionEffects w .critical e).st.drive.brake = true) := by
  have gen := reportFault_gen .tensionCritical (.number w.number) e
  have flag : (reportFault .tensionCritical (.number w.number) e).st.faults.flags[0]? = some true := by
    rw [reportFault_flags]
    rfl
  have off (h : e.st.gen.state = .unregistered ∨ e.st.gen.state = .stopped) :
      tensionEffects w .critical e = reportFault .tensionCritical (.number w.number) e := trip_off (by rw [gen]; exact h)
  by_cases h : registered e.st = true
  · obtain ⟨stops, faults, brake⟩ := trip_stops (e := reportFault .tensionCritical (.number w.number) e)
      ((registered_of_gen gen).trans h)
    exact ⟨(congrArg (·.flags[0]?) faults).trans flag, fun h => by rw [off h, gen],
      fun _ => ⟨by rw [← gen]; exact stops, brake⟩⟩
  · have stands : e.st.gen.state = .unregistered ∨ e.st.gen.state = .stopped := by
      by_contra on
      exact h ((registered_iff e.st).2 (not_or.1 on))
    rw [off stands, gen]
    exact ⟨flag, fun _ => rfl, fun on => absurd on h⟩

/-- What the entry has brought before the following check. -/
theorem judged_critical (sound : st ≠ .fault) (above : s.limits.criticalLimit < f.tension)
    (enters : s.tension.get w ≠ .critical) :
    (s.judged w f st).st.faults.flags[0]? = some true ∧
      (s.gen.state = .unregistered ∨ s.gen.state = .stopped → (s.judged w f st).st.gen = s.gen) ∧
      (registered s = true →
        (s.judged w f st).st.gen = s.gen.stoppedFrom ∧ (s.judged w f st).st.drive.brake = true) := by
  have entered := monitorTension_entered (st := st) (if_pos above) (Ne.symm enters)
  obtain ⟨gen, faults, drive⟩ := monitored_eq (s := s) (w := w) (f := f) (st := st)
  rw [entered] at gen faults drive
  rw [judged_of_sound sound, gen, faults, drive]
  exact tensionEffects_critical (s.entered w f st .critical)

end

end Sys2Proof.Machine

section
open Sys2Proof Sys2Proof.Machine

/-- Settles O25: the trip within the sending, and the trip of the entry to CRITICAL, which the following check leaves as it
is. -/
theorem lostDriveAndCriticalTensionTrip : Obligations.LostDriveAndCriticalTensionTrip := by
  refine ⟨fun s w hr hu hs sent unanswered missed alive => ?_, fun s w f hr winch range status latest echo unanswered
    above enters => ?critical⟩
  case critical =>
    obtain ⟨st, known, sound⟩ : ∃ st, driveStatusOf f.status = some st ∧ st ≠ .fault := by
      rcases status with h | h <;> rw [h]
      · exact ⟨.ready, rfl, nofun⟩
      · exact ⟨.braked, rfl, nofun⟩
    obtain ⟨k, run, -⟩ := exec_feedback hr ⟨winch, range, latest, echo, unanswered⟩ known
    obtain ⟨flag, off, on⟩ := judged_critical (st := st) sound above enters
    have stands : (s.judged w f st).st.gen.state = .halted ∨ (s.judged w f st).st.gen.state = .stopped ∨
        (s.judged w f st).st.gen.state = .unregistered := by
      by_cases h : s.gen.state = .unregistered ∨ s.gen.state = .stopped
      · rw [off h]
        exact .inr h.symm
      · rw [(on ((registered_iff s).2 (not_or.1 h))).1]
        exact .inr (.inl rfl)
    obtain ⟨gen, drive, flags⟩ := fedBack_still stands
    have channel : (s.fedBack w f st).st.drive.channels.get w = (s.storedFrame w f st).channels.get w := by
      rw [fedBack_drive]
    refine ⟨_, run, fedBack_tension.trans (congrArg _ (if_pos above)), by simpa using flags 0 flag,
      by rw [channel]; simp [State.storedFrame], by rw [channel]; simp [State.storedFrame],
      fun h => gen.trans (off h), fun hu hs => ?_⟩
    obtain ⟨stops, brake⟩ := on ((registered_iff s).2 ⟨hu, hs⟩)
    exact ⟨gen.trans stops, (congrArg DrivePort.brake drive).trans brake⟩
  have lost : (s.drive.channels.get w).gettingLost := ⟨sent, unanswered, missed, alive⟩
  have hreg : registered s = true := (registered_iff s).2 ⟨hu, hs⟩
  intro tripped
  refine ⟨fun ht brake fresh => ?hold, fun ht brake set quiet x commands => ?again, fun sp p lens ht hsp hp hl => ?step⟩
  case hold =>
    exact exec_holdTimer_trips (k := fun _ => .hold) hreg lost hr ht (by simp [holdFrames, holdAction, brake, fresh])
  case again =>
    refine exec_holdTimer_trips (k := fun v => .length (x.get v)) hreg lost hr ht ?_
    simp [holdFrames, holdAction, brake, set, quiet, commands]
  case step =>
    intro sentOff
    have trips {p' : Vec3} (step : pathStep sp (Ev.start s) = s.sentOff sp p' lens) : sentOff p' :=
      exec_step_trips hreg lost hr ht hsp step
    refine ⟨fun standing passes => trips ?_, fun f moving hf noSlow => ?_⟩
    · have offered := offer_trips hreg lost hl passes
      rw [pathStep_standing sp standing hp, offered]
    · intro p' passes
      refine trips (moveStep_of_refused moving hf noSlow.slowSound ?_)
      rw [moveSpeed_of_noSlow noSlow]
      exact offer_trips hreg lost hl passes

end
end
-- ==== Sys2Proof/Proofs/DriveKept.lean ====
section
/-! SUPPORT. What leaves the Drive Port and the Envelope Unit alone: the reads of records, the Fault Record, the cues, the cell lists,
the table operations and the succession change other blocks. -/

namespace Sys2Proof.Machine

/-- A fold of operations that keep the Drive Port and the Envelope Unit keeps them. -/
theorem foldl_drive_envelope {α : Type} (f : Ev → α → Ev)
    (h : ∀ e a, (f e a).st.drive = e.st.drive ∧ (f e a).st.envelope = e.st.envelope) (l : List α) (e : Ev) :
    (l.foldl f e).st.drive = e.st.drive ∧ (l.foldl f e).st.envelope = e.st.envelope := by
  induction l generalizing e with
  | nil => exact ⟨rfl, rfl⟩
  | cons a l ih => rw [List.foldl_cons, (ih _).1, (ih _).2]; exact h e a

/-! Reads and faults. -/

@[simp] theorem markZone_drive_envelope (i : Nat) (e : Ev) :
    (markZone i e).st.drive = e.st.drive ∧ (markZone i e).st.envelope = e.st.envelope := by
  unfold markZone; split <;> simp
@[simp] theorem readZone_drive_envelope (e : Ev) (i : Nat) :
    (readZone e i).st.drive = e.st.drive ∧ (readZone e i).st.envelope = e.st.envelope := by
  unfold readZone; split <;> simp
@[simp] theorem foldl_readZone_drive_envelope (ids : List Nat) (e : Ev) :
    (ids.foldl readZone e).st.drive = e.st.drive ∧ (ids.foldl readZone e).st.envelope = e.st.envelope :=
  foldl_drive_envelope _ readZone_drive_envelope _ _
@[simp] theorem readZones_drive_envelope (e : Ev) :
    (readZones e).st.drive = e.st.drive ∧ (readZones e).st.envelope = e.st.envelope := by
  unfold readZones; exact foldl_readZone_drive_envelope zoneIds e
theorem drive_of_motionRead {ids : List Nat} {e e' : Ev} {o : Option Nat} (h : motionRead ids e = (e', o)) :
    e'.st.drive = e.st.drive := by
  unfold motionRead at h; split at h <;> cases h <;> simp
@[simp] theorem readCue_drive_envelope (e : Ev) (n : Nat) :
    (readCue e n).st.drive = e.st.drive ∧ (readCue e n).st.envelope = e.st.envelope := by
  unfold readCue
  repeat' split
  all_goals simp
@[simp] theorem reportFault_drive (c : FaultClass) (j : FaultSubject) (e : Ev) :
    (reportFault c j e).st.drive = e.st.drive := by
  rw [reportFault_st]
@[simp] theorem raiseWinches_drive (f : EventFlag) (h : Winch → Bool) (e : Ev) :
    (raiseWinches f h e).st.drive = e.st.drive := by
  rw [raiseWinches_eq]

/-! The cell lists and the cues. -/

@[simp] theorem suspectCell_drive (n : Nat) (e : Ev) : (suspectCell n e).st.drive = e.st.drive := by
  unfold suspectCell; split <;> simp
@[simp] theorem rebuildCell_drive (n : Nat) (e : Ev) : (rebuildCell n e).st.drive = e.st.drive := by simp [rebuildCell]
@[simp] theorem changeCell_drive (n : Nat) (f : List Nat → List Nat) (e : Ev) :
    (changeCell n f e).st.drive = e.st.drive := by
  unfold changeCell; dsimp only
  repeat' split
  all_goals simp
@[simp] theorem computeBlocked_drive_envelope (e : Ev) (n : Nat) :
    (computeBlocked e n).st.drive = e.st.drive ∧ (computeBlocked e n).st.envelope = e.st.envelope := by
  unfold computeBlocked; dsimp only; split <;> simp
@[simp] theorem recomputeOne_drive_envelope (e : Ev) (n : Nat) :
    (recomputeOne e n).st.drive = e.st.drive ∧ (recomputeOne e n).st.envelope = e.st.envelope := by
  unfold recomputeOne; split <;> simp
@[simp] theorem recomputeBlocked_drive_envelope (e : Ev) :
    (recomputeBlocked e).st.drive = e.st.drive ∧ (recomputeBlocked e).st.envelope = e.st.envelope := by
  unfold recomputeBlocked; exact foldl_drive_envelope _ recomputeOne_drive_envelope _ _

/-! Table operations. -/

@[simp] theorem closeOp_drive_envelope (op : TableOp) (e : Ev) :
    (closeOp op e).st.drive = e.st.drive ∧ (closeOp op e).st.envelope = e.st.envelope := by
  unfold closeOp; dsimp only
  repeat' split
  all_goals simp
@[simp] theorem beginOp_drive_envelope (op : TableOp) (e : Ev) :
    (beginOp op e).st.drive = e.st.drive ∧ (beginOp op e).st.envelope = e.st.envelope := by
  unfold beginOp; split <;> simp
@[simp] theorem beginWork_drive_envelope (w : Work) (e : Ev) :
    (beginWork w e).st.drive = e.st.drive ∧ (beginWork w e).st.envelope = e.st.envelope := by
  cases w <;> simp [beginWork, takeExpiry]
@[simp] theorem runWaiting_drive_envelope (ws : List Work) (e : Ev) :
    (runWaiting ws e).st.drive = e.st.drive ∧ (runWaiting ws e).st.envelope = e.st.envelope := by
  induction ws generalizing e with
  | nil => simp [runWaiting]
  | cons w ws ih =>
    unfold runWaiting; dsimp only
    repeat' split
    all_goals simp [ih]
@[simp] theorem runIfIdle_drive_envelope (e : Ev) :
    (runIfIdle e).st.drive = e.st.drive ∧ (runIfIdle e).st.envelope = e.st.envelope := by
  unfold runIfIdle; split <;> simp
@[simp] theorem orderWork_drive_envelope (ws : List Work) (e : Ev) :
    (orderWork ws e).st.drive = e.st.drive ∧ (orderWork ws e).st.envelope = e.st.envelope := by
  simp [orderWork]
@[simp] theorem endOp_drive (op : TableOp) (e : Ev) : (endOp op e).st.drive = e.st.drive := by simp [endOp]
@[simp] theorem orderRebuild_drive (n : Nat) (e : Ev) : (orderRebuild n e).st.drive = e.st.drive := by
  unfold orderRebuild; split <;> simp
@[simp] theorem readCell_drive (n : Nat) (e : Ev) : (readCell n e).st.drive = e.st.drive := by
  unfold readCell; split <;> simp
@[simp] theorem countCell_drive (i : Option Nat) (n : Nat) (e : Ev) : (countCell i n e).1.st.drive = e.st.drive := by
  unfold countCell; dsimp only; split <;> simp
@[simp] theorem firstFull_drive (i : Option Nat) (ns : List Nat) (e : Ev) :
    (firstFull i ns e).1.st.drive = e.st.drive := by
  induction ns generalizing e with
  | nil => rfl
  | cons n ns ih => unfold firstFull; dsimp only; split <;> simp [ih]
@[simp] theorem visit_drive (op : TableOp) (e : Ev) : (visit op e).st.drive = e.st.drive := by
  unfold visit; split <;> simp
@[simp] theorem fallDueIfSpent_drive_envelope (i : Nat) (e : Ev) :
    (fallDueIfSpent i e).st.drive = e.st.drive ∧ (fallDueIfSpent i e).st.envelope = e.st.envelope := by
  unfold fallDueIfSpent; split <;> simp
@[simp] theorem settle_drive_envelope (i : Nat) (b : Box) (e : Ev) :
    (settle i b e).st.drive = e.st.drive ∧ (settle i b e).st.envelope = e.st.envelope := by
  unfold settle; split <;> simp
theorem startPhase_drive (op : TableOp) (e : Ev) (f : TableOp → Ev → Ev)
    (hf : ∀ op e, (f op e).st.drive = e.st.drive) : (startPhase op e f).st.drive = e.st.drive := by
  unfold startPhase; split <;> simp [hf]
@[simp] theorem startRemoval_drive (op : TableOp) (b : Bool) (p : VisitPlan) (e : Ev) :
    (startRemoval op b p e).st.drive = e.st.drive := startPhase_drive _ _ _ endOp_drive
@[simp] theorem amendArming_drive (id : Nat) (z : Zone) (p : PendingBox) (c : ArmCond) (e : Ev) :
    (amendArming id z p c e).st.drive = e.st.drive := by simp [amendArming]

/-! Activation, withdrawal and the succession. -/

@[simp] theorem activationEffects_drive_envelope (i : Nat) (a : Bool) (e : Ev) :
    (activationEffects i a e).st.drive = e.st.drive ∧ (activationEffects i a e).st.envelope = e.st.envelope := by
  unfold activationEffects dropInside; dsimp only
  repeat' split
  all_goals simp
@[simp] theorem makeActive_drive (b : Bool) (i : Nat) (e : Ev) : (makeActive b i e).st.drive = e.st.drive := by
  unfold makeActive; dsimp only
  repeat' split
  all_goals simp
@[simp] theorem withdraw_drive (i : Nat) (e : Ev) : (withdraw i e).st.drive = e.st.drive := by
  unfold withdraw; dsimp only
  repeat' split
  all_goals simp
@[simp] theorem tryBegin_drive (m : Move) (e : Ev) : (tryBegin m e).1.st.drive = e.st.drive := by
  unfold tryBegin; dsimp only
  repeat' split
  all_goals simp
@[simp] theorem queuePhase_drive (ms : List Move) (e : Ev) : (queuePhase ms e).st.drive = e.st.drive := by
  induction ms generalizing e with
  | nil => simp [queuePhase]
  | cons m ms ih => unfold queuePhase; dsimp only; split <;> simp [ih]
@[simp] theorem stackPhase_drive (cs : List Context) (e : Ev) : (stackPhase cs e).st.drive = e.st.drive := by
  induction cs generalizing e with
  | nil => simp [stackPhase]
  | cons c cs ih =>
    unfold stackPhase; dsimp only
    repeat' split
    all_goals simp [ih]

/-! Requests and events of other blocks. -/

@[simp] theorem amendInPlace_drive (l : Link) (z : Zone) (f : ZoneAmendFields) (e : Ev) :
    (amendInPlace l z f e).st.drive = e.st.drive := by simp [amendInPlace]
@[simp] theorem zoneQuery_drive (l : Link) (n : Nat) (e : Ev) : (zoneQuery l n e).st.drive = e.st.drive := by
  unfold zoneQuery; split <;> simp
@[simp] theorem zoneList_drive (l : Link) (e : Ev) : (zoneList l e).st.drive = e.st.drive := by simp [zoneList]
@[simp] theorem pointLookup_drive (l : Link) (p : Vec3) (e : Ev) : (pointLookup l p e).st.drive = e.st.drive := by
  unfold pointLookup; dsimp only
  repeat' split
  all_goals simp
@[simp] theorem countDown_drive_envelope (e : Ev) (id : Nat) :
    (countDown e id).st.drive = e.st.drive ∧ (countDown e id).st.envelope = e.st.envelope := by
  unfold countDown; dsimp only
  repeat' split
  all_goals simp
@[simp] theorem oneSecond_drive (e : Ev) : (oneSecond e).st.drive = e.st.drive := by
  unfold oneSecond; split <;> simp [foldl_drive_envelope countDown countDown_drive_envelope]
@[simp] theorem cueStore_drive (l : Link) (f : CueStoreFields) (e : Ev) : (cueStore l f e).st.drive = e.st.drive := by
  unfold cueStore storeCue
  repeat' split
  all_goals simp
@[simp] theorem cueAmend_drive (l : Link) (f : CueAmendFields) (e : Ev) : (cueAmend l f e).st.drive = e.st.drive := by
  unfold cueAmend amendCue; dsimp only
  repeat' split
  all_goals simp
@[simp] theorem cueRetire_drive (l : Link) (f : RetireFields) (e : Ev) : (cueRetire l f e).st.drive = e.st.drive := by
  unfold cueRetire; dsimp only
  repeat' split
  all_goals simp
@[simp] theorem cueQuery_drive (l : Link) (n : Nat) (e : Ev) : (cueQuery l n e).st.drive = e.st.drive := by
  unfold cueQuery; split <;> simp
@[simp] theorem cueList_drive (l : Link) (e : Ev) : (cueList l e).st.drive = e.st.drive := by
  simp [cueList, foldl_drive_envelope readCue readCue_drive_envelope]
theorem drive_of_resolveCue {n : Nat} {e e' : Ev} {r : Resolved} (h : resolveCue n e = (e', r)) :
    e'.st.drive = e.st.drive := by
  have kept : (resolveCue n e).1.st.drive = e.st.drive := by
    unfold resolveCue; dsimp only
    repeat' split
    all_goals simp
  simpa [h] using kept
@[simp] theorem wearQuery_drive (l : Link) (n : Nat) (e : Ev) : (wearQuery l n e).st.drive = e.st.drive := by
  unfold wearQuery; split <;> simp
@[simp] theorem rewriteWear_drive (l : Link) (n : Nat) (c : Vector Nat 64) (e : Ev) :
    (rewriteWear l n c e).st.drive = e.st.drive := by
  unfold rewriteWear
  repeat' split
  all_goals simp
@[simp] theorem setLimits_drive (l : Link) (v : Limits) (e : Ev) : (setLimits l v e).st.drive = e.st.drive := by
  unfold setLimits
  repeat' split
  all_goals simp
@[simp] theorem lock_drive (l : Link) (e : Ev) : (lock l e).st.drive = e.st.drive := by unfold lock; split <;> simp
@[simp] theorem clearEvents_drive (l : Link) (m : BitVec 32) (e : Ev) :
    (clearEvents l m e).st.drive = e.st.drive := by
  unfold clearEvents; split <;> simp
@[simp] theorem setNotices_drive (l : Link) (m : BitVec 32) (e : Ev) : (setNotices l m e).st.drive = e.st.drive := by
  unfold setNotices; split <;> simp
@[simp] theorem scrub_drive (e : Ev) : (scrub e).st.drive = e.st.drive := by
  unfold scrub scrubItem
  repeat' split
  all_goals simp
@[simp] theorem feedIfMoved_drive (w : Winch) (b : Bool) (o : Option Int) (m : Nat) (e : Ev) :
    (feedIfMoved w b o m e).st.drive = e.st.drive := by
  unfold feedIfMoved feedWear; dsimp only
  repeat' split
  all_goals simp

end Sys2Proof.Machine
end

