-- ==== Sys2Proof/Proofs/BrakeAndJog.lean ====
section
/-! SUPPORT. The law of the BRAKE line (R164) and the law of the jog session (R124) through the operations that the commands
share. -/

namespace Sys2Proof.Machine

/-- A state follows another in BRAKE and in the jog session: it keeps the law of each, of either by itself. -/
structure State.Tracks (s t : State) : Prop where
  brake : s.brakeLaw → t.brakeLaw
  jog : s.jogLaw → t.jogLaw

theorem State.Tracks.refl (s : State) : s.Tracks s := ⟨id, id⟩

theorem State.Tracks.trans {s t u : State} (h : s.Tracks t) (h' : t.Tracks u) : s.Tracks u :=
  ⟨fun l => h'.brake (h.brake l), fun l => h'.jog (h.jog l)⟩

/-- A fold of operations that each track. -/
theorem foldl_tracks {α : Type} (f : Ev → α → Ev) (h : ∀ (e : Ev) (a : α), e.st.Tracks (f e a).st) (l : List α)
    (e : Ev) : e.st.Tracks (l.foldl f e).st := by
  induction l generalizing e with
  | nil => exact .refl _
  | cons a l ih => exact (h e a).trans (ih (f e a))

/-! What tracks. -/

/-- BRAKE is released exactly while the generator is registered. -/
theorem brakeLaw_iff (s : State) : s.brakeLaw ↔ s.drive.brake = !registered s := by
  unfold State.brakeLaw registered
  cases s.gen.state <;> simp

theorem registered_of_state {s t : State} (h : t.gen.state = s.gen.state) : registered t = registered s := by
  unfold registered; rw [h]

/-- Without a session the jog state is at rest. -/
theorem jogLaw_of_closed {s : State} (hs : s.gen.state ≠ .jogging) (hj : s.gen.jog = Jog.closed) : s.jogLaw :=
  ⟨fun h => absurd h hs, fun _ => hj⟩

/-- The laws speak of BRAKE, the generator's state and the jog state alone. -/
theorem tracks_of_same {s t : State} (hb : t.drive.brake = s.drive.brake) (hs : t.gen.state = s.gen.state)
    (hj : t.gen.jog = s.gen.jog) : s.Tracks t := by
  constructor
  · unfold State.brakeLaw; rw [hb, hs]; exact id
  · unfold State.jogLaw; rw [hs, hj]; exact id

/-- What tracks a state with the same BRAKE, generator state and jog state. -/
theorem State.Tracks.of {s s' t : State} (h : s'.Tracks t) (hb : s'.drive.brake = s.drive.brake)
    (hs : s'.gen.state = s.gen.state) (hj : s'.gen.jog = s.gen.jog) : s.Tracks t :=
  (tracks_of_same hb hs hj).trans h

theorem tracks_of_kept {s t : State} (hg : t.gen = s.gen) (hd : t.drive = s.drive) : s.Tracks t :=
  tracks_of_same (by rw [hd]) (by rw [hg]) (by rw [hg])

/-- A generator that stays registered, with BRAKE as it was. -/
theorem tracks_of_registered {s t : State} (hb : t.drive.brake = s.drive.brake) (hs : registered s = true)
    (ht : registered t = true) (jog : s.jogLaw → t.jogLaw) : s.Tracks t :=
  ⟨by rw [brakeLaw_iff, brakeLaw_iff, hs, ht, hb]; exact id, jog⟩

/-- A generator that is not registered, with BRAKE asserted and no session. -/
theorem tracks_of_braked {s t : State} (hb : t.drive.brake = true) (ht : registered t = false)
    (hj : t.gen.jog = Jog.closed) : s.Tracks t := by
  refine ⟨fun _ => by rw [brakeLaw_iff, hb, ht]; rfl, fun _ => jogLaw_of_closed (fun h => ?_) hj⟩
  simp [registered, h] at ht

theorem registered_of_on {s : State} {st : GenState} (h : s.gen.state = st)
    (hs : st ≠ .unregistered ∧ st ≠ .stopped) : registered s = true := by
  rw [registered_iff, h]; exact hs

/-! Halts and trips (R115 to R117). -/

theorem enterHalted_tracks {e : Ev} (h : registered e.st = true) : e.st.Tracks (enterHalted e).st := by
  rw [enterHalted_st]
  exact tracks_of_registered rfl h rfl fun _ => jogLaw_of_closed nofun rfl

theorem enterStopped_tracks (e : Ev) : e.st.Tracks (enterStopped e).st := by
  rw [enterStopped_st]
  exact tracks_of_braked rfl rfl rfl

theorem trip_tracks (e : Ev) : e.st.Tracks (trip e).st := by
  obtain ⟨-, h⟩ | ⟨-, -, h⟩ := trip_cases e <;> rw [h]
  · exact .refl _
  · exact enterStopped_tracks e

theorem quickStop_tracks (e : Ev) : e.st.Tracks (quickStop e).st := by
  obtain ⟨-, h⟩ | ⟨unregistered, stopped, -, h⟩ := quickStop_cases e <;> rw [h]
  · exact .refl _
  · exact enterHalted_tracks ((registered_iff _).2 ⟨unregistered, stopped⟩)

/-- A move along its path brakes. -/
theorem brakeMove_tracks (p : Purpose) {s : State} (hs : s.gen.state = .moving ∨ s.gen.state = .braking) :
    s.Tracks (onGen (brakeMove p) s) := by
  refine tracks_of_registered rfl ?_ rfl fun law => jogLaw_of_closed nofun (law.2 ?_)
  · rcases hs with h | h <;> exact registered_of_on h (by simp)
  · rcases hs with h | h <;> rw [h] <;> nofun

/-- An open session brakes and stays open (R133). -/
theorem brakeJog_tracks (p : JogPurpose) {s : State} (hs : s.gen.state = .jogging) : s.Tracks (onGen (brakeJog p) s) :=
  ⟨id, fun law => ⟨law.1, fun h => absurd hs h⟩⟩

theorem controlledHalt_tracks (e : Ev) : e.st.Tracks (controlledHalt e).st := by
  obtain ⟨hs, h⟩ | ⟨hs, h⟩ | ⟨hs, h⟩ | ⟨-, h⟩ := controlledHalt_cases e <;> rw [h]
  · exact brakeMove_tracks .halt hs
  · exact brakeJog_tracks .halt hs
  · refine enterHalted_tracks ?_
    rcases hs with h | h <;> exact registered_of_on h (by simp)
  · exact .refl _

theorem reportFault_tracks (c : FaultClass) (j : FaultSubject) (e : Ev) : e.st.Tracks (reportFault c j e).st :=
  tracks_of_kept (reportFault_gen c j e) (reportFault_drive c j e)

theorem reportFault_trip_tracks (c : FaultClass) (j : FaultSubject) (e : Ev) : e.st.Tracks (trip (reportFault c j e)).st :=
  (reportFault_tracks c j e).trans (trip_tracks _)
theorem reportFault_quickStop_tracks (c : FaultClass) (j : FaultSubject) (e : Ev) :
    e.st.Tracks (quickStop (reportFault c j e)).st :=
  (reportFault_tracks c j e).trans (quickStop_tracks _)
theorem reportFault_controlledHalt_tracks (c : FaultClass) (j : FaultSubject) (e : Ev) :
    e.st.Tracks (controlledHalt (reportFault c j e)).st :=
  (reportFault_tracks c j e).trans (controlledHalt_tracks _)

theorem settleReads_tracks (e : Ev) : e.st.Tracks (settleReads e).st := by
  unfold settleReads
  split
  · exact .refl _
  · exact (foldl_tracks _ (fun e i => reportFault_tracks _ _ e) _ e).trans (controlledHalt_tracks _)

/-- What is put out at an event's end concerns neither law. -/
theorem finish_tracks (g : GenState) (e : Ev) : e.st.Tracks (finish g e) := by
  rw [finish_console]
  exact (settleReads_tracks e).trans (tracks_of_kept rfl rfl)

/-! Activation and withdrawal (R33 to R35, R92). -/

/-- An activation may drop moves from the queue and the stack, and leaves the state and the jog. -/
@[simp] theorem activationEffects_state_jog (i : Nat) (a : Bool) (e : Ev) :
    (activationEffects i a e).st.gen.state = e.st.gen.state ∧ (activationEffects i a e).st.gen.jog = e.st.gen.jog := by
  unfold activationEffects; dsimp only
  repeat' split
  all_goals simp [dropInside_gen, Generator.without]
@[simp] theorem makeActive_state_jog (b : Bool) (i : Nat) (e : Ev) :
    (makeActive b i e).st.gen.state = e.st.gen.state ∧ (makeActive b i e).st.gen.jog = e.st.gen.jog := by
  unfold makeActive; dsimp only
  repeat' split
  all_goals simp
@[simp] theorem withdraw_state_jog (i : Nat) (e : Ev) :
    (withdraw i e).st.gen.state = e.st.gen.state ∧ (withdraw i e).st.gen.jog = e.st.gen.jog := by
  unfold withdraw; dsimp only
  repeat' split
  all_goals simp

/-- A withdrawn zone leaves the arming set, and no other zone enters it (R89). -/
theorem withdraw_arming (i : Nat) (e : Ev) :
    (withdraw i e).st.envelope.arming = e.st.envelope.arming.filter fun a => a.zone != i := by
  unfold withdraw; dsimp only
  repeat' split
  all_goals simp [dropArm]

/-- Zones that are made ACTIVE leave BRAKE, the generator's state and the jog as they were. -/
theorem foldl_makeActive_kept (b : Bool) (ids : List Nat) (e : Ev) :
    let t := (ids.foldl (fun e i => makeActive b i e) e).st
    t.drive = e.st.drive ∧ t.gen.state = e.st.gen.state ∧ t.gen.jog = e.st.gen.jog := by
  induction ids generalizing e with
  | nil => exact ⟨rfl, rfl, rfl⟩
  | cons i ids ih => simpa using ih (makeActive b i e)

theorem activationPass_kept (ids : List Nat) (e : Ev) :
    (activationPass ids e).st.drive = e.st.drive ∧ (activationPass ids e).st.gen.state = e.st.gen.state ∧
      (activationPass ids e).st.gen.jog = e.st.gen.jog := by
  unfold activationPass
  induction ids generalizing e with
  | nil => exact ⟨rfl, rfl, rfl⟩
  | cons i ids ih =>
    rw [List.foldl_cons]
    split
    · exact ih e
    · simpa using ih (makeActive true i e)

/-! The resolution of the arming set (R84). -/

/-- The arming set is taken up zone by zone: an exit begins, or each zone taken has left the set. -/
structure Ev.Resolves (ids : List Nat) (e e' : Ev) : Prop where
  drive : e'.st.drive = e.st.drive
  jog : e'.st.gen.jog = e.st.gen.jog
  outcome : e'.st.gen.state = .moving ∨
    e'.st.gen.state = e.st.gen.state ∧ ∀ a ∈ e'.st.envelope.arming, a ∈ e.st.envelope.arming ∧ a.zone ∉ ids

theorem planningPass_resolves (ids : List Nat) (e : Ev) : e.Resolves ids (planningPass ids e) := by
  induction ids generalizing e with
  | nil => exact ⟨rfl, rfl, .inr ⟨rfl, fun a ha => ⟨ha, List.not_mem_nil⟩⟩⟩
  | cons i ids ih =>
    unfold planningPass; dsimp only
    split
    · exact ⟨by simp, by simp [beginExit_gen, Generator.flying], .inl rfl⟩
    · obtain ⟨drive, jog, outcome⟩ := ih (withdraw i (readZones e))
      refine ⟨by simpa using drive, by simpa using jog, outcome.imp_right fun ⟨state, left⟩ => ?_⟩
      refine ⟨by simpa using state, fun a ha => ?_⟩
      obtain ⟨stays, others⟩ := left a ha
      simp only [withdraw_arming, readZones_drive_envelope, List.mem_filter, bne_iff_ne] at stays
      exact ⟨stays.1, List.not_mem_cons_of_ne_of_not_mem stays.2 others⟩

/-- The resolution begins an exit, or leaves the arming set empty. -/
theorem resolveArming_outcome (e : Ev) :
    (resolveArming e).st.drive = e.st.drive ∧ (resolveArming e).st.gen.jog = e.st.gen.jog ∧
      ((resolveArming e).st.gen.state = .moving ∨ (resolveArming e).st.envelope.arming = []) := by
  unfold resolveArming; dsimp only
  generalize hr : (armingIds e.st).foldl readZone e = e1
  obtain ⟨drive, -, jog⟩ := activationPass_kept (armingIds e1.st) e1
  generalize activationPass (armingIds e1.st) e1 = e2 at drive jog ⊢
  obtain ⟨drive', jog', outcome⟩ := planningPass_resolves (armingIds e2.st) e2
  refine ⟨by rw [drive', drive, ← hr]; simp, by rw [jog', jog, ← hr]; simp, ?_⟩
  refine outcome.imp_right fun ⟨_, left⟩ => ?_
  refine List.eq_nil_iff_forall_not_mem.2 fun a ha => ?_
  obtain ⟨stays, others⟩ := left a ha
  exact others (List.mem_map_of_mem stays)

/-! The succession (R107). -/

/-- The generator comes to rest in IDLE or HELD, or flies; the Drive Port and the jog state are left. -/
structure State.Settles (s t : State) : Prop where
  drive : t.drive = s.drive
  jog : t.gen.jog = s.gen.jog
  state : t.gen.state = .idle ∨ t.gen.state = .held ∨ t.gen.state = .moving

/-- What settles from a state with the same Drive Port and jog state. -/
theorem State.Settles.of {s s' t : State} (h : s'.Settles t) (hd : s'.drive = s.drive) (hj : s'.gen.jog = s.gen.jog) :
    s.Settles t := ⟨h.drive.trans hd, h.jog.trans hj, h.state⟩

/-- A registered generator settles, its jog session closed. -/
theorem tracks_of_closed {s s' t : State} (on : registered s = true) (h : s'.Settles t) (hd : s'.drive = s.drive)
    (closed : s.jogLaw → s'.gen.jog = Jog.closed) : s.Tracks t := by
  obtain ⟨drive, jog, state⟩ := h
  refine tracks_of_registered (by rw [drive, hd]) on ?_ fun law => jogLaw_of_closed ?_ (jog.trans (closed law))
  · rcases state with h | h | h <;> exact registered_of_on h (by simp)
  · rcases state with h | h | h <;> rw [h] <;> nofun

/-- A registered generator settles that has no session open. -/
theorem tracks_of_settles {s t : State} (on : registered s = true) (calm : s.gen.state ≠ .jogging) (h : s.Settles t) :
    s.Tracks t := tracks_of_closed on h rfl fun law => law.2 calm

theorem tracks_of_settles_from {s t : State} {st : GenState} (hs : s.gen.state = st)
    (hst : st ≠ .unregistered ∧ st ≠ .stopped ∧ st ≠ .jogging) (h : s.Settles t) : s.Tracks t :=
  tracks_of_settles (registered_of_on hs ⟨hst.1, hst.2.1⟩) (hs ▸ hst.2.2) h

/-- A move that begins flies, and one that does not leaves the generator. -/
theorem tryBegin_settles (m : Move) (e : Ev) :
    ((tryBegin m e).2 = true → e.st.Settles (tryBegin m e).1.st) ∧ (tryBegin m e).1.st.gen.jog = e.st.gen.jog := by
  obtain ⟨stays, gen⟩ | ⟨-, p, gen⟩ := tryBegin_gen m e
  · exact ⟨fun flies => absurd flies (by rw [stays]; nofun), by rw [gen]⟩
  · exact ⟨fun _ => ⟨by simp, by rw [gen]; rfl, .inr (.inr (by rw [gen]; rfl))⟩, by rw [gen]; rfl⟩

theorem queuePhase_settles (ms : List Move) (e : Ev) : e.st.Settles (queuePhase ms e).st := by
  induction ms generalizing e with
  | nil => exact ⟨by simp, rfl, .inl rfl⟩
  | cons m r ih =>
    have begins := tryBegin_settles m (e.upd fun s => restIn .idle (onGen (fun g => { g with queue := r }) s))
    unfold queuePhase; dsimp only
    split
    · next flies => exact (begins.1 flies).of rfl rfl
    · exact (ih _).of (by simp) begins.2

theorem stackPhase_settles (cs : List Context) (e : Ev) : e.st.Settles (stackPhase cs e).st := by
  induction cs generalizing e with
  | nil => exact (queuePhase_settles _ (e.upd (onGen fun g => { g with stack := [] }))).of rfl rfl
  | cons c r ih =>
    have begins := tryBegin_settles c.move (e.upd (onGen fun g => { g with stack := r }))
    unfold stackPhase; dsimp only
    split
    · exact ⟨rfl, rfl, .inr (.inl rfl)⟩
    · split
      · next flies => exact (begins.1 flies).of rfl rfl
      · exact (ih _).of (by simp) begins.2

theorem advance_settles (e : Ev) : e.st.Settles (advance e).st := by
  unfold advance
  split
  · exact stackPhase_settles _ e
  · next m _ =>
    have begins := tryBegin_settles m (e.upd (onGen fun g => { g with waiting := none }))
    dsimp only
    split
    · next flies => exact (begins.1 flies).of rfl rfl
    · exact (stackPhase_settles _ _).of (by simp) begins.2

/-- The resolution begins an exit, or the succession goes on from item 2 (R84, R87, R107). -/
theorem resolved_settles (e : Ev) :
    e.st.Settles
      (if (resolveArming e).st.envelope.arming.isEmpty then advance (resolveArming e) else resolveArming e).st := by
  obtain ⟨drive, jog, outcome⟩ := resolveArming_outcome e
  split
  · exact (advance_settles _).of drive jog
  · next armed =>
    have flies := outcome.resolve_right fun none => armed (by rw [none]; rfl)
    exact ⟨drive, jog, .inr (.inr flies)⟩

theorem succession_settles (e : Ev) : e.st.Settles (succession e).st := by
  unfold succession; dsimp only
  split
  · exact advance_settles e
  · exact resolved_settles e

/-! The ends of moves and of a session (R87, R101, R106, R110, R130). -/

theorem complete_settles (f : Flight) (e : Ev) : e.st.Settles (complete f e).st := by
  unfold complete
  split
  · exact (resolved_settles ((arrive f e).upd (onEnvelope fun v => { v with exit := none }))).of rfl rfl
  · exact (succession_settles (arrive f e)).of rfl rfl

theorem endBraking_tracks (f : Flight) (atTarget : Bool) {e : Ev} (hs : e.st.gen.state = .braking) :
    e.st.Tracks (endBraking f atTarget e).st := by
  have settled {e' : Ev} (hd : e'.st.drive = e.st.drive) (hj : e'.st.gen.jog = e.st.gen.jog) :
      e.st.Tracks (succession e').st := tracks_of_settles_from hs (by simp) ((succession_settles e').of hd hj)
  have drops (r : DropReason) : e.st.Tracks (dropBraked f r e).st :=
    settled (by rw [raiseDropped_st]; rfl) (by rw [raiseDropped_st]; rfl)
  unfold endBraking
  repeat' split
  · exact drops .cut
  · exact drops .flush
  · exact settled (e' := arrive f e) rfl rfl
  · exact settled rfl rfl
  · exact settled (e' := arrive f e) rfl rfl
  · exact settled rfl rfl
  · exact enterHalted_tracks (registered_of_on hs (by simp))
  · exact .refl _

/-- The session closes before the succession (R130). -/
theorem endJog_tracks {e : Ev} (on : registered e.st = true) : e.st.Tracks (endJog e).st :=
  tracks_of_closed on (succession_settles (e.upd (onGen fun g => { g with jog := Jog.closed }))) rfl fun _ => rfl

/-! The entry to UNREGISTERED (R91, R118) and the lifting of the arming hold (R83). -/

theorem enterUnregistered_tracks (b : Bool) (s : State) (e : Ev) : s.Tracks (enterUnregistered b e).st := by
  unfold enterUnregistered; dsimp only
  generalize hr : raiseDropped _ _ _ = e1
  obtain ⟨drive, state, jog⟩ := foldl_makeActive_kept b (armingIds e1.st) e1
  refine tracks_of_braked ?_ ?_ ?_
  · rw [drive, ← hr, raiseDropped_st]; rfl
  · rw [registered_of_state state, ← hr, raiseDropped_st]; rfl
  · rw [jog, ← hr, raiseDropped_st]; rfl

theorem liftHold_tracks (e : Ev) : e.st.Tracks (liftHold e).st := by
  unfold liftHold
  repeat' split
  · next hs => exact tracks_of_settles_from hs (by simp) (advance_settles e)
  · next hs => exact tracks_of_settles_from hs (by simp) (advance_settles e)
  all_goals exact .refl _

end Sys2Proof.Machine
end

