-- ==== Sys2Proof/Proofs/BrakeAndJogSteps.lean ====
section
/-! SUPPORT. The laws of the BRAKE line (R164) and of the jog session (R124) through the steps and the table operations. -/

namespace Sys2Proof.Machine

/-! Sendings and offers (R98, R145, R162). -/

theorem sendTo_tracks (k : Winch → Sent) (e : Ev) (w : Winch) : e.st.Tracks (sendTo k e w).st := by
  have sent : e.st.Tracks (e.upd (onChannel w (Channel.send (k w)))).st := tracks_of_same rfl rfl rfl
  unfold sendTo; dsimp only
  split
  · exact sent.trans (reportFault_trip_tracks _ _ _)
  · exact sent

theorem sendAll_tracks (k : Winch → Sent) (e : Ev) : e.st.Tracks (sendAll k e).st :=
  foldl_tracks _ (sendTo_tracks k) _ e

theorem sendSet_tracks (l : PerWinch RopeLength) (e : Ev) : e.st.Tracks (sendSet l e).st := by
  unfold sendSet; dsimp only
  generalize hc : e.upd (onDrive _) = e1
  have commanded : e.st.Tracks e1.st := by rw [← hc]; exact tracks_of_same rfl rfl rfl
  have sent := commanded.trans (sendAll_tracks (fun w => .length (l.get w).prev) e1)
  generalize sendAll _ e1 = e2 at sent ⊢
  exact sent.trans (tracks_of_same rfl rfl rfl)

theorem deliver_tracks (sp : Span) (p : Vec3) (e : Ev) : e.st.Tracks (deliver sp p e).1.st := by
  have raised (hit : Winch → Bool) : e.st.Tracks (raiseWinches .stretchClamp hit e).st :=
    tracks_of_kept (by simp) (by simp)
  unfold deliver lengthOffer; dsimp only
  split
  · next o ho =>
    split at ho <;> cases ho
    exact (raised _).trans (reportFault_quickStop_tracks ..)
  · next e1 l ho =>
    have kept : e.st.Tracks e1.st := by
      split at ho <;> cases ho
      exact tracks_of_kept (by simp) (by simp)
    have sent := sendSet_tracks l e1
    generalize sendSet l e1 = e2 at sent ⊢
    exact (kept.trans sent).trans (tracks_of_same rfl rfl rfl)

/-- An offer is accepted only while the sending leaves the generator registered. -/
theorem registered_of_deliver {sp : Span} {p : Vec3} {e e' : Ev} (h : deliver sp p e = (e', true)) :
    registered e'.st = true := by
  unfold deliver at h
  split at h
  · cases h
  · obtain ⟨rfl, on⟩ := Prod.ext_iff.1 h
    exact on

theorem candidateCheck_tracks (sp : Span) (p : Vec3) (e : Ev) : e.st.Tracks (candidateCheck sp p e).1.st := by
  have read {ids : List Nat} {n : Nat} {e' : Ev} {o : Option Nat} (hm : motionRead ids (readCell n e) = (e', o)) :
      e.st.Tracks e'.st :=
    tracks_of_kept ((gen_of_motionRead hm).trans (by simp)) ((drive_of_motionRead hm).trans (by simp))
  unfold candidateCheck; dsimp only
  split
  · split
    · next hm => exact (read hm).trans (reportFault_quickStop_tracks ..)
    · next hm => exact read hm
  · exact .refl _

theorem offer_tracks (sp : Span) (p : Vec3) (e : Ev) : e.st.Tracks (offer sp p e).1.st := by
  have checked := candidateCheck_tracks sp p e
  unfold offer
  generalize candidateCheck sp p e = c at checked ⊢
  match c with
  | (e1, .passes) => exact checked.trans (deliver_tracks sp p e1)
  | (e1, .fails) => exact checked.trans (reportFault_quickStop_tracks ..)
  | (e1, .abandoned) => exact checked

theorem tracks_of_offer {sp : Span} {p : Vec3} {e e' : Ev} {b : Bool} (h : offer sp p e = (e', b)) : e.st.Tracks e'.st := by
  simpa [h] using offer_tracks sp p e

/-! Steps (R108 to R110, R127 to R134). -/

theorem tracks_of_motionRead {ids : List Nat} {e e' : Ev} {o : Option Nat} (h : motionRead ids e = (e', o)) :
    e.st.Tracks e'.st := tracks_of_kept (gen_of_motionRead h) (drive_of_motionRead h)

/-- What follows the commit of a generator in MOVING. -/
theorem afterMove_tracks (f : Flight) (v : Nat) {e : Ev} (hs : e.st.gen.state = .moving) :
    e.st.Tracks (afterMove f v e).st := by
  unfold afterMove; dsimp only
  split
  · next hm => exact (tracks_of_motionRead hm).trans (reportFault_quickStop_tracks ..)
  · next e1 hm =>
    have moving : e1.st.gen.state = .moving := by rw [gen_of_motionRead hm, hs]
    refine (tracks_of_motionRead hm).trans ?_
    split
    · refine tracks_of_settles_from moving (by simp) ((complete_settles f _).of ?_ ?_)
      all_goals
        repeat' split
        all_goals rfl
    · repeat' split
      all_goals exact .refl _

theorem commitMove_tracks (f : Flight) (d v : Nat) (s : State) : s.Tracks (commitMove f d v s) :=
  tracks_of_same rfl rfl rfl

theorem moveStep_tracks (sp : Span) (f : Flight) {e : Ev} (hs : e.st.gen.state = .moving) :
    e.st.Tracks (moveStep sp f e).st := by
  unfold moveStep; dsimp only
  split
  · next hm => exact (tracks_of_motionRead hm).trans (reportFault_quickStop_tracks ..)
  · next e1 hm =>
    refine (tracks_of_motionRead hm).trans ?_
    generalize moveSpeed _ _ _ _ = v
    generalize min (f.s + v) f.dist = d
    split
    · next ho => exact tracks_of_offer ho
    · next e2 ho =>
      have moving : e2.st.gen.state = .moving := by rw [offer_accepted ho, gen_of_motionRead hm, hs]
      exact ((tracks_of_offer ho).trans (commitMove_tracks f d v e2.st)).trans
        (afterMove_tracks { f with s := d } v (e := e2.upd (commitMove f d v)) moving)

theorem brakeStep_tracks (sp : Span) (f : Flight) {e : Ev} (hs : e.st.gen.state = .braking) :
    e.st.Tracks (brakeStep sp f e).st := by
  have committed {p : Vec3} {e1 : Ev} (ho : offer sp p e = (e1, true)) (d v : Nat) :
      e.st.Tracks (commitMove f d v e1.st) ∧ (commitMove f d v e1.st).gen.state = .braking :=
    ⟨(tracks_of_offer ho).trans (commitMove_tracks ..), (congrArg Generator.state (offer_accepted ho)).trans hs⟩
  unfold brakeStep; dsimp only
  split
  · split
    · next ho => exact tracks_of_offer ho
    · next e1 ho =>
      obtain ⟨tracks, braking⟩ := committed ho f.s 0
      exact tracks.trans (endBraking_tracks f false (e := e1.upd (commitMove f f.s 0)) braking)
  · split
    · next ho => exact tracks_of_offer ho
    · next e1 ho =>
      obtain ⟨tracks, braking⟩ :=
        committed ho (min (f.s + (e.st.gen.v - sp.brakeAccel)) f.dist) (e.st.gen.v - sp.brakeAccel)
      split
      · exact tracks.trans (endBraking_tracks _ true (e := e1.upd (commitMove f _ _)) braking)
      · exact tracks

/-- A slide that finds a velocity leaves the generator; one that is abandoned has taken its quick stop (R129, R185). -/
theorem slide_tracks (sp : Span) (p : Vec3) (us : List Vec3) (e : Ev) :
    e.st.Tracks (slide sp p us e).1.st ∧ ((slide sp p us e).2 ≠ none → (slide sp p us e).1.st.gen = e.st.gen) := by
  induction us generalizing e with
  | nil =>
    have tracks := candidateCheck_tracks sp p e
    obtain ⟨-, kept⟩ := candidateCheck_follows sp p e
    unfold slide
    generalize candidateCheck sp p e = c at tracks kept ⊢
    match c with
    | (e1, .passes) => exact ⟨tracks, fun _ => kept nofun⟩
    | (e1, .fails) => exact ⟨tracks, fun _ => kept nofun⟩
    | (e1, .abandoned) => exact ⟨tracks, fun h => absurd rfl h⟩
  | cons u us ih =>
    have tracks := candidateCheck_tracks sp (p.add u) e
    obtain ⟨-, kept⟩ := candidateCheck_follows sp (p.add u) e
    unfold slide
    generalize candidateCheck sp (p.add u) e = c at tracks kept ⊢
    match c with
    | (e1, .passes) => exact ⟨tracks, fun _ => kept nofun⟩
    | (e1, .fails) => exact ⟨tracks.trans (ih e1).1, fun h => ((ih e1).2 h).trans (kept nofun)⟩
    | (e1, .abandoned) => exact ⟨tracks, fun h => absurd rfl h⟩

theorem afterJog_tracks {e : Ev} (on : registered e.st = true) : e.st.Tracks (afterJog e).st := by
  unfold afterJog
  repeat' split
  · exact enterHalted_tracks on
  · exact endJog_tracks on
  · exact endJog_tracks on
  · exact endJog_tracks on
  · exact .refl _
  · exact .refl _

/-- A change of an open session that keeps it open. -/
theorem jog_tracks {f : Jog → Jog} (hf : ∀ j, (f j).isOpen = j.isOpen) {s : State} (hs : s.gen.state = .jogging) :
    s.Tracks (onGen (fun g => { g with jog := f g.jog }) s) :=
  ⟨id, fun law => ⟨fun h => (hf s.gen.jog).trans (law.1 h), fun h => absurd hs h⟩⟩

theorem jogOffer_tracks (sp : Span) (u : Vec3) {e : Ev} (hs : e.st.gen.state = .jogging) :
    e.st.Tracks (jogOffer sp u e).st := by
  obtain ⟨slid, kept⟩ := slide_tracks sp (posOf e.st) (slideVariants u) e
  unfold jogOffer; dsimp only
  generalize slide sp (posOf e.st) (slideVariants u) e = c at slid kept ⊢
  match c with
  | (e1, none) => exact slid
  | (e1, some u') =>
    have delivered := slid.trans (deliver_tracks sp ((posOf e.st).add u') e1)
    dsimp only
    split
    · next hd => rwa [hd] at delivered
    · next e2 hd =>
      rw [hd] at delivered
      have accepted := (deliver_offered sp ((posOf e.st).add u') e1).accepted
      rw [hd] at accepted
      have jogging : e2.st.gen.state = .jogging := by rw [accepted rfl, kept nofun, hs]
      have on := registered_of_deliver hd
      have committed := jog_tracks (f := fun j => { j with velocity := u' }) (fun _ => rfl) jogging
      exact (delivered.trans committed).trans
        (afterJog_tracks (e := e2.upd (onGen fun g => { g with jog := { g.jog with velocity := u' } })) on)

theorem jogStep_tracks (sp : Span) {e : Ev} (hs : e.st.gen.state = .jogging) : e.st.Tracks (jogStep sp e).st := by
  unfold jogStep; dsimp only
  split
  · exact jogOffer_tracks sp _ hs
  · split
    · next hm => exact (tracks_of_motionRead hm).trans (reportFault_quickStop_tracks ..)
    · next e1 hm =>
      have jogging : e1.st.gen.state = .jogging := by rw [gen_of_motionRead hm, hs]
      refine (tracks_of_motionRead hm).trans ?_
      split
      · exact jogOffer_tracks sp _ jogging
      · split
        · exact jogOffer_tracks sp _ (e := e1.raise ..) jogging
        · exact jogOffer_tracks sp _ jogging

theorem pathStep_tracks (sp : Span) (e : Ev) : e.st.Tracks (pathStep sp e).st := by
  unfold pathStep
  split
  · exact .refl _
  · exact .refl _
  · exact offer_tracks sp (posOf e.st) e
  · exact offer_tracks sp (posOf e.st) e
  · exact offer_tracks sp (posOf e.st) e
  · next hs =>
    split
    · exact moveStep_tracks sp _ hs
    · exact .refl _
  · next hs =>
    split
    · exact brakeStep_tracks sp _ hs
    · exact .refl _
  · next hs => exact jogStep_tracks sp hs

/-! The decision on a new box (R26, R31, R32, R80 to R82, R133). -/

/-- A jog is braked in JOGGING alone (R80, R133). -/
theorem armingDecision_brakeJog {s : State} {b : Option Box} (h : (armingDecision s b).order = .brakeJog) :
    s.gen.state = .jogging := by
  have path (f : Flight) (v ab : Nat) (inside : Bool) (entry : Option Nat) {o : Order} (ho : o ≠ .brakeJog) :
      (decidePath f v ab inside entry o).order ≠ .brakeJog := by
    obtain order | order := decidePath_order f v ab inside entry o <;> rw [order]
    · nofun
    · exact ho
  unfold armingDecision at h; dsimp only at h
  cases hs : s.gen.state <;> rw [hs] at h <;> dsimp only at h
  case moving =>
    repeat' split at h
    · cases h
    · cases h
    · cases h
    · exact absurd h (path _ _ _ _ _ nofun)
  case braking =>
    split at h
    · cases h
    · exact absurd h (path _ _ _ _ _ nofun)
  all_goals
    revert h
    try split
    all_goals nofun

/-- The order of a decision suits the state in which it is given (R81, R133). -/
theorem giveOrder_tracks {s : State} {b : Option Box} {o : Order} (h : (armingDecision s b).order = o) :
    s.Tracks (giveOrder o s) := by
  cases o with
  | nothing => exact .refl _
  | cut => exact brakeMove_tracks .cut (.inl (armingDecision_cut h))
  | brakeJog => exact brakeJog_tracks .zone (armingDecision_brakeJog h)

/-- An exit begins at once in IDLE and HELD (R82). -/
theorem beginExit_tracks {s t : State} {b : Option Box} (h : armingDecision s b = .planNow) (hg : t.gen = s.gen)
    (hd : t.drive = s.drive) (i : Nat) (p : Vec3) : s.Tracks (beginExit i p t) := by
  have settles : t.Settles (beginExit i p t) := ⟨rfl, rfl, .inr (.inr rfl)⟩
  obtain hs | hs := armingDecision_planNow h
  all_goals exact tracks_of_settles_from hs (by simp) (settles.of hd (by rw [hg]))

/-! The operations of the Zone Table (R26, R31, R32, R48). -/

/-- An activation tracks the state of the event it is given, however that came about. -/
theorem activationEffects_tracks {s : State} {e : Ev} (h : s.Tracks e.st) (i : Nat) (a : Bool) :
    s.Tracks (activationEffects i a e).st :=
  h.trans (tracks_of_same (by simp) (by simp) (by simp))

theorem endOp_tracks (op : TableOp) (e : Ev) : e.st.Tracks (endOp op e).st := tracks_of_kept (by simp) (by simp)

theorem endAdd_tracks (op : TableOp) (id : Nat) (e : Ev) : e.st.Tracks (endAdd op id e).st := by
  have read : e.st.Tracks (readZone e id).st := tracks_of_kept (by simp) (by simp)
  unfold endAdd; dsimp only
  generalize readZone e id = e1 at read ⊢
  refine read.trans ?_
  split
  · exact endOp_tracks op e1
  · split
    · exact (activationEffects_tracks (tracks_of_kept (by simp) (by simp)) _ _).trans (endOp_tracks ..)
    · split
      · next o hd =>
        have ordered : e1.st.Tracks (giveOrder o e1.st) := giveOrder_tracks (congrArg Decision.order hd)
        refine (activationEffects_tracks ?_ _ _).trans (endOp_tracks ..)
        exact ordered.trans (tracks_of_kept (by simp) (by simp))
      · next c o hd =>
        have ordered : e1.st.Tracks (giveOrder o e1.st) := giveOrder_tracks (congrArg Decision.order hd)
        refine State.Tracks.trans ?_ (endOp_tracks ..)
        exact ordered.trans (tracks_of_kept (by simp) (by simp))
      · next hd =>
        split
        · refine State.Tracks.trans ?_ (endOp_tracks ..)
          exact beginExit_tracks hd (by simp) (by simp) _ _
        · exact tracks_of_kept (by simp) (by simp)

theorem amendActive_tracks (op : TableOp) (id : Nat) (z : Zone) (p : PendingBox) {o : Order} {e : Ev}
    (h : e.st.Tracks (giveOrder o e.st)) : e.st.Tracks (amendActive op id z p o e).st := by
  unfold amendActive; dsimp only
  refine (activationEffects_tracks ?_ id false).trans (tracks_of_kept (startRemoval_gen ..) (startRemoval_drive ..))
  exact h.trans (tracks_of_kept (by simp) (by simp))

theorem endAmend_tracks (op : TableOp) (id : Nat) (e : Ev) : e.st.Tracks (endAmend op id e).st := by
  have read : e.st.Tracks (readZone e id).st := tracks_of_kept (by simp) (by simp)
  unfold endAmend; dsimp only
  generalize readZone e id = e1 at read ⊢
  refine read.trans ?_
  split
  · exact endOp_tracks op e1
  · split
    · exact endOp_tracks op e1
    · split
      · exact amendActive_tracks _ _ _ _ (.refl _)
      · split
        · next o hd => exact amendActive_tracks _ _ _ _ (giveOrder_tracks (congrArg Decision.order hd))
        · next c o hd =>
          have ordered : e1.st.Tracks (giveOrder o e1.st) := giveOrder_tracks (congrArg Decision.order hd)
          refine State.Tracks.trans ?_ (endOp_tracks ..)
          exact ordered.trans (tracks_of_kept (by simp) (by simp))
        · next hd =>
          split
          · refine State.Tracks.trans ?_ (endOp_tracks ..)
            exact beginExit_tracks hd (by simp) (by simp) _ _
          · exact tracks_of_kept (by simp) (by simp)

theorem endIndexing_tracks (op : TableOp) (e : Ev) : e.st.Tracks (endIndexing op e).st := by
  unfold endIndexing; dsimp only
  split
  · exact endAdd_tracks _ _ e
  · exact endAmend_tracks _ _ e
  all_goals exact endOp_tracks op e

theorem endPhase_tracks (op : TableOp) (e : Ev) : e.st.Tracks (endPhase op e).st := by
  unfold endPhase
  split
  · exact endIndexing_tracks op e
  all_goals exact endOp_tracks op e

theorem startPhase_tracks {op : TableOp} {e : Ev} {f : TableOp → Ev → Ev}
    (hf : ∀ (op : TableOp) (e : Ev), e.st.Tracks (f op e).st) : e.st.Tracks (startPhase op e f).st := by
  unfold startPhase
  split
  · exact tracks_of_kept rfl rfl
  · exact (hf op _).of rfl rfl rfl

theorem cellVisitEvent_tracks (e : Ev) : e.st.Tracks (cellVisitEvent e).st := by
  unfold cellVisitEvent; dsimp only
  split
  · exact .refl _
  · next op _ =>
    have visited : e.st.Tracks (visit op e).st := tracks_of_kept (by simp) (by simp)
    split
    · exact visited.trans (tracks_of_kept rfl rfl)
    · exact visited.trans (endPhase_tracks _ _)

end Sys2Proof.Machine
end

