-- ==== Sys2Proof/Proofs/BrakeAndJogCommands.lean ====
section
/-! SUPPORT. The laws of the BRAKE line (R164) and of the jog session (R124) through the requests and the events, and with them
every command. -/

namespace Sys2Proof.Machine

/-- An act that keeps each of the two laws. -/
def KeepsBrakeAndJog (act : Ev → Ev) : Prop := ∀ e : Ev, e.st.Tracks (act e).st

theorem keepsBrakeAndJog_of_kept {act : Ev → Ev} (hg : ∀ e, (act e).st.gen = e.st.gen)
    (hd : ∀ e, (act e).st.drive = e.st.drive) : KeepsBrakeAndJog act :=
  fun e => tracks_of_kept (hg e) (hd e)

/-! The requests of the Zone Table (R23 to R38). -/

theorem zoneAdd_tracks (l : Link) (f : ZoneAddFields) : KeepsBrakeAndJog (zoneAdd l f) := by
  intro e
  unfold zoneAdd; dsimp only
  split
  · exact .refl _
  · next sp _ =>
    have counted : e.st.Tracks (firstFull none (rangeCells (planRange sp (decide (f.kind = 2)) f.box)) e).1.st :=
      tracks_of_kept (by simp) (by simp)
    repeat' split
    · exact .refl _
    · exact .refl _
    · next hc => rwa [hc] at counted
    · next hc _ => rwa [hc] at counted
    · next e1 hc _ =>
      rw [hc] at counted
      exact counted.trans ((startPhase_tracks endIndexing_tracks).of rfl rfl rfl)

theorem amendBox_tracks (l : Link) (z : Zone) (f : ZoneAmendFields) (b : Box) : KeepsBrakeAndJog (amendBox l z f b) := by
  intro e
  unfold amendBox
  split
  · exact .refl _
  · next sp _ =>
    have counted : e.st.Tracks (firstFull (some f.id) (rangeCells (planRange sp z.isSlow b)) e).1.st :=
      tracks_of_kept (by simp) (by simp)
    repeat' split
    · next hc => rwa [hc] at counted
    · next hc _ => rwa [hc] at counted
    · next hc _ =>
      rw [hc] at counted
      exact counted.trans ((startPhase_tracks endIndexing_tracks).of rfl rfl rfl)

theorem zoneAmend_tracks (l : Link) (f : ZoneAmendFields) : KeepsBrakeAndJog (zoneAmend l f) := by
  intro e
  have read : e.st.Tracks (readZone e f.id).st := tracks_of_kept (by simp) (by simp)
  unfold zoneAmend; dsimp only
  split
  · exact .refl _
  · refine read.trans ?_
    repeat' split
    case h_2 => exact amendBox_tracks l _ f _ _
    all_goals exact tracks_of_kept (by simp) (by simp)

theorem zoneRetire_tracks (l : Link) (f : RetireFields) : KeepsBrakeAndJog (zoneRetire l f) := by
  intro e
  have read : e.st.Tracks (readZone e f.id).st := tracks_of_kept (by simp) (by simp)
  have lifts {e' : Ev} (hg : e'.st.gen = e.st.gen) (hd : e'.st.drive = e.st.drive) : e.st.Tracks (liftHold e').st :=
    (tracks_of_kept hg hd).trans (liftHold_tracks e')
  unfold zoneRetire; dsimp only
  repeat' split
  · exact .refl _
  · exact read
  · exact read
  · exact read
  · exact read
  · exact lifts (by simp [startPhase_gen _ _ _ endOp_gen]) (by simp [startPhase_drive _ _ _ endOp_drive])
  · exact tracks_of_kept (by simp [startPhase_gen _ _ _ endOp_gen]) (by simp [startPhase_drive _ _ _ endOp_drive])

/-! The motion requests (R102 to R104, R111 to R114, R125, R126, R131). -/

/-- A move request that R102 does not refuse finds a registered generator, and a priority one no session open. -/
theorem on_of_moveRefusal {priority : Bool} {s : State} (h : moveRefusal priority s = none) :
    registered s = true ∧ (priority = true → s.gen.state ≠ .jogging) := by
  unfold moveRefusal at h
  refine ⟨?_, fun prio hs => ?_⟩
  · by_contra off
    simp [Bool.eq_false_iff.2 off] at h
  · subst prio
    simp only [registered, halting, exitFlying, hs] at h
    revert h
    cases activeSuspect s <;> cases s.envelope.arming <;> simp

theorem admitQueued_tracks (l : Link) (a : Asked) (e : Ev) : e.st.Tracks (admitQueued l a e).st := by
  unfold admitQueued; dsimp only
  split
  · next rest =>
    have idle : e.st.gen.state = .idle := rest.1
    exact tracks_of_settles_from idle (by simp) ((queuePhase_settles _ _).of rfl rfl)
  · exact tracks_of_same rfl rfl rfl

theorem admitPriority_tracks (l : Link) (a : Asked) {e : Ev} (on : registered e.st = true)
    (calm : e.st.gen.state ≠ .jogging) : e.st.Tracks (admitPriority l a e).st := by
  unfold admitPriority; dsimp only
  split
  · next moving => exact (brakeMove_tracks .priority (.inl moving)).of rfl rfl rfl
  · exact tracks_of_settles on calm ((advance_settles _).of rfl rfl)

theorem admitMove_tracks (priority : Bool) (l : Link) (a : Asked) {e : Ev} (on : registered e.st = true)
    (calm : priority = true → e.st.gen.state ≠ .jogging) : e.st.Tracks (admitMove priority l a e).st := by
  have kept : (readZones e).st.gen = e.st.gen := readZones_gen e
  have read : e.st.Tracks (readZones e).st := tracks_of_kept kept (by simp)
  rw [← registered_of_state (congrArg Generator.state kept)] at on
  rw [← kept] at calm
  unfold admitMove; dsimp only
  generalize readZones e = e1 at read on calm ⊢
  split
  · exact .refl _
  · refine read.trans ?_
    cases priority with
    | true =>
      simp only [if_true]
      split
      · exact admitPriority_tracks l a on (calm rfl)
      · exact .refl _
    | false =>
      simp only [Bool.false_eq_true, if_false]
      split
      · exact admitQueued_tracks l a e1
      · exact .refl _

theorem gotoRequest_tracks (priority : Bool) (l : Link) (f : GotoFields) :
    KeepsBrakeAndJog (gotoRequest priority l f) := by
  intro e
  unfold gotoRequest
  repeat' split
  · exact .refl _
  · exact .refl _
  · next hr =>
    obtain ⟨on, calm⟩ := on_of_moveRefusal hr
    exact admitMove_tracks priority l _ on calm

theorem recallRequest_tracks (priority : Bool) (l : Link) (f : RecallFields) :
    KeepsBrakeAndJog (recallRequest priority l f) := by
  intro e
  unfold recallRequest
  repeat' split
  · exact .refl _
  · exact .refl _
  · next hc => rw [refuse_st]; exact tracks_of_kept (gen_of_resolveCue hc) (drive_of_resolveCue hc)
  · next hr _ e1 c hc =>
    obtain ⟨on, calm⟩ := on_of_moveRefusal hr
    have kept := gen_of_resolveCue hc
    refine (tracks_of_kept kept (drive_of_resolveCue hc)).trans (admitMove_tracks priority l _ ?_ ?_)
    · rwa [registered_of_state (congrArg Generator.state kept)]
    · rwa [kept]

theorem hold_tracks (l : Link) : KeepsBrakeAndJog (hold l) := by
  intro e
  unfold hold
  repeat' split
  case isFalse.isFalse =>
    next moving _ => exact brakeMove_tracks .hold (.inl (Decidable.not_not.1 fun h => moving (.inl h)))
  all_goals exact .refl _

/-- RESUME goes on from the stack, in HELD (R112). -/
theorem resume_tracks (l : Link) : KeepsBrakeAndJog (resume l) := by
  intro e
  unfold resume; dsimp only
  split
  · exact .refl _
  · split
    · exact .refl _
    · next held =>
      have held : e.st.gen.state = .held := Decidable.not_not.1 held
      split
      · exact .refl _
      · split
        · exact .refl _
        · split
          · exact tracks_of_settles_from held (by simp) ((stackPhase_settles [] (e.ok l false [le16 0])).of rfl rfl)
          · next c r _ =>
            have pops := stackPhase_settles (⟨c.move, .auto⟩ :: r) (e.ok l false [le16 c.move.id])
            simp only [stackPhase] at pops
            exact tracks_of_settles_from held (by simp) (pops.of rfl rfl)

theorem flushQueue_tracks (l : Link) (c : FlushScope) : KeepsBrakeAndJog (flushQueue l c) := by
  intro e
  cases c with
  | neither n => exact .refl _
  | queue =>
    simp only [flushQueue, raiseDropped_st]
    exact tracks_of_same rfl rfl rfl

theorem flushEffect_tracks (s : State) : s.Tracks (flushEffect s) := by
  unfold flushEffect
  split
  · next hs =>
    split
    · exact .refl _
    · exact brakeMove_tracks .flush (.inl hs)
  · next hs =>
    split
    · exact brakeMove_tracks .flush (.inr hs)
    · exact .refl _
  · next hs =>
    have rests : s.Settles (restIn .idle s) := ⟨rfl, rfl, .inl rfl⟩
    exact tracks_of_settles_from hs (by simp) rests
  · next hs => exact brakeJog_tracks .flush hs
  all_goals exact .refl _

theorem flushAll_tracks (l : Link) : KeepsBrakeAndJog (flushAll l) := by
  intro e
  simp only [flushAll, raiseDropped_st, upd_st]
  exact (flushEffect_tracks _).of rfl rfl rfl

/-- A session opens as the generator becomes JOGGING, and stays open while it is (R126). -/
theorem takeJog_tracks (r : Vec3) {s : State} (on : registered s = true) : s.Tracks (onGen (takeJog r) s) := by
  by_cases hs : s.gen.state = .jogging
  · have request := jog_tracks (f := fun j => { j with request := r, deadman := some 100 }) (fun _ => rfl) hs
    simpa only [onGen, takeJog, hs, if_true] using request
  · by_cases hr : r = Vec3.zero
    · simpa [onGen, takeJog, hs, hr] using State.Tracks.refl s
    · refine tracks_of_registered rfl on ?_ fun _ => ?_
      · exact registered_of_on (st := .jogging) (by simp [takeJog, hs, hr]) (by simp)
      · simp [State.jogLaw, takeJog, hs, hr]

theorem jog_keeps (l : Link) (v : Vec3) : KeepsBrakeAndJog (jog l v) := by
  intro e
  unfold jog; dsimp only
  split
  · exact .refl _
  · next on =>
    repeat' split
    case isFalse.isFalse => exact takeJog_tracks _ (by simpa using on)
    all_goals exact .refl _

/-- The timer runs in a session alone. -/
theorem deadman_tracks : KeepsBrakeAndJog deadman := by
  intro e
  unfold deadman
  split
  · exact .refl _
  · next n hn =>
    refine ⟨id, fun law => ⟨fun h => law.1 h, fun h => ?_⟩⟩
    rw [law.2 h] at hn
    cases hn

/-! REGISTER, RELEASE and SET_SPAN (R9 to R11, R119 to R122). -/

/-- BRAKE is released as the generator becomes IDLE (R120, R122, R164). -/
theorem released_tracks {s t : State} (hb : t.drive.brake = false) (ht : t.gen.state = .idle) (hj : t.gen.jog = s.gen.jog)
    (calm : s.gen.state ≠ .jogging) : s.Tracks t :=
  ⟨fun _ => by rw [brakeLaw_iff, hb, registered_of_on ht (by simp)]; rfl,
    fun law => jogLaw_of_closed (by rw [ht]; nofun) (hj.trans (law.2 calm))⟩

theorem register_tracks (l : Link) (p : Vec3) : KeepsBrakeAndJog (register l p) := by
  intro e
  have kept : (readZones e).st.gen = e.st.gen := readZones_gen e
  have read : e.st.Tracks (readZones e).st := tracks_of_kept kept (by simp)
  unfold register; dsimp only
  generalize readZones e = e1 at kept read ⊢
  split
  · exact .refl _
  · split
    · exact .refl _
    · next stands =>
      have calm : e1.st.gen.state ≠ .jogging := by
        rw [kept, Decidable.not_not.1 (not_or.1 stands).1]; nofun
      repeat' split
      · exact .refl _
      · exact .refl _
      · exact .refl _
      · exact read
      · exact read.trans (released_tracks rfl rfl rfl calm)
      · exact read

theorem releaseHalted_tracks (l : Link) {e : Ev} (hs : e.st.gen.state = .halted) :
    e.st.Tracks (releaseHalted l e).st :=
  tracks_of_settles_from hs (by simp) ((succession_settles _).of rfl rfl)

theorem releaseStopped_tracks (l : Link) {e : Ev} (hs : e.st.gen.state = .stopped) :
    e.st.Tracks (releaseStopped l e).st := by
  have released : e.st.Tracks (acceptRelease e.st) := released_tracks rfl rfl rfl (by rw [hs]; nofun)
  have idle : (acceptRelease e.st).gen.state = .idle := rfl
  unfold releaseStopped; dsimp only
  split
  · exact released.trans (tracks_of_settles_from idle (by simp) ((succession_settles _).of rfl rfl))
  · exact enterUnregistered_tracks ..

theorem release_tracks (l : Link) : KeepsBrakeAndJog (release l) := by
  intro e
  unfold release
  split
  · next hs =>
    split
    · exact .refl _
    · exact releaseHalted_tracks l hs
  · next hs =>
    split
    · exact .refl _
    · exact releaseStopped_tracks l hs
  all_goals exact .refl _

theorem recomputeBlocked_tracks (e : Ev) : e.st.Tracks (recomputeBlocked e).st := tracks_of_kept (by simp) (by simp)

theorem setSpan_tracks (l : Link) (sp : Span) : KeepsBrakeAndJog (setSpan l sp) := by
  intro e
  unfold setSpan; dsimp only
  repeat' split
  case h_2 => exact (enterUnregistered_tracks false e.st _).trans (recomputeBlocked_tracks _)
  all_goals exact tracks_of_kept (by simp) (by simp)

/-! Events of timers and drives. -/

theorem stepTimer_tracks : KeepsBrakeAndJog stepTimer := by
  intro e
  unfold stepTimer
  split
  · exact pathStep_tracks _ e
  · exact .refl _

theorem holdTimer_tracks : KeepsBrakeAndJog holdTimer := by
  intro e
  have frames : e.st.Tracks (holdFrames e).st := by
    unfold holdFrames
    split
    · exact .refl _
    · exact sendAll_tracks _ e
    · exact sendAll_tracks _ e
  unfold holdTimer
  split
  · exact .refl _
  · generalize holdFrames e = e1 at frames ⊢
    exact frames.trans (tracks_of_same rfl rfl rfl)

theorem monitorTension_tracks (w : Winch) (t : Nat) (e : Ev) : e.st.Tracks (monitorTension w t e).st := by
  have effects (st : TensionStatus) : KeepsBrakeAndJog (tensionEffects w st) := by
    intro e
    have halts (c : FaultClass) : e.st.Tracks (tensionHalt c w e).st := by
      unfold tensionHalt
      split
      · exact reportFault_controlledHalt_tracks _ _ e
      · exact .refl _
    cases st with
    | normal => exact .refl _
    | slack => exact halts _
    | overload => exact halts _
    | critical => exact reportFault_trip_tracks _ _ e
  unfold monitorTension; dsimp only
  split
  · exact .refl _
  · exact (effects _ _).of rfl rfl rfl

theorem judgeDrive_tracks (w : Winch) (b : Bool) (st : DriveStatus) (e : Ev) :
    e.st.Tracks (judgeDrive w b st e).st := by
  unfold judgeDrive
  split
  · exact reportFault_trip_tracks _ _ e
  · exact .refl _

theorem followCheck_tracks (w : Winch) (o : Option Sent) (m : Nat) (e : Ev) :
    e.st.Tracks (followCheck w o m e).st := by
  unfold followCheck
  repeat' split
  · exact reportFault_controlledHalt_tracks _ _ e
  all_goals exact .refl _

theorem takeFeedback_tracks (w : Winch) (f : FeedbackFields) (st : DriveStatus) :
    KeepsBrakeAndJog (takeFeedback w f st) := by
  intro e
  have stored : e.st.Tracks (e.upd (onChannel w fun c => c.store f st)).st := tracks_of_same rfl rfl rfl
  have monitored := stored.trans (monitorTension_tracks w f.tension _)
  unfold takeFeedback; dsimp only
  generalize monitorTension w f.tension _ = e2 at monitored ⊢
  generalize hw : feedIfMoved w _ _ _ e2 = e3
  have fed : e2.st.Tracks e3.st := by rw [← hw]; exact tracks_of_kept (by simp) (by simp)
  have judged := (monitored.trans fed).trans (judgeDrive_tracks w (registered e.st) st e3)
  split
  · exact judged
  · exact judged.trans (followCheck_tracks ..)

theorem feedbackEvent_tracks (w : Winch) (b : Body FeedbackFields) : KeepsBrakeAndJog (feedbackEvent w b) := by
  intro e
  have hunts : e.st.Tracks (e.upd (onDrive fun d => { d with receivers := d.receivers.set w .hunting })).st :=
    tracks_of_same rfl rfl rfl
  unfold feedbackEvent receiveFeedback
  refine hunts.trans ?_
  repeat' split
  · exact .refl _
  · exact .refl _
  · exact takeFeedback_tracks w _ _ _
  · exact .refl _

/-! Request frames and events. -/

theorem refuseBusy_tracks (l : Link) (t k : Byte) (s : State) : s.Tracks (refuseBusy l t k s) := by
  unfold refuseBusy
  split <;> exact tracks_of_kept (by simp) (by simp)

/-- A request frame is passed over or refused, or its act is carried out. -/
theorem request_tracks {α : Type} {k : RequestKind} {r : Req α} {act : α → Ev → Ev} (s : State)
    (h : ∀ a, KeepsBrakeAndJog (act a)) : s.Tracks (request k r act s) := by
  unfold request; dsimp only
  split
  · exact .refl _
  · split
    · exact (refuseBusy_tracks _ _ _ (frameTaken r.link s)).of rfl rfl rfl
    · refine State.Tracks.trans ?_ (finish_tracks _ _)
      have taken : s.Tracks (takeRequest r.link r.tag (kindCode k) (frameTaken r.link s)) := tracks_of_kept rfl rfl
      unfold decideRequest
      split
      · exact taken
      · split
        · exact taken
        · exact taken.trans (h _ (Ev.start _))

theorem runEvent_tracks {act : Ev → Ev} (s : State) (h : KeepsBrakeAndJog act) : s.Tracks (runEvent s act) := by
  unfold runEvent
  split
  · exact .refl _
  · exact (h (Ev.start s)).trans (finish_tracks _ _)

/-- A reset leaves the generator UNREGISTERED and BRAKE asserted (R96, R124, R151). -/
theorem beginReset_tracks (wear : PerWinch WinchWear) (s : State) : s.Tracks (s.beginReset wear) :=
  tracks_of_braked rfl rfl rfl

/-! Every command. -/

/-- After every command both laws hold again. -/
theorem exec_tracks (i : Instr) (s t : State) (h : exec i s = .next t) : s.Tracks t := by
  have tracks {u : State} (hu : s.Tracks u)
      (h : (Host.Outcome.next u : Host.Outcome State Fault Refusal) = .next t) : s.Tracks t := by
    rw [← next_inj h]; exact hu
  have keep {u : State} (hg : u.gen = s.gen) (hd : u.drive = s.drive)
      (h : (Host.Outcome.next u : Host.Outcome State Fault Refusal) = .next t) : s.Tracks t :=
    tracks (tracks_of_kept hg hd) h
  have req {α : Type} {k : RequestKind} {r : Req α} {act : α → Ev → Ev} (ha : ∀ a, KeepsBrakeAndJog (act a))
      (h : (Host.Outcome.next (request k r act s) : Host.Outcome State Fault Refusal) = .next t) : s.Tracks t :=
    tracks (request_tracks s ha) h
  have reqKept {α : Type} {k : RequestKind} {r : Req α} {act : α → Ev → Ev}
      (hg : ∀ a e, (act a e).st.gen = e.st.gen) (hd : ∀ a e, (act a e).st.drive = e.st.drive)
      (h : (Host.Outcome.next (request k r act s) : Host.Outcome State Fault Refusal) = .next t) : s.Tracks t :=
    req (fun a => keepsBrakeAndJog_of_kept (hg a) (hd a)) h
  have query {k : RequestKind} {r : Req Unit} {act : Ev → Ev} (hq : ∀ e, (act e).st = e.st)
      (h : (Host.Outcome.next (request k r (fun _ => act) s) : Host.Outcome State Fault Refusal) = .next t) : s.Tracks t :=
    reqKept (fun _ e => by rw [hq]) (fun _ e => by rw [hq]) h
  have ev {act : Ev → Ev} (ha : KeepsBrakeAndJog act)
      (h : (Host.Outcome.next (runEvent s act) : Host.Outcome State Fault Refusal) = .next t) : s.Tracks t :=
    tracks (runEvent_tracks s ha) h
  match i, h with
  | .powerUp, h => exact tracks (beginReset_tracks _ s) h
  | .resetLine, h => exact tracks (beginReset_tracks _ s) h
  | .zoneAdd r, h => exact req (zoneAdd_tracks r.link) h
  | .zoneAmend r, h => exact req (zoneAmend_tracks r.link) h
  | .zoneRetire r, h => exact req (zoneRetire_tracks r.link) h
  | .zoneQuery r, h => exact reqKept (zoneQuery_gen r.link) (zoneQuery_drive r.link) h
  | .zoneList r, h => exact reqKept (fun _ => zoneList_gen r.link) (fun _ => zoneList_drive r.link) h
  | .pointLookup r, h => exact reqKept (pointLookup_gen r.link) (pointLookup_drive r.link) h
  | .cueStore r, h => exact reqKept (cueStore_gen r.link) (cueStore_drive r.link) h
  | .cueAmend r, h => exact reqKept (cueAmend_gen r.link) (cueAmend_drive r.link) h
  | .cueRetire r, h => exact reqKept (cueRetire_gen r.link) (cueRetire_drive r.link) h
  | .cueQuery r, h => exact reqKept (cueQuery_gen r.link) (cueQuery_drive r.link) h
  | .cueList r, h => exact reqKept (fun _ => cueList_gen r.link) (fun _ => cueList_drive r.link) h
  | .goto r, h => exact req (gotoRequest_tracks false r.link) h
  | .gotoPriority r, h => exact req (gotoRequest_tracks true r.link) h
  | .recall r, h => exact req (recallRequest_tracks false r.link) h
  | .recallPriority r, h => exact req (recallRequest_tracks true r.link) h
  | .jog r, h => exact req (jog_keeps r.link) h
  | .hold r, h => exact req (fun _ => hold_tracks r.link) h
  | .resume r, h => exact req (fun _ => resume_tracks r.link) h
  | .flushQueue r, h => exact req (flushQueue_tracks r.link) h
  | .flushAll r, h => exact req (fun _ => flushAll_tracks r.link) h
  | .register r, h => exact req (register_tracks r.link) h
  | .release r, h => exact req (fun _ => release_tracks r.link) h
  | .motionQuery r, h => exact query (act := motionQuery r.link) (fun _ => rfl) h
  | .setSpan r, h => exact req (setSpan_tracks r.link) h
  | .setLimits r, h => exact reqKept (setLimits_gen r.link) (setLimits_drive r.link) h
  | .lock r, h => exact reqKept (fun _ => lock_gen r.link) (fun _ => lock_drive r.link) h
  | .configQuery r, h => exact query (act := configQuery r.link) (fun _ => rfl) h
  | .tensionQuery r, h => exact query (act := tensionQuery r.link) (fun _ => rfl) h
  | .driveQuery r, h => exact query (act := driveQuery r.link) (fun _ => rfl) h
  | .faultQuery r, h => exact query (act := faultQuery r.link) (fun _ => rfl) h
  | .clearFault r, h => exact reqKept (act := fun _ => clearFault r.link) (fun _ _ => rfl) (fun _ _ => rfl) h
  | .wearQuery r, h => exact reqKept (wearQuery_gen r.link) (wearQuery_drive r.link) h
  | .wearLoad r, h =>
    exact reqKept (act := fun f : WearLoadFields => rewriteWear r.link f.winch f.counters) (fun _ => rewriteWear_gen _ _ _)
      (fun _ => rewriteWear_drive _ _ _) h
  | .wearReset r, h =>
    exact reqKept (fun n => rewriteWear_gen r.link n _) (fun n => rewriteWear_drive r.link n _) h
  | .clearEvents r, h => exact reqKept (clearEvents_gen r.link) (clearEvents_drive r.link) h
  | .setNotices r, h => exact reqKept (setNotices_gen r.link) (setNotices_drive r.link) h
  | .eventQuery r, h => exact query (act := eventQuery r.link) (fun _ => rfl) h
  | .unknownRequest l tag kind, h =>
    simp only [exec, execUnknownRequest] at h
    split at h
    · cases h
    · refine tracks ?_ h
      have taken : s.Tracks (frameTaken l s) := tracks_of_kept rfl rfl
      unfold takeUnknown; dsimp only
      repeat' split
      · exact .refl _
      · exact taken.trans (refuseBusy_tracks ..)
      · exact taken.trans (tracks_of_kept rfl rfl)
  | .consoleFrameDiscard l d, h => refine keep ?_ ?_ h <;> split <;> simp
  | .frameSent l, h => refine keep ?_ ?_ h <;> split <;> simp
  | .stepTimerExpiry, h => exact ev stepTimer_tracks h
  | .holdTimerExpiry, h => exact ev holdTimer_tracks h
  | .oneSecondTimerExpiry, h => exact ev (keepsBrakeAndJog_of_kept oneSecond_gen oneSecond_drive) h
  | .deadmanExpiry, h => exact ev deadman_tracks h
  | .scrubberTimerExpiry, h => exact ev (keepsBrakeAndJog_of_kept scrub_gen scrub_drive) h
  | .cellVisit, h => exact ev cellVisitEvent_tracks h
  | .feedbackFrame w b, h => exact ev (feedbackEvent_tracks w b) h
  | .stopAsserted, h =>
    exact tracks ((runEvent_tracks (setStop true s) trip_tracks).of (s := s) rfl rfl rfl) h
  | .stopReleased, h => exact tracks (u := setStop false s) (tracks_of_same rfl rfl rfl) h
  | .endOfReset, h =>
    refine tracks ?_ h
    split
    · exact tracks_of_same rfl rfl rfl
    · exact .refl _

end Sys2Proof.Machine

section
open Sys2Proof Sys2Proof.Machine

/-- Settles O53: by the cases of `exec_tracks`. -/
theorem brakeAndJogFollowTheGenerator : Obligations.BrakeAndJogFollowTheGenerator :=
  ⟨fun i s t h => (exec_tracks i s t h).brake, fun i s t h => (exec_tracks i s t h).jog⟩

end
end

