-- ==== Sys2Proof/Proofs/JogRequest.lean ====
section
/-! SUPPORT. JOG (R125, R126) and the deadman (R131): what an accepted JOG does to the generator, and its answer. -/

namespace Sys2Proof.Machine

/-- A JOG that R125 does not refuse is taken, and answered with the state after it and the limited vector. -/
theorem jog_accepted {l : Link} {v r : Vec3} {e : Ev} (on : registered e.st = true) (free : jogExcluded e.st = false)
    (sound : activeSuspect e.st = false) (disarmed : e.st.envelope.arming = []) (hr : clampVec (topSpeed e.st) v = r) :
    jog l v e =
      (e.upd (onGen (takeJog r))).ok l (decide (r ≠ v))
        [[byte (takeJog r e.st.gen).state.code], leInt32 r.x, leInt32 r.y, leInt32 r.z] := by
  simp [jog, on, free, sound, disarmed, hr]

/-! What an accepted JOG does (the table of R126). -/

section
variable {r : Vec3} {g : Generator}

theorem takeJog_jogging (h : g.state = .jogging) :
    takeJog r g = { g with jog := { g.jog with request := r, deadman := some 100 } } := if_pos h

theorem takeJog_zero (h : g.state ≠ .jogging) (hr : r = Vec3.zero) : takeJog r g = g := (if_neg h).trans (if_pos hr)

theorem takeJog_opens (h : g.state ≠ .jogging) (hr : r ≠ Vec3.zero) :
    takeJog r g = { g with state := .jogging, jog := ⟨true, r, Vec3.zero, some 100, none⟩ } :=
  (if_neg h).trans (if_neg hr)

end

/-- The deadman's expiry sets the requested velocity to zero, and the timer stays stopped (R131). -/
theorem exec_deadmanExpiry {s : State} {n : Nat} (hr : s.resetting = false) (running : s.gen.jog.deadman = some n) :
    exec .deadmanExpiry s =
      .next (onGen (fun g => { g with jog := { g.jog with request := Vec3.zero, deadman := none } }) s) := by
  have expires : deadman (Ev.start s) =
      (Ev.start s).upd (onGen fun g => { g with jog := { g.jog with request := Vec3.zero, deadman := none } }) := by
    simp only [deadman, start_st, running]
  refine congrArg Host.Outcome.next ((runEvent_running s deadman hr).trans ?_)
  exact (congrArg (finish s.gen.state) expires).trans (finish_quiet s.gen.state _ rfl rfl)

end Sys2Proof.Machine

section
open Sys2Proof Sys2Proof.Machine

/-- Settles O26: the three cases of an accepted JOG by the generator's state and the limited vector. -/
theorem jogSetsTheRequestVector : Obligations.JogSetsTheRequestVector := by
  refine ⟨fun s l tag v sp hfree hsp ha hz => ?_, fun s n => exec_deadmanExpiry⟩
  intro limit r answer
  have limited : clampVec (topSpeed s) v = r := by simp only [topSpeed, hsp]; rfl
  have accepted (on : registered s = true) (free : jogExcluded s = false) :
      jog l v (Ev.start (s.taken l tag 0x0E)) =
        ((Ev.start (s.taken l tag 0x0E)).upd (onGen (takeJog r))).reply l (answer (byte (takeJog r s.gen).state.code)) :=
    jog_accepted (e := Ev.start (s.taken l tag 0x0E)) on free hz ha limited
  have standing (h : s.gen.state = .idle ∨ s.gen.state = .held) :
      registered s = true ∧ jogExcluded s = false ∧ s.gen.state ≠ .jogging := by
    rcases h with h | h <;> simp [registered, jogExcluded, h]
  refine ⟨fun hs hr => ?opens, fun hs hr => ?nothing, fun hs hp => ?follows⟩
  case opens =>
    obtain ⟨on, free, calm⟩ := standing hs
    have opened := takeJog_opens (r := r) calm hr
    have run := request_changes (k := .jog) (onGen (takeJog r)) _ hfree rfl (accepted on free) rfl
      (by rw [onGen_gen, opened]; exact calm.symm)
    simp only [onGen, opened] at run
    exact congrArg Host.Outcome.next run
  case nothing =>
    obtain ⟨on, free, calm⟩ := standing hs
    have same := takeJog_zero (r := r) calm hr
    have run := request_updates (k := .jog) (onGen (takeJog r)) _ hfree rfl (accepted on free) rfl
      (by rw [onGen_gen, same])
    have code : byte s.gen.state.code = if s.gen.state = .idle then 2 else 6 := by rcases hs with h | h <;> rw [h] <;> rfl
    simp only [onGen, same, code] at run
    exact congrArg Host.Outcome.next run
  case follows =>
    have taken := takeJog_jogging (r := r) hs
    have run := request_updates (k := .jog) (onGen (takeJog r)) _ hfree rfl
      (accepted (registered_of_on hs (by simp)) (by simp [jogExcluded, hs, hp])) rfl (by rw [onGen_gen, taken])
    have code : byte s.gen.state.code = 4 := by rw [hs]; rfl
    simp only [onGen, taken, code] at run
    exact congrArg Host.Outcome.next run

end
end

