-- ==== Sys2Proof/Proofs/RopeWear.lean ====
section
/-! SUPPORT. The Rope Wear Table (R174 to R180): what a fed winch counts, what each command does to the table, and the bounds of
its counters and accumulators. -/

namespace Sys2Proof.Machine

/-! A winch that is fed (R176, R177). -/

/-- A winch's wear once a travel at a measured length is fed to it (R176, R177). -/
def WinchWear.fed (old : WinchWear) (measured travel : Nat) : WinchWear where
  counters :=
    if (old.accumulator + travel) / 1000000 = 0 then old.counters
    else
      old.counters.setIfInBounds (wearSegment measured)
        (min 65535 ((old.counters[wearSegment measured]?).getD 0 + (old.accumulator + travel) / 1000000))
  accumulator := (old.accumulator + travel) % 1000000

theorem feedWear_wear (w : Winch) (m travel : Nat) (e : Ev) :
    (feedWear w m travel e).st.wear = e.st.wear.set w ((e.st.wear.get w).fed m travel) := by
  unfold feedWear; dsimp only
  split <;> rfl

/-- Only the counter of the segment at the sheave takes the metres counted, and it stops at 65,535. -/
theorem fed_counters {old : WinchWear} (h : old.law) (m travel : Nat) (k : Fin 64) :
    (old.fed m travel).counters[k] =
      if wearSegment m = k.val then min 65535 (old.counters[k] + (old.accumulator + travel) / 1000000)
      else old.counters[k] := by
  have bound : old.counters[k.val] ≤ 65535 := h.1 k
  by_cases none_counted : (old.accumulator + travel) / 1000000 = 0
  · simp [WinchWear.fed, none_counted, bound]
  · by_cases here : wearSegment m = k.val <;> simp [WinchWear.fed, none_counted, here]

theorem fed_law {old : WinchWear} (h : old.law) (m travel : Nat) : (old.fed m travel).law := by
  refine ⟨fun k => ?_, Nat.mod_lt _ (by decide)⟩
  rw [fed_counters h]
  split
  · exact Nat.min_le_left ..
  · exact h.1 k

theorem counters_le_fed {old : WinchWear} (h : old.law) (m travel : Nat) (k : Fin 64) :
    old.counters[k] ≤ (old.fed m travel).counters[k] := by
  rw [fed_counters h]
  split
  · exact le_min (h.1 k) (Nat.le_add_right ..)
  · exact le_rfl

/-! What leaves the table alone. -/

theorem wear_of_base {s t : State} (h : t.base = s.base) : t.wear = s.wear := by
  obtain ⟨-, -, -, -, -, hwear, -, -⟩ := base_eq h
  exact hwear

theorem finish_wear (g : GenState) (e : Ev) : (finish g e).wear = e.st.wear := by
  rw [finish_console]
  change (settleReads e).st.wear = e.st.wear
  exact wear_of_base (settleReads_base e)

theorem setSpan_wear (l : Link) (sp : Span) (e : Ev) : (setSpan l sp e).st.wear = e.st.wear := by
  have read := wear_of_base (readZones_base e)
  have accept (e : Ev) : (acceptSpan l sp e).st.wear = e.st.wear := by
    rw [acceptSpan, wear_of_base (recomputeBlocked_base _), wear_of_base (enterUnregistered_base _ _)]
    simp
  unfold setSpan; dsimp only
  repeat' split
  all_goals simp [accept, read]
theorem setLimits_wear (l : Link) (v : Limits) (e : Ev) : (setLimits l v e).st.wear = e.st.wear := by
  unfold setLimits
  repeat' split
  all_goals simp
theorem lock_wear (l : Link) (e : Ev) : (lock l e).st.wear = e.st.wear := by unfold lock; split <;> simp
theorem clearEvents_wear (l : Link) (m : BitVec 32) (e : Ev) : (clearEvents l m e).st.wear = e.st.wear := by
  unfold clearEvents; split <;> simp
theorem setNotices_wear (l : Link) (m : BitVec 32) (e : Ev) : (setNotices l m e).st.wear = e.st.wear := by
  unfold setNotices; split <;> simp
theorem scrub_wear (e : Ev) : (scrub e).st.wear = e.st.wear := by
  have item (n : Nat) : (scrubItem n e).st.base = e.st.base := by
    unfold scrubItem
    repeat' split
    all_goals simp
  unfold scrub
  split
  · rfl
  · exact (wear_of_base (item e.st.scrubber.position) :)
theorem refuseBusy_wear (l : Link) (t k : Byte) (s : State) : (refuseBusy l t k s).wear = s.wear := by
  unfold refuseBusy; split <;> simp
theorem takeUnknown_wear (l : Link) (tag kind : Byte) (s : State) : (takeUnknown l tag kind s).wear = s.wear := by
  unfold takeUnknown; dsimp only
  repeat' split
  all_goals simp [refuseBusy_wear]
theorem monitorTension_wear (w : Winch) (t : Nat) (e : Ev) : (monitorTension w t e).st.wear = e.st.wear := by
  have effects (st : TensionStatus) (e : Ev) : (tensionEffects w st e).st.base = e.st.base := by
    cases st <;> simp only [tensionEffects, tensionHalt] <;> (try split) <;> simp
  unfold monitorTension; dsimp only
  split
  · rfl
  · rw [wear_of_base (effects _ _)]; simp

/-! What changes it. -/

/-- A winch of the table is fed. -/
def FedFrom (w : Winch) (p q : PerWinch WinchWear) : Prop :=
  q = p ∨ ∃ m travel, q = p.set w ((p.get w).fed m travel)

/-- A winch of the table has been given counters (R179, R180). -/
def RewrittenFrom (n : Nat) (counters : Vector Nat 64) (p q : PerWinch WinchWear) : Prop :=
  q = p ∨ ∃ w, Winch.ofNumber n = some w ∧ q = p.set w ⟨counters, 0⟩

theorem feedIfMoved_wear (w : Winch) (b : Bool) (o : Option Int) (m : Nat) (e : Ev) :
    FedFrom w e.st.wear (feedIfMoved w b o m e).st.wear := by
  unfold feedIfMoved
  split
  · split
    · exact .inl rfl
    · exact .inr ⟨_, _, feedWear_wear ..⟩
  · exact .inl rfl

theorem takeFeedback_wear (w : Winch) (f : FeedbackFields) (st : DriveStatus) (e : Ev) :
    FedFrom w e.st.wear (takeFeedback w f st e).st.wear := by
  unfold takeFeedback; dsimp only
  have fed := feedIfMoved_wear w e.st.drive.brake (e.st.drive.channels.get w).measured f.measured
    (monitorTension w f.tension (e.upd (onChannel w fun c => c.store f st)))
  rw [monitorTension_wear] at fed
  split
  · rw [wear_of_base (judgeDrive_base ..)]
    exact fed
  · rw [wear_of_base (followCheck_base ..), wear_of_base (judgeDrive_base ..)]
    exact fed

theorem receiveFeedback_wear (w : Winch) (b : Body FeedbackFields) (e : Ev) :
    FedFrom w e.st.wear (receiveFeedback w b e).st.wear := by
  unfold receiveFeedback
  repeat' split
  · exact .inl rfl
  · exact .inl rfl
  · exact takeFeedback_wear ..
  · exact .inl rfl

theorem feedbackEvent_wear (w : Winch) (b : Body FeedbackFields) (e : Ev) :
    FedFrom w e.st.wear (feedbackEvent w b e).st.wear :=
  receiveFeedback_wear w b (e.upd (onDrive fun d => { d with receivers := d.receivers.set w .hunting }))

theorem rewriteWear_wear (l : Link) (n : Nat) (c : Vector Nat 64) (e : Ev) :
    RewrittenFrom n c e.st.wear (rewriteWear l n c e).st.wear := by
  unfold rewriteWear
  split
  · exact .inl rfl
  · next w hw =>
    split
    · exact .inr ⟨w, hw, rfl⟩
    · exact .inl rfl

/-! Every command. -/

/-- A request frame leaves the table alone, or does to it what its act does. -/
theorem request_wear {α : Type} (k : RequestKind) (r : Req α) (act : α → Ev → Ev) (s : State) :
    (request k r act s).wear = s.wear ∨
      ∃ a e, r.body = .fields a ∧ e.st.wear = s.wear ∧ (request k r act s).wear = (act a e).st.wear := by
  unfold request; dsimp only
  split
  · exact .inl rfl
  · split
    · exact .inl (by simp [refuseBusy_wear])
    · simp only [finish_wear, decideRequest]
      split
      · exact .inl rfl
      · split
        · exact .inl rfl
        · next a ha => exact .inr ⟨a, _, ha, rfl, rfl⟩

theorem runEvent_wear (s : State) (act : Ev → Ev) :
    (runEvent s act).wear = s.wear ∨ (runEvent s act).wear = (act (Ev.start s)).st.wear := by
  unfold runEvent
  split
  · exact .inl rfl
  · exact .inr (finish_wear _ _)

/-- What a command may make of the table: the resets give it their values (R174), a feedback feeds a winch (R175),
WEAR_LOAD and WEAR_RESET rewrite one (R179, R180), and no other command changes it. -/
def WearAfter (i : Instr) (p q : PerWinch WinchWear) : Prop :=
  match i with
  | .powerUp => q = PerWinch.all WinchWear.reset
  | .resetLine => q = keptWear p
  | .feedbackFrame w _ => FedFrom w p q
  | .wearLoad r => q = p ∨ ∃ f, r.body = .fields f ∧ RewrittenFrom f.winch f.counters p q
  | .wearReset r => q = p ∨ ∃ n, r.body = .fields n ∧ RewrittenFrom n (Vector.replicate 64 0) p q
  | _ => q = p

theorem exec_wear (i : Instr) (s t : State) (h : exec i s = .next t) : WearAfter i s.wear t.wear := by
  have req {α : Type} {k : RequestKind} {r : Req α} {act : α → Ev → Ev} (ha : ∀ a e, (act a e).st.wear = e.st.wear)
      (h : (Host.Outcome.next (request k r act s) : Host.Outcome State Fault Refusal) = .next t) : t.wear = s.wear := by
    rw [← next_inj h]
    obtain same | ⟨a, e, -, he, run⟩ := request_wear k r act s
    · exact same
    · rw [run, ha, he]
  have reqBase {α : Type} {k : RequestKind} {r : Req α} {act : α → Ev → Ev}
      (ha : ∀ a e, (act a e).st.base = e.st.base)
      (h : (Host.Outcome.next (request k r act s) : Host.Outcome State Fault Refusal) = .next t) : t.wear = s.wear :=
    req (fun a e => wear_of_base (ha a e)) h
  have query {k : RequestKind} {r : Req Unit} {act : Ev → Ev} (hq : ∀ e, (act e).st = e.st)
      (h : (Host.Outcome.next (request k r (fun _ => act) s) : Host.Outcome State Fault Refusal) = .next t) :
      t.wear = s.wear := req (fun _ e => by rw [hq]) h
  have ev {act : Ev → Ev} (ha : ∀ e, (act e).st.wear = e.st.wear)
      (h : (Host.Outcome.next (runEvent s act) : Host.Outcome State Fault Refusal) = .next t) : t.wear = s.wear := by
    rw [← next_inj h]
    exact (runEvent_wear s act).elim id fun run => run.trans (ha _)
  have evBase {act : Ev → Ev} (ha : ∀ e, (act e).st.base = e.st.base)
      (h : (Host.Outcome.next (runEvent s act) : Host.Outcome State Fault Refusal) = .next t) : t.wear = s.wear :=
    ev (fun e => wear_of_base (ha e)) h
  have keep {u : State} (hu : u.wear = s.wear)
      (h : (Host.Outcome.next u : Host.Outcome State Fault Refusal) = .next t) : t.wear = s.wear := by
    rw [← next_inj h]; exact hu
  match i, h with
  | .powerUp, h => rw [← next_inj h]; rfl
  | .resetLine, h => rw [← next_inj h]; rfl
  | .feedbackFrame w b, h =>
    rw [← next_inj h]
    obtain same | run := runEvent_wear s (feedbackEvent w b)
    · exact .inl same
    · rw [run]; exact feedbackEvent_wear w b (Ev.start s)
  | .wearLoad r, h =>
    rw [← next_inj h]
    obtain same | ⟨f, e, hb, he, run⟩ := request_wear .wearLoad r (fun f => rewriteWear r.link f.winch f.counters) s
    · exact .inl same
    · rw [run, ← he]; exact .inr ⟨f, hb, rewriteWear_wear ..⟩
  | .wearReset r, h =>
    rw [← next_inj h]
    obtain same | ⟨n, e, hb, he, run⟩ :=
      request_wear .wearReset r (fun n => rewriteWear r.link n (Vector.replicate 64 0)) s
    · exact .inl same
    · rw [run, ← he]; exact .inr ⟨n, hb, rewriteWear_wear ..⟩
  | .zoneAdd r, h => exact reqBase (zoneAdd_base r.link) h
  | .zoneAmend r, h => exact reqBase (zoneAmend_base r.link) h
  | .zoneRetire r, h => exact reqBase (zoneRetire_base r.link) h
  | .zoneQuery r, h => exact reqBase (zoneQuery_base r.link) h
  | .zoneList r, h => exact reqBase (fun _ => zoneList_base r.link) h
  | .pointLookup r, h => exact reqBase (pointLookup_base r.link) h
  | .cueStore r, h => exact reqBase (cueStore_base r.link) h
  | .cueAmend r, h => exact reqBase (cueAmend_base r.link) h
  | .cueRetire r, h => exact reqBase (cueRetire_base r.link) h
  | .cueQuery r, h => exact reqBase (cueQuery_base r.link) h
  | .cueList r, h => exact reqBase (fun _ => cueList_base r.link) h
  | .goto r, h => exact reqBase (gotoRequest_base false r.link) h
  | .gotoPriority r, h => exact reqBase (gotoRequest_base true r.link) h
  | .recall r, h => exact reqBase (recallRequest_base false r.link) h
  | .recallPriority r, h => exact reqBase (recallRequest_base true r.link) h
  | .jog r, h => exact reqBase (jog_base r.link) h
  | .hold r, h => exact reqBase (fun _ => hold_base r.link) h
  | .resume r, h => exact reqBase (fun _ => resume_base r.link) h
  | .flushQueue r, h => exact reqBase (flushQueue_base r.link) h
  | .flushAll r, h => exact reqBase (fun _ => flushAll_base r.link) h
  | .register r, h => exact reqBase (register_base r.link) h
  | .release r, h => exact reqBase (fun _ => release_base r.link) h
  | .motionQuery r, h => exact query (act := motionQuery r.link) (fun _ => rfl) h
  | .setSpan r, h => exact req (setSpan_wear r.link) h
  | .setLimits r, h => exact req (setLimits_wear r.link) h
  | .lock r, h => exact req (fun _ => lock_wear r.link) h
  | .configQuery r, h => exact query (act := configQuery r.link) (fun _ => rfl) h
  | .tensionQuery r, h => exact query (act := tensionQuery r.link) (fun _ => rfl) h
  | .driveQuery r, h => exact query (act := driveQuery r.link) (fun _ => rfl) h
  | .faultQuery r, h => exact query (act := faultQuery r.link) (fun _ => rfl) h
  | .clearFault r, h => exact req (act := fun _ => clearFault r.link) (fun _ _ => rfl) h
  | .wearQuery r, h => exact reqBase (wearQuery_base r.link) h
  | .clearEvents r, h => exact req (clearEvents_wear r.link) h
  | .setNotices r, h => exact req (setNotices_wear r.link) h
  | .eventQuery r, h => exact query (act := eventQuery r.link) (fun _ => rfl) h
  | .unknownRequest l tag kind, h =>
    simp only [exec, execUnknownRequest] at h
    split at h
    · cases h
    · exact keep (takeUnknown_wear l tag kind s) h
  | .consoleFrameDiscard l d, h => refine keep ?_ h; split <;> simp
  | .frameSent l, h => refine keep ?_ h; split <;> rfl
  | .stepTimerExpiry, h => exact evBase stepTimer_base h
  | .holdTimerExpiry, h => exact evBase holdTimer_base h
  | .oneSecondTimerExpiry, h => exact evBase oneSecond_base h
  | .deadmanExpiry, h => exact evBase deadman_base h
  | .scrubberTimerExpiry, h => exact ev scrub_wear h
  | .cellVisit, h => exact evBase cellVisitEvent_base h
  | .stopAsserted, h =>
    refine keep ?_ h
    obtain same | run := runEvent_wear (setStop true s) trip
    · exact same
    · exact run.trans (wear_of_base (trip_base _))
  | .stopReleased, h => exact keep (u := setStop false s) rfl h
  | .endOfReset, h => refine keep ?_ h; split <;> rfl

/-! The bounds (R174). -/

/-- The law of the table holds again where the one winch that is replaced meets it. -/
theorem law_get_set {p : PerWinch WinchWear} {w : Winch} {x : WinchWear} (h : ∀ v, (p.get v).law) (hx : x.law)
    (v : Winch) : ((p.set w x).get v).law := by
  by_cases same : w = v
  · subst same; rwa [get_set_same]
  · rw [get_set_other _ _ _ _ same]; exact h v

theorem law_fedFrom {w : Winch} {p q : PerWinch WinchWear} (h : ∀ v, (p.get v).law) (hq : FedFrom w p q) (v : Winch) :
    (q.get v).law := by
  obtain rfl | ⟨m, travel, rfl⟩ := hq
  · exact h v
  · exact law_get_set h (fed_law (h w) m travel) v

theorem law_rewrittenFrom {n : Nat} {counters : Vector Nat 64} {p q : PerWinch WinchWear} (h : ∀ v, (p.get v).law)
    (hc : ∀ k : Fin 64, counters[k] ≤ 65535) (hq : RewrittenFrom n counters p q) (v : Winch) : (q.get v).law := by
  obtain rfl | ⟨w, -, rfl⟩ := hq
  · exact h v
  · exact law_get_set h ⟨hc, Nat.zero_lt_succ _⟩ v

/-- The counters that a well-formed WEAR_LOAD carries fit 16 bits. -/
theorem wf_wearLoad_counters {r : Req WearLoadFields} {f : WearLoadFields} (hwf : (Instr.wearLoad r).wf = true)
    (hb : r.body = .fields f) (k : Fin 64) : f.counters[k] ≤ 65535 := by
  simp only [Instr.wf, hb, Body.check, Bool.and_eq_true, List.all_eq_true, fits16, decide_eq_true_eq] at hwf
  have fits : f.counters[k] < 65536 := hwf.2 _ (by simp)
  omega

theorem wearAfter_law {i : Instr} {p q : PerWinch WinchWear} (hwf : i.wf = true) (h : ∀ v, (p.get v).law)
    (hq : WearAfter i p q) (v : Winch) : (q.get v).law := by
  unfold WearAfter at hq
  split at hq
  case h_1 => subst hq; exact reset_wearLaw v
  case h_2 => subst hq; rw [keptWear, get_of]; exact ⟨(h v).1, Nat.zero_lt_succ _⟩
  case h_3 => exact law_fedFrom h hq v
  case h_4 =>
    obtain rfl | ⟨f, hb, hf⟩ := hq
    · exact h v
    · exact law_rewrittenFrom h (wf_wearLoad_counters hwf hb) hf v
  case h_5 =>
    obtain rfl | ⟨n, -, hn⟩ := hq
    · exact h v
    · exact law_rewrittenFrom h (by simp) hn v
  case h_6 => subst hq; exact h v

/-! No counter decreases but by its rewriting (R174, R177). -/

theorem counters_le_fedFrom {w : Winch} {p q : PerWinch WinchWear} (h : ∀ v, (p.get v).law) (hq : FedFrom w p q)
    (v : Winch) (k : Fin 64) : (p.get v).counters[k] ≤ (q.get v).counters[k] := by
  obtain rfl | ⟨m, travel, rfl⟩ := hq
  · exact le_rfl
  · by_cases same : w = v
    · subst same; rw [get_set_same]; exact counters_le_fed (h w) m travel k
    · rw [get_set_other _ _ _ _ same]

theorem wearAfter_counters_le {i : Instr} {p q : PerWinch WinchWear} (h : ∀ v, (p.get v).law) (hq : WearAfter i p q)
    (hp : i ≠ .powerUp) (hl : ∀ r, i ≠ .wearLoad r) (hr : ∀ r, i ≠ .wearReset r) (v : Winch) (k : Fin 64) :
    (p.get v).counters[k] ≤ (q.get v).counters[k] := by
  unfold WearAfter at hq
  split at hq
  case h_1 => exact absurd rfl hp
  case h_2 => subst hq; rw [keptWear, get_of]
  case h_3 => exact counters_le_fedFrom h hq v k
  case h_4 r => exact absurd rfl (hl r)
  case h_5 r => exact absurd rfl (hr r)
  case h_6 => rw [hq]

end Sys2Proof.Machine

section
open Sys2Proof Sys2Proof.Machine

/-- Settles O50: by the cases of `exec_wear`. -/
theorem wearStaysInItsBounds : Obligations.WearStaysInItsBounds :=
  ⟨fun i s t hwf h hs => wearAfter_law hwf hs (exec_wear i s t h),
    fun i s t w k h hs hp hl hr => wearAfter_counters_le hs (exec_wear i s t h) hp hl hr w k⟩

end
end

