-- ==== Sys2Proof/Proofs/WearRequests.lean ====
section
/-! SUPPORT. The wear requests (R178 to R180): the winch a number names, the report of WEAR_QUERY, and the answers of a
rewriting on the safety link in their order. -/

namespace Sys2Proof.Machine

theorem ofNumber_number (w : Winch) : Winch.ofNumber w.number = some w := by cases w <;> rfl

/-- No winch has the number 0 or a number above 4. -/
theorem ofNumber_none {n : Nat} (h : n = 0 ∨ 4 < n) : Winch.ofNumber n = none := by
  unfold Winch.ofNumber
  split
  case h_5 => rfl
  all_goals omega

/-! WEAR_QUERY (R178). -/

theorem wearQuery_winch (l : Link) (w : Winch) (e : Ev) :
    wearQuery l w.number e =
      e.ok l false
        ([byte w.number] :: (e.st.wear.get w).counters.toList.map le16 ++
          [le32 (e.st.wear.get w).accumulator, le16 e.st.limits.wear]) := by
  simp [wearQuery, ofNumber_number]

theorem wearQuery_none (l : Link) {n : Nat} (h : n = 0 ∨ 4 < n) (e : Ev) : wearQuery l n e = e.badField l 1 := by
  simp [wearQuery, ofNumber_none h]

/-! WEAR_LOAD and WEAR_RESET (R179, R180). -/

/-- A winch's table takes counters, and its accumulator is cleared. -/
def State.rewritten (s : State) (w : Winch) (counters : Vector Nat 64) : State :=
  { s with wear := s.wear.set w ⟨counters, 0⟩ }

section
variable (l : Link) (w : Winch) (counters : Vector Nat 64) (e : Ev)

theorem rewriteWear_none {n : Nat} (h : n = 0 ∨ 4 < n) : rewriteWear l n counters e = e.badField l 1 := by
  simp [rewriteWear, ofNumber_none h]

theorem rewriteWear_released (h : e.st.drive.brake = false) :
    rewriteWear l w.number counters e = e.refuse l .wrongState [] := by
  simp [rewriteWear, ofNumber_number, h]

theorem rewriteWear_braked (h : e.st.drive.brake = true) :
    rewriteWear l w.number counters e = (e.upd fun s => s.rewritten w counters).ok l false [] := by
  simp [rewriteWear, ofNumber_number, h, State.rewritten]

end

/-- Both requests leave on the safety link what the rewriting leaves, of the counters carried or of zeros. -/
theorem exec_rewriting {s : State} {tag : Byte} {n : Nat} (counters : Vector Nat 64) (left : Vector Nat 64 → Byte → State)
    (free : s.portFree .safety)
    (h : ∀ c k, finish s.gen.state (rewriteWear .safety n c (Ev.start (s.taken .safety tag k))) = left c k) :
    exec (.wearLoad ⟨.safety, tag, .fields ⟨n, counters⟩⟩) s = .next (left counters 0x1E) ∧
      exec (.wearReset ⟨.safety, tag, .fields n⟩) s = .next (left (Vector.replicate 64 0) 0x1F) := by
  have load := request_passes .wearLoad ⟨.safety, tag, .fields ⟨n, counters⟩⟩
    (fun f : WearLoadFields => rewriteWear .safety f.winch f.counters) s _ free (by simp) rfl
  have reset := request_passes .wearReset ⟨.safety, tag, .fields n⟩
    (fun n => rewriteWear .safety n (Vector.replicate 64 0)) s _ free (by simp) rfl
  exact ⟨congrArg Host.Outcome.next (load.trans (h _ _)), congrArg Host.Outcome.next (reset.trans (h _ _))⟩

end Sys2Proof.Machine

section
open Sys2Proof Sys2Proof.Machine

/-- Settles O11: the query by its report, and a rewriting by each answer it can be given, in their order. -/
theorem wearRequestsReportAndRewrite : Obligations.WearRequestsReportAndRewrite := by
  refine ⟨fun s l tag free => ⟨fun w => ?reports, fun n hn => ?noWinchToReport⟩, fun s tag n counters =>
    ⟨fun free => ⟨?loadReserved, ?resetReserved⟩, fun free hn => ?noWinch, ?_⟩⟩
  case reports =>
    exact congrArg Host.Outcome.next (request_replies (k := .wearQuery) _ free rfl (wearQuery_winch l w _))
  case noWinchToReport =>
    exact congrArg Host.Outcome.next (request_replies (k := .wearQuery) _ free rfl (wearQuery_none l hn _))
  case loadReserved => exact congrArg Host.Outcome.next (request_safetyOnly .wearLoad _ _ s free rfl rfl)
  case resetReserved => exact congrArg Host.Outcome.next (request_safetyOnly .wearReset _ _ s free rfl rfl)
  case noWinch =>
    refine exec_rewriting counters (fun _ k => s.answered .safety tag k _) free fun c k => ?_
    rw [rewriteWear_none _ _ _ hn]
    exact finish_reply s .safety tag k _
  rintro w free rfl
  refine ⟨fun released => ?wrongState, fun braked => ?rewritten⟩
  case wrongState =>
    refine exec_rewriting counters (fun _ k => s.answered .safety tag k _) free fun c k => ?_
    rw [rewriteWear_released _ _ _ _ released]
    exact finish_reply s .safety tag k _
  case rewritten =>
    refine exec_rewriting counters (fun c k => (s.rewritten w c).answered .safety tag k _) free fun c k => ?_
    rw [rewriteWear_braked _ _ _ _ braked]
    exact finish_upd_reply s .safety tag k (fun s => s.rewritten w c) _ rfl rfl

end
end

