-- ==== Sys2Proof/Proofs/FaultsKept.lean ====
section
/-! SUPPORT. What leaves the Fault Record alone: the reads of records, the halts, the Cell Index, the cues, the table operations,
the Envelope Unit, the succession, and with them the requests report no fault before their end. -/

namespace Sys2Proof.Machine

/-- A fold of operations that report no fault reports none. -/
theorem foldl_faults {α : Type} (f : Ev → α → Ev) (h : ∀ e a, (f e a).st.faults = e.st.faults) (l : List α) (e : Ev) :
    (l.foldl f e).st.faults = e.st.faults := by
  induction l generalizing e with
  | nil => rfl
  | cons a l ih => rw [List.foldl_cons, ih, h]

/-! Reads and halts. -/

@[simp] theorem markZone_faults (i : Nat) (e : Ev) : (markZone i e).st.faults = e.st.faults := by
  unfold markZone; split <;> simp
@[simp] theorem readZone_faults (e : Ev) (i : Nat) : (readZone e i).st.faults = e.st.faults := by
  unfold readZone; split <;> simp
@[simp] theorem foldl_readZone_faults (ids : List Nat) (e : Ev) : (ids.foldl readZone e).st.faults = e.st.faults :=
  foldl_faults _ readZone_faults _ _
@[simp] theorem readZones_faults (e : Ev) : (readZones e).st.faults = e.st.faults := by
  unfold readZones; exact foldl_readZone_faults zoneIds e
theorem faults_of_motionRead {ids : List Nat} {e e' : Ev} {o : Option Nat} (h : motionRead ids e = (e', o)) :
    e'.st.faults = e.st.faults := by
  unfold motionRead at h; split at h <;> cases h <;> simp
@[simp] theorem readCue_faults (e : Ev) (n : Nat) : (readCue e n).st.faults = e.st.faults := by
  unfold readCue
  repeat' split
  all_goals simp
@[simp] theorem enterHalted_faults (e : Ev) : (enterHalted e).st.faults = e.st.faults := by rw [enterHalted_st]
@[simp] theorem enterStopped_faults (e : Ev) : (enterStopped e).st.faults = e.st.faults := by rw [enterStopped_st]
@[simp] theorem trip_faults (e : Ev) : (trip e).st.faults = e.st.faults := by unfold trip; split <;> simp
@[simp] theorem quickStop_faults (e : Ev) : (quickStop e).st.faults = e.st.faults := by
  unfold quickStop; split <;> simp
@[simp] theorem controlledHalt_faults (e : Ev) : (controlledHalt e).st.faults = e.st.faults :=
  (controlledHalt_halts e).2.1

/-! The cell lists and the cues. -/

@[simp] theorem suspectCell_faults (n : Nat) (e : Ev) : (suspectCell n e).st.faults = e.st.faults := by
  unfold suspectCell; split <;> simp
@[simp] theorem rebuildCell_faults (n : Nat) (e : Ev) : (rebuildCell n e).st.faults = e.st.faults := by
  simp [rebuildCell]
@[simp] theorem changeCell_faults (n : Nat) (f : List Nat → List Nat) (e : Ev) :
    (changeCell n f e).st.faults = e.st.faults := by
  unfold changeCell; dsimp only
  repeat' split
  all_goals simp
@[simp] theorem computeBlocked_faults (e : Ev) (n : Nat) : (computeBlocked e n).st.faults = e.st.faults := by
  unfold computeBlocked; dsimp only; split <;> simp
@[simp] theorem recomputeOne_faults (e : Ev) (n : Nat) : (recomputeOne e n).st.faults = e.st.faults := by
  unfold recomputeOne; split <;> simp
@[simp] theorem recomputeBlocked_faults (e : Ev) : (recomputeBlocked e).st.faults = e.st.faults := by
  unfold recomputeBlocked; exact foldl_faults _ recomputeOne_faults _ _

/-! Table operations. -/

@[simp] theorem closeOp_faults (op : TableOp) (e : Ev) : (closeOp op e).st.faults = e.st.faults := by
  unfold closeOp; dsimp only
  repeat' split
  all_goals simp
@[simp] theorem beginOp_faults (op : TableOp) (e : Ev) : (beginOp op e).st.faults = e.st.faults := by
  unfold beginOp; split <;> simp
@[simp] theorem beginWork_faults (w : Work) (e : Ev) : (beginWork w e).st.faults = e.st.faults := by
  cases w <;> simp [beginWork, takeExpiry]
@[simp] theorem runWaiting_faults (ws : List Work) (e : Ev) : (runWaiting ws e).st.faults = e.st.faults := by
  induction ws generalizing e with
  | nil => simp [runWaiting]
  | cons w ws ih =>
    unfold runWaiting; dsimp only
    repeat' split
    all_goals simp [ih]
@[simp] theorem runIfIdle_faults (e : Ev) : (runIfIdle e).st.faults = e.st.faults := by
  unfold runIfIdle; split <;> simp
@[simp] theorem orderWork_faults (ws : List Work) (e : Ev) : (orderWork ws e).st.faults = e.st.faults := by
  simp [orderWork]
@[simp] theorem endOp_faults (op : TableOp) (e : Ev) : (endOp op e).st.faults = e.st.faults := by simp [endOp]
@[simp] theorem orderRebuild_faults (n : Nat) (e : Ev) : (orderRebuild n e).st.faults = e.st.faults := by
  unfold orderRebuild; split <;> simp
@[simp] theorem readCell_faults (n : Nat) (e : Ev) : (readCell n e).st.faults = e.st.faults := by
  unfold readCell; split <;> simp
@[simp] theorem countCell_faults (i : Option Nat) (n : Nat) (e : Ev) :
    (countCell i n e).1.st.faults = e.st.faults := by
  unfold countCell; dsimp only; split <;> simp
@[simp] theorem firstFull_faults (i : Option Nat) (ns : List Nat) (e : Ev) :
    (firstFull i ns e).1.st.faults = e.st.faults := by
  induction ns generalizing e with
  | nil => rfl
  | cons n ns ih => unfold firstFull; dsimp only; split <;> simp [ih]
theorem faults_of_firstFull {i : Option Nat} {ns : List Nat} {e e' : Ev} {o : Option Nat}
    (h : firstFull i ns e = (e', o)) : e'.st.faults = e.st.faults := by
  simpa [h] using firstFull_faults i ns e
@[simp] theorem visit_faults (op : TableOp) (e : Ev) : (visit op e).st.faults = e.st.faults := by
  unfold visit; split <;> simp

/-! The Envelope Unit and the Path Generator. -/

@[simp] theorem activationEffects_faults (i : Nat) (a : Bool) (e : Ev) :
    (activationEffects i a e).st.faults = e.st.faults := by
  unfold activationEffects dropInside; dsimp only
  repeat' split
  all_goals simp
@[simp] theorem fallDueIfSpent_faults (i : Nat) (e : Ev) : (fallDueIfSpent i e).st.faults = e.st.faults := by
  unfold fallDueIfSpent; split <;> simp
@[simp] theorem settle_faults (i : Nat) (b : Box) (e : Ev) : (settle i b e).st.faults = e.st.faults := by
  unfold settle; split <;> simp
@[simp] theorem makeActive_faults (b : Bool) (i : Nat) (e : Ev) : (makeActive b i e).st.faults = e.st.faults := by
  unfold makeActive; dsimp only
  repeat' split
  all_goals simp
@[simp] theorem withdraw_faults (i : Nat) (e : Ev) : (withdraw i e).st.faults = e.st.faults := by
  unfold withdraw; dsimp only
  repeat' split
  all_goals simp
@[simp] theorem activationPass_faults (ids : List Nat) (e : Ev) : (activationPass ids e).st.faults = e.st.faults := by
  unfold activationPass; apply foldl_faults; intro e i; split <;> simp
@[simp] theorem planningPass_faults (ids : List Nat) (e : Ev) : (planningPass ids e).st.faults = e.st.faults := by
  induction ids generalizing e with
  | nil => rfl
  | cons i ids ih => unfold planningPass; dsimp only; split <;> simp [ih]
@[simp] theorem resolveArming_faults (e : Ev) : (resolveArming e).st.faults = e.st.faults := by simp [resolveArming]
@[simp] theorem tryBegin_faults (m : Move) (e : Ev) : (tryBegin m e).1.st.faults = e.st.faults := by
  unfold tryBegin; dsimp only
  repeat' split
  all_goals simp
@[simp] theorem queuePhase_faults (ms : List Move) (e : Ev) : (queuePhase ms e).st.faults = e.st.faults := by
  induction ms generalizing e with
  | nil => simp [queuePhase]
  | cons m ms ih => unfold queuePhase; dsimp only; split <;> simp [ih]
@[simp] theorem stackPhase_faults (cs : List Context) (e : Ev) : (stackPhase cs e).st.faults = e.st.faults := by
  induction cs generalizing e with
  | nil => simp [stackPhase]
  | cons c cs ih =>
    unfold stackPhase; dsimp only
    repeat' split
    all_goals simp [ih]
@[simp] theorem advance_faults (e : Ev) : (advance e).st.faults = e.st.faults := by
  unfold advance; dsimp only
  repeat' split
  all_goals simp
@[simp] theorem succession_faults (e : Ev) : (succession e).st.faults = e.st.faults := by
  unfold succession; dsimp only
  repeat' split
  all_goals simp
@[simp] theorem complete_faults (f : Flight) (e : Ev) : (complete f e).st.faults = e.st.faults := by
  unfold complete arriveExit arrive; dsimp only
  repeat' split
  all_goals simp
@[simp] theorem endBraking_faults (f : Flight) (b : Bool) (e : Ev) : (endBraking f b e).st.faults = e.st.faults := by
  unfold endBraking dropBraked pushBraked arrive
  repeat' split
  all_goals simp
@[simp] theorem afterJog_faults (e : Ev) : (afterJog e).st.faults = e.st.faults := by
  unfold afterJog endJog
  repeat' split
  all_goals simp
@[simp] theorem enterUnregistered_faults (b : Bool) (e : Ev) : (enterUnregistered b e).st.faults = e.st.faults := by
  unfold enterUnregistered; dsimp only
  rw [foldl_faults _ (fun e i => makeActive_faults b i e)]
  simp
@[simp] theorem liftHold_faults (e : Ev) : (liftHold e).st.faults = e.st.faults := by
  unfold liftHold
  repeat' split
  all_goals simp
@[simp] theorem raiseWinches_faults (f : EventFlag) (h : Winch → Bool) (e : Ev) :
    (raiseWinches f h e).st.faults = e.st.faults := by
  rw [raiseWinches_eq]

/-! The requests and events of the Zone Table. -/

theorem startPhase_faults (op : TableOp) (e : Ev) (f : TableOp → Ev → Ev)
    (hf : ∀ op e, (f op e).st.faults = e.st.faults) : (startPhase op e f).st.faults = e.st.faults := by
  unfold startPhase; split <;> simp [hf]
@[simp] theorem startRemoval_faults (op : TableOp) (b : Bool) (p : VisitPlan) (e : Ev) :
    (startRemoval op b p e).st.faults = e.st.faults := startPhase_faults _ _ _ endOp_faults
@[simp] theorem endIndexing_faults (op : TableOp) (e : Ev) : (endIndexing op e).st.faults = e.st.faults := by
  have added (id : Nat) : (endAdd op id e).st.faults = e.st.faults := by
    unfold endAdd; dsimp only
    repeat' split
    all_goals simp
  have amended (id : Nat) : (endAmend op id e).st.faults = e.st.faults := by
    unfold endAmend amendActive amendArming; dsimp only
    repeat' split
    all_goals simp
  unfold endIndexing; dsimp only; split <;> simp [added, amended]
@[simp] theorem cellVisitEvent_faults (e : Ev) : (cellVisitEvent e).st.faults = e.st.faults := by
  unfold cellVisitEvent endPhase; dsimp only
  repeat' split
  all_goals simp
@[simp] theorem zoneAdd_faults (l : Link) (f : ZoneAddFields) (e : Ev) : (zoneAdd l f e).st.faults = e.st.faults := by
  unfold zoneAdd; dsimp only
  repeat' split
  · rfl
  · rfl
  · rfl
  · next full => exact (faults_of_firstFull full :)
  · next room _ => exact (faults_of_firstFull room :)
  · next room _ => exact (startPhase_faults _ _ _ endIndexing_faults).trans (faults_of_firstFull room :)
@[simp] theorem amendBox_faults (l : Link) (z : Zone) (f : ZoneAmendFields) (b : Box) (e : Ev) :
    (amendBox l z f b e).st.faults = e.st.faults := by
  unfold amendBox
  repeat' split
  · rfl
  · next full => exact (faults_of_firstFull full :)
  · next room _ => exact (faults_of_firstFull room :)
  · next room _ => exact (startPhase_faults _ _ _ endIndexing_faults).trans (faults_of_firstFull room :)
@[simp] theorem zoneAmend_faults (l : Link) (f : ZoneAmendFields) (e : Ev) :
    (zoneAmend l f e).st.faults = e.st.faults := by
  unfold zoneAmend; dsimp only
  repeat' split
  all_goals simp [amendInPlace]
@[simp] theorem zoneRetire_faults (l : Link) (f : RetireFields) (e : Ev) :
    (zoneRetire l f e).st.faults = e.st.faults := by
  unfold zoneRetire; dsimp only
  repeat' split
  all_goals simp [startPhase_faults _ _ _ endOp_faults]
@[simp] theorem zoneQuery_faults (l : Link) (n : Nat) (e : Ev) : (zoneQuery l n e).st.faults = e.st.faults := by
  unfold zoneQuery; split <;> simp
@[simp] theorem zoneList_faults (l : Link) (e : Ev) : (zoneList l e).st.faults = e.st.faults := by simp [zoneList]
@[simp] theorem pointLookup_faults (l : Link) (p : Vec3) (e : Ev) : (pointLookup l p e).st.faults = e.st.faults := by
  unfold pointLookup; dsimp only
  repeat' split
  all_goals simp
@[simp] theorem oneSecond_faults (e : Ev) : (oneSecond e).st.faults = e.st.faults := by
  have counted (e : Ev) (id : Nat) : (countDown e id).st.faults = e.st.faults := by
    unfold countDown; dsimp only
    repeat' split
    all_goals simp
  unfold oneSecond; split <;> simp [foldl_faults countDown counted]

/-! The other requests and events. -/

@[simp] theorem cueStore_faults (l : Link) (f : CueStoreFields) (e : Ev) : (cueStore l f e).st.faults = e.st.faults := by
  unfold cueStore storeCue
  repeat' split
  all_goals simp
@[simp] theorem cueAmend_faults (l : Link) (f : CueAmendFields) (e : Ev) : (cueAmend l f e).st.faults = e.st.faults := by
  unfold cueAmend amendCue; dsimp only
  repeat' split
  all_goals simp
@[simp] theorem cueRetire_faults (l : Link) (f : RetireFields) (e : Ev) : (cueRetire l f e).st.faults = e.st.faults := by
  unfold cueRetire; dsimp only
  repeat' split
  all_goals simp
@[simp] theorem cueQuery_faults (l : Link) (n : Nat) (e : Ev) : (cueQuery l n e).st.faults = e.st.faults := by
  unfold cueQuery; split <;> simp
@[simp] theorem cueList_faults (l : Link) (e : Ev) : (cueList l e).st.faults = e.st.faults := by
  simp [cueList, foldl_faults readCue readCue_faults]
@[simp] theorem admitMove_faults (b : Bool) (l : Link) (a : Asked) (e : Ev) :
    (admitMove b l a e).st.faults = e.st.faults := by
  unfold admitMove admitQueued admitPriority; dsimp only
  repeat' split
  all_goals simp
@[simp] theorem gotoRequest_faults (b : Bool) (l : Link) (f : GotoFields) (e : Ev) :
    (gotoRequest b l f e).st.faults = e.st.faults := by
  unfold gotoRequest
  repeat' split
  all_goals simp
theorem faults_of_resolveCue {n : Nat} {e e' : Ev} {r : Resolved} (h : resolveCue n e = (e', r)) :
    e'.st.faults = e.st.faults := by
  have kept : (resolveCue n e).1.st.faults = e.st.faults := by
    unfold resolveCue; dsimp only
    repeat' split
    all_goals simp
  simpa [h] using kept
@[simp] theorem recallRequest_faults (b : Bool) (l : Link) (f : RecallFields) (e : Ev) :
    (recallRequest b l f e).st.faults = e.st.faults := by
  unfold recallRequest
  split
  · rfl
  · split
    · rfl
    · split
      all_goals next hr => simp [faults_of_resolveCue hr]
@[simp] theorem hold_faults (l : Link) (e : Ev) : (hold l e).st.faults = e.st.faults := by
  unfold hold
  repeat' split
  all_goals simp
@[simp] theorem resume_faults (l : Link) (e : Ev) : (resume l e).st.faults = e.st.faults := by
  unfold resume; dsimp only
  repeat' split
  all_goals simp
@[simp] theorem flushQueue_faults (l : Link) (c : FlushScope) (e : Ev) :
    (flushQueue l c e).st.faults = e.st.faults := by
  cases c <;> simp [flushQueue]
@[simp] theorem flushAll_faults (l : Link) (e : Ev) : (flushAll l e).st.faults = e.st.faults := by simp [flushAll]
@[simp] theorem jog_faults (l : Link) (v : Vec3) (e : Ev) : (jog l v e).st.faults = e.st.faults := by
  unfold jog; dsimp only
  repeat' split
  all_goals simp
@[simp] theorem deadman_faults (e : Ev) : (deadman e).st.faults = e.st.faults := by unfold deadman; split <;> simp
@[simp] theorem register_faults (l : Link) (p : Vec3) (e : Ev) : (register l p e).st.faults = e.st.faults := by
  unfold register; dsimp only
  repeat' split
  all_goals simp [acceptRegister, releaseBrake]
@[simp] theorem release_faults (l : Link) (e : Ev) : (release l e).st.faults = e.st.faults := by
  unfold release releaseHalted releaseStopped; dsimp only
  repeat' split
  all_goals simp [acceptRelease, releaseBrake]
@[simp] theorem setSpan_faults (l : Link) (sp : Span) (e : Ev) : (setSpan l sp e).st.faults = e.st.faults := by
  unfold setSpan acceptSpan; dsimp only
  repeat' split
  all_goals simp
@[simp] theorem setLimits_faults (l : Link) (v : Limits) (e : Ev) : (setLimits l v e).st.faults = e.st.faults := by
  unfold setLimits
  repeat' split
  all_goals simp
@[simp] theorem lock_faults (l : Link) (e : Ev) : (lock l e).st.faults = e.st.faults := by unfold lock; split <;> simp
@[simp] theorem clearEvents_faults (l : Link) (m : BitVec 32) (e : Ev) :
    (clearEvents l m e).st.faults = e.st.faults := by
  unfold clearEvents; split <;> simp
@[simp] theorem setNotices_faults (l : Link) (m : BitVec 32) (e : Ev) :
    (setNotices l m e).st.faults = e.st.faults := by
  unfold setNotices; split <;> simp
@[simp] theorem wearQuery_faults (l : Link) (n : Nat) (e : Ev) : (wearQuery l n e).st.faults = e.st.faults := by
  unfold wearQuery; split <;> simp
@[simp] theorem rewriteWear_faults (l : Link) (n : Nat) (c : Vector Nat 64) (e : Ev) :
    (rewriteWear l n c e).st.faults = e.st.faults := by
  unfold rewriteWear
  repeat' split
  all_goals simp
@[simp] theorem scrub_faults (e : Ev) : (scrub e).st.faults = e.st.faults := by
  unfold scrub scrubItem
  repeat' split
  all_goals simp
@[simp] theorem feedIfMoved_faults (w : Winch) (b : Bool) (o : Option Int) (m : Nat) (e : Ev) :
    (feedIfMoved w b o m e).st.faults = e.st.faults := by
  unfold feedIfMoved feedWear; dsimp only
  repeat' split
  all_goals simp

end Sys2Proof.Machine
end

