-- ==== Sys2Proof/Proofs/FaultReports.lean ====
section
/-! SUPPORT. The Fault Record through every command: it is emptied by CLEAR_FAULT and by the resets, and every other command leaves
it to fault reports alone, which keep its captured entry at the highest class held (R192, R193). -/

namespace Sys2Proof.Machine

/-! A fault reported (R193). -/

/-- The record once a fault with its subject and position is reported to it (R193). -/
def FaultRecord.reported (f : FaultRecord) (new : Captured) : FaultRecord where
  flags := f.flags.setIfInBounds (new.cls.priority - 1) true
  captured :=
    match f.captured with
    | none => some new
    | some old => if new.cls.priority < old.cls.priority then some new else some old

theorem reportFault_faults (c : FaultClass) (j : FaultSubject) (e : Ev) :
    (reportFault c j e).st.faults = e.st.faults.reported ⟨c, j, faultPosition e.st⟩ := by
  rw [reportFault_st]; rfl

/-- The classes have the priorities 1 to 9. -/
theorem FaultClass.priority_pos (c : FaultClass) : 0 < c.priority := by cases c <;> decide
theorem FaultClass.priority_le (c : FaultClass) : c.priority ≤ 9 := by cases c <;> decide

/-- The flag of the reported class is set, and the other flags stay. -/
theorem reported_flags (f : FaultRecord) (new : Captured) (i : Fin 9) :
    (f.reported new).flags[i] = if new.cls.priority - 1 = i.val then true else f.flags[i] := by
  simp [FaultRecord.reported, Vector.getElem_setIfInBounds]

/-- An entry is the right one to be held: its flag is set, and no flag of higher priority is (R192). -/
def FaultRecord.Highest (f : FaultRecord) (c : Captured) : Prop :=
  (∀ i : Fin 9, i.val = c.cls.priority - 1 → f.flags[i] = true) ∧
    ∀ i : Fin 9, i.val < c.cls.priority - 1 → f.flags[i] = false

theorem faultLaw_none {f : FaultRecord} (h : f.captured = none) : f.law ↔ ∀ i : Fin 9, f.flags[i] = false := by
  unfold FaultRecord.law; rw [h]

theorem faultLaw_some {f : FaultRecord} {c : Captured} (h : f.captured = some c) : f.law ↔ f.Highest c := by
  have bound : c.cls.priority - 1 < 9 := by have := c.cls.priority_pos; have := c.cls.priority_le; omega
  unfold FaultRecord.law FaultRecord.Highest
  rw [h]
  refine and_congr_left fun _ => ?_
  rw [Vector.getElem?_eq_getElem bound, Option.some_inj]
  exact ⟨fun set i hi => by simpa only [Fin.getElem_fin, hi] using set, fun set => set ⟨_, bound⟩ rfl⟩

/-- A reported class below which no flag is set is the highest held. -/
theorem highest_reported_new {f : FaultRecord} {new : Captured}
    (h : ∀ i : Fin 9, i.val < new.cls.priority - 1 → f.flags[i] = false) : (f.reported new).Highest new := by
  refine ⟨fun i hi => by rw [reported_flags, if_pos hi.symm], fun i hi => ?_⟩
  rw [reported_flags, if_neg (Nat.ne_of_gt hi), h i hi]

/-- An entry stays the highest where no class of higher priority is reported. -/
theorem highest_reported_old {f : FaultRecord} {new old : Captured} (h : f.Highest old)
    (kept : old.cls.priority ≤ new.cls.priority) : (f.reported new).Highest old := by
  obtain ⟨set, above⟩ := h
  refine ⟨fun i hi => by rw [reported_flags, set i hi]; simp, fun i hi => ?_⟩
  rw [reported_flags, if_neg (by omega), above i hi]

/-- A report keeps the captured entry at the highest class held (R193). -/
theorem reported_law {f : FaultRecord} (h : f.law) (new : Captured) : (f.reported new).law := by
  cases held : f.captured with
  | none =>
    have captures : (f.reported new).captured = some new := by simp [FaultRecord.reported, held]
    exact (faultLaw_some captures).2 (highest_reported_new fun i _ => (faultLaw_none held).1 h i)
  | some old =>
    have highest := (faultLaw_some held).1 h
    by_cases higher : new.cls.priority < old.cls.priority
    · have captures : (f.reported new).captured = some new := by simp [FaultRecord.reported, held, higher]
      exact (faultLaw_some captures).2 (highest_reported_new fun i hi => highest.2 i (by omega))
    · have captures : (f.reported new).captured = some old := by simp [FaultRecord.reported, held, higher]
      exact (faultLaw_some captures).2 (highest_reported_old highest (Nat.le_of_not_lt higher))

/-- The record after reset, and after CLEAR_FAULT. -/
theorem FaultRecord.empty_law : FaultRecord.empty.law := reset_faultsLaw

/-! Reports in turn. -/

/-- A record comes from another by reports alone. -/
def FaultRecord.ReportsTo (f g : FaultRecord) : Prop := ∃ news : List Captured, g = news.foldl FaultRecord.reported f

theorem reportsTo_of_eq {f g : FaultRecord} (h : g = f) : f.ReportsTo g := ⟨[], h⟩

theorem FaultRecord.ReportsTo.refl (f : FaultRecord) : f.ReportsTo f := ⟨[], rfl⟩

theorem FaultRecord.ReportsTo.trans {f g h : FaultRecord} (a : f.ReportsTo g) (b : g.ReportsTo h) : f.ReportsTo h := by
  obtain ⟨ns, rfl⟩ := a
  obtain ⟨ms, rfl⟩ := b
  exact ⟨ns ++ ms, by rw [List.foldl_append]⟩

theorem FaultRecord.ReportsTo.law {f g : FaultRecord} (h : f.ReportsTo g) (hf : f.law) : g.law := by
  obtain ⟨news, rfl⟩ := h
  induction news generalizing f with
  | nil => exact hf
  | cons new news ih => exact ih (reported_law hf new)

/-- One event follows another with faults reported between them. -/
def Ev.Reports (e e' : Ev) : Prop := e.st.faults.ReportsTo e'.st.faults

theorem Ev.Reports.refl (e : Ev) : e.Reports e := FaultRecord.ReportsTo.refl _

theorem Ev.Reports.trans {e e' e'' : Ev} (h : e.Reports e') (h' : e'.Reports e'') : e.Reports e'' :=
  FaultRecord.ReportsTo.trans h h'

/-- What leaves the record alone. -/
theorem reports_of_faults {e e' : Ev} (h : e'.st.faults = e.st.faults) : e.Reports e' := reportsTo_of_eq h

/-- A fold of operations that report. -/
theorem foldl_reports {α : Type} (f : Ev → α → Ev) (h : ∀ (e : Ev) (a : α), e.Reports (f e a)) (l : List α) (e : Ev) :
    e.Reports (l.foldl f e) := by
  induction l generalizing e with
  | nil => exact .refl e
  | cons a l ih => exact (h e a).trans (ih (f e a))

/-! Faults with their halts (R115 to R117, R185, R186). -/

theorem reportFault_reports (c : FaultClass) (j : FaultSubject) (e : Ev) : e.Reports (reportFault c j e) :=
  ⟨[_], reportFault_faults c j e⟩

theorem fault_trip_reports (c : FaultClass) (j : FaultSubject) (e : Ev) : e.Reports (trip (reportFault c j e)) :=
  (reportFault_reports c j e).trans (reports_of_faults (trip_faults _))
theorem fault_quickStop_reports (c : FaultClass) (j : FaultSubject) (e : Ev) :
    e.Reports (quickStop (reportFault c j e)) :=
  (reportFault_reports c j e).trans (reports_of_faults (quickStop_faults _))
theorem fault_controlledHalt_reports (c : FaultClass) (j : FaultSubject) (e : Ev) :
    e.Reports (controlledHalt (reportFault c j e)) :=
  (reportFault_reports c j e).trans (reports_of_faults (controlledHalt_faults _))

theorem settleReads_reports (e : Ev) : e.Reports (settleReads e) := by
  unfold settleReads
  split
  · exact .refl e
  · exact (foldl_reports _ (fun e i => reportFault_reports _ _ e) _ e).trans (reports_of_faults (controlledHalt_faults _))

/-- The end of an event reports the failures of its request reads (R186). -/
theorem finish_reports (g : GenState) (e : Ev) : e.st.faults.ReportsTo (finish g e).faults := by
  rw [finish_console]
  exact settleReads_reports e

/-! Sendings and offers (R98, R142, R162). -/

theorem sendTo_reports (k : Winch → Sent) (e : Ev) (w : Winch) : e.Reports (sendTo k e w) := by
  unfold sendTo; dsimp only
  split
  · exact fault_trip_reports _ _ (e.upd _)
  · exact .refl e

theorem sendAll_reports (k : Winch → Sent) (e : Ev) : e.Reports (sendAll k e) := foldl_reports _ (sendTo_reports k) _ e

theorem sendSet_reports (l : PerWinch RopeLength) (e : Ev) : e.Reports (sendSet l e) := by
  unfold sendSet; dsimp only
  generalize hc : e.upd (onDrive _) = e1
  have commanded : e.Reports e1 := by rw [← hc]; exact .refl e
  have sent := commanded.trans (sendAll_reports (fun w => .length (l.get w).prev) e1)
  generalize sendAll _ e1 = e2 at sent ⊢
  exact sent

theorem lengthOffer_reports (sp : Span) (p : Vec3) (e : Ev) : e.Reports (lengthOffer sp p e).1 := by
  have clamped (hit : Winch → Bool) : e.Reports (raiseWinches .stretchClamp hit e) :=
    reports_of_faults (raiseWinches_faults _ _ e)
  unfold lengthOffer; dsimp only
  split
  · exact (clamped _).trans (fault_quickStop_reports _ _ _)
  · exact (clamped _).trans (reports_of_faults (raiseWinches_faults _ _ _))

theorem deliver_reports (sp : Span) (p : Vec3) (e : Ev) : e.Reports (deliver sp p e).1 := by
  have offered := lengthOffer_reports sp p e
  unfold deliver
  generalize lengthOffer sp p e = o at offered ⊢
  match o with
  | (e1, none) => exact offered
  | (e1, some l) =>
    have sent := offered.trans (sendSet_reports l e1)
    dsimp only
    generalize sendSet l e1 = e2 at sent ⊢
    exact sent

theorem candidateCheck_reports (sp : Span) (p : Vec3) (e : Ev) : e.Reports (candidateCheck sp p e).1 := by
  have read {ids : List Nat} {n : Nat} {e' : Ev} {o : Option Nat} (hm : motionRead ids (readCell n e) = (e', o)) :
      e.Reports e' := reports_of_faults ((faults_of_motionRead hm).trans (readCell_faults n e))
  unfold candidateCheck; dsimp only
  split
  · split
    · next hm => exact (read hm).trans (fault_quickStop_reports _ _ _)
    · next hm => exact read hm
  · exact .refl e

theorem offer_reports (sp : Span) (p : Vec3) (e : Ev) : e.Reports (offer sp p e).1 := by
  have checked := candidateCheck_reports sp p e
  unfold offer
  generalize candidateCheck sp p e = c at checked ⊢
  match c with
  | (e1, .passes) => exact checked.trans (deliver_reports sp p e1)
  | (e1, .fails) => exact checked.trans (fault_quickStop_reports _ _ e1)
  | (e1, .abandoned) => exact checked

theorem reports_of_offer {sp : Span} {p : Vec3} {e e' : Ev} {b : Bool} (h : offer sp p e = (e', b)) : e.Reports e' := by
  simpa [h] using offer_reports sp p e

/-! Steps (R108 to R110, R127 to R134). -/

/-- A motion-path read that fails reports its RECORD_CHECK (R185). -/
theorem motionFailure_reports {ids : List Nat} {i : Nat} {e e' : Ev} (h : motionRead ids e = (e', some i)) :
    e.Reports (motionFailure i e') :=
  (reports_of_faults (faults_of_motionRead h)).trans (fault_quickStop_reports _ _ e')

theorem afterMove_reports (f : Flight) (v : Nat) (e : Ev) : e.Reports (afterMove f v e) := by
  unfold afterMove; dsimp only
  split
  · next hm => exact motionFailure_reports hm
  · next e1 hm =>
    refine (reports_of_faults (faults_of_motionRead hm)).trans (reports_of_faults ?_)
    repeat' split
    all_goals simp

theorem moveStep_reports (sp : Span) (f : Flight) (e : Ev) : e.Reports (moveStep sp f e) := by
  unfold moveStep; dsimp only
  split
  · next hm => exact motionFailure_reports hm
  · next e1 hm =>
    refine (reports_of_faults (faults_of_motionRead hm)).trans ?_
    split
    · next ho => exact reports_of_offer ho
    · next e2 ho => exact (reports_of_offer ho).trans (afterMove_reports _ _ (e2.upd _))

theorem brakeStep_reports (sp : Span) (f : Flight) (e : Ev) : e.Reports (brakeStep sp f e) := by
  have ends (f : Flight) (b : Bool) (e : Ev) : e.Reports (endBraking f b e) :=
    reports_of_faults (endBraking_faults f b e)
  unfold brakeStep; dsimp only
  split
  · split
    · next ho => exact reports_of_offer ho
    · next e1 ho => exact (reports_of_offer ho).trans (ends _ _ (e1.upd _))
  · split
    · next ho => exact reports_of_offer ho
    · next e1 ho =>
      refine (reports_of_offer ho).trans ?_
      split
      · exact ends _ _ (e1.upd _)
      · exact .refl e1

theorem slide_reports (sp : Span) (p : Vec3) (us : List Vec3) (e : Ev) : e.Reports (slide sp p us e).1 := by
  induction us generalizing e with
  | nil =>
    have checked := candidateCheck_reports sp p e
    unfold slide
    generalize candidateCheck sp p e = c at checked ⊢
    match c with
    | (e1, .passes) => exact checked
    | (e1, .fails) => exact checked
    | (e1, .abandoned) => exact checked
  | cons u us ih =>
    have checked := candidateCheck_reports sp (p.add u) e
    unfold slide
    generalize candidateCheck sp (p.add u) e = c at checked ⊢
    match c with
    | (e1, .passes) => exact checked
    | (e1, .fails) => exact checked.trans (ih e1)
    | (e1, .abandoned) => exact checked

theorem jogOffer_reports (sp : Span) (u : Vec3) (e : Ev) : e.Reports (jogOffer sp u e) := by
  have slid := slide_reports sp (posOf e.st) (slideVariants u) e
  unfold jogOffer; dsimp only
  generalize slide sp (posOf e.st) (slideVariants u) e = c at slid ⊢
  match c with
  | (e1, none) => exact slid
  | (e1, some u') =>
    have delivered := slid.trans (deliver_reports sp ((posOf e.st).add u') e1)
    dsimp only
    generalize deliver sp ((posOf e.st).add u') e1 = d at delivered ⊢
    match d with
    | (e2, false) => exact delivered
    | (e2, true) => exact delivered.trans (reports_of_faults (afterJog_faults _))

theorem jogStep_reports (sp : Span) (e : Ev) : e.Reports (jogStep sp e) := by
  unfold jogStep; dsimp only
  split
  · exact jogOffer_reports sp _ e
  · split
    · next hm => exact motionFailure_reports hm
    · next e1 hm =>
      refine (reports_of_faults (faults_of_motionRead hm)).trans ?_
      split
      · exact jogOffer_reports sp _ e1
      · split
        · exact jogOffer_reports sp _ (e1.raise ..)
        · exact jogOffer_reports sp _ e1

theorem pathStep_reports (sp : Span) (e : Ev) : e.Reports (pathStep sp e) := by
  unfold pathStep
  split
  case h_3 | h_4 | h_5 => exact offer_reports sp _ e
  case h_6 =>
    split
    · exact moveStep_reports sp _ e
    · exact .refl e
  case h_7 =>
    split
    · exact brakeStep_reports sp _ e
    · exact .refl e
  case h_8 => exact jogStep_reports sp e
  all_goals exact .refl e

/-! Events of timers and drives. -/

/-- An act leaves the record to reports. -/
def OnlyReports (act : Ev → Ev) : Prop := ∀ e : Ev, e.Reports (act e)

theorem onlyReports_of_faults {act : Ev → Ev} (h : ∀ e, (act e).st.faults = e.st.faults) : OnlyReports act :=
  fun e => reports_of_faults (h e)

theorem stepTimer_reports : OnlyReports stepTimer := by
  intro e
  unfold stepTimer
  split
  · exact pathStep_reports _ e
  · exact .refl e

theorem holdTimer_reports : OnlyReports holdTimer := by
  intro e
  have frames : e.Reports (holdFrames e) := by
    unfold holdFrames
    split
    · exact .refl e
    · exact sendAll_reports _ e
    · exact sendAll_reports _ e
  unfold holdTimer
  split
  · exact .refl e
  · exact frames

theorem monitorTension_reports (w : Winch) (t : Nat) : OnlyReports (monitorTension w t) := by
  intro e
  have halts (c : FaultClass) (e : Ev) : e.Reports (tensionHalt c w e) := by
    unfold tensionHalt
    split
    · exact fault_controlledHalt_reports _ _ e
    · exact .refl e
  have effects (st : TensionStatus) : OnlyReports (tensionEffects w st) := by
    intro e
    cases st with
    | normal => exact .refl e
    | slack => exact halts _ e
    | overload => exact halts _ e
    | critical => exact fault_trip_reports _ _ e
  unfold monitorTension; dsimp only
  split
  · exact .refl e
  · exact effects _ ((e.upd _).raise ..)

theorem judgeDrive_reports (w : Winch) (b : Bool) (st : DriveStatus) : OnlyReports (judgeDrive w b st) := by
  intro e
  unfold judgeDrive
  split
  · exact fault_trip_reports _ _ e
  · exact .refl e

theorem followCheck_reports (w : Winch) (o : Option Sent) (m : Nat) : OnlyReports (followCheck w o m) := by
  intro e
  unfold followCheck
  repeat' split
  · exact fault_controlledHalt_reports _ _ e
  all_goals exact .refl e

theorem takeFeedback_reports (w : Winch) (f : FeedbackFields) (st : DriveStatus) :
    OnlyReports (takeFeedback w f st) := by
  intro e
  have monitored : e.Reports (monitorTension w f.tension (e.upd (onChannel w fun c => c.store f st))) :=
    monitorTension_reports w f.tension (e.upd _)
  unfold takeFeedback; dsimp only
  generalize monitorTension w f.tension _ = e2 at monitored ⊢
  have judged := (monitored.trans (reports_of_faults (feedIfMoved_faults w e.st.drive.brake
    (e.st.drive.channels.get w).measured f.measured e2))).trans (judgeDrive_reports w (registered e.st) st _)
  split
  · exact judged
  · exact judged.trans (followCheck_reports _ _ _ _)

theorem feedbackEvent_reports (w : Winch) (b : Body FeedbackFields) : OnlyReports (feedbackEvent w b) := by
  intro e
  unfold feedbackEvent receiveFeedback
  repeat' split
  · exact .refl e
  · exact .refl e
  · exact takeFeedback_reports w _ _ (e.upd _)
  · exact .refl e

/-! Request frames and events. -/

theorem refuseBusy_faults (l : Link) (t k : Byte) (s : State) : (refuseBusy l t k s).faults = s.faults := by
  unfold refuseBusy; split <;> simp

/-- A request frame leaves the record alone, or its act is carried out and ended. -/
theorem request_faults {α : Type} (k : RequestKind) (r : Req α) (act : α → Ev → Ev) (s : State) :
    s.faults.ReportsTo (request k r act s).faults ∨
      ∃ a e, e.st.faults = s.faults ∧ e.bad = [] ∧ (request k r act s).faults = (finish s.gen.state (act a e)).faults := by
  unfold request; dsimp only
  split
  · exact .inl (.refl _)
  · split
    · exact .inl (reportsTo_of_eq (by simp [refuseBusy_faults]))
    · unfold decideRequest
      split
      · exact .inl (finish_reports _ _)
      · split
        · exact .inl (finish_reports _ _)
        · exact .inr ⟨_, _, rfl, rfl, rfl⟩

theorem request_reports {α : Type} {k : RequestKind} {r : Req α} {act : α → Ev → Ev} (s : State)
    (h : ∀ a, OnlyReports (act a)) : s.faults.ReportsTo (request k r act s).faults := by
  obtain alone | ⟨a, e, start, -, run⟩ := request_faults k r act s
  · exact alone
  · rw [run, ← start]
    exact FaultRecord.ReportsTo.trans (h a e) (finish_reports _ _)

theorem runEvent_reports {act : Ev → Ev} (s : State) (h : OnlyReports act) :
    s.faults.ReportsTo (runEvent s act).faults := by
  unfold runEvent
  split
  · exact .refl _
  · exact FaultRecord.ReportsTo.trans (h (Ev.start s)) (finish_reports _ _)

/-- CLEAR_FAULT leaves the record to reports, or empties it (R195). -/
theorem clearFault_faults (r : Req Unit) (s : State) :
    let t := request .clearFault r (fun _ => clearFault r.link) s
    s.faults.ReportsTo t.faults ∨ t.faults = FaultRecord.empty := by
  refine (request_faults .clearFault r (fun _ => clearFault r.link) s).imp_right ?_
  rintro ⟨-, e, -, sound, run⟩
  rw [run, finish_sound _ (clearFault r.link e) sound]
  rfl

/-! Every command. -/

/-- What a command may make of the Fault Record. -/
def FaultsAfter (i : Instr) (f g : FaultRecord) : Prop :=
  match i with
  | .powerUp | .resetLine => g = FaultRecord.empty
  | .clearFault _ => f.ReportsTo g ∨ g = FaultRecord.empty
  | _ => f.ReportsTo g

theorem exec_faults (i : Instr) (s t : State) (h : exec i s = .next t) : FaultsAfter i s.faults t.faults := by
  have reports {u : State} (hu : s.faults.ReportsTo u.faults)
      (h : (Host.Outcome.next u : Host.Outcome State Fault Refusal) = .next t) : s.faults.ReportsTo t.faults := by
    rw [← next_inj h]; exact hu
  have keep {u : State} (hu : u.faults = s.faults)
      (h : (Host.Outcome.next u : Host.Outcome State Fault Refusal) = .next t) : s.faults.ReportsTo t.faults :=
    reports (reportsTo_of_eq hu) h
  have req {α : Type} {k : RequestKind} {r : Req α} {act : α → Ev → Ev} (ha : ∀ a e, (act a e).st.faults = e.st.faults)
      (h : (Host.Outcome.next (request k r act s) : Host.Outcome State Fault Refusal) = .next t) :
      s.faults.ReportsTo t.faults :=
    reports (request_reports s fun a => onlyReports_of_faults (ha a)) h
  have query {k : RequestKind} {r : Req Unit} {act : Ev → Ev} (hq : ∀ e, (act e).st = e.st)
      (h : (Host.Outcome.next (request k r (fun _ => act) s) : Host.Outcome State Fault Refusal) = .next t) :
      s.faults.ReportsTo t.faults := req (fun _ e => by rw [hq]) h
  have ev {act : Ev → Ev} (ha : OnlyReports act)
      (h : (Host.Outcome.next (runEvent s act) : Host.Outcome State Fault Refusal) = .next t) :
      s.faults.ReportsTo t.faults := reports (runEvent_reports s ha) h
  match i, h with
  | .powerUp, h => rw [← next_inj h]; rfl
  | .resetLine, h => rw [← next_inj h]; rfl
  | .clearFault r, h => rw [← next_inj h]; exact clearFault_faults r s
  | .zoneAdd r, h => exact req (zoneAdd_faults r.link) h
  | .zoneAmend r, h => exact req (zoneAmend_faults r.link) h
  | .zoneRetire r, h => exact req (zoneRetire_faults r.link) h
  | .zoneQuery r, h => exact req (zoneQuery_faults r.link) h
  | .zoneList r, h => exact req (fun _ => zoneList_faults r.link) h
  | .pointLookup r, h => exact req (pointLookup_faults r.link) h
  | .cueStore r, h => exact req (cueStore_faults r.link) h
  | .cueAmend r, h => exact req (cueAmend_faults r.link) h
  | .cueRetire r, h => exact req (cueRetire_faults r.link) h
  | .cueQuery r, h => exact req (cueQuery_faults r.link) h
  | .cueList r, h => exact req (fun _ => cueList_faults r.link) h
  | .goto r, h => exact req (gotoRequest_faults false r.link) h
  | .gotoPriority r, h => exact req (gotoRequest_faults true r.link) h
  | .recall r, h => exact req (recallRequest_faults false r.link) h
  | .recallPriority r, h => exact req (recallRequest_faults true r.link) h
  | .jog r, h => exact req (jog_faults r.link) h
  | .hold r, h => exact req (fun _ => hold_faults r.link) h
  | .resume r, h => exact req (fun _ => resume_faults r.link) h
  | .flushQueue r, h => exact req (flushQueue_faults r.link) h
  | .flushAll r, h => exact req (fun _ => flushAll_faults r.link) h
  | .register r, h => exact req (register_faults r.link) h
  | .release r, h => exact req (fun _ => release_faults r.link) h
  | .motionQuery r, h => exact query (act := motionQuery r.link) (fun _ => rfl) h
  | .setSpan r, h => exact req (setSpan_faults r.link) h
  | .setLimits r, h => exact req (setLimits_faults r.link) h
  | .lock r, h => exact req (fun _ => lock_faults r.link) h
  | .configQuery r, h => exact query (act := configQuery r.link) (fun _ => rfl) h
  | .tensionQuery r, h => exact query (act := tensionQuery r.link) (fun _ => rfl) h
  | .driveQuery r, h => exact query (act := driveQuery r.link) (fun _ => rfl) h
  | .faultQuery r, h => exact query (act := faultQuery r.link) (fun _ => rfl) h
  | .wearQuery r, h => exact req (wearQuery_faults r.link) h
  | .wearLoad r, h =>
    exact req (act := fun f : WearLoadFields => rewriteWear r.link f.winch f.counters)
      (fun _ => rewriteWear_faults _ _ _) h
  | .wearReset r, h => exact req (fun n => rewriteWear_faults r.link n _) h
  | .clearEvents r, h => exact req (clearEvents_faults r.link) h
  | .setNotices r, h => exact req (setNotices_faults r.link) h
  | .eventQuery r, h => exact query (act := eventQuery r.link) (fun _ => rfl) h
  | .unknownRequest l tag kind, h =>
    simp only [exec, execUnknownRequest] at h
    split at h
    · cases h
    · refine keep ?_ h
      unfold takeUnknown; dsimp only
      repeat' split
      all_goals simp [refuseBusy_faults]
  | .consoleFrameDiscard l d, h => refine keep ?_ h; split <;> simp
  | .frameSent l, h => refine keep ?_ h; split <;> simp
  | .stepTimerExpiry, h => exact ev stepTimer_reports h
  | .holdTimerExpiry, h => exact ev holdTimer_reports h
  | .oneSecondTimerExpiry, h => exact ev (onlyReports_of_faults oneSecond_faults) h
  | .deadmanExpiry, h => exact ev (onlyReports_of_faults deadman_faults) h
  | .scrubberTimerExpiry, h => exact ev (onlyReports_of_faults scrub_faults) h
  | .cellVisit, h => exact ev (onlyReports_of_faults cellVisitEvent_faults) h
  | .feedbackFrame w b, h => exact ev (feedbackEvent_reports w b) h
  | .stopAsserted, h =>
    exact reports (runEvent_reports (setStop true s) (onlyReports_of_faults trip_faults)) h
  | .stopReleased, h => exact keep (u := setStop false s) rfl h
  | .endOfReset, h => refine keep ?_ h; split <;> rfl

theorem faultsAfter_law {i : Instr} {f g : FaultRecord} (h : FaultsAfter i f g) (hf : f.law) : g.law := by
  unfold FaultsAfter at h
  split at h
  case h_1 | h_2 => rw [h]; exact FaultRecord.empty_law
  case h_3 => exact h.elim (fun reports => reports.law hf) (fun emptied => emptied ▸ FaultRecord.empty_law)
  case h_4 => exact h.law hf

end Sys2Proof.Machine

section
open Sys2Proof Sys2Proof.Machine

/-- Settles O51: by the cases of `exec_faults`. -/
theorem faultRecordCapturesTheHighest : Obligations.FaultRecordCapturesTheHighest :=
  fun i s t h hs => faultsAfter_law (exec_faults i s t h) hs

end
end

