-- ==== Sys2Proof/Proofs/ClearFault.lean ====
section
/-! SUPPORT. CLEAR_FAULT (R195), and the report of a fault to an empty record (R193). -/

namespace Sys2Proof.Machine

/-- On the safety link CLEAR_FAULT empties the record and is answered OK. -/
theorem exec_clearFault (s : State) (tag : Byte) (free : s.portFree .safety) :
    exec (.clearFault ⟨.safety, tag, .fields ()⟩) s =
      .next (State.answered { s with faults := FaultRecord.empty } .safety tag 0x1C ⟨.ok, false, []⟩) := by
  have run := request_passes .clearFault ⟨.safety, tag, .fields ()⟩ (fun _ => clearFault .safety) s () free (by simp) rfl
  exact congrArg Host.Outcome.next (run.trans
    (finish_upd_reply s .safety tag 0x1C (fun s => { s with faults := FaultRecord.empty }) ⟨.ok, false, []⟩ rfl rfl))

/-- FAULT is raised where the flag of the reported class was clear. -/
theorem reportFault_out_clear {c : FaultClass} (j : FaultSubject) {e : Ev} (h : faultFlag e.st c = false) :
    (reportFault c j e).out = e.out ++ [.raise .fault c.priority 0] := by
  simp [reportFault, h]

theorem faultFlag_empty {s : State} (c : FaultClass) (h : s.faults = FaultRecord.empty) : faultFlag s c = false := by
  have bound : c.priority - 1 < 9 := by have := c.priority_le; omega
  simp [faultFlag, h, FaultRecord.empty, bound]

/-- An empty record that takes a report holds that class's flag alone. -/
theorem empty_reported_flags (new : Captured) (k : Fin 9) :
    (FaultRecord.empty.reported new).flags[k] = decide (k.val + 1 = new.cls.priority) := by
  have := new.cls.priority_pos
  rw [reported_flags]
  by_cases here : k.val + 1 = new.cls.priority
  · rw [if_pos (by omega)]; simp [here]
  · rw [if_neg (by omega)]; simp [FaultRecord.empty, here]

end Sys2Proof.Machine

section
open Sys2Proof Sys2Proof.Machine

/-- Settles O10: the request by its two answers, and the report by what an empty record makes of it. -/
theorem clearFaultEmptiesTheFaultRecord : Obligations.ClearFaultEmptiesTheFaultRecord := by
  refine ⟨fun s tag => ⟨exec_clearFault s tag, fun free => ?_⟩, fun s c j empty => ?_⟩
  · exact congrArg Host.Outcome.next (request_safetyOnly .clearFault _ _ s free rfl rfl)
  · have record : (reportFault c j (Ev.start s)).st.faults = FaultRecord.empty.reported ⟨c, j, faultPosition s⟩ := by
      rw [reportFault_faults, start_st, empty]; rfl
    refine ⟨fun k => ?_, ?_, reportFault_out_clear j (faultFlag_empty c empty)⟩
    · rw [record]; exact empty_reported_flags _ k
    · rw [record]; rfl

end
end

