-- ==== Sys2Proof/Proofs/FlagsAndQueue.lean ====
section
/-! SUPPORT. What every command leaves of the queue of waiting commands and of the set event flags (R204, R206). -/

namespace Sys2Proof.Machine

/-! The queue and the flags as one value, and the acts that leave both alone. -/

/-- The commands that wait and the event flags. -/
def State.queueAndFlags (s : State) : List Instr × Vector (Option Raised) 21 := (s.pending, s.console.flags)

theorem queueAndFlags_of_base {s t : State} (h : t.base = s.base) : t.queueAndFlags = s.queueAndFlags := by
  obtain ⟨hpending, -, hconsole, -, -, -, -, -⟩ := base_eq h
  exact Prod.ext hpending (congrArg Console.flags hconsole)

theorem setSpan_queueAndFlags (l : Link) (sp : Span) (e : Ev) :
    (setSpan l sp e).st.queueAndFlags = e.st.queueAndFlags := by
  have read := queueAndFlags_of_base (readZones_base e)
  have accept (e : Ev) : (acceptSpan l sp e).st.queueAndFlags = e.st.queueAndFlags := by
    rw [acceptSpan, queueAndFlags_of_base (recomputeBlocked_base _), queueAndFlags_of_base (enterUnregistered_base _ _)]
    rfl
  unfold setSpan; dsimp only
  repeat' split
  all_goals simp [accept, read]
theorem setLimits_queueAndFlags (l : Link) (v : Limits) (e : Ev) :
    (setLimits l v e).st.queueAndFlags = e.st.queueAndFlags := by
  unfold setLimits
  repeat' split
  all_goals rfl
theorem lock_queueAndFlags (l : Link) (e : Ev) : (lock l e).st.queueAndFlags = e.st.queueAndFlags := by
  unfold lock; split <;> rfl
theorem rewriteWear_queueAndFlags (l : Link) (n : Nat) (c : Vector Nat 64) (e : Ev) :
    (rewriteWear l n c e).st.queueAndFlags = e.st.queueAndFlags := by
  unfold rewriteWear
  repeat' split
  all_goals rfl
theorem setNotices_queueAndFlags (l : Link) (m : BitVec 32) (e : Ev) :
    (setNotices l m e).st.queueAndFlags = e.st.queueAndFlags := by
  unfold setNotices; split <;> simp [State.queueAndFlags]
theorem scrub_queueAndFlags (e : Ev) : (scrub e).st.queueAndFlags = e.st.queueAndFlags := by
  have item (n : Nat) : (scrubItem n e).st.base = e.st.base := by
    unfold scrubItem
    repeat' split
    all_goals simp
  unfold scrub
  split
  · rfl
  · exact (queueAndFlags_of_base (item e.st.scrubber.position) :)

theorem monitorTension_queueAndFlags (w : Winch) (t : Nat) (e : Ev) :
    (monitorTension w t e).st.queueAndFlags = e.st.queueAndFlags := by
  unfold monitorTension; dsimp only
  split
  · rfl
  · rw [queueAndFlags_of_base (tensionEffects_base _)]; rfl
theorem feedIfMoved_queueAndFlags (w : Winch) (b : Bool) (o : Option Int) (m : Nat) (e : Ev) :
    (feedIfMoved w b o m e).st.queueAndFlags = e.st.queueAndFlags := by
  unfold feedIfMoved feedWear; dsimp only
  repeat' split
  all_goals rfl
theorem takeFeedback_queueAndFlags (w : Winch) (f : FeedbackFields) (st : DriveStatus) (e : Ev) :
    (takeFeedback w f st e).st.queueAndFlags = e.st.queueAndFlags := by
  unfold takeFeedback; dsimp only
  split
  all_goals
    simp only [queueAndFlags_of_base (followCheck_base _ _ _ _), queueAndFlags_of_base (judgeDrive_base _ _ _ _),
      feedIfMoved_queueAndFlags, monitorTension_queueAndFlags]
    rfl
theorem feedbackEvent_queueAndFlags (w : Winch) (b : Body FeedbackFields) (e : Ev) :
    (feedbackEvent w b e).st.queueAndFlags = e.st.queueAndFlags := by
  unfold feedbackEvent receiveFeedback
  repeat' split
  · rfl
  · rfl
  · exact takeFeedback_queueAndFlags w _ _ (e.upd _)
  · rfl

/-! What is carried from one state to another. -/

/-- The waiting commands are the same, and a set flag stands with its subject and qualifier unless it may be cleared. -/
def State.CarriesTo (cleared : Nat → Prop) (s t : State) : Prop :=
  t.pending = s.pending ∧
    ∀ n r, ¬cleared n → s.console.flags[n]? = some (some r) → t.console.flags[n]? = some (some r)

section
variable {cleared : Nat → Prop}

theorem State.CarriesTo.refl (s : State) : s.CarriesTo cleared s := ⟨rfl, fun _ _ _ h => h⟩

theorem State.CarriesTo.trans {s t u : State} (h : s.CarriesTo cleared t) (k : t.CarriesTo cleared u) :
    s.CarriesTo cleared u :=
  ⟨k.1.trans h.1, fun n r hn hs => k.2 n r hn (h.2 n r hn hs)⟩

theorem carriesTo_of_eq {s t : State} (h : t.queueAndFlags = s.queueAndFlags) : s.CarriesTo cleared t := by
  obtain ⟨hpending, hflags⟩ := Prod.ext_iff.1 h
  exact ⟨hpending, fun n r _ hs => (congrArg (·[n]?) hflags).trans hs⟩

theorem onPort_carries (l : Link) (f : Port → Port) (s : State) : s.CarriesTo cleared (onPort l f s) :=
  carriesTo_of_eq (Prod.ext rfl (setPort_flags _ _ _))

/-- Raising a flag changes no flag that is set (R204). -/
theorem raiseFlag_carries (f : EventFlag) (a b : Nat) (s : State) : s.CarriesTo cleared (raiseFlag f a b s) :=
  ⟨raiseFlag_pending f a b s, fun n r _ h => raiseFlag_keeps f a b s n r h⟩

/-- The end of an event clears no flag and takes no command. -/
theorem finish_carries (g : GenState) (e : Ev) : e.st.CarriesTo cleared (finish g e) := by
  have settled : e.st.CarriesTo cleared (settleReads e).st :=
    carriesTo_of_eq (queueAndFlags_of_base (settleReads_base e))
  have queue : (finish g e).pending = (settleReads e).st.pending := by rw [finish_console]
  exact settled.trans ⟨queue, fun n r _ h => foldl_putOut_keeps _ _ n r h⟩

theorem refuseBusy_carries (l : Link) (tag kind : Byte) (s : State) :
    s.CarriesTo cleared (refuseBusy l tag kind s) := by
  unfold refuseBusy
  split
  · exact raiseFlag_carries ..
  · exact onPort_carries ..

/-- A request frame carries what its act carries (R200). -/
theorem request_carries {α : Type} {k : RequestKind} {r : Req α} {act : α → Ev → Ev} (s : State)
    (h : ∀ a, r.body = .fields a → ∀ e : Ev, e.st.CarriesTo cleared (act a e).st) :
    s.CarriesTo cleared (request k r act s) := by
  have frame : s.CarriesTo cleared (frameTaken r.link s) := onPort_carries ..
  have taken : s.CarriesTo cleared (takeRequest r.link r.tag (kindCode k) (frameTaken r.link s)) :=
    frame.trans (onPort_carries ..)
  unfold request; dsimp only
  split
  · exact .refl s
  · split
    · exact frame.trans (refuseBusy_carries ..)
    · refine taken.trans (.trans ?_ (finish_carries ..))
      unfold decideRequest
      split
      · exact .refl _
      · split
        · exact .refl _
        · next a ha => exact h a ha (Ev.start _)

theorem runEvent_carries {act : Ev → Ev} (s : State) (h : ∀ e : Ev, e.st.CarriesTo cleared (act e).st) :
    s.CarriesTo cleared (runEvent s act) := by
  unfold runEvent
  split
  · exact .refl s
  · exact (h (Ev.start s)).trans (finish_carries ..)

theorem takeUnknown_carries (l : Link) (tag kind : Byte) (s : State) :
    s.CarriesTo cleared (takeUnknown l tag kind s) := by
  have frame : s.CarriesTo cleared (frameTaken l s) := onPort_carries ..
  unfold takeUnknown; dsimp only
  split
  · exact .refl s
  · split
    · exact frame.trans (refuseBusy_carries ..)
    · exact frame.trans (onPort_carries ..)

end

/-! The commands that clear flags. -/

/-- The flags a command may clear: a reset all of them, CLEAR_EVENTS those it names (R204, R206). -/
def clearedBy : Instr → Nat → Prop
  | .powerUp, _ | .resetLine, _ => True
  | .clearEvents r, n => ∃ m, r.body = .fields m ∧ m.getLsbD n = true
  | _, _ => False

/-- CLEAR_EVENTS leaves the flags that its mask does not name (R206). -/
theorem clearEvents_carries (l : Link) (m : BitVec 32) (e : Ev) :
    e.st.CarriesTo (fun n => m.getLsbD n = true) (clearEvents l m e).st := by
  unfold clearEvents
  split
  · exact .refl _
  · simp only [ok_st, upd_st]
    refine ⟨rfl, fun n r hn h => ?_⟩
    obtain ⟨bound, set⟩ := Vector.getElem?_eq_some_iff.1 h
    simp [clearFlags, bound, hn, set]

theorem State.CarriesTo.mono {c d : Nat → Prop} {s t : State} (h : s.CarriesTo c t) (hcd : ∀ n, c n → d n) :
    s.CarriesTo d t :=
  ⟨h.1, fun n r hn => h.2 n r fun hc => hn (hcd n hc)⟩

/-! Every command. -/

theorem exec_carries (i : Instr) (s t : State) (h : exec i s = .next t) : s.CarriesTo (clearedBy i) t := by
  have keep {c : Nat → Prop} {u : State} (hu : s.CarriesTo c u)
      (h : (Host.Outcome.next u : Host.Outcome State Fault Refusal) = .next t) : s.CarriesTo c t := by
    rw [← next_inj h]; exact hu
  have req {c : Nat → Prop} {α : Type} {k : RequestKind} {r : Req α} {act : α → Ev → Ev}
      (ha : ∀ a e, (act a e).st.queueAndFlags = e.st.queueAndFlags)
      (h : (Host.Outcome.next (request k r act s) : Host.Outcome State Fault Refusal) = .next t) : s.CarriesTo c t :=
    keep (request_carries s fun a _ e => carriesTo_of_eq (ha a e)) h
  have reqBase {c : Nat → Prop} {α : Type} {k : RequestKind} {r : Req α} {act : α → Ev → Ev}
      (ha : ∀ a e, (act a e).st.base = e.st.base)
      (h : (Host.Outcome.next (request k r act s) : Host.Outcome State Fault Refusal) = .next t) : s.CarriesTo c t :=
    req (fun a e => queueAndFlags_of_base (ha a e)) h
  have query {c : Nat → Prop} {k : RequestKind} {r : Req Unit} {act : Ev → Ev} (hq : ∀ e, (act e).st = e.st)
      (h : (Host.Outcome.next (request k r (fun _ => act) s) : Host.Outcome State Fault Refusal) = .next t) :
      s.CarriesTo c t := req (fun _ e => by rw [hq]) h
  have ev {c : Nat → Prop} {act : Ev → Ev} (ha : ∀ e, (act e).st.queueAndFlags = e.st.queueAndFlags)
      (h : (Host.Outcome.next (runEvent s act) : Host.Outcome State Fault Refusal) = .next t) : s.CarriesTo c t :=
    keep (runEvent_carries s fun e => carriesTo_of_eq (ha e)) h
  have evBase {c : Nat → Prop} {act : Ev → Ev} (ha : ∀ e, (act e).st.base = e.st.base)
      (h : (Host.Outcome.next (runEvent s act) : Host.Outcome State Fault Refusal) = .next t) : s.CarriesTo c t :=
    ev (fun e => queueAndFlags_of_base (ha e)) h
  match i, h with
  | .powerUp, h => rw [← next_inj h]; exact ⟨rfl, fun _ _ hn => absurd trivial hn⟩
  | .resetLine, h => rw [← next_inj h]; exact ⟨rfl, fun _ _ hn => absurd trivial hn⟩
  | .clearEvents r, h =>
    exact keep (request_carries s fun m hm e => (clearEvents_carries r.link m e).mono fun n hn => ⟨m, hm, hn⟩) h
  | .setNotices r, h => exact req (setNotices_queueAndFlags r.link) h
  | .eventQuery r, h => exact query (act := eventQuery r.link) (fun _ => rfl) h
  | .unknownRequest l tag kind, h =>
    simp only [exec, execUnknownRequest] at h
    split at h
    · cases h
    · exact keep (takeUnknown_carries l tag kind s) h
  | .consoleFrameDiscard l d, h =>
    refine keep ?_ h
    split
    · exact .refl s
    · exact (onPort_carries ..).trans (raiseFlag_carries ..)
  | .frameSent l, h =>
    refine keep ?_ h
    split
    · exact .refl s
    · exact onPort_carries ..
  | .zoneAdd r, h => exact reqBase (zoneAdd_base r.link) h
  | .zoneAmend r, h => exact reqBase (zoneAmend_base r.link) h
  | .zoneRetire r, h => exact reqBase (zoneRetire_base r.link) h
  | .zoneQuery r, h => exact reqBase (zoneQuery_base r.link) h
  | .zoneList r, h => exact reqBase (fun _ => zoneList_base r.link) h
  | .pointLookup r, h => exact reqBase (pointLookup_base r.link) h
  | .cueStore r, h => exact reqBase (cueStore_base r.link) h
  | .cueAmend r, h => exact reqBase (cueAmend_base r.link) h
  | .cueRetire r, h => exact reqBase (cueRetire_base r.link) h
  | .cueQuery r, h => exact reqBase (cueQuery_base r.link) h
  | .cueList r, h => exact reqBase (fun _ => cueList_base r.link) h
  | .goto r, h => exact reqBase (gotoRequest_base false r.link) h
  | .gotoPriority r, h => exact reqBase (gotoRequest_base true r.link) h
  | .recall r, h => exact reqBase (recallRequest_base false r.link) h
  | .recallPriority r, h => exact reqBase (recallRequest_base true r.link) h
  | .jog r, h => exact reqBase (jog_base r.link) h
  | .hold r, h => exact reqBase (fun _ => hold_base r.link) h
  | .resume r, h => exact reqBase (fun _ => resume_base r.link) h
  | .flushQueue r, h => exact reqBase (flushQueue_base r.link) h
  | .flushAll r, h => exact reqBase (fun _ => flushAll_base r.link) h
  | .register r, h => exact reqBase (register_base r.link) h
  | .release r, h => exact reqBase (fun _ => release_base r.link) h
  | .motionQuery r, h => exact query (act := motionQuery r.link) (fun _ => rfl) h
  | .setSpan r, h => exact req (setSpan_queueAndFlags r.link) h
  | .setLimits r, h => exact req (setLimits_queueAndFlags r.link) h
  | .lock r, h => exact req (fun _ => lock_queueAndFlags r.link) h
  | .configQuery r, h => exact query (act := configQuery r.link) (fun _ => rfl) h
  | .tensionQuery r, h => exact query (act := tensionQuery r.link) (fun _ => rfl) h
  | .driveQuery r, h => exact query (act := driveQuery r.link) (fun _ => rfl) h
  | .faultQuery r, h => exact query (act := faultQuery r.link) (fun _ => rfl) h
  | .clearFault r, h => exact req (act := fun _ => clearFault r.link) (fun _ _ => rfl) h
  | .wearQuery r, h => exact reqBase (wearQuery_base r.link) h
  | .wearLoad r, h =>
    exact req (act := fun f : WearLoadFields => rewriteWear r.link f.winch f.counters)
      (fun _ => rewriteWear_queueAndFlags _ _ _) h
  | .wearReset r, h => exact req (fun n => rewriteWear_queueAndFlags r.link n _) h
  | .stepTimerExpiry, h => exact evBase stepTimer_base h
  | .holdTimerExpiry, h => exact evBase holdTimer_base h
  | .oneSecondTimerExpiry, h => exact evBase oneSecond_base h
  | .deadmanExpiry, h => exact evBase deadman_base h
  | .scrubberTimerExpiry, h => exact ev scrub_queueAndFlags h
  | .cellVisit, h => exact evBase cellVisitEvent_base h
  | .feedbackFrame w b, h => exact ev (feedbackEvent_queueAndFlags w b) h
  | .stopAsserted, h =>
    refine keep (.trans (t := setStop true s) (carriesTo_of_eq rfl) ?_) h
    exact runEvent_carries _ fun e => carriesTo_of_eq (queueAndFlags_of_base (trip_base e))
  | .stopReleased, h => exact keep (u := setStop false s) (carriesTo_of_eq rfl) h
  | .endOfReset, h =>
    refine keep ?_ h
    split
    · exact carriesTo_of_eq rfl
    · exact .refl s

/-- A reset apart, a command may clear no flag but those that a CLEAR_EVENTS names (R206). -/
theorem not_clearedBy {i : Instr} {n : Nat} (hb : beginsReset i = false)
    (hc : ∀ l tag m, i = .clearEvents ⟨l, tag, .fields m⟩ → m.getLsbD n = false) : ¬clearedBy i n := by
  unfold clearedBy
  split
  · cases hb
  · cases hb
  · next r =>
    rintro ⟨m, hm, named⟩
    rw [hc r.link r.tag m (by rw [← hm])] at named
    cases named
  · exact id

/-- No command but an UNKNOWN_REQUEST with a request kind is refused (R200). -/
theorem exec_next_or_known (i : Instr) (s : State) :
    (∃ t, exec i s = .next t) ∨ ∃ l tag kind, i = .unknownRequest l tag kind ∧ isRequestKind kind = true := by
  cases i
  case unknownRequest l tag kind =>
    simp only [exec, execUnknownRequest]
    cases hk : isRequestKind kind with
    | false => exact .inl ⟨_, rfl⟩
    | true => exact .inr ⟨l, tag, kind, rfl, hk⟩
  all_goals exact .inl ⟨_, rfl⟩

end Sys2Proof.Machine

section
open Sys2Proof Sys2Proof.Machine

/-- Settles O9: by the cases of `exec_carries`. -/
theorem flagsStandUntilCleared : Obligations.FlagsStandUntilCleared := by
  intro i s t n r h hb hc hset
  have carried := (exec_carries i s t h).2 n r (not_clearedBy hb hc)
  simpa using carried (by simpa using hset)

/-- Settles O2: a well-formed command is no refused frame, and the queue is part of what `exec_carries` carries. -/
theorem everyCommandRunsAndKeepsTheQueue : Obligations.EveryCommandRunsAndKeepsTheQueue := by
  refine ⟨⟨fun i s hwf => ?_, fun l tag kind s hk => ?_⟩, fun i s t h => (exec_carries i s t h).1⟩
  · refine (exec_next_or_known i s).resolve_right ?_
    rintro ⟨l, tag, kind, rfl, known⟩
    simp [Instr.wf, known] at hwf
  · exact if_pos hk

end
end

