-- ==== Sys2Proof/Proofs/PortDecisions.lean ====
section
/-! SUPPORT. What the Console Ports decide themselves: the frames of a free and of a busy port (R197, R200 to R202),
discarded frames, and the frame that follows one that has left (R196, R198). -/

namespace Sys2Proof.Machine

/-! A request command as a request frame of its kind. -/

/-- A command is carried out as a request frame of a kind, on a link and with a tag; `bad` says whether its body has the
wrong form. -/
def RunsAsRequest (c : Instr) (l : Link) (tag : Byte) (k : RequestKind) (bad : Bool) : Prop :=
  ∃ (α : Type) (r : Req α) (act : α → Ev → Ev),
    (∀ s, exec c s = .next (request k r act s)) ∧ r.link = l ∧ r.tag = tag ∧ r.body.isMalformed = bad

/-- Every request command is one (section 12.6). -/
theorem runsAsRequest {c : Instr} {l : Link} {tag : Byte} {k : RequestKind} (h : requestOf c = some (l, tag, k)) :
    RunsAsRequest c l tag k (malformedRequest c) := by
  cases c <;> cases h <;> exact ⟨_, _, _, fun _ => rfl, rfl, rfl, rfl⟩

theorem isMalformed_iff {α : Type} (b : Body α) : b.isMalformed = true ↔ b = .malformed := by
  cases b <;> simp [Body.isMalformed]

/-- The six kinds of the table of R201. -/
theorem safetyOnly_iff (k : RequestKind) :
    safetyOnly k = true ↔ k ∈ [RequestKind.release, .lock, .setLimits, .clearFault, .wearLoad, .wearReset] := by
  cases k <;> decide

/-- A request whose body has the wrong form is refused BAD_FIELD with the field FORM (R200, item 4). -/
theorem request_malformed {α : Type} (k : RequestKind) (r : Req α) (act : α → Ev → Ev) (s : State)
    (h : s.portFree r.link) (hk : ¬(safetyOnly k = true ∧ r.link = .operations)) (hb : r.body = .malformed) :
    request k r act s = s.answered r.link r.tag (kindCode k) ⟨.badField, false, [[0]]⟩ := by
  rw [request_free k r act s h, decide_malformed k r act _ hk hb]
  exact finish_reply s r.link r.tag (kindCode k) _

theorem exec_reserved {c : Instr} {l : Link} {tag : Byte} {k : RequestKind} {bad : Bool} {s : State}
    (hc : RunsAsRequest c l tag k bad) (free : s.portFree l) (hl : l = .operations) (hk : safetyOnly k = true) :
    exec c s = .next (s.answered l tag (kindCode k) ⟨.safetyOnly, false, []⟩) := by
  obtain ⟨α, r, act, run, rfl, rfl, -⟩ := hc
  rw [run, request_safetyOnly k r act s free hk hl]

theorem exec_malformed {c : Instr} {l : Link} {tag : Byte} {k : RequestKind} {s : State}
    (hc : RunsAsRequest c l tag k true) (free : s.portFree l) (hk : ¬(safetyOnly k = true ∧ l = .operations)) :
    exec c s = .next (s.answered l tag (kindCode k) ⟨.badField, false, [[0]]⟩) := by
  obtain ⟨α, r, act, run, rfl, rfl, bad⟩ := hc
  rw [run, request_malformed k r act s free hk ((isMalformed_iff _).1 bad)]

/-! Frames that join a port's transmit list as its receiver hunts again. -/

theorem enqueue_hunting (f : Frame) (p : Port) :
    ({ p with receiver := .hunting } : Port).enqueue f = { p.enqueue f with receiver := .hunting } := by
  unfold Port.enqueue
  cases p.sending <;> rfl

theorem frameTaken_inProgress (l : Link) (s : State) :
    ((frameTaken l s).console.port l).inProgress = (s.console.port l).inProgress := by
  simp [frameTaken]
theorem frameTaken_busyWaiting (l : Link) (s : State) :
    ((frameTaken l s).console.port l).busyWaiting = (s.console.port l).busyWaiting := by
  simp [frameTaken, Port.busyWaiting]

/-- A complete frame to which the port answers with one frame at once. -/
theorem frameTaken_enqueue (l : Link) (f : Frame) (s : State) :
    onPort l (fun p => p.enqueue f) (frameTaken l s) =
      onPort l (fun p => { p.enqueue f with receiver := .hunting }) s := by
  simp only [frameTaken, onPort_onPort, enqueue_hunting]

/-- A free port answers a frame of no request kind UNKNOWN_REQUEST (R200, item 2). -/
theorem exec_unknown_free {s : State} {l : Link} (tag : Byte) {kind : Byte} (free : s.portFree l)
    (hk : isRequestKind kind = false) :
    exec (.unknownRequest l tag kind) s =
      .next (onPort l (fun p =>
        { p.enqueue ⟨.answer, tag, 0x80, [0x03, 0x00, kind]⟩ with receiver := .hunting }) s) := by
  obtain ⟨running, idle⟩ := free
  have frames : answerFrames .answer tag 0x80 (unknownAnswer kind) = [⟨.answer, tag, 0x80, [0x03, 0x00, kind]⟩] :=
    answerFrames_short .answer tag 0x80 (unknownAnswer kind) (by simp [unknownAnswer, detailRoom])
  simp only [exec, execUnknownRequest, hk, takeUnknown, running, frameTaken_inProgress, idle, Option.isSome_none,
    Bool.false_eq_true, if_false, frames, List.foldl_cons, List.foldl_nil, frameTaken_enqueue]

/-! A frame that a busy port does not take (R200 item 1). -/

theorem refuseBusy_answers (l : Link) (tag kind : Byte) (s : State) (h : (s.console.port l).busyWaiting < 8) :
    refuseBusy l tag kind (frameTaken l s) =
      onPort l (fun p => { p.enqueue ⟨.busy, tag, kind, [0x01, 0x00]⟩ with receiver := .hunting }) s := by
  have frames : answerFrames .busy tag kind ⟨.portBusy, false, []⟩ = [⟨.busy, tag, kind, [0x01, 0x00]⟩] :=
    answerFrames_short .busy tag kind ⟨.portBusy, false, []⟩ (by decide)
  simp only [refuseBusy, frameTaken_busyWaiting, Nat.not_le.2 h, if_false, frames, List.foldl_cons, List.foldl_nil,
    frameTaken_enqueue]

/-- With eight PORT_BUSY answers waiting the frame is discarded (R197, R198). -/
theorem refuseBusy_discards (l : Link) (tag kind : Byte) (s : State) (h : 8 ≤ (s.console.port l).busyWaiting) :
    refuseBusy l tag kind (frameTaken l s) = raiseFlag (.linkError l) 0 4 (frameTaken l s) := by
  simp only [refuseBusy, frameTaken_busyWaiting, h, if_true]

/-- The frames a busy port does not take, each with the kind of its PORT_BUSY answer: a request frame, and a frame of no
request kind, for which it is a free value (R200, R202). -/
theorem exec_busy {c : Instr} {s : State} {l : Link} {tag kind : Byte}
    (hc : (∃ k, requestOf c = some (l, tag, k) ∧ kind = kindCode k + 0x80) ∨
      ∃ k, c = .unknownRequest l tag k ∧ isRequestKind k = false ∧ kind = Config.busyKindOfUnknown k)
    (running : s.resetting = false) (busy : (s.console.port l).inProgress.isSome = true) :
    exec c s = .next (refuseBusy l tag kind (frameTaken l s)) := by
  obtain ⟨k, hk, rfl⟩ | ⟨k, rfl, hk, rfl⟩ := hc
  · obtain ⟨α, r, act, run, rfl, rfl, -⟩ := runsAsRequest hk
    rw [run, request_busy k r act s running busy, answerKind_eq]
  · simp only [exec, execUnknownRequest, hk, takeUnknown, running, frameTaken_inProgress, busy, Bool.false_eq_true,
      if_false, if_true]

/-! The ports' own events (R196, R198). -/

theorem exec_consoleFrameDiscard {s : State} (l : Link) (reason : DiscardReason) (running : s.resetting = false) :
    exec (.consoleFrameDiscard l reason) s =
      .next (raiseFlag (.linkError l) 0 (discardCode reason) (frameTaken l s)) := by
  simp only [exec, execConsoleFrameDiscard, running, Bool.false_eq_true, if_false]

theorem exec_frameSent {s : State} {l : Link} {f : Frame} (running : s.resetting = false)
    (sending : (s.console.port l).sending = some f) : exec (.frameSent l) s = .next (onPort l Port.frameSent s) := by
  simp only [exec, execFrameSent, running, sending, Option.isNone_some, Bool.false_eq_true, or_self, if_false]

/-- The first frame that waits is sent, and the others keep their order. -/
theorem frameSent_eq (p : Port) : p.frameSent = { p with sending := p.waiting.head?, waiting := p.waiting.tail } := by
  obtain ⟨receiver, inProgress, sending, waiting, enables⟩ := p
  cases waiting <;> rfl

end Sys2Proof.Machine

section
open Sys2Proof Sys2Proof.Machine

/-- Settles O5: a free port's own refusals, and the two ways of a busy port. -/
theorem portsDecideFreeAndBusy : Obligations.PortsDecideFreeAndBusy := by
  refine ⟨fun s l tag kind free hk => exec_unknown_free tag free hk, fun c s l tag k hc free => ⟨?reserved, ?form⟩,
    fun c s l tag kind hc running busy => ⟨fun room => ?answered, fun full => ?discarded⟩⟩
  case reserved =>
    exact fun hl hk => exec_reserved (runsAsRequest hc) free hl ((safetyOnly_iff k).2 hk)
  case form =>
    intro hk bad
    exact exec_malformed (bad ▸ runsAsRequest hc) free fun ⟨reserved, hl⟩ => hk hl ((safetyOnly_iff k).1 reserved)
  case answered => rw [exec_busy hc running busy, refuseBusy_answers l tag kind s room]
  case discarded => rw [exec_busy hc running busy, refuseBusy_discards l tag kind s full]; rfl

/-- Settles O6. -/
theorem linkEventsRaiseTheFlagAndSendOn : Obligations.LinkEventsRaiseTheFlagAndSendOn := by
  refine ⟨fun s l reason running => ?_, fun s l f running sending => ?_⟩
  · rw [exec_consoleFrameDiscard l reason running]
    cases reason <;> rfl
  · rw [exec_frameSent running sending, funext frameSent_eq]

end
end

