-- ==== Sys2Proof/Proofs/AnswerParts.lean ====
section
/-! SUPPORT. The parts of an answer (R202, R203): how the details are split, and the frames of the parts. -/

namespace Sys2Proof.Machine

theorem splitDetails_ne_nil (us : List (List Byte)) (part : List Byte) : splitDetails us part ≠ [] := by
  induction us generalizing part with
  | nil => simp [splitDetails]
  | cons u us ih =>
    unfold splitDetails
    split
    · exact ih _
    · simp

/-- The parts hold the details in their order. -/
theorem splitDetails_flatten (us : List (List Byte)) (part : List Byte) :
    (splitDetails us part).flatten = part ++ us.flatten := by
  induction us generalizing part with
  | nil => simp [splitDetails]
  | cons u us ih =>
    unfold splitDetails
    split <;> simp [ih]

/-- Details that fit one frame each are split into parts that fit. -/
theorem splitDetails_fit {us : List (List Byte)} {part : List Byte} (hu : ∀ u ∈ us, u.length ≤ detailRoom)
    (hp : part.length ≤ detailRoom) : ∀ d ∈ splitDetails us part, d.length ≤ detailRoom := by
  induction us generalizing part with
  | nil => simpa [splitDetails] using hp
  | cons u us ih =>
    obtain ⟨first, rest⟩ := List.forall_mem_cons.1 hu
    unfold splitDetails
    split
    · next room => exact ih rest (by simpa using room)
    · exact List.forall_mem_cons.2 ⟨hp, ih rest first⟩

/-- All frames but the last are CONTINUED (R203). -/
theorem partFrames_concat (role : FrameRole) (tag kind : Byte) (a : Answer) (init : List (List Byte)) (last : List Byte) :
    partFrames role tag kind a (init ++ [last]) =
      (init.map fun d => ⟨role, tag, kind, a.code.value :: answerMarker a.clamped true :: d⟩) ++
        [⟨role, tag, kind, a.code.value :: answerMarker a.clamped false :: last⟩] := by
  induction init with
  | nil => rfl
  | cons d init ih =>
    rw [List.cons_append, partFrames, ih, List.map_cons, List.cons_append]
    simp

theorem answerMarker_continued (clamped : Bool) : answerMarker clamped true = if clamped then 3 else 2 := by
  cases clamped <;> rfl
theorem answerMarker_last (clamped : Bool) : answerMarker clamped false = if clamped then 1 else 0 := by
  cases clamped <;> rfl

end Sys2Proof.Machine

section
open Sys2Proof Sys2Proof.Machine

/-- Settles O7: the parts but the last, and the last. -/
theorem answerIsSplitIntoParts : Obligations.AnswerIsSplitIntoParts := by
  intro tag kind a fit
  obtain ⟨init, last, parts⟩ := (List.eq_nil_or_concat' _).resolve_left (splitDetails_ne_nil a.details [])
  have fits : ∀ d ∈ init ++ [last], d.length ≤ detailRoom := parts ▸ splitDetails_fit fit (Nat.zero_le _)
  have whole : (init ++ [last]).flatten = a.details.flatten := parts ▸ splitDetails_flatten a.details []
  refine ⟨init, last, ?_, fun d hd => fits d (by simp [hd]), fits last (by simp), by simpa using whole⟩
  rw [answerFrames, parts, partFrames_concat, answerMarker_continued, answerMarker_last]
  rfl

end
end

