-- ==== Sys2Proof/Proofs/EventFlags.lean ====
section
/-! SUPPORT. The notices of a raised flag (R198, R205), the masks of CLEAR_EVENTS and SET_NOTICES (R206, R207), and the
report of EVENT_QUERY (R208). -/

namespace Sys2Proof.Machine

/-! Notices. -/

/-- A port is notified of a newly set flag where its enable is set, in the place of a notice that still waits (R198,
R205). -/
theorem notifyEnabled_eq (flag subject qualifier : Nat) (p : Port) :
    p.notifyEnabled flag subject qualifier =
      if p.enables.getLsbD flag = false then p
      else if ∃ g ∈ p.waiting, g.role = .notice flag then
        { p with waiting := p.waiting.map fun g =>
            if g.role = .notice flag then noticeFrame flag subject qualifier else g }
      else p.enqueue (noticeFrame flag subject qualifier) := by
  unfold Port.notifyEnabled
  cases p.enables.getLsbD flag with
  | false => rfl
  | true => simp [Port.notify]

theorem raiseFlag_clear_port (f : EventFlag) (a b : Nat) (s : State) (l : Link)
    (h : s.console.flags[f.number]? = some none) :
    (raiseFlag f a b s).console.port l = (s.console.port l).notifyEnabled f.number a b := by
  rw [raiseFlag_clear f a b s h]
  cases l <;> rfl

/-! Masks. -/

/-- A mask that is added up from its bits stays below the power of the next bit, and has the bits that were added. -/
theorem bitSum_bits (p : Nat → Bool) (n : Nat) :
    let sum := (List.range n).foldl (fun acc i => if p i then acc + 2 ^ i else acc) 0
    sum < 2 ^ n ∧ ∀ j < n, sum.testBit j = p j := by
  induction n with
  | zero => simp
  | succ n ih =>
    simp only [List.range_succ, List.foldl_append, List.foldl_cons, List.foldl_nil]
    generalize (List.range n).foldl _ 0 = low at ih ⊢
    obtain ⟨bound, bits⟩ := ih
    have next : 2 ^ (n + 1) = 2 ^ n + 2 ^ n := by rw [Nat.pow_succ, Nat.mul_two]
    have top : low.testBit n = false := Nat.testBit_lt_two_pow bound
    refine ⟨by split <;> omega, fun j hj => ?_⟩
    obtain below | rfl := Nat.lt_succ_iff_lt_or_eq.1 hj
    · rw [← bits j below, Nat.add_comm, apply_ite (Nat.testBit · j), Nat.testBit_two_pow_add_gt below, ite_self]
    · rw [Nat.add_comm, apply_ite (Nat.testBit · j), Nat.testBit_two_pow_add_eq, top]
      cases p j <;> rfl

/-- Each bit of the mask of the set flags (R206). -/
theorem setFlags_getLsbD (flags : Vector (Option Raised) 21) (n : Fin 21) :
    (setFlags flags).getLsbD n = flags[n].isSome := by
  obtain ⟨-, bits⟩ := bitSum_bits (fun i => (flags.toList.getD i none).isSome) 21
  have fits : n.val < 32 := Nat.lt_trans n.isLt (by decide)
  rw [setFlags, BitVec.getLsbD_ofNat, bits n n.isLt]
  simp [fits]

/-- A mask has a bit above bit 20 exactly where its value reaches bit 21. -/
theorem maskTooHigh_eq (m : BitVec 32) : maskTooHigh m = decide (2 ^ 21 ≤ m.toNat) := by
  rw [Bool.eq_iff_iff]
  simp [maskTooHigh, ← BitVec.toNat_inj, Nat.shiftRight_eq_div_pow]

/-- The answer of CLEAR_EVENTS: the mask of the named flags that were set (R206). -/
theorem clearedMask_bits (flags : Vector (Option Raised) 21) {m : BitVec 32} (hm : m.toNat < 2 ^ 21) :
    (setFlags flags &&& m).toNat < 2 ^ 21 ∧
      ∀ n : Fin 21, (setFlags flags &&& m).toNat.testBit n = (m.getLsbD n && flags[n].isSome) := by
  refine ⟨?_, fun n => ?_⟩
  · rw [BitVec.toNat_and]; exact Nat.lt_of_le_of_lt Nat.and_le_right hm
  · rw [← setFlags_getLsbD flags n, Bool.and_comm, ← BitVec.getLsbD_and]; rfl

/-! The three requests. -/

/-- The state with other event flags. -/
def State.withFlags (s : State) (flags : Vector (Option Raised) 21) : State :=
  { s with console := { s.console with flags := flags } }

/-- The flags and a port are written independently. -/
theorem onPort_withFlags (l : Link) (f : Port → Port) (s : State) (flags : Vector (Option Raised) 21) :
    (onPort l f s).withFlags flags = onPort l f (s.withFlags flags) := by
  cases l <;> rfl

theorem clearEvents_low (l : Link) {m : BitVec 32} (hm : m.toNat < 2 ^ 21) (e : Ev) :
    clearEvents l m e =
      (e.upd fun s => s.withFlags (clearFlags m s.console.flags)).reply l
        ⟨.ok, false, [le32 (setFlags e.st.console.flags &&& m).toNat]⟩ := by
  have named : maskTooHigh m = false := by simpa [maskTooHigh_eq] using hm
  rw [clearEvents, named]
  rfl

theorem exec_clearEvents {s : State} {l : Link} (tag : Byte) {m : BitVec 32} (free : s.portFree l)
    (hm : m.toNat < 2 ^ 21) :
    exec (.clearEvents ⟨l, tag, .fields m⟩) s =
      .next ((s.withFlags (clearFlags m s.console.flags)).answered l tag 0x20
        ⟨.ok, false, [le32 (setFlags s.console.flags &&& m).toNat]⟩) := by
  have run := request_passes .clearEvents ⟨l, tag, .fields m⟩ (clearEvents l) s m free (by simp [safetyOnly]) rfl
  refine congrArg Host.Outcome.next (run.trans ?_)
  have flags : (s.taken l tag 0x20).console.flags = s.console.flags := setPort_flags ..
  rw [clearEvents_low l hm, start_st, show kindCode .clearEvents = 0x20 from rfl, flags]
  refine finish_upd_reply s l tag 0x20 (fun s => s.withFlags (clearFlags m s.console.flags)) _ ?_ rfl
  rw [flags]
  exact onPort_withFlags ..

theorem exec_setNotices {s : State} {l : Link} (tag : Byte) {m : BitVec 32} (free : s.portFree l)
    (hm : m.toNat < 2 ^ 21) :
    exec (.setNotices ⟨l, tag, .fields m⟩) s =
      .next (State.answered (onPort l (fun p => { p with enables := m.setWidth 21 }) s) l tag 0x21
        ⟨.ok, false, [le32 m.toNat]⟩) := by
  have run := request_passes .setNotices ⟨l, tag, .fields m⟩ (setNotices l) s m free (by simp [safetyOnly]) rfl
  refine congrArg Host.Outcome.next (run.trans ?_)
  have named : maskTooHigh m = false := by simpa [maskTooHigh_eq] using hm
  simp only [setNotices, named, Bool.false_eq_true, if_false]
  exact finish_upd_reply s l tag 0x21 _ _ (by simp [State.taken]) rfl

/-- A mask with a bit above bit 20 is refused (R206, R207). -/
theorem exec_highMask {s : State} {l : Link} (tag : Byte) {m : BitVec 32} (free : s.portFree l)
    (hm : 2 ^ 21 ≤ m.toNat) :
    exec (.clearEvents ⟨l, tag, .fields m⟩) s = .next (s.answered l tag 0x20 ⟨.badField, false, [[1]]⟩) ∧
      exec (.setNotices ⟨l, tag, .fields m⟩) s = .next (s.answered l tag 0x21 ⟨.badField, false, [[1]]⟩) := by
  have high : maskTooHigh m = true := by simpa [maskTooHigh_eq] using hm
  have clear := request_passes .clearEvents ⟨l, tag, .fields m⟩ (clearEvents l) s m free (by simp [safetyOnly]) rfl
  have notices := request_passes .setNotices ⟨l, tag, .fields m⟩ (setNotices l) s m free (by simp [safetyOnly]) rfl
  simp only [clearEvents, high, if_true] at clear
  simp only [setNotices, high, if_true] at notices
  exact ⟨congrArg Host.Outcome.next (clear.trans (finish_reply s l tag 0x20 _)),
    congrArg Host.Outcome.next (notices.trans (finish_reply s l tag 0x21 _))⟩

/-- EVENT_QUERY answers with a report of each flag, however the report is written, and with the enables of both ports
(R208). -/
theorem exec_eventQuery {s : State} {l : Link} (tag : Byte) (free : s.portFree l) {report : Option Raised → List Byte}
    (written : ∀ o, flagReport o = report o) :
    exec (.eventQuery ⟨l, tag, .fields ()⟩) s =
      .next (s.answered l tag 0x22 ⟨.ok, false,
        s.console.flags.toList.map report ++
          [le32 s.console.operations.enables.toNat, le32 s.console.safety.enables.toNat]⟩) := by
  obtain rfl : flagReport = report := funext written
  refine congrArg Host.Outcome.next (query_answers .eventQuery l tag s (fun s => s.console.flags.toList.map flagReport ++
    [le32 s.console.operations.enables.toNat, le32 s.console.safety.enables.toNat]) free rfl ?_)
  cases l <;> rfl

end Sys2Proof.Machine

section
open Sys2Proof Sys2Proof.Machine

/-- Settles O8: a raised flag, and the requests by their masks. -/
theorem eventFlagsAreRaisedAndAnswered : Obligations.EventFlagsAreRaisedAndAnswered := by
  refine ⟨fun s f subject qualifier => ⟨fun r set => raiseFlag_set f subject qualifier s r set, fun clear => ?raised⟩,
    fun s l tag m free => ⟨fun low => ⟨?cleared, ?enabled⟩, exec_highMask tag free, ?reported⟩⟩
  case raised =>
    refine ⟨?_, ?_, fun l => (raiseFlag_clear_port f subject qualifier s l clear).trans (notifyEnabled_eq ..)⟩
    all_goals rw [raiseFlag_clear f subject qualifier s clear]
  case cleared =>
    obtain ⟨bound, bits⟩ := clearedMask_bits s.console.flags low
    exact ⟨_, bound, bits, exec_clearEvents tag free low⟩
  case enabled =>
    rw [BitVec.ofNat_toNat]
    exact exec_setNotices tag free low
  case reported => exact exec_eventQuery tag free fun o => by cases o <;> rfl

end
end
